-- ==== Sys2Proof/Word.lean ====
section
/-! DEFINITION. The element and word types of the core: command words, stream elements, the finite
binary64 patterns of the bus, and the exact real numbers that are samples. -/

namespace Sys2Proof

/-- A command word, the value written to `CMD` (30_encoding R90). -/
abbrev CommandWord := BitVec 16

/-- A `CHAR` element: a code point below 2^32 (10_state R40). -/
abbrev CodePoint := BitVec 32

/-- A `BYTE` element (10_state R40). -/
abbrev Byte := BitVec 8

/-- A `SYM` element: a 2-bit two's complement number (10_state R43). -/
abbrev Sym := BitVec 2

/-- The symbol 1 (`0b01`, 10_state R43). -/
abbrev Sym.one : Sym := 1#2

/-- The symbol 0 (`0b00`, 10_state R43). -/
abbrev Sym.zero : Sym := 0#2

/-- The symbol -1 (`0b11`, 10_state R43). -/
abbrev Sym.negOne : Sym := 3#2

/-- A finite IEEE-754 binary64 pattern, by its three fields (10_state R44). The exponent field 2047, that of
the infinities and NaNs, cannot be built: those values are outside the specification (93 U9). -/
structure Finite64 where
  /-- the sign bit -/
  neg : Bool
  /-- the biased exponent field -/
  expo : Fin 2047
  /-- the fraction field -/
  frac : BitVec 52
deriving DecidableEq, Repr, Inhabited

/-- The pattern of 0.0 (10_state R46). -/
def Finite64.zero : Finite64 := ⟨false, 0, 0⟩

/-- One term of an exact sample: the real number `amp * sin (2 * pi * turns + phase)`. -/
structure Tone where
  /-- the rational factor -/
  amp : Rat
  /-- the part of the angle counted in full turns -/
  turns : Rat
  /-- the part of the angle in radians -/
  phase : Rat
deriving DecidableEq, Repr

/-- A `SAMPLE` element: an exact real number, as a finite sum of tones (10_state R44, 45_carrier_modem R231).
Every rational number and every value the modulators of 45_carrier_modem produce is of this form, and sums,
differences and products of such numbers are again of this form, so all arithmetic on samples is exact. -/
structure Sample where
  /-- the terms of the sum -/
  tones : List Tone
deriving DecidableEq, Repr, Inhabited

end Sys2Proof
end

