-- ==== Sys2Proof/Syntax.lean ====
section
/-! DEFINITION. The operations of the opcode table, the register names, the host's events and the assembler lines. -/

namespace Sys2Proof

/-- The 36 operations (30_encoding R95), one constructor per row of spec/opcode_table.json, in its order. None
has an operand: input, output and parameters are implicit (30_encoding R94). -/
inductive Instr where
  | nop | xfer | clr | rst
  | t2b | b2y | y2s | s2y | y2t
  | ecNoneEnc | ecNoneChk | ecParEnc | ecParChk | ecCrcEnc | ecCrcChk | ecHamEnc | ecHamDec
  | frCcF | frCcD | frBsF | frBsD
  | lcNrzEnc | lcNrzDec | lcManEnc | lcManDec | lcBipEnc | lcBipDec
  | cmAskMod | cmAskDem | cmFskMod | cmFskDem | cmQamMod | cmQamDem
  | encmsg | decmsg
  | biterr
deriving DecidableEq, Repr

/-- All operations, in the order of 30_encoding R95. -/
def Instr.all : List Instr :=
  [.nop, .xfer, .clr, .rst,
   .t2b, .b2y, .y2s, .s2y, .y2t,
   .ecNoneEnc, .ecNoneChk, .ecParEnc, .ecParChk, .ecCrcEnc, .ecCrcChk, .ecHamEnc, .ecHamDec,
   .frCcF, .frCcD, .frBsF, .frBsD,
   .lcNrzEnc, .lcNrzDec, .lcManEnc, .lcManDec, .lcBipEnc, .lcBipDec,
   .cmAskMod, .cmAskDem, .cmFskMod, .cmFskDem, .cmQamMod, .cmQamDem,
   .encmsg, .decmsg,
   .biterr]

/-- The registers of the map of 10_state R38. -/
inductive RegName where
  | cmd | status | finfo | scheme | sampleCount
  | amplitude | frequency | phase | ampZero | ampOne | freqZero | freqOne
  | maxFrameSize | dlen | errPermille
  | itype | ilen | idata | otype | olen | oidx | odata
deriving DecidableEq, Repr

/-- What reaches the core from outside: the two transactions of 20_memory R60, and hardware reset
(70_reset R340; log 4). A register is named by its number, a value is a natural number of any width
(10_state R38 cuts it to the register's; log 21). -/
inductive HostEvent where
  /-- `RegWrite(reg, value)` -/
  | write (reg value : Nat)
  /-- `RegRead(reg)` -/
  | read (reg : Nat)
  /-- hardware reset -/
  | hardReset
deriving DecidableEq, Repr

/-- The element types an `LD` line can load (30_encoding R110): `C`, `B`, `Y`, `D`, `A`. -/
inductive ElemType where
  | char | bit | byte | sym | sample
deriving DecidableEq, Repr

/-- The line codes (10_state R24). -/
inductive LineCode where
  | nrzPolar | manchester | bipolar
deriving DecidableEq, Repr

/-- The carrier schemes (10_state R24). -/
inductive CarrierScheme where
  | ask | fsk | qam8
deriving DecidableEq, Repr

/-- The framing methods (10_state R24). -/
inductive FramingMethod where
  | charCount | byteStuffing
deriving DecidableEq, Repr

/-- The error-control methods (10_state R24). -/
inductive ErrorControl where
  | none | parity | crc32 | hamming
deriving DecidableEq, Repr

/-- An assembler line (30_encoding R110) or pseudo-operation (R111). A `Sample` value is given by its 64-bit
pattern. -/
inductive Line where
  /-- `WR <REG>, <value>` -/
  | wr (reg : RegName) (value : Nat)
  /-- `RD <REG>` -/
  | rd (reg : RegName)
  /-- `LD.<T> e0, ..., en` -/
  | ld (type : ElemType) (elems : List Nat)
  /-- `<MNEMONIC>` -/
  | op (i : Instr)
  /-- `CMD <value>` -/
  | cmd (value : Nat)
  /-- `OUT` -/
  | out
  /-- `THEN <MNEMONIC>` -/
  | thenOp (i : Instr)
  /-- `SCHEME <lc>, <cs>, <fm>, <ec>` -/
  | scheme (lc : LineCode) (cs : CarrierScheme) (fm : FramingMethod) (ec : ErrorControl)
  /-- `CONFIG <S>, <amplitude>, <frequency>, <phase>` -/
  | config (samples amplitude frequency phase : Nat)
  /-- `ASKPARAMS <a0>, <a1>` -/
  | askParams (a0 a1 : Nat)
  /-- `FSKPARAMS <f0>, <f1>` -/
  | fskParams (f0 f1 : Nat)
deriving DecidableEq, Repr

end Sys2Proof
end

