-- ==== Sys2Proof/WellFormed.lean ====
section
/-! DEFINITION. Which terms are inside the specification. An operation has no operand, so every one is well formed;
an event or line is well formed unless it loads a non-finite binary64 pattern, which 93 U9 puts outside the
specification. Values too wide, reserved registers and writes to read-only registers are inside it (10_state R38). -/

namespace Sys2Proof

/-- No operation has an immediate or an explicit operand (30_encoding R94), so there is nothing to check. -/
def Instr.wf : Instr → Bool
  | .nop | .xfer | .clr | .rst => true
  | .t2b | .b2y | .y2s | .s2y | .y2t => true
  | .ecNoneEnc | .ecNoneChk | .ecParEnc | .ecParChk => true
  | .ecCrcEnc | .ecCrcChk | .ecHamEnc | .ecHamDec => true
  | .frCcF | .frCcD | .frBsF | .frBsD => true
  | .lcNrzEnc | .lcNrzDec | .lcManEnc | .lcManDec | .lcBipEnc | .lcBipDec => true
  | .cmAskMod | .cmAskDem | .cmFskMod | .cmFskDem | .cmQamMod | .cmQamDem => true
  | .encmsg | .decmsg => true
  | .biterr => true

/-- The low 64 bits of `v` are a finite binary64 pattern: the exponent field is not all ones (10_state R44, 93 U9). -/
def finitePattern (v : Nat) : Bool := v / 2 ^ 52 % 2 ^ 11 != 2047

/-- The registers 0x05 to 0x0B hold a `Sample` (10_state R38). -/
def RegName.holdsSample : RegName → Bool
  | .amplitude | .frequency | .phase | .ampZero | .ampOne | .freqZero | .freqOne => true
  | .cmd | .status | .finfo | .scheme | .sampleCount | .maxFrameSize | .dlen | .errPermille => false
  | .itype | .ilen | .idata | .otype | .olen | .oidx | .odata => false

/-- A host event that writes a `Sample` register writes a finite value (93 U9). -/
def HostEvent.wf : HostEvent → Bool
  | .write reg value => !(5 ≤ reg && reg ≤ 11) || finitePattern value
  | .read _ => true
  | .hardReset => true

/-- A line loads only finite `Sample` values (93 U9). -/
def Line.wf : Line → Bool
  | .wr reg value => !reg.holdsSample || finitePattern value
  | .rd _ => true
  | .ld .sample elems => elems.all finitePattern
  | .ld .char _ | .ld .bit _ | .ld .byte _ | .ld .sym _ => true
  | .op i => i.wf
  | .cmd _ => true
  | .out => true
  | .thenOp i => i.wf
  | .scheme _ _ _ _ => true
  | .config _ amplitude frequency phase => finitePattern amplitude && finitePattern frequency && finitePattern phase
  | .askParams a0 a1 => finitePattern a0 && finitePattern a1
  | .fskParams f0 f1 => finitePattern f0 && finitePattern f1

end Sys2Proof
end

