-- ==== Sys2Proof/Decode.lean ====
section
/-! DEFINITION. Command words: their fields, the decoder of 30_encoding R96, total on all words, and the encoder
written from the tables of R91 to R93; the register numbers of 10_state R38. -/

namespace Sys2Proof

/-- Why a word is no operation (30_encoding R96). -/
inductive DecodeError where
  /-- a nonzero `RSV`, a reserved `UNIT`, a reserved `FUNC`, or a nonzero `SCHEME` in a unit without schemes -/
  | illegalCommand
  /-- a reserved `SCHEME` in units 2 to 5 -/
  | unsupportedScheme
deriving DecidableEq, Repr

/-- `UNIT = w[15:12]` (30_encoding R90). -/
def unitField (w : CommandWord) : Nat := (w.extractLsb' 12 4).toNat

/-- `SCHEME = w[11:8]` (30_encoding R90). -/
def schemeField (w : CommandWord) : Nat := (w.extractLsb' 8 4).toNat

/-- `FUNC = w[7:4]` (30_encoding R90). -/
def funcField (w : CommandWord) : Nat := (w.extractLsb' 4 4).toNat

/-- `RSV = w[3:0]` (30_encoding R90). -/
def rsvField (w : CommandWord) : Nat := (w.extractLsb' 0 4).toNat

/-- How many `FUNC` values a unit has; the higher ones are reserved (30_encoding R93). -/
def funcCount : Nat → Nat
  | 0 => 4
  | 1 => 5
  | 2 => 2
  | 3 => 2
  | 4 => 2
  | 5 => 2
  | 6 => 2
  | 7 => 1
  | _ => 0

/-- How many `SCHEME` values a unit has; the higher ones are reserved, and in a unit without schemes the field
must be 0 (30_encoding R92). -/
def schemeCount : Nat → Nat
  | 2 => 4
  | 3 => 2
  | 4 => 3
  | 5 => 3
  | _ => 1

/-- The units with schemes, 2 to 5 (30_encoding R92). -/
def unitHasSchemes (unit : Nat) : Bool := 2 ≤ unit && unit ≤ 5

/-- The operation of the fields `UNIT`, `SCHEME`, `FUNC` (30_encoding R95). -/
def operationOf : Nat → Nat → Nat → Option Instr
  | 0, 0, 0 => some .nop
  | 0, 0, 1 => some .xfer
  | 0, 0, 2 => some .clr
  | 0, 0, 3 => some .rst
  | 1, 0, 0 => some .t2b
  | 1, 0, 1 => some .b2y
  | 1, 0, 2 => some .y2s
  | 1, 0, 3 => some .s2y
  | 1, 0, 4 => some .y2t
  | 2, 0, 0 => some .ecNoneEnc
  | 2, 0, 1 => some .ecNoneChk
  | 2, 1, 0 => some .ecParEnc
  | 2, 1, 1 => some .ecParChk
  | 2, 2, 0 => some .ecCrcEnc
  | 2, 2, 1 => some .ecCrcChk
  | 2, 3, 0 => some .ecHamEnc
  | 2, 3, 1 => some .ecHamDec
  | 3, 0, 0 => some .frCcF
  | 3, 0, 1 => some .frCcD
  | 3, 1, 0 => some .frBsF
  | 3, 1, 1 => some .frBsD
  | 4, 0, 0 => some .lcNrzEnc
  | 4, 0, 1 => some .lcNrzDec
  | 4, 1, 0 => some .lcManEnc
  | 4, 1, 1 => some .lcManDec
  | 4, 2, 0 => some .lcBipEnc
  | 4, 2, 1 => some .lcBipDec
  | 5, 0, 0 => some .cmAskMod
  | 5, 0, 1 => some .cmAskDem
  | 5, 1, 0 => some .cmFskMod
  | 5, 1, 1 => some .cmFskDem
  | 5, 2, 0 => some .cmQamMod
  | 5, 2, 1 => some .cmQamDem
  | 6, 0, 0 => some .encmsg
  | 6, 0, 1 => some .decmsg
  | 7, 0, 0 => some .biterr
  | _, _, _ => none

/-- Decoding a command word, the checks in the order of 30_encoding R96. -/
def decode (w : CommandWord) : Except DecodeError Instr :=
  if rsvField w ≠ 0 then .error .illegalCommand
  else if 8 ≤ unitField w then .error .illegalCommand
  else if funcCount (unitField w) ≤ funcField w then .error .illegalCommand
  else if unitHasSchemes (unitField w) = false ∧ schemeField w ≠ 0 then .error .illegalCommand
  else if unitHasSchemes (unitField w) = true ∧ schemeCount (unitField w) ≤ schemeField w then
    .error .unsupportedScheme
  else
    match operationOf (unitField w) (schemeField w) (funcField w) with
    | some i => .ok i
    | none => .error .illegalCommand

/-- The word of the fields `UNIT`, `SCHEME`, `FUNC`, with `RSV` 0 (30_encoding R90). -/
def commandWord (unit scheme func : BitVec 4) : CommandWord := unit ++ scheme ++ func ++ 0#4

/-- The word of an operation (30_encoding R91 to R93, R95). -/
def encode : Instr → CommandWord
  | .nop => commandWord 0 0 0
  | .xfer => commandWord 0 0 1
  | .clr => commandWord 0 0 2
  | .rst => commandWord 0 0 3
  | .t2b => commandWord 1 0 0
  | .b2y => commandWord 1 0 1
  | .y2s => commandWord 1 0 2
  | .s2y => commandWord 1 0 3
  | .y2t => commandWord 1 0 4
  | .ecNoneEnc => commandWord 2 0 0
  | .ecNoneChk => commandWord 2 0 1
  | .ecParEnc => commandWord 2 1 0
  | .ecParChk => commandWord 2 1 1
  | .ecCrcEnc => commandWord 2 2 0
  | .ecCrcChk => commandWord 2 2 1
  | .ecHamEnc => commandWord 2 3 0
  | .ecHamDec => commandWord 2 3 1
  | .frCcF => commandWord 3 0 0
  | .frCcD => commandWord 3 0 1
  | .frBsF => commandWord 3 1 0
  | .frBsD => commandWord 3 1 1
  | .lcNrzEnc => commandWord 4 0 0
  | .lcNrzDec => commandWord 4 0 1
  | .lcManEnc => commandWord 4 1 0
  | .lcManDec => commandWord 4 1 1
  | .lcBipEnc => commandWord 4 2 0
  | .lcBipDec => commandWord 4 2 1
  | .cmAskMod => commandWord 5 0 0
  | .cmAskDem => commandWord 5 0 1
  | .cmFskMod => commandWord 5 1 0
  | .cmFskDem => commandWord 5 1 1
  | .cmQamMod => commandWord 5 2 0
  | .cmQamDem => commandWord 5 2 1
  | .encmsg => commandWord 6 0 0
  | .decmsg => commandWord 6 0 1
  | .biterr => commandWord 7 0 0

/-- The word as the opcode table numbers its bits: 16 bits, bit 0 least significant, cut to `nbits` of them.
The core stores no word (20_memory R76), so the word goes to the decoder as it is. -/
def tableWord (nbits w : Nat) : CommandWord := BitVec.ofNat 16 (w % 2 ^ nbits)

/-- The operation the decoder reads from a word of the opcode table. -/
def decodeTableWord (nbits w : Nat) : Option Instr :=
  match decode (tableWord nbits w) with
  | .ok i => some i
  | .error _ => none

/-- The register numbers of 10_state R38. -/
def RegName.number : RegName → Nat
  | .cmd => 0x00
  | .status => 0x01
  | .finfo => 0x02
  | .scheme => 0x03
  | .sampleCount => 0x04
  | .amplitude => 0x05
  | .frequency => 0x06
  | .phase => 0x07
  | .ampZero => 0x08
  | .ampOne => 0x09
  | .freqZero => 0x0A
  | .freqOne => 0x0B
  | .maxFrameSize => 0x0C
  | .dlen => 0x0D
  | .errPermille => 0x0E
  | .itype => 0x10
  | .ilen => 0x11
  | .idata => 0x12
  | .otype => 0x14
  | .olen => 0x15
  | .oidx => 0x16
  | .odata => 0x17

/-- The register of a number; `none` for the reserved numbers 0x0F, 0x13 and 0x18 upward (10_state R38). -/
def RegName.ofNumber? : Nat → Option RegName
  | 0x00 => some .cmd
  | 0x01 => some .status
  | 0x02 => some .finfo
  | 0x03 => some .scheme
  | 0x04 => some .sampleCount
  | 0x05 => some .amplitude
  | 0x06 => some .frequency
  | 0x07 => some .phase
  | 0x08 => some .ampZero
  | 0x09 => some .ampOne
  | 0x0A => some .freqZero
  | 0x0B => some .freqOne
  | 0x0C => some .maxFrameSize
  | 0x0D => some .dlen
  | 0x0E => some .errPermille
  | 0x10 => some .itype
  | 0x11 => some .ilen
  | 0x12 => some .idata
  | 0x14 => some .otype
  | 0x15 => some .olen
  | 0x16 => some .oidx
  | 0x17 => some .odata
  | _ => none

end Sys2Proof
end

