-- ==== Sys2Proof/Config.lean ====
section
/-! DEFINITION. What the spec leaves open and no run of the core can show: the model's free values. None has a
body, so nothing can be proved of its value. (The open parameter `BUF_CAP` is the field `bufCap` of State.) -/

namespace Sys2Proof

/-- Bit `i` of the flip mask of the `n`-th draw of `BITERR` while `0 < ERR_PERMILLE < 1000` (46 R290, R291;
93 U8: any value). Free value, log 12. -/
opaque Config.channelFlip (n i : Nat) : Bool

/-- The binary64 pattern the bus shows for a sample that is no binary64 number (45 R231: the rounding is in no
source; 93 U1). It is finite, as 93 U9 asks. Free value, log 9. -/
opaque Config.busRound (x : Sample) : Finite64

end Sys2Proof
end

