-- ==== Sys2Proof/Machine/State.lean ====
section
/-! DEFINITION. The state of the core as plain data, its value at reset, and the reasons a step can stop. -/

namespace Sys2Proof.Machine

/-- The fault kinds that `STATUS.FAULT` can name (60_exceptions R300). Taking one is a next state (R310). -/
inductive FaultKind where
  | encodingError | framingError | unsupportedScheme | lengthError
  | configError | operandTypeError | capacityError | illegalCommand
deriving DecidableEq, Repr

/-- A fault to be raised: its kind and its information word (60_exceptions R300, R310). -/
structure Cause where
  kind : FaultKind
  /-- the information word before it is cut to 32 bits -/
  info : Nat
deriving DecidableEq, Repr

/-- The four sticky flags of `STATUS` (10_state R21, R22). -/
structure Flags where
  /-- bit 4 -/
  errdet : Bool
  /-- bit 5 -/
  chkmismatch : Bool
  /-- bit 6 -/
  corrected : Bool
  /-- bit 7 -/
  trunc : Bool
deriving DecidableEq, Repr

/-- A stream buffer: its type tag and its stream, of one element type (10_state R40 to R42). -/
inductive Buffer where
  /-- tag 0, `NONE`: nothing usable, the stream is empty -/
  | none
  /-- tag 1, `CHAR` -/
  | char (data : List CodePoint)
  /-- tag 2, `BIT` -/
  | bit (data : List Bool)
  /-- tag 3, `BYTE` -/
  | byte (data : List Byte)
  /-- tag 4, `SYM` -/
  | sym (data : List Sym)
  /-- tag 5, `SAMPLE` -/
  | sample (data : List Sample)
deriving DecidableEq, Repr

/-- What evaluating one stage gives: the flags it sets, and its result or the fault it raises. Flags of a completed
check stay set when the stage faults later (60_exceptions R305, R310). -/
structure Report (α : Type) where
  flags : Flags
  result : Except Cause α

/-- The state. The first block is the core's (10_state R46 lists it whole); the second is the model's own. -/
structure State where
  /-- `STATUS[3:0]` (10_state R21) -/
  fault : Option FaultKind
  /-- `STATUS[7:4]` (10_state R21) -/
  flags : Flags
  /-- `FINFO`, register 0x02 (10_state R23) -/
  finfo : BitVec 32
  /-- `SCHEME`, register 0x03 (10_state R24) -/
  scheme : BitVec 8
  /-- `SAMPLE_COUNT`, register 0x04 (10_state R25) -/
  sampleCount : BitVec 32
  /-- `AMPLITUDE`, register 0x05 (10_state R26) -/
  amplitude : Finite64
  /-- `FREQUENCY`, register 0x06 (10_state R27) -/
  frequency : Finite64
  /-- `PHASE`, register 0x07 (10_state R28) -/
  phase : Finite64
  /-- `AMP_ZERO`, register 0x08 (10_state R29) -/
  ampZero : Finite64
  /-- `AMP_ONE`, register 0x09 (10_state R30) -/
  ampOne : Finite64
  /-- `FREQ_ZERO`, register 0x0A (10_state R31) -/
  freqZero : Finite64
  /-- `FREQ_ONE`, register 0x0B (10_state R32) -/
  freqOne : Finite64
  /-- `MAX_FRAME_SIZE`, register 0x0C (10_state R33) -/
  maxFrameSize : BitVec 8
  /-- `DLEN`, register 0x0D (10_state R34); a natural number, since `BUF_CAP` may be unbounded (20_memory R72; log 6) -/
  dlen : Nat
  /-- `ERR_PERMILLE`, register 0x0E (10_state R35) -/
  errPermille : BitVec 16
  /-- `IBUF` (10_state R41) -/
  ibuf : Buffer
  /-- `OBUF` (10_state R42) -/
  obuf : Buffer
  /-- `OIDX`, register 0x16 (10_state R39) -/
  oidx : BitVec 32
  /-- the open parameter `BUF_CAP`, `none` when unbounded; no step changes it (20_memory R72, 70_reset R341; log 5) -/
  bufCap : Option Nat
  /-- how many `BITERR` masks have been drawn (46 R290; log 12) -/
  draws : Nat
  /-- the host's list of transactions (10_state R20; log 1) -/
  program : List HostEvent
  /-- the host's position in that list (10_state R20; log 1) -/
  pc : Nat
  /-- the values the host's reads returned, first to last (30_encoding R110; log 3) -/
  observed : List Nat
deriving DecidableEq, Repr

/-- The reasons the machine stops for good: none. Every fault of the spec is a next state in which the core waits for
`CLR` or `RST` (60_exceptions R310, R311), every command word is defined (30_encoding R97), every access to a reserved
register is defined (10_state R38) (log 14). Safe: there is no constructor to raise. -/
inductive Fault where
deriving DecidableEq, Repr

/-- The reasons the model gives no next state. -/
inductive Refusal where
  /-- Raised by an arm of `exec` for an operation that has no meaning yet. Safe: nothing is claimed of it. -/
  | notModelled (mnemonic : String)
  /-- Raised by the host interface when the host writes an infinity or a NaN to a `Sample` register or to an IBUF of
  type `SAMPLE`: outside the specification (10_state R44), and 93 U9 tells the model to refuse it (log 10). Safe. -/
  | nonFiniteSample
deriving DecidableEq, Repr

/-- The outcome of one step. -/
abbrev Outcome := Host.Outcome State Fault Refusal

/-- All four flags clear. -/
def Flags.clear : Flags := ⟨false, false, false, false⟩

/-- The machine right after hardware reset (10_state R46, 70_reset R340). The fields from `bufCap` on are the
model's own (log 1, 3, 5, 12). -/
def State.reset : State where
  fault := none
  flags := Flags.clear
  finfo := 0
  scheme := 0
  sampleCount := 0
  amplitude := Finite64.zero
  frequency := Finite64.zero
  phase := Finite64.zero
  ampZero := Finite64.zero
  ampOne := Finite64.zero
  freqZero := Finite64.zero
  freqOne := Finite64.zero
  maxFrameSize := 4
  dlen := 0
  errPermille := 0
  ibuf := .none
  obuf := .none
  oidx := 0
  bufCap := none
  draws := 0
  program := []
  pc := 0
  observed := []

end Sys2Proof.Machine
end

