-- ==== Sys2Proof/Machine/Flags.lean ====
section
/-! DEFINITION. The fault codes, the `STATUS` word, and the flags an operation sets. -/

namespace Sys2Proof.Machine

/-- The code `STATUS.FAULT` takes for a fault (60_exceptions R300). -/
def FaultKind.code : FaultKind → BitVec 4
  | .encodingError => 1
  | .framingError => 2
  | .unsupportedScheme => 3
  | .lengthError => 4
  | .configError => 5
  | .operandTypeError => 6
  | .capacityError => 7
  | .illegalCommand => 8

/-- The fault field: 0 for no fault (10_state R21). -/
def faultCode : Option FaultKind → BitVec 4
  | some k => k.code
  | none => 0

/-- The `STATUS` word: `FAULT`, the four flags, and 0 in bits 31:8 (10_state R21). -/
def State.status (s : State) : BitVec 32 :=
  0#24 ++ BitVec.ofBool s.flags.trunc ++ BitVec.ofBool s.flags.corrected ++ BitVec.ofBool s.flags.chkmismatch ++
    BitVec.ofBool s.flags.errdet ++ faultCode s.fault

/-- Flags are sticky: setting adds and never clears (10_state R22). -/
def Flags.or (f g : Flags) : Flags :=
  ⟨f.errdet || g.errdet, f.chkmismatch || g.chkmismatch, f.corrected || g.corrected, f.trunc || g.trunc⟩

/-- `if bad then flag(CHKMISMATCH); flag(ERRDET)` (42_error_control R158). -/
def Flags.mismatch (bad : Bool) : Flags := ⟨bad, bad, false, false⟩

/-- `if bad then flag(CORRECTED); flag(ERRDET)` (42_error_control R158). -/
def Flags.correction (bad : Bool) : Flags := ⟨bad, false, bad, false⟩

/-- `if cut then flag(TRUNC)` (41_bit_converter R132). -/
def Flags.truncation (cut : Bool) : Flags := ⟨false, false, false, cut⟩

end Sys2Proof.Machine
end

