-- ==== Sys2Proof/Machine/Numerics.lean ====
section
/-! DEFINITION. The numerics of samples (45_carrier_modem R231): the value of a binary64 pattern, exact arithmetic on
samples, the test for zero, and rational bounds. Machine/SampleOrder.lean makes their order from these. -/

namespace Sys2Proof

/-! ### binary64 patterns (10_state R44) -/

/-- The pattern in the low 64 bits of a value, if it is finite (10_state R38, R44; 93 U9). -/
def Finite64.ofNat? (v : Nat) : Option Finite64 :=
  if h : v / 2 ^ 52 % 2 ^ 11 < 2047 then
    some ⟨v.testBit 63, ⟨v / 2 ^ 52 % 2 ^ 11, h⟩, BitVec.ofNat 52 v⟩
  else none

/-- The 64-bit pattern, as the bus moves it. -/
def Finite64.toNat (x : Finite64) : Nat :=
  (if x.neg then 2 ^ 63 else 0) + x.expo.val * 2 ^ 52 + x.frac.toNat

/-- The integer significand: the hidden bit is set unless the exponent field is 0. -/
def Finite64.significand (x : Finite64) : Nat :=
  if x.expo.val = 0 then x.frac.toNat else 2 ^ 52 + x.frac.toNat

/-- The number a finite binary64 pattern stands for: `significand * 2^(max expo 1 - 1075)`, with its sign. -/
def Finite64.toRat (x : Finite64) : Rat :=
  let n : Int := if x.neg then -(x.significand : Int) else x.significand
  let e := max x.expo.val 1
  if 1075 ≤ e then ((n * 2 ^ (e - 1075) : Int) : Rat) else mkRat n (2 ^ (1075 - e))

/-- The fields a positive rational `num / 2^k` would have in binary64; meaningful only where the number is one. -/
def Finite64.candidate (neg : Bool) (num den : Nat) : Finite64 :=
  let k := den.log2
  let l := num.log2
  if l + 1022 < k then
    ⟨neg, 0, BitVec.ofNat 52 (num * 2 ^ (1074 - k))⟩
  else
    ⟨neg, Fin.ofNat 2047 (l + 1023 - k), BitVec.ofNat 52 (if l ≤ 52 then num * 2 ^ (52 - l) else num / 2 ^ (l - 52))⟩

/-- The binary64 pattern whose value is exactly `q`, if there is one; 0 is `+0.0` (log 11). -/
def Finite64.ofRat? (q : Rat) : Option Finite64 :=
  if q = 0 then some Finite64.zero
  else
    let c := Finite64.candidate (q.num < 0) q.num.natAbs q.den
    if c.toRat = q then some c else none

/-! ### exact samples (45_carrier_modem R231) -/

/-- The real number a tone stands for. -/
noncomputable def Tone.toReal (t : Tone) : ℝ := (t.amp : ℝ) * Real.sin (2 * Real.pi * (t.turns : ℝ) + (t.phase : ℝ))

/-- The real number a sample stands for. The machine does not compute with it; Laws/ proves that its arithmetic and
order of samples are those of these numbers. -/
noncomputable def Sample.toReal (x : Sample) : ℝ := (x.tones.map Tone.toReal).sum

/-- A tone whose angle is brought into half a turn, by `sin (a + pi) = - sin a`. -/
def Tone.foldHalf (t : Tone) : Tone :=
  let u := t.turns - t.turns.floor
  if 1 / 2 ≤ u then ⟨-t.amp, u - 1 / 2, t.phase⟩ else ⟨t.amp, u, t.phase⟩

/-- The same tone in its standard form: half a turn at most, and without a phase a quarter turn at most, with
`sin 0 = 0` and `sin (pi / 6) = 1 / 2` taken; a rational number is a tone of a quarter turn. -/
def Tone.fold (t : Tone) : Tone :=
  let h := t.foldHalf
  if h.phase = 0 then
    let u := if 1 / 4 < h.turns then 1 / 2 - h.turns else h.turns
    if u = 0 then ⟨0, 1 / 4, 0⟩
    else if u = 1 / 12 then ⟨h.amp / 2, 1 / 4, 0⟩
    else ⟨h.amp, u, 0⟩
  else h

/-- Add a tone to a sum, joining it to a tone of the same angle; tones of amplitude 0 are left out. -/
def Tone.insert (t : Tone) : List Tone → List Tone
  | [] => if t.amp = 0 then [] else [t]
  | u :: us =>
    if u.turns = t.turns ∧ u.phase = t.phase then
      if u.amp + t.amp = 0 then us else ⟨u.amp + t.amp, u.turns, u.phase⟩ :: us
    else u :: Tone.insert t us

/-- The sum of tones, each in standard form, tones of one angle joined. -/
def Sample.ofTones (l : List Tone) : Sample := ⟨l.foldl (fun acc t => Tone.insert t.fold acc) []⟩

/-- The number 0. -/
def Sample.zero : Sample := ⟨[]⟩

/-- A rational number as a sample. -/
def Sample.ofRat (q : Rat) : Sample := Sample.ofTones [⟨q, 1 / 4, 0⟩]

/-- A finite binary64 value as a sample. -/
def Sample.ofFinite64 (x : Finite64) : Sample := Sample.ofRat x.toRat

/-- `sin (2 * pi * turns + phase)`. -/
def Sample.sine (turns phase : Rat) : Sample := Sample.ofTones [⟨1, turns, phase⟩]

/-- `cos (2 * pi * turns)`: the sine a quarter turn further on. -/
def Sample.cosine (turns : Rat) : Sample := Sample.ofTones [⟨1, turns + 1 / 4, 0⟩]

/-- The sum of two samples. -/
def Sample.add (x y : Sample) : Sample := Sample.ofTones (x.tones ++ y.tones)

/-- A sample times a rational number. -/
def Sample.scale (q : Rat) (x : Sample) : Sample :=
  Sample.ofTones (x.tones.map fun t => ⟨q * t.amp, t.turns, t.phase⟩)

/-- The negative of a sample. -/
def Sample.neg (x : Sample) : Sample := x.scale (-1)

/-- The difference of two samples. -/
def Sample.sub (x y : Sample) : Sample := x.add y.neg

/-- The product of two tones: `sin a * sin b = (cos (a - b) - cos (a + b)) / 2`. -/
def Tone.mul (t u : Tone) : List Tone :=
  [⟨t.amp * u.amp / 2, t.turns - u.turns + 1 / 4, t.phase - u.phase⟩,
   ⟨-(t.amp * u.amp / 2), t.turns + u.turns + 1 / 4, t.phase + u.phase⟩]

/-- The product of two samples, a sum of tones again. -/
def Sample.mul (x y : Sample) : Sample :=
  Sample.ofTones (x.tones.flatMap fun t => y.tones.flatMap fun u => t.mul u)

/-- The sum of a list of samples, first to last. -/
def Sample.sum (l : List Sample) : Sample := l.foldl Sample.add Sample.zero

/-! ### the test for zero (45_carrier_modem R231)

A sum of tones of one phase is, up to that phase, a sum of roots of unity with rational factors. Multiplied by `1 - w` for
a root of unity `w` of every prime order that divides the orders met, such a sum is 0 exactly when all its factors cancel.
Sums of different phases cannot cancel, since exponentials of distinct rational angles are independent. -/

/-- The part of a number of turns that is left when whole turns are taken away. -/
def fracTurns (u : Rat) : Rat := u - u.floor

/-- A tone as the imaginary part of a sum of points on circles: a tone without phase goes half to its angle and half,
negated, to the opposite one, and no phase is negative. -/
def Tone.onCircle (t : Tone) : List Tone :=
  if t.phase = 0 then [⟨t.amp / 2, fracTurns t.turns, 0⟩, ⟨-(t.amp / 2), fracTurns (-t.turns), 0⟩]
  else if t.phase < 0 then [⟨-t.amp, fracTurns (-t.turns), -t.phase⟩]
  else [⟨t.amp, fracTurns t.turns, t.phase⟩]

/-- A sum of points times `1 - w`, with `w` the first root of unity of order `p`. -/
def spread (p : Nat) (l : List Tone) : List Tone :=
  l ++ l.map fun t => ⟨-t.amp, fracTurns (t.turns + 1 / p), t.phase⟩

/-- The factor of one point in a sum. -/
def pointFactor (l : List Tone) (turns phase : Rat) : Rat :=
  ((l.filter fun t => decide (t.turns = turns ∧ t.phase = phase)).map Tone.amp).sum

/-- A common denominator of the angles of a sum. -/
def commonDenominator (l : List Tone) : Nat := l.foldr (fun t n => Nat.lcm t.turns.den n) 1

/-- The primes that divide a number, by trial division: `p` is tried next, and `m` is what is left of the number when the
primes found are taken out. -/
def primesFrom : Nat → Nat → Nat → List Nat → List Nat
  | 0, _, _, found => found
  | n + 1, p, m, found =>
    if m < p * p then (if m ≤ 1 then found else m :: found)
    else if m % p = 0 then primesFrom n (p + 1) (m / Nat.gcd m (p ^ (m.log2 + 1))) (p :: found)
    else primesFrom n (p + 1) m found

/-- The primes that divide a number. -/
def primesOf (n : Nat) : List Nat := primesFrom n 2 n []

/-- The sample is 0. -/
def Sample.isZero (x : Sample) : Bool :=
  let l := x.tones.flatMap Tone.onCircle
  let m := (primesOf (commonDenominator l)).foldr spread l
  m.all fun t => decide (pointFactor m t.turns t.phase = 0)

/-! ### rational bounds (45_carrier_modem R231) -/

/-- The greatest multiple of `1 / scale` not above a number. -/
def roundDown (scale : Nat) (q : Rat) : Rat := (q * scale).floor / scale

/-- One precision of the bounds: an approximation of pi and its error, how many terms of the sine series are taken and what
the other terms can add, and the scale that the angle and the terms are rounded to. -/
structure Precision where
  pi : Rat
  piError : Rat
  terms : Nat
  tail : Rat
  scale : Nat

/-- The first precision tried, good to about six decimal places. -/
def Precision.coarse : Precision := ⟨355 / 113, 1 / 1000000, 11, 1 / 10000000, 10 ^ 10⟩

/-- The second precision tried, good to about twenty decimal places. -/
def Precision.fine : Precision := ⟨314159265358979323846 / 10 ^ 20, 1 / 10 ^ 20, 22, 1 / 10 ^ 26, 10 ^ 24⟩

/-- The arctangent series of `1 / m`, with `n` terms, each rounded. -/
def arctanInverse (scale m : Nat) : Nat → Rat
  | 0 => 0
  | n + 1 => arctanInverse scale m n + roundDown scale ((-1) ^ n / (m ^ (2 * n + 1) * (2 * n + 1) : Nat))

/-- A precision of about `n + 3` decimal places, with pi from `16 * arctan (1/5) - 4 * arctan (1/239)`. -/
def Precision.level (n : Nat) : Precision where
  pi := 16 * arctanInverse (10 ^ (n + 3)) 5 (n + 3) - 4 * arctanInverse (10 ^ (n + 3)) 239 (n + 3)
  piError := (20 * (n + 3) + 5) / 10 ^ (n + 3)
  terms := n / 2 + 10
  tail := 2 * 4 ^ (2 * (n / 2 + 10)) / (2 * (n / 2 + 10)).factorial
  scale := 10 ^ (n + 3)

/-- The sine series to `n` more terms, of which the first has the factor `1 / ((k + 1) * (k + 2))` before it, with
`sq` the square of the angle: `1 - sq/((k+1)(k+2)) * (1 - sq/((k+3)(k+4)) * ( ... ))`, each product rounded. -/
def sineSeries (scale : Nat) (sq : Rat) : Nat → Nat → Rat
  | 0, _ => 0
  | n + 1, k => 1 - roundDown scale (sq / ((k + 1) * (k + 2) : Nat) * sineSeries scale sq n (k + 2))

/-- The whole number of turns nearest to a tone's angle, by an approximation of pi. -/
def Tone.nearestTurn (p : Precision) (t : Tone) : Int := (t.turns + t.phase / (2 * p.pi) + 1 / 2).floor

/-- A rational number near the tone's value. -/
def Tone.approx (p : Precision) (t : Tone) : Rat :=
  let a := roundDown p.scale (2 * p.pi * (t.turns - t.nearestTurn p) + t.phase)
  t.amp * (a * sineSeries p.scale (a * a) p.terms 1)

/-- How far the tone's value can be from `Tone.approx`. -/
def Tone.error (p : Precision) (t : Tone) : Rat :=
  |t.amp| * (2 * p.piError * |t.turns - t.nearestTurn p| + 61 / p.scale + p.tail)

/-- A rational number near the sample's value. -/
def Sample.approx (p : Precision) (x : Sample) : Rat := (x.tones.map (Tone.approx p)).sum

/-- How far the sample's value can be from `Sample.approx`. -/
def Sample.error (p : Precision) (x : Sample) : Rat := (x.tones.map (Tone.error p)).sum

/-- The sign of a sample, where one precision settles it. -/
def Sample.signAt? (p : Precision) (x : Sample) : Option Ordering :=
  let a := x.approx p
  let e := x.error p
  if e < a then some .gt else if a < -e then some .lt else none

/-- A real number has the sign that an order against 0 names. -/
def IsSign : Ordering → ℝ → Prop
  | .lt, r => r < 0
  | .eq, r => r = 0
  | .gt, r => 0 < r

end Sys2Proof
end

