-- ==== Sys2Proof/Laws/Numerics.lean ====
section
/-! SUPPORT. The arithmetic of samples is that of the real numbers they stand for (45_carrier_modem R231). -/

namespace Sys2Proof

open Real in
theorem Tone.foldHalf_toReal (t : Tone) : t.foldHalf.toReal = t.toReal := by
  have h : ∀ n : ℤ, Real.sin (2 * π * ((t.turns : ℝ) - n) + t.phase) = Real.sin (2 * π * (t.turns : ℝ) + t.phase) := by
    intro n
    rw [show 2 * π * ((t.turns : ℝ) - n) + (t.phase : ℝ) = 2 * π * (t.turns : ℝ) + t.phase - n * (2 * π) by ring]
    exact Real.sin_sub_int_mul_two_pi _ _
  unfold Tone.foldHalf Tone.toReal
  dsimp only
  split
  · push_cast
    rw [show 2 * π * ((t.turns : ℝ) - t.turns.floor - 1 / 2) + (t.phase : ℝ)
        = 2 * π * ((t.turns : ℝ) - t.turns.floor) + t.phase - π by ring, Real.sin_sub_pi, h]
    ring
  · push_cast
    rw [h]

open Real in
theorem Tone.fold_toReal (t : Tone) : t.fold.toReal = t.toReal := by
  rw [← t.foldHalf_toReal]
  unfold Tone.fold
  dsimp only
  generalize t.foldHalf = h
  have quarter : Real.sin (2 * π * ((1 / 4 : ℚ) : ℝ) + ((0 : ℚ) : ℝ)) = 1 := by
    push_cast
    rw [show 2 * π * (1 / 4) + 0 = π / 2 by ring, Real.sin_pi_div_two]
  have key : ∀ u : ℚ, h.phase = 0 →
      Real.sin (2 * π * (u : ℝ)) = Real.sin (2 * π * (h.turns : ℝ)) →
      Tone.toReal (if u = 0 then ⟨0, 1 / 4, 0⟩ else if u = 1 / 12 then ⟨h.amp / 2, 1 / 4, 0⟩ else ⟨h.amp, u, 0⟩)
        = h.toReal := by
    intro u hp hu
    unfold Tone.toReal
    rw [hp]
    split
    · rename_i h0
      subst h0
      simp at hu
      simp [← hu]
    · split
      · rename_i h12
        subst h12
        rw [quarter]
        push_cast at hu ⊢
        rw [show 2 * π * (1 / 12) = π / 6 by ring, Real.sin_pi_div_six] at hu
        rw [add_zero, ← hu]
        ring
      · simp only [Rat.cast_zero, add_zero]
        rw [hu]
  split
  · rename_i hp
    split
    · refine key _ hp ?_
      push_cast
      rw [show 2 * π * (1 / 2 - (h.turns : ℝ)) = π - 2 * π * h.turns by ring, Real.sin_pi_sub]
    · exact key _ hp rfl
  · rfl

theorem Tone.toReal_of_amp_zero (t : Tone) (h : t.amp = 0) : t.toReal = 0 := by simp [Tone.toReal, h]

/-- Joining a tone to a sum adds its value. -/
theorem Tone.insert_toReal (t : Tone) (l : List Tone) :
    ((Tone.insert t l).map Tone.toReal).sum = t.toReal + (l.map Tone.toReal).sum := by
  induction l with
  | nil =>
    unfold Tone.insert
    split
    · simp [Tone.toReal_of_amp_zero, *]
    · simp
  | cons u us ih =>
    unfold Tone.insert
    split
    · rename_i h
      have hv : u.toReal + t.toReal = Tone.toReal ⟨u.amp + t.amp, u.turns, u.phase⟩ := by
        simp only [Tone.toReal, h.1, h.2]
        push_cast
        ring
      split
      · rename_i h0
        have : u.toReal + t.toReal = 0 := by rw [hv]; exact Tone.toReal_of_amp_zero _ h0
        simp only [List.map_cons, List.sum_cons]
        linarith
      · simp only [List.map_cons, List.sum_cons, ← hv]
        ring
    · simp only [List.map_cons, List.sum_cons, ih]
      ring

/-- Bringing a sum of tones into standard form keeps its value. -/
@[simp] theorem Sample.ofTones_toReal (l : List Tone) : (Sample.ofTones l).toReal = (l.map Tone.toReal).sum := by
  have h : ∀ (l acc : List Tone),
      ((l.foldl (fun acc t => Tone.insert t.fold acc) acc).map Tone.toReal).sum
        = (acc.map Tone.toReal).sum + (l.map Tone.toReal).sum := by
    intro l
    induction l with
    | nil => simp
    | cons t ts ih =>
      intro acc
      simp only [List.foldl_cons, ih, Tone.insert_toReal, Tone.fold_toReal, List.map_cons, List.sum_cons]
      ring
  simp [Sample.ofTones, Sample.toReal, h]

@[simp] theorem Sample.zero_toReal : Sample.zero.toReal = 0 := by simp [Sample.zero, Sample.toReal]

open Real in
@[simp] theorem Sample.ofRat_toReal (q : Rat) : (Sample.ofRat q).toReal = q := by
  simp only [Sample.ofRat, Sample.ofTones_toReal, List.map_cons, List.map_nil, List.sum_cons, List.sum_nil, Tone.toReal]
  push_cast
  rw [show 2 * π * (1 / 4) + 0 = π / 2 by ring, Real.sin_pi_div_two]
  ring

@[simp] theorem Sample.ofFinite64_toReal (x : Finite64) : (Sample.ofFinite64 x).toReal = x.toRat := by
  simp [Sample.ofFinite64]

open Real in
@[simp] theorem Sample.sine_toReal (turns phase : Rat) :
    (Sample.sine turns phase).toReal = Real.sin (2 * π * turns + phase) := by
  simp [Sample.sine, Tone.toReal]

open Real in
@[simp] theorem Sample.cosine_toReal (turns : Rat) : (Sample.cosine turns).toReal = Real.cos (2 * π * turns) := by
  simp only [Sample.cosine, Sample.ofTones_toReal, List.map_cons, List.map_nil, List.sum_cons, List.sum_nil, Tone.toReal]
  push_cast
  rw [show 2 * π * ((turns : ℝ) + 1 / 4) + 0 = 2 * π * turns + π / 2 by ring, Real.sin_add_pi_div_two]
  ring

@[simp] theorem Sample.add_toReal (x y : Sample) : (x.add y).toReal = x.toReal + y.toReal := by
  rw [Sample.add, Sample.ofTones_toReal]
  simp [Sample.toReal]

@[simp] theorem Sample.scale_toReal (q : Rat) (x : Sample) : (x.scale q).toReal = q * x.toReal := by
  have h : ∀ l : List Tone, ((l.map fun t : Tone => (⟨q * t.amp, t.turns, t.phase⟩ : Tone)).map Tone.toReal).sum
      = q * (l.map Tone.toReal).sum := by
    intro l
    induction l with
    | nil => simp
    | cons t ts ih =>
      simp only [List.map_cons, List.sum_cons, ih, Tone.toReal]
      push_cast
      ring
  rw [Sample.scale, Sample.ofTones_toReal, h, Sample.toReal]

@[simp] theorem Sample.neg_toReal (x : Sample) : x.neg.toReal = -x.toReal := by
  simp [Sample.neg]

@[simp] theorem Sample.sub_toReal (x y : Sample) : (x.sub y).toReal = x.toReal - y.toReal := by
  simp [Sample.sub, sub_eq_add_neg]

open Real in
theorem Tone.mul_toReal (t u : Tone) : ((t.mul u).map Tone.toReal).sum = t.toReal * u.toReal := by
  have e1 : ∀ a b c d : ℝ, Real.sin (2 * π * (a - b + 1 / 4) + (c - d))
      = Real.cos ((2 * π * a + c) - (2 * π * b + d)) := by
    intro a b c d
    rw [← Real.sin_add_pi_div_two]
    congr 1
    ring
  have e2 : ∀ a b c d : ℝ, Real.sin (2 * π * (a + b + 1 / 4) + (c + d))
      = Real.cos ((2 * π * a + c) + (2 * π * b + d)) := by
    intro a b c d
    rw [← Real.sin_add_pi_div_two]
    congr 1
    ring
  simp only [Tone.mul, List.map_cons, List.map_nil, List.sum_cons, List.sum_nil, Tone.toReal]
  push_cast
  rw [e1, e2]
  generalize 2 * π * (t.turns : ℝ) + (t.phase : ℝ) = a
  generalize 2 * π * (u.turns : ℝ) + (u.phase : ℝ) = b
  rw [Real.cos_sub, Real.cos_add]
  ring

@[simp] theorem Sample.mul_toReal (x y : Sample) : (x.mul y).toReal = x.toReal * y.toReal := by
  have inner : ∀ (t : Tone) (l : List Tone),
      ((l.flatMap fun u => t.mul u).map Tone.toReal).sum = t.toReal * (l.map Tone.toReal).sum := by
    intro t l
    induction l with
    | nil => simp
    | cons u us ih =>
      simp only [List.flatMap_cons, List.map_append, List.sum_append, ih, Tone.mul_toReal, List.map_cons, List.sum_cons]
      ring
  have outer : ∀ l : List Tone,
      ((l.flatMap fun t => y.tones.flatMap fun u => t.mul u).map Tone.toReal).sum
        = (l.map Tone.toReal).sum * (y.tones.map Tone.toReal).sum := by
    intro l
    induction l with
    | nil => simp
    | cons t ts ih =>
      simp only [List.flatMap_cons, List.map_append, List.sum_append, ih, inner, List.map_cons, List.sum_cons]
      ring
  rw [Sample.mul, Sample.ofTones_toReal, outer, Sample.toReal, Sample.toReal]

@[simp] theorem Sample.sum_toReal (l : List Sample) : (Sample.sum l).toReal = (l.map Sample.toReal).sum := by
  have h : ∀ (l : List Sample) (a : Sample), (l.foldl Sample.add a).toReal = a.toReal + (l.map Sample.toReal).sum := by
    intro l
    induction l with
    | nil => simp
    | cons x xs ih =>
      intro a
      simp only [List.foldl_cons, ih, Sample.add_toReal, List.map_cons, List.sum_cons]
      ring
  simp [Sample.sum, h]

end Sys2Proof
end

