-- ==== Sys2Proof/Laws/Transcendence.lean ====
section
/-! SUPPORT. The transcendence of `exp I`, and with it the independence of exponentials of distinct rational angles over the
algebraic numbers, on which the test for zero of samples rests. -/

namespace Sys2Proof.Laws
open Polynomial Complex

/-- An integer polynomial at a purely imaginary integer and at its conjugate sums to an integer. -/
theorem aeval_add_aeval_neg_int (g : ℤ[X]) (k : ℕ) :
    ∃ m : ℤ, aeval ((k : ℂ) * I) g + aeval (-((k : ℂ) * I)) g = m := by
  induction g using Polynomial.induction_on' with
  | add p q hp hq =>
    obtain ⟨a, ha⟩ := hp
    obtain ⟨b, hb⟩ := hq
    refine ⟨a + b, ?_⟩
    rw [map_add, map_add]
    push_cast
    rw [← ha, ← hb]
    ring
  | monomial n a =>
    rw [aeval_monomial, aeval_monomial]
    rcases Nat.even_or_odd' n with ⟨j, rfl | rfl⟩
    · refine ⟨2 * a * (-1) ^ j * (k : ℤ) ^ (2 * j), ?_⟩
      rw [(even_two_mul j).neg_pow, mul_pow, pow_mul I, I_sq]
      push_cast [eq_intCast]
      ring
    · refine ⟨0, ?_⟩
      rw [(odd_two_mul_add_one j).neg_pow]
      push_cast
      ring

/-- A nonzero integer constant term keeps `exp I` from being a root. -/
theorem aeval_exp_I_ne_zero (q : ℤ[X]) (h0 : q.coeff 0 ≠ 0) : aeval (exp I) q ≠ 0 := by
  intro hq
  set n := q.natDegree
  have hexp : ∀ k : ℕ, exp I ^ k = exp (k * I) := fun k => (exp_nat_mul I k).symm
  have h1 : ∑ k ∈ Finset.range (n + 1), (q.coeff k : ℂ) * exp (k * I) = 0 := by
    rw [aeval_eq_sum_range] at hq
    rw [← hq]
    refine Finset.sum_congr rfl fun k _ => ?_
    rw [hexp, zsmul_eq_mul]
  have h2 : ∑ k ∈ Finset.range (n + 1), (q.coeff k : ℂ) * exp (-(k * I)) = 0 := by
    have := congrArg (starRingEnd ℂ) h1
    rw [map_zero, map_sum] at this
    rw [← this]
    refine Finset.sum_congr rfl fun k _ => ?_
    rw [map_mul, ← exp_conj]
    simp
  -- the polynomial whose roots are the imaginary integers met
  set f : ℤ[X] := ∏ k ∈ Finset.range n, (X ^ 2 + C (((k : ℤ) + 1) ^ 2)) with hf
  have hf0 : f.eval 0 ≠ 0 := by
    rw [hf, eval_prod]
    refine Finset.prod_ne_zero_iff.mpr fun k _ => ?_
    simp only [eval_add, eval_pow, eval_X, eval_C]
    positivity
  have hf' : f ≠ 0 := by rintro h; simp [h] at hf0
  have hroot : ∀ k < n, ∀ r : ℂ, r ^ 2 = -((k : ℂ) + 1) ^ 2 → r ∈ f.aroots ℂ := by
    intro k hk r hr
    rw [mem_aroots]
    refine ⟨hf', ?_⟩
    rw [hf, map_prod]
    refine Finset.prod_eq_zero (Finset.mem_range.mpr hk) ?_
    rw [map_add, map_pow, aeval_X, aeval_C, hr]
    push_cast [eq_intCast]
    ring
  obtain ⟨c, hc⟩ := LindemannWeierstrass.exp_polynomial_approx f hf0
  -- a prime so large that all errors together are below one
  set A : ℝ := ∑ k ∈ Finset.range n, |(q.coeff (k + 1) : ℝ)| * 2 with hA
  have hA0 : 0 ≤ A := Finset.sum_nonneg fun k _ => by positivity
  have hlim : Filter.Tendsto (fun p : ℕ => A * (c * (c ^ p / (p.factorial : ℝ)))) Filter.atTop (nhds 0) := by
    have := ((FloorSemiring.tendsto_pow_div_factorial_atTop c).const_mul c).const_mul A
    simpa using this
  obtain ⟨P, hP⟩ := Filter.eventually_atTop.mp (hlim.eventually (gt_mem_nhds one_pos))
  obtain ⟨p, hpge, hp⟩ := Nat.exists_infinite_primes (max (P + 1) (max ((eval 0 f).natAbs + 1) ((2 * q.coeff 0).natAbs + 1)))
  have hpP : P ≤ p - 1 := by have := le_trans (le_max_left _ _) hpge; omega
  have hpf : p > (eval 0 f).natAbs := by
    have := le_trans (le_trans (le_max_left _ _) (le_max_right _ _)) hpge; omega
  have hpc : p > (2 * q.coeff 0).natAbs := by
    have := le_trans (le_trans (le_max_right _ _) (le_max_right _ _)) hpge; omega
  obtain ⟨N, hN, gp, -, hgp⟩ := hc p hpf hp
  have hsmall : A * (c ^ p / ((p - 1).factorial : ℝ)) < 1 := by
    have := hP (p - 1) hpP
    rwa [mul_div_assoc', ← pow_succ', Nat.sub_add_cancel hp.one_le] at this
  choose M hM using aeval_add_aeval_neg_int gp
  -- the integer that is small and hence zero
  set T : ℤ := 2 * N * q.coeff 0 + p * ∑ k ∈ Finset.range n, q.coeff (k + 1) * M (k + 1) with hT
  have hTC : (T : ℂ) = -∑ k ∈ Finset.range n, (q.coeff (k + 1) : ℂ) *
      ((N • exp (((k + 1 : ℕ) : ℂ) * I) - p • aeval (((k + 1 : ℕ) : ℂ) * I) gp) +
        (N • exp (-(((k + 1 : ℕ) : ℂ) * I)) - p • aeval (-(((k + 1 : ℕ) : ℂ) * I)) gp)) := by
    rw [Finset.sum_range_succ'] at h1 h2
    simp only [Nat.cast_zero, zero_mul, neg_zero, exp_zero, mul_one] at h1 h2
    have e1 : ∑ k ∈ Finset.range n, (q.coeff (k + 1) : ℂ) * exp (((k + 1 : ℕ) : ℂ) * I) = -(q.coeff 0 : ℂ) :=
      eq_neg_of_add_eq_zero_left h1
    have e2 : ∑ k ∈ Finset.range n, (q.coeff (k + 1) : ℂ) * exp (-(((k + 1 : ℕ) : ℂ) * I)) = -(q.coeff 0 : ℂ) :=
      eq_neg_of_add_eq_zero_left h2
    have e3 : ∀ k ∈ Finset.range n, (q.coeff (k + 1) : ℂ) *
        ((N • exp (((k + 1 : ℕ) : ℂ) * I) - p • aeval (((k + 1 : ℕ) : ℂ) * I) gp) +
          (N • exp (-(((k + 1 : ℕ) : ℂ) * I)) - p • aeval (-(((k + 1 : ℕ) : ℂ) * I)) gp))
        = N * ((q.coeff (k + 1) : ℂ) * exp (((k + 1 : ℕ) : ℂ) * I)) +
          N * ((q.coeff (k + 1) : ℂ) * exp (-(((k + 1 : ℕ) : ℂ) * I))) - p * ((q.coeff (k + 1) : ℂ) * (M (k + 1) : ℂ)) := by
      intro k _
      rw [← hM, zsmul_eq_mul, zsmul_eq_mul, nsmul_eq_mul, nsmul_eq_mul]
      ring
    rw [Finset.sum_congr rfl e3, Finset.sum_sub_distrib, Finset.sum_add_distrib, ← Finset.mul_sum, ← Finset.mul_sum,
      ← Finset.mul_sum, e1, e2, hT]
    push_cast
    ring
  have hTnorm : |(T : ℝ)| < 1 := by
    have : ‖(T : ℂ)‖ ≤ A * (c ^ p / ((p - 1).factorial : ℝ)) := by
      rw [hTC, norm_neg, hA, Finset.sum_mul]
      refine norm_sum_le_of_le _ fun k hk => ?_
      have hk := Finset.mem_range.mp hk
      have r1 := hgp (hroot k hk (((k + 1 : ℕ) : ℂ) * I) (by rw [mul_pow, I_sq]; push_cast; ring))
      have r2 := hgp (hroot k hk (-(((k + 1 : ℕ) : ℂ) * I)) (by rw [neg_sq, mul_pow, I_sq]; push_cast; ring))
      rw [norm_mul, norm_intCast, mul_assoc]
      refine mul_le_mul_of_nonneg_left (le_trans (norm_add_le _ _) ?_) (abs_nonneg _)
      linarith
    rw [norm_intCast] at this
    linarith
  have hT0 : T = 0 := Int.abs_lt_one_iff.mp (by exact_mod_cast hTnorm)
  have hdvd : (p : ℤ) ∣ N * (2 * q.coeff 0) := by
    rw [hT] at hT0
    exact ⟨-∑ k ∈ Finset.range n, q.coeff (k + 1) * M (k + 1), by linarith⟩
  rcases (Nat.prime_iff_prime_int.mp hp).dvd_or_dvd hdvd with h | h
  · exact hN h
  · have : (2 * q.coeff 0).natAbs = 0 := Nat.eq_zero_of_dvd_of_lt (Int.natCast_dvd.mp h) hpc
    exact h0 (by omega)

theorem transcendental_exp_I : Transcendental ℤ (exp I) := by
  rintro ⟨q, hq, hr⟩
  obtain ⟨r, hr', hd⟩ := exists_eq_pow_rootMultiplicity_mul_and_not_dvd q hq 0
  rw [hr', map_mul, map_pow, map_sub, aeval_X, aeval_C, map_zero, sub_zero, mul_eq_zero] at hr
  rw [C_0, sub_zero, X_dvd_iff] at hd
  exact hr.elim (pow_ne_zero _ (exp_ne_zero _)) (aeval_exp_I_ne_zero r hd)

/-- Exponentials of distinct rational angles are independent over the algebraic numbers. -/
theorem coeff_eq_zero_of_sum_exp (F : Finset ℚ) (c : ℚ → ℂ) (hc : ∀ a ∈ F, IsAlgebraic ℚ (c a))
    (h : ∑ a ∈ F, c a * exp ((a : ℂ) * I) = 0) : ∀ a ∈ F, c a = 0 := by
  -- one denominator for all angles, and a shift that makes them natural
  obtain ⟨D, hD, m, hm⟩ : ∃ D : ℕ, 0 < D ∧ ∃ m : ℚ → ℤ, ∀ a ∈ F, (m a : ℚ) = D * a := by
    refine ⟨∏ a ∈ F, a.den, Finset.prod_pos fun a _ => a.den_pos, fun a => ((∏ b ∈ F, b.den : ℕ) * a).num, fun a ha => ?_⟩
    obtain ⟨e, he⟩ := Finset.dvd_prod_of_mem (fun b : ℚ => b.den) ha
    rw [he]
    have : ((a.den * e : ℕ) : ℚ) * a = ((e * a.num : ℤ) : ℚ) := by
      push_cast
      rw [mul_assoc, mul_comm (e : ℚ), ← mul_assoc, mul_comm (a.den : ℚ), Rat.mul_den_eq_num, mul_comm]
    change ((((a.den * e : ℕ) : ℚ) * a).num : ℚ) = _
    rw [this, Rat.num_intCast]
  obtain ⟨s, hs⟩ : ∃ s : ℕ, ∀ a ∈ F, 0 ≤ m a + s := by
    refine ⟨∑ a ∈ F, (m a).natAbs, fun a ha => ?_⟩
    have := Finset.single_le_sum (f := fun a => (m a).natAbs) (fun _ _ => Nat.zero_le _) ha
    have h2 : (m a).natAbs ≤ ∑ a ∈ F, (m a).natAbs := this
    omega
  set y : ℂ := exp (I / D) with hy
  have hD0 : (D : ℂ) ≠ 0 := by exact_mod_cast hD.ne'
  have hyD : y ^ D = exp I := by rw [hy, ← exp_nat_mul]; congr 1; field_simp
  have hyt : Transcendental (algebraicClosure ℚ ℂ) y := by
    intro hK
    have h1 : IsAlgebraic ℚ y := by
      have : Algebra.IsAlgebraic ℚ (algebraicClosure ℚ ℂ) := algebraicClosure.isAlgebraic ℚ ℂ
      exact hK.restrictScalars ℚ
    have h2 : IsAlgebraic ℚ (exp I) := hyD ▸ h1.pow D
    exact transcendental_exp_I ((IsFractionRing.isAlgebraic_iff ℤ ℚ ℂ).mpr h2)
  have hinj : ∀ a ∈ F, ∀ b ∈ F, (m a + s).toNat = (m b + s).toNat → a = b := by
    intro a ha b hb hab
    have h1 := hs a ha
    have h2 := hs b hb
    have : m a = m b := by omega
    have h3 : (D : ℚ) * a = D * b := by rw [← hm a ha, ← hm b hb, this]
    exact mul_left_cancel₀ (by exact_mod_cast hD.ne') h3
  let Q : (algebraicClosure ℚ ℂ)[X] := ∑ a ∈ F.attach, monomial (m a + s).toNat (⟨c a, mem_algebraicClosure_iff.mpr (hc a a.2)⟩ : algebraicClosure ℚ ℂ)
  have hQ : aeval y Q = 0 := by
    have hterm : ∀ a ∈ F, c a * y ^ (m a + s).toNat = y ^ s * (c a * exp ((a : ℂ) * I)) := by
      intro a ha
      have e : (((m a + s).toNat : ℕ) : ℂ) = (D : ℂ) * (a : ℂ) + s := by
        have h1 : (((m a + s).toNat : ℕ) : ℚ) = D * a + s := by
          rw [← hm a ha]
          have := Int.toNat_of_nonneg (hs a ha)
          exact_mod_cast this
        exact_mod_cast congrArg (fun q : ℚ => (q : ℂ)) h1
      rw [hy, ← exp_nat_mul, ← exp_nat_mul, e, mul_left_comm, ← exp_add]
      congr 2
      field_simp
      ring
    simp only [Q, map_sum, aeval_monomial]
    rw [← mul_zero (y ^ s), ← h, Finset.mul_sum, ← Finset.sum_attach F fun a => y ^ s * (c a * exp ((a : ℂ) * I))]
    exact Finset.sum_congr rfl fun a _ => hterm a a.2
  have hQ0 : Q = 0 := by
    by_contra hne
    exact hyt ⟨Q, hne, hQ⟩
  intro a ha
  have hcoef : Q.coeff (m a + s).toNat = (⟨c a, mem_algebraicClosure_iff.mpr (hc a ha)⟩ : algebraicClosure ℚ ℂ) := by
    simp only [Q, finsetSum_coeff, coeff_monomial]
    rw [Finset.sum_eq_single ⟨a, ha⟩]
    · simp
    · intro b _ hb
      rw [if_neg]
      exact fun he => hb (Subtype.ext (hinj b b.2 a ha he))
    · simp
  rw [hQ0, coeff_zero] at hcoef
  exact (congrArg Subtype.val hcoef).symm
end Sys2Proof.Laws
end

