-- ==== Sys2Proof/Laws/ZeroTest.lean ====
section
/-! SUPPORT. The test for zero of samples is right (`Sample.isZero_iff`): a vanishing sum of roots of unity is found by its
factors, and tones of different phases do not cancel. -/

namespace Sys2Proof.Laws
open Complex

theorem primesFrom_spec (n p m : ℕ) (found : List ℕ) (hp : 2 ≤ p) (hm : 0 < m) (hn : m < n + p)
    (hmin : ∀ q, q.Prime → q ∣ m → p ≤ q) :
    (∀ q, q.Prime → q ∣ m → q ∈ primesFrom n p m found) ∧
    (∀ q ∈ found, q ∈ primesFrom n p m found) ∧
    ∀ q ∈ primesFrom n p m found, q ∈ found ∨ (2 ≤ q ∧ q ∣ m) := by
  induction n generalizing p m found with
  | zero =>
    refine ⟨fun q hq hd => ?_, fun q h => h, fun q h => .inl h⟩
    have := hmin q hq hd
    have := Nat.le_of_dvd hm hd
    omega
  | succ n ih =>
    rw [primesFrom]
    split
    · rename_i hlt
      split
      · rename_i h1
        refine ⟨fun q hq hd => ?_, fun q h => h, fun q h => .inl h⟩
        have := hq.two_le
        have := Nat.le_of_dvd hm hd
        omega
      · rename_i h1
        have hprime : m.Prime := by
          by_contra hnp
          have h2 := hmin _ (Nat.minFac_prime (by omega)) (Nat.minFac_dvd m)
          have h3 := Nat.minFac_sq_le_self hm hnp
          nlinarith
        refine ⟨fun q hq hd => ?_, fun q h => List.mem_cons_of_mem _ h, fun q h => ?_⟩
        · rw [(Nat.prime_dvd_prime_iff_eq hq hprime).mp hd]
          exact List.mem_cons_self
        · rcases List.mem_cons.mp h with rfl | h
          · exact .inr ⟨hprime.two_le, dvd_rfl⟩
          · exact .inl h
    · rename_i hge
      have hstep : ∀ q, q.Prime → q ∣ m → q ≠ p → p + 1 ≤ q := fun q hq hd hne => by
        have := hmin q hq hd
        omega
      split
      · rename_i hdvd
        have hpm : p ∣ m := Nat.dvd_of_mod_eq_zero hdvd
        set g := Nat.gcd m (p ^ (m.log2 + 1)) with hg
        have hgm : g ∣ m := Nat.gcd_dvd_left _ _
        have hle : m / g ≤ m := Nat.div_le_self _ _
        have hpos : 0 < m / g := Nat.div_pos (Nat.le_of_dvd hm hgm) (Nat.pos_of_dvd_of_pos hgm hm)
        have hother : ∀ q, q.Prime → q ∣ m → q ≠ p → q ∣ m / g := by
          intro q hq hd hne
          rw [← Nat.mul_div_cancel' hgm] at hd
          rcases hq.dvd_mul.mp hd with h | h
          · have h1 : q ∣ p := hq.dvd_of_dvd_pow (h.trans (Nat.gcd_dvd_right _ _))
            have h2 := Nat.le_of_dvd (by omega) h1
            have h3 := hmin q hq (h.trans hgm)
            omega
          · exact h
        have hpp : p.Prime := by
          have h1 := hmin _ (Nat.minFac_prime (n := p) (by omega)) ((Nat.minFac_dvd p).trans hpm)
          have h2 := Nat.minFac_le (n := p) (by omega)
          have : p.minFac = p := le_antisymm h2 h1
          exact this ▸ Nat.minFac_prime (by omega)
        have hgone : ¬ p ∣ m / g := by
          intro h
          -- p ^ (log2 m + 1) exceeds m, so g holds every power of p in m
          obtain ⟨e, he⟩ : ∃ e, g = p ^ e := by
            obtain ⟨e, -, he⟩ := (Nat.dvd_prime_pow hpp).mp (Nat.gcd_dvd_right m (p ^ (m.log2 + 1)))
            exact ⟨e, he⟩
          have h1 : p ^ (e + 1) ∣ m := by
            have := Nat.mul_dvd_mul (dvd_refl g) h
            rwa [Nat.mul_div_cancel' hgm, he, ← pow_succ] at this
          have h2 : e + 1 ≤ m.log2 := by
            rw [Nat.le_log2 (by omega)]
            exact (Nat.pow_le_pow_left hp _).trans (Nat.le_of_dvd hm h1)
          have h3 : p ^ (e + 1) ∣ g := Nat.dvd_gcd h1 (pow_dvd_pow p (by omega))
          rw [he] at h3
          have := (Nat.pow_dvd_pow_iff_le_right (by omega)).mp h3
          omega
        obtain ⟨i1, i2, i3⟩ := ih (p + 1) (m / g) (p :: found) (by omega) hpos (by omega)
          (fun q hq hd => hstep q hq (hd.trans (Nat.div_dvd_of_dvd hgm)) (fun h => hgone (h ▸ hd)))
        refine ⟨fun q hq hd => ?_, fun q h => i2 q (List.mem_cons_of_mem _ h), fun q h => ?_⟩
        · by_cases hqp : q = p
          · exact hqp ▸ i2 p List.mem_cons_self
          · exact i1 q hq (hother q hq hd hqp)
        · rcases i3 q h with h | ⟨h1, h2⟩
          · rcases List.mem_cons.mp h with rfl | h
            · exact .inr ⟨hp, hpm⟩
            · exact .inl h
          · exact .inr ⟨h1, h2.trans (Nat.div_dvd_of_dvd hgm)⟩
      · rename_i hnd
        exact ih (p + 1) m found (by omega) hm (by omega)
          (fun q hq hd => hstep q hq hd (fun h => hnd (Nat.mod_eq_zero_of_dvd (h ▸ hd))))

/-- `primesOf` gives every prime factor, and only divisors of at least two. -/
theorem mem_primesOf {n : ℕ} (hn : 0 < n) :
    (∀ q, q.Prime → q ∣ n → q ∈ primesOf n) ∧ ∀ q ∈ primesOf n, 2 ≤ q ∧ q ∣ n := by
  obtain ⟨h1, -, h3⟩ := primesFrom_spec n 2 n [] le_rfl hn (by omega) fun q hq _ => hq.two_le
  exact ⟨h1, fun q hq => (h3 q hq).resolve_left (by simp)⟩

/-! ### points on circles -/

theorem fracTurns_eq (u : ℚ) : fracTurns u = Int.fract u := rfl

/-- The root of unity of an angle of `u` turns, to the power `k`. -/
noncomputable def circle (k : ℕ) (u : ℚ) : ℂ := exp (2 * Real.pi * I * k * u)

theorem circle_add (k : ℕ) (u v : ℚ) : circle k (u + v) = circle k u * circle k v := by
  rw [circle, circle, circle, ← exp_add]
  push_cast
  ring_nf

theorem circle_ne_zero (k : ℕ) (u : ℚ) : circle k u ≠ 0 := exp_ne_zero _

/-- A point is 1 exactly where the power of the angle is a whole number of turns. -/
theorem circle_eq_one_iff (k : ℕ) (u : ℚ) : circle k u = 1 ↔ ∃ z : ℤ, (k : ℚ) * u = z := by
  rw [circle, exp_eq_one_iff]
  have hpi : (2 * Real.pi * I : ℂ) ≠ 0 := by
    simp [Real.pi_ne_zero]
  refine exists_congr fun z => ?_
  rw [show (2 * Real.pi * I * k * u : ℂ) = ((k : ℂ) * u) * (2 * Real.pi * I) by ring, mul_left_inj' hpi]
  exact_mod_cast Iff.rfl

theorem circle_int (k : ℕ) (z : ℤ) : circle k z = 1 := (circle_eq_one_iff k z).mpr ⟨k * z, by push_cast; ring⟩

theorem circle_frac (k : ℕ) (u : ℚ) : circle k (fracTurns u) = circle k u := by
  have h : u = fracTurns u + (⌊u⌋ : ℤ) := by rw [fracTurns_eq, Int.fract_add_floor]
  conv_rhs => rw [h, circle_add, circle_int, mul_one]

theorem circle_zero (k : ℕ) : circle k 0 = 1 := by simpa using circle_int k 0

theorem circle_neg (k : ℕ) (u : ℚ) : circle k (-u) = (starRingEnd ℂ) (circle k u) := by
  rw [circle, circle, ← exp_conj]
  simp [map_ofNat]

theorem circle_pow (k : ℕ) (u : ℚ) : circle 1 u ^ k = circle k u := by
  rw [circle, circle, ← exp_nat_mul]
  push_cast
  ring_nf

/-- Roots of unity are algebraic. -/
theorem circle_isAlgebraic (u : ℚ) : IsAlgebraic ℚ (circle 1 u) := by
  have h : circle 1 u ^ u.den = 1 := by
    rw [circle_pow, circle_eq_one_iff]
    exact ⟨u.num, by rw [mul_comm, Rat.mul_den_eq_num]⟩
  have : IsIntegral ℚ (circle 1 u) := IsIntegral.of_pow u.den_pos (h ▸ isIntegral_one)
  exact this.isAlgebraic

/-- The sum of the points of phase `a`, each to the power `k`. -/
noncomputable def points (k : ℕ) (a : ℚ) (l : List Tone) : ℂ :=
  (l.map fun t => if t.phase = a then (t.amp : ℂ) * circle k t.turns else 0).sum

@[simp] theorem points_nil (k : ℕ) (a : ℚ) : points k a [] = 0 := rfl

@[simp] theorem points_cons (k : ℕ) (a : ℚ) (t : Tone) (l : List Tone) :
    points k a (t :: l) = (if t.phase = a then (t.amp : ℂ) * circle k t.turns else 0) + points k a l := by
  simp [points]

@[simp] theorem points_append (k : ℕ) (a : ℚ) (l m : List Tone) :
    points k a (l ++ m) = points k a l + points k a m := by
  simp [points]

theorem points_spread (k : ℕ) (a : ℚ) (p : ℕ) (l : List Tone) :
    points k a (spread p l) = (1 - circle k (1 / p)) * points k a l := by
  have h : points k a (l.map fun t => ⟨-t.amp, fracTurns (t.turns + 1 / p), t.phase⟩) = -circle k (1 / p) * points k a l := by
    induction l with
    | nil => simp
    | cons t l ih =>
      rw [List.map_cons, points_cons, points_cons, ih, circle_frac, circle_add]
      split_ifs
      · push_cast; ring
      · ring
  rw [spread, points_append, h]
  ring

theorem points_spreads (k : ℕ) (a : ℚ) (ps : List ℕ) (l : List Tone) :
    points k a (ps.foldr spread l) = (ps.map fun p : ℕ => 1 - circle k (1 / p)).prod * points k a l := by
  induction ps with
  | nil => simp
  | cons p ps ih => rw [List.foldr_cons, points_spread, ih, List.map_cons, List.prod_cons, mul_assoc]

/-- Every angle of the list is one of `0, 1/n, …, (n-1)/n`. -/
def OnGrid (n : ℕ) (l : List Tone) : Prop := ∀ t ∈ l, (∃ z : ℤ, t.turns * n = z) ∧ 0 ≤ t.turns ∧ t.turns < 1

theorem onGrid_spread {n p : ℕ} (hp : p ∣ n) (hn : 0 < n) {l : List Tone} (h : OnGrid n l) : OnGrid n (spread p l) := by
  intro t ht
  rcases List.mem_append.mp ht with ht | ht
  · exact h t ht
  · obtain ⟨u, hu, rfl⟩ := List.mem_map.mp ht
    obtain ⟨⟨z, hz⟩, -, -⟩ := h u hu
    refine ⟨?_, Int.fract_nonneg _, Int.fract_lt_one _⟩
    obtain ⟨e, rfl⟩ := hp
    have hp0 : (p : ℚ) ≠ 0 := by
      have : p ≠ 0 := by rintro rfl; simp at hn
      exact_mod_cast this
    refine ⟨z + e - ⌊u.turns + 1 / p⌋ * (p * e : ℕ), ?_⟩
    change (u.turns + 1 / p - ⌊u.turns + 1 / p⌋) * _ = _
    rw [sub_mul, add_mul, hz]
    push_cast
    field_simp

theorem onGrid_spreads {n : ℕ} (hn : 0 < n) (ps : List ℕ) (hps : ∀ p ∈ ps, p ∣ n) {l : List Tone} (h : OnGrid n l) :
    OnGrid n (ps.foldr spread l) := by
  induction ps with
  | nil => exact h
  | cons p ps ih =>
    exact onGrid_spread (hps p List.mem_cons_self) hn (ih fun q hq => hps q (List.mem_cons_of_mem _ hq))

/-- The powers of a point of the grid sum to 0, but for the point 1. -/
theorem sum_circle {n : ℕ} {u : ℚ} (hu : ∃ z : ℤ, u * n = z) (h1 : -1 < u) (h2 : u < 1) :
    ∑ k ∈ Finset.range n, circle k u = if u = 0 then (n : ℂ) else 0 := by
  split_ifs with h0
  · subst h0
    simp [circle_zero]
  · have hw : circle 1 u ≠ 1 := by
      rw [Ne, circle_eq_one_iff]
      rintro ⟨z, hz⟩
      rw [Nat.cast_one, one_mul] at hz
      rw [hz] at h1 h2 h0
      have : z = 0 := by
        have a : (-1 : ℤ) < z := by exact_mod_cast h1
        have b : z < (1 : ℤ) := by exact_mod_cast h2
        omega
      exact h0 (by rw [this]; rfl)
    have hwn : circle 1 u ^ n = 1 := by
      rw [circle_pow, circle_eq_one_iff]
      obtain ⟨z, hz⟩ := hu
      exact ⟨z, by rw [mul_comm, hz]⟩
    have := mul_neg_geom_sum (circle 1 u) n
    rw [hwn, sub_self] at this
    rw [← (mul_eq_zero.mp this).resolve_left (sub_ne_zero.mpr hw.symm)]
    exact Finset.sum_congr rfl fun k _ => (circle_pow k u).symm

@[simp] theorem pointFactor_nil (u a : ℚ) : pointFactor [] u a = 0 := rfl

theorem pointFactor_cons (t : Tone) (l : List Tone) (u a : ℚ) :
    pointFactor (t :: l) u a = (if t.turns = u ∧ t.phase = a then t.amp else 0) + pointFactor l u a := by
  simp only [pointFactor, List.filter_cons, decide_eq_true_eq]
  split_ifs <;> simp

/-- The factor of a point of the grid, from the sums of all powers. -/
theorem pointFactor_eq_sum {n : ℕ} {l : List Tone} (h : OnGrid n l) {u : ℚ} (hu : ∃ z : ℤ, u * n = z)
    (h0 : 0 ≤ u) (h1 : u < 1) (a : ℚ) :
    ∑ k ∈ Finset.range n, circle k (-u) * points k a l = n * pointFactor l u a := by
  induction l with
  | nil => simp
  | cons t l ih =>
    have ih := ih fun t ht => h t (List.mem_cons_of_mem _ ht)
    obtain ⟨⟨z, hz⟩, g0, g1⟩ := h t List.mem_cons_self
    rw [pointFactor_cons]
    simp only [points_cons, mul_add, Finset.sum_add_distrib, ih]
    rw [Rat.cast_add, mul_add]
    congr 1
    by_cases ha : t.phase = a
    · simp only [ha, if_true, and_true]
      have e : ∀ k ∈ Finset.range n, circle k (-u) * ((t.amp : ℂ) * circle k t.turns) = t.amp * circle k (t.turns - u) := by
        intro k _
        rw [sub_eq_add_neg, circle_add]
        ring
      obtain ⟨y, hy⟩ := hu
      rw [Finset.sum_congr rfl e, ← Finset.mul_sum,
        sum_circle ⟨z - y, by rw [sub_mul, hz, hy]; push_cast; rfl⟩ (by linarith) (by linarith)]
      by_cases hut : t.turns = u
      · simp [hut, mul_comm]
      · simp [hut, sub_eq_zero]
    · simp [ha]

/-- Where every factor is 0, the sums are 0. -/
theorem points_eq_zero_of_factors (k : ℕ) (a : ℚ) (l : List Tone) (h : ∀ u, pointFactor l u a = 0) : points k a l = 0 := by
  have key : ∀ l : List Tone, ∀ S : Finset ℚ, (∀ t ∈ l, t.turns ∈ S) →
      points k a l = ∑ u ∈ S, (pointFactor l u a : ℂ) * circle k u := by
    intro l S hS
    induction l with
    | nil => simp
    | cons t l ih =>
      rw [points_cons, ih fun t ht => hS t (List.mem_cons_of_mem _ ht)]
      simp only [pointFactor_cons, Rat.cast_add, add_mul, Finset.sum_add_distrib]
      congr 1
      by_cases ha : t.phase = a
      · simp only [ha, if_true, and_true]
        rw [Finset.sum_eq_single t.turns]
        · simp
        · intro u _ hu
          simp [Ne.symm hu]
        · exact fun hout => absurd (hS t List.mem_cons_self) hout
      · simp [ha]
  rw [key l (l.map Tone.turns).toFinset fun t ht => by simpa using ⟨t, ht, rfl⟩]
  exact Finset.sum_eq_zero fun u _ => by rw [h u]; simp

/-- A rational combination of roots of unity that is 0 stays 0 when every root is raised to a power prime to the order. -/
theorem points_coprime {n : ℕ} (hn : 0 < n) {l : List Tone} (h : OnGrid n l) (a : ℚ) (hz : points 1 a l = 0) {k : ℕ}
    (hk : k.Coprime n) : points k a l = 0 := by
  let e : Tone → ℕ := fun t => (t.turns * n).num.toNat
  have he : ∀ t ∈ l, ∀ j : ℕ, (circle 1 (1 / n) ^ j) ^ e t = circle j t.turns := by
    intro t ht j
    obtain ⟨⟨z, hz⟩, g0, -⟩ := h t ht
    have hz0 : 0 ≤ z := by
      have : (0 : ℚ) ≤ z := hz ▸ mul_nonneg g0 (Nat.cast_nonneg n)
      exact_mod_cast this
    have : t.turns = (e t : ℚ) * (1 / n) := by
      have hn' : (n : ℚ) ≠ 0 := by exact_mod_cast hn.ne'
      have : ((e t : ℕ) : ℚ) = z := by
        simp only [e, hz, Rat.num_intCast]
        exact_mod_cast Int.toNat_of_nonneg hz0
      rw [this, ← hz]
      field_simp
    rw [circle_pow, this, circle, circle, ← exp_nat_mul]
    push_cast
    ring_nf
  let A : Polynomial ℚ := (l.map fun t => if t.phase = a then Polynomial.monomial (e t) t.amp else 0).sum
  have hA : ∀ j : ℕ, Polynomial.aeval (circle 1 (1 / n) ^ j) A = points j a l := by
    intro j
    simp only [A, points, map_list_sum, List.map_map]
    refine congrArg List.sum (List.map_congr_left fun t ht => ?_)
    simp only [Function.comp]
    split_ifs
    · rw [Polynomial.aeval_monomial, he t ht j]
      rfl
    · simp
  have hprim : IsPrimitiveRoot (circle 1 (1 / n)) n := by
    have := isPrimitiveRoot_exp n hn.ne'
    have e : circle 1 (1 / n) = exp (2 * Real.pi * I / n) := by
      rw [circle]
      push_cast
      ring_nf
    rwa [e]
  have hprimk := hprim.pow_of_coprime k hk
  rw [← hA, pow_one, ← minpoly.dvd_iff, ← Polynomial.cyclotomic_eq_minpoly_rat hprim hn,
    Polynomial.cyclotomic_eq_minpoly_rat hprimk hn, minpoly.dvd_iff] at hz
  rw [← hA, hz]

/-- The cyclotomic test: the points sum to 0 exactly when, spread over all primes of the grid, their factors all cancel. -/
theorem points_eq_zero_iff {n : ℕ} (hn : 0 < n) {l : List Tone} (h : OnGrid n l) (a : ℚ) :
    points 1 a l = 0 ↔ ∀ u, pointFactor ((primesOf n).foldr spread l) u a = 0 := by
  obtain ⟨hall, hmem⟩ := mem_primesOf hn
  have hgrid := onGrid_spreads hn (primesOf n) (fun p hp => (hmem p hp).2) h
  constructor
  · intro hz u
    by_cases hu : ∃ t ∈ (primesOf n).foldr spread l, t.turns = u
    · obtain ⟨t, ht, rfl⟩ := hu
      obtain ⟨hzt, g0, g1⟩ := hgrid t ht
      have hs := pointFactor_eq_sum hgrid hzt g0 g1 a
      rw [Finset.sum_eq_zero] at hs
      · have := (mul_eq_zero.mp hs.symm).resolve_left (by exact_mod_cast hn.ne')
        exact_mod_cast this
      intro k _
      rw [points_spreads]
      by_cases hk : k.Coprime n
      · rw [points_coprime hn h a hz hk, mul_zero, mul_zero]
      · obtain ⟨q, hq, hqk, hqn⟩ := Nat.Prime.not_coprime_iff_dvd.mp hk
        have : circle k (1 / q) = 1 := by
          obtain ⟨e, rfl⟩ := hqk
          refine (circle_eq_one_iff _ _).mpr ⟨e, ?_⟩
          have hq0 : (q : ℚ) ≠ 0 := by exact_mod_cast hq.ne_zero
          push_cast
          field_simp
        rw [List.prod_eq_zero, zero_mul, mul_zero]
        exact List.mem_map.mpr ⟨q, hall q hq hqn, by rw [this, sub_self]⟩
    · have : (((primesOf n).foldr spread l).filter fun t => decide (t.turns = u ∧ t.phase = a)) = [] := by
        rw [List.filter_eq_nil_iff]
        intro t ht
        simp only [decide_eq_true_eq]
        exact fun hh => hu ⟨t, ht, hh.1⟩
      rw [pointFactor, this]
      rfl
  · intro hf
    have hz := points_eq_zero_of_factors 1 a _ hf
    rw [points_spreads] at hz
    refine (mul_eq_zero.mp hz).resolve_left fun hp => ?_
    obtain ⟨p, hpm, hp0⟩ := List.mem_map.mp (List.prod_eq_zero_iff.mp hp)
    obtain ⟨z, hz⟩ := (circle_eq_one_iff _ _).mp (sub_eq_zero.mp hp0).symm
    have h2 := (hmem p hpm).1
    have hp2 : (2 : ℚ) ≤ p := by exact_mod_cast h2
    have b1 : (0 : ℚ) < (1 : ℕ) * (1 / (p : ℚ)) := by push_cast; positivity
    have b2 : ((1 : ℕ) : ℚ) * (1 / (p : ℚ)) < 1 := by
      rw [Nat.cast_one, one_mul, div_lt_one (by linarith)]
      linarith
    rw [hz] at b1 b2
    have c1 : 0 < z := by exact_mod_cast b1
    have c2 : z < 1 := by exact_mod_cast b2
    omega

/-! ### the real value of a sum, from its points -/

theorem onCircle_phase_nonneg (t u : Tone) (hu : u ∈ t.onCircle) : 0 ≤ u.phase := by
  rw [Tone.onCircle] at hu
  split_ifs at hu with h0 hneg
  · rcases List.mem_pair.mp hu with rfl | rfl <;> exact le_rfl
  · rw [List.mem_singleton.mp hu]
    exact (neg_pos.mpr hneg).le
  · rw [List.mem_singleton.mp hu]
    exact not_lt.mp hneg

theorem onCircle_turns (t u : Tone) (hu : u ∈ t.onCircle) : 0 ≤ u.turns ∧ u.turns < 1 := by
  have h : ∃ v, u.turns = fracTurns v := by
    rw [Tone.onCircle] at hu
    split_ifs at hu
    · rcases List.mem_pair.mp hu with rfl | rfl <;> exact ⟨_, rfl⟩
    · exact ⟨_, by rw [List.mem_singleton.mp hu]⟩
    · exact ⟨_, by rw [List.mem_singleton.mp hu]⟩
  obtain ⟨v, hv⟩ := h
  rw [hv]
  exact ⟨Int.fract_nonneg _, Int.fract_lt_one _⟩

/-- The value of one tone in the complex plane, of which the sine is the imaginary part. -/
noncomputable def Tone.toComplex (t : Tone) : ℂ := t.amp * circle 1 t.turns * exp (t.phase * I)

theorem Tone.toComplex_im (t : Tone) : (Tone.toComplex t).im = t.toReal := by
  have h : Tone.toComplex t = (t.amp : ℝ) * exp (((2 * Real.pi * t.turns + t.phase : ℝ) : ℂ) * I) := by
    rw [Tone.toComplex, circle, mul_assoc, ← exp_add]
    push_cast
    ring_nf
  rw [h, im_ofReal_mul, exp_ofReal_mul_I_im, Tone.toReal]

theorem Tone.toReal_frac (a u p : ℚ) : (⟨a, fracTurns u, p⟩ : Tone).toReal = (⟨a, u, p⟩ : Tone).toReal := by
  rw [← Tone.toComplex_im, ← Tone.toComplex_im, Tone.toComplex, Tone.toComplex, circle_frac]

theorem onCircle_toReal (t : Tone) : (t.onCircle.map Tone.toReal).sum = t.toReal := by
  have hneg : ∀ a u p : ℚ, (⟨a, -u, -p⟩ : Tone).toReal = -(⟨a, u, p⟩ : Tone).toReal := by
    intro a u p
    simp only [Tone.toReal]
    push_cast
    rw [← mul_neg, ← Real.sin_neg]
    ring_nf
  rw [Tone.onCircle]
  split_ifs with h0 h1
  · have h := hneg (-(t.amp / 2)) t.turns 0
    rw [neg_zero] at h
    simp only [List.map_cons, List.map_nil, List.sum_cons, List.sum_nil, add_zero, Tone.toReal_frac, h]
    simp only [Tone.toReal, h0]
    push_cast
    ring
  · simp only [List.map_cons, List.map_nil, List.sum_cons, List.sum_nil, add_zero, Tone.toReal_frac, hneg]
    simp only [Tone.toReal]
    push_cast
    ring
  · simp only [List.map_cons, List.map_nil, List.sum_cons, List.sum_nil, add_zero, Tone.toReal_frac]

/-- The points of a sample. -/
theorem flatMap_onCircle_toReal (l : List Tone) : ((l.flatMap Tone.onCircle).map Tone.toReal).sum = (l.map Tone.toReal).sum := by
  induction l with
  | nil => rfl
  | cons t l ih => rw [List.flatMap_cons, List.map_append, List.sum_append, onCircle_toReal, ih, List.map_cons, List.sum_cons]

/-- The points without phase are purely imaginary. -/
theorem points_zero_conj (l : List Tone) :
    (starRingEnd ℂ) (points 1 0 (l.flatMap Tone.onCircle)) = -points 1 0 (l.flatMap Tone.onCircle) := by
  induction l with
  | nil => simp
  | cons t l ih =>
    rw [List.flatMap_cons, points_append, map_add, ih, neg_add]
    congr 1
    rw [Tone.onCircle]
    split_ifs with h0 h1
    · simp only [points_cons, points_nil, if_true, add_zero, map_add, map_mul, circle_frac, ← circle_neg, neg_neg]
      simp only [map_ratCast]
      push_cast
      ring
    all_goals simp [h0]

/-- The imaginary part of the points, each turned by its phase, is the real value. -/
theorem sum_points_im (l : List Tone) (F : Finset ℚ) (hF : ∀ t ∈ l, t.phase ∈ F) :
    (∑ a ∈ F, points 1 a l * exp ((a : ℂ) * I)).im = (l.map Tone.toReal).sum := by
  induction l with
  | nil => simp
  | cons t l ih =>
    have ih := ih fun t ht => hF t (List.mem_cons_of_mem _ ht)
    simp only [points_cons, add_mul, Finset.sum_add_distrib, add_im, ih, List.map_cons, List.sum_cons]
    congr 1
    rw [Finset.sum_eq_single t.phase]
    · rw [if_pos rfl, ← Tone.toComplex, Tone.toComplex_im]
    · intro b _ hb
      rw [if_neg (Ne.symm hb), zero_mul]
    · exact fun hout => absurd (hF t List.mem_cons_self) hout

theorem points_isAlgebraic (a : ℚ) (l : List Tone) : IsAlgebraic ℚ (points 1 a l) := by
  induction l with
  | nil => exact isAlgebraic_zero
  | cons t l ih =>
    rw [points_cons]
    refine IsAlgebraic.add ?_ ih
    split_ifs
    · exact (isAlgebraic_algebraMap t.amp).mul (circle_isAlgebraic _)
    · exact isAlgebraic_zero

theorem isAlgebraic_conj {z : ℂ} (h : IsAlgebraic ℚ z) : IsAlgebraic ℚ ((starRingEnd ℂ) z) :=
  IsAlgebraic.algHom ((Complex.conjAe : ℂ ≃ₐ[ℝ] ℂ).restrictScalars ℚ).toAlgHom h

/-- A sum of tones is 0 exactly when, phase by phase, its points sum to 0. -/
theorem sum_toReal_eq_zero_iff (l : List Tone) :
    (l.map Tone.toReal).sum = 0 ↔ ∀ a, points 1 a (l.flatMap Tone.onCircle) = 0 := by
  set m := l.flatMap Tone.onCircle with hm
  rw [← flatMap_onCircle_toReal, ← hm]
  have hphase : ∀ t ∈ m, 0 ≤ t.phase := by
    intro t ht
    obtain ⟨u, -, hu⟩ := List.mem_flatMap.mp ht
    exact onCircle_phase_nonneg u t hu
  set P : Finset ℚ := (m.map Tone.phase).toFinset with hP
  set F : Finset ℚ := P ∪ P.image (fun a => -a) with hF
  have hmem : ∀ t ∈ m, t.phase ∈ F := fun t ht =>
    Finset.mem_union_left _ (by rw [hP, List.mem_toFinset]; exact List.mem_map_of_mem ht)
  have hsymm : ∀ a, a ∈ F → -a ∈ F := by
    intro a ha
    rcases Finset.mem_union.mp ha with h | h
    · exact Finset.mem_union_right _ (Finset.mem_image_of_mem _ h)
    · obtain ⟨b, hb, rfl⟩ := Finset.mem_image.mp h
      rw [neg_neg]
      exact Finset.mem_union_left _ hb
  have habsent : ∀ a, a ∉ P → points 1 a m = 0 := by
    intro a ha
    rw [points, List.sum_eq_zero]
    intro z hz
    obtain ⟨t, ht, rfl⟩ := List.mem_map.mp hz
    rw [if_neg]
    rintro rfl
    exact ha (by rw [hP, List.mem_toFinset]; exact List.mem_map_of_mem ht)
  have hneg : ∀ a < 0, points 1 a m = 0 := fun a ha => habsent a fun h => by
    rw [hP, List.mem_toFinset] at h
    obtain ⟨t, ht, rfl⟩ := List.mem_map.mp h
    exact absurd (hphase t ht) (not_le.mpr ha)
  rw [← sum_points_im m F hmem]
  constructor
  · intro him
    -- the sum minus its conjugate, again a sum over the symmetric set of phases
    let c : ℚ → ℂ := fun a => points 1 a m - (starRingEnd ℂ) (points 1 (-a) m)
    have hsum : ∑ a ∈ F, c a * exp ((a : ℂ) * I) = 0 := by
      have hconj : ∑ a ∈ F, (starRingEnd ℂ) (points 1 (-a) m) * exp ((a : ℂ) * I)
          = (starRingEnd ℂ) (∑ a ∈ F, points 1 a m * exp ((a : ℂ) * I)) := by
        rw [map_sum]
        refine Finset.sum_nbij' (fun a => -a) (fun a => -a) hsymm hsymm (fun a _ => neg_neg a) (fun a _ => neg_neg a) ?_
        intro a _
        rw [map_mul, ← exp_conj]
        simp
      simp only [c, sub_mul, Finset.sum_sub_distrib]
      rw [hconj, sub_conj, him]
      simp
    have hc := coeff_eq_zero_of_sum_exp F c
      (fun a _ => (points_isAlgebraic a m).sub (isAlgebraic_conj (points_isAlgebraic (-a) m))) hsum
    intro a
    by_cases ha : a ∈ P
    · have h := hc a (Finset.mem_union_left _ ha)
      simp only [c] at h
      rcases lt_trichotomy a 0 with h0 | rfl | h0
      · exact hneg a h0
      · rw [neg_zero, hm, points_zero_conj, ← hm, sub_neg_eq_add, ← two_mul] at h
        exact (mul_eq_zero.mp h).resolve_left two_ne_zero
      · rwa [hneg (-a) (by linarith), map_zero, sub_zero] at h
    · exact habsent a ha
  · intro h
    rw [Finset.sum_eq_zero fun a _ => by rw [h a, zero_mul], zero_im]

theorem commonDenominator_pos (l : List Tone) : 0 < commonDenominator l := by
  induction l with
  | nil => exact Nat.one_pos
  | cons t l ih => exact Nat.lcm_pos t.turns.den_pos ih

theorem den_dvd_commonDenominator {l : List Tone} {t : Tone} (h : t ∈ l) : t.turns.den ∣ commonDenominator l := by
  induction l with
  | nil => cases h
  | cons u l ih =>
    rcases List.mem_cons.mp h with rfl | h
    · exact Nat.dvd_lcm_left _ _
    · exact (ih h).trans (Nat.dvd_lcm_right _ _)

theorem onGrid_onCircle (l : List Tone) :
    OnGrid (commonDenominator (l.flatMap Tone.onCircle)) (l.flatMap Tone.onCircle) := by
  intro t ht
  obtain ⟨u, -, hu⟩ := List.mem_flatMap.mp ht
  refine ⟨?_, onCircle_turns u t hu⟩
  obtain ⟨e, he⟩ := den_dvd_commonDenominator ht
  refine ⟨t.turns.num * e, ?_⟩
  rw [he]
  push_cast
  rw [← mul_assoc, Rat.mul_den_eq_num]

end Sys2Proof.Laws

namespace Sys2Proof
open Laws

/-- The test for zero is right: it answers yes exactly where the real number is 0. -/
theorem Sample.isZero_iff (x : Sample) : x.isZero = true ↔ x.toReal = 0 := by
  have hpos := commonDenominator_pos (x.tones.flatMap Tone.onCircle)
  have hgrid := onGrid_onCircle x.tones
  rw [Sample.toReal, sum_toReal_eq_zero_iff]
  simp only [points_eq_zero_iff hpos hgrid, Sample.isZero, List.all_eq_true, decide_eq_true_eq]
  refine ⟨fun h a u => ?_, fun h t _ => h _ _⟩
  set m := (primesOf (commonDenominator (x.tones.flatMap Tone.onCircle))).foldr spread (x.tones.flatMap Tone.onCircle)
  by_cases hu : ∃ t ∈ m, t.turns = u ∧ t.phase = a
  · obtain ⟨t, ht, rfl, rfl⟩ := hu
    exact h t ht
  · rw [pointFactor, List.filter_eq_nil_iff.mpr]
    · rfl
    · intro t ht
      rw [decide_eq_true_eq]
      exact fun hh => hu ⟨t, ht, hh⟩

end Sys2Proof
end

