-- ==== Sys2Proof/Laws/Bounds.lean ====
section
/-! SUPPORT. The rational bounds of samples: each precision is sound, a sign that one settles is the real one, and some
level settles the sign of every sample that is not 0. -/

namespace Sys2Proof

/-- A bound of a rational number, as one of a real number. -/
theorem abs_cast_le {q r : Rat} (h : |q| ≤ r) : |(q : ℝ)| ≤ (r : ℝ) := by
  rw [← Rat.cast_abs]
  exact Rat.cast_le.mpr h

/-! ### the sine series -/

/-- The sine series with no term rounded. -/
def exactSeries (sq : Rat) : Nat → Nat → Rat
  | 0, _ => 0
  | n + 1, k => 1 - sq / ((k + 1) * (k + 2) : Nat) * exactSeries sq n (k + 2)

/-- The series as a sum. -/
theorem exactSeries_eq_sum (sq : Rat) (n k : Nat) :
    exactSeries sq n k = ∑ j ∈ Finset.range n, (-1) ^ j * sq ^ j * (k.factorial : Rat) / ((k + 2 * j).factorial : Rat) := by
  induction n generalizing k with
  | zero => simp [exactSeries]
  | succ n ih =>
    have hk : ((k.factorial : Nat) : Rat) ≠ 0 := by exact_mod_cast k.factorial_ne_zero
    have h1 : ((k : Rat) + 1) ≠ 0 := by positivity
    have h2 : ((k : Rat) + 2) ≠ 0 := by positivity
    have hf : ((k + 2).factorial : Rat) = (k + 2) * ((k + 1) * k.factorial) := by
      rw [show k + 2 = (k + 1) + 1 from rfl, Nat.factorial_succ, Nat.factorial_succ]
      push_cast
      ring
    rw [exactSeries, ih, Finset.sum_range_succ', Finset.mul_sum]
    have hterm : ∀ j ∈ Finset.range n,
        sq / ((k + 1) * (k + 2) : Nat) * ((-1) ^ j * sq ^ j * ((k + 2).factorial : Rat) / ((k + 2 + 2 * j).factorial : Rat))
          = -((-1) ^ (j + 1) * sq ^ (j + 1) * (k.factorial : Rat) / ((k + 2 * (j + 1)).factorial : Rat)) := by
      intro j _
      rw [hf, show k + 2 * (j + 1) = k + 2 + 2 * j by ring]
      have hd : (((k + 2 + 2 * j).factorial : Nat) : Rat) ≠ 0 := by exact_mod_cast Nat.factorial_ne_zero _
      push_cast
      field_simp
      ring
    rw [Finset.sum_congr rfl hterm, Finset.sum_neg_distrib]
    simp only [pow_zero, mul_zero, add_zero, one_mul, div_self hk]
    ring

/-- The partial sums of the exponential series of an imaginary number hold those of the sine. -/
theorem exp_partial_sum_im (a : ℝ) (n : Nat) :
    (∑ m ∈ Finset.range (2 * n), ((a : ℂ) * Complex.I) ^ m / (m.factorial : ℂ)).im
      = ∑ j ∈ Finset.range n, (-1) ^ j * a ^ (2 * j + 1) / ((2 * j + 1).factorial : ℝ) := by
  induction n with
  | zero => simp
  | succ n ih =>
    rw [show 2 * (n + 1) = 2 * n + 1 + 1 by ring, Finset.sum_range_succ, Finset.sum_range_succ, Finset.sum_range_succ,
      Complex.add_im, Complex.add_im, ih]
    have he : ((a : ℂ) * Complex.I) ^ (2 * n) = (((-1) ^ n * a ^ (2 * n) : ℝ) : ℂ) := by
      rw [mul_pow, pow_mul Complex.I, Complex.I_sq]
      push_cast
      ring
    have ho : ((a : ℂ) * Complex.I) ^ (2 * n + 1) = (((-1) ^ n * a ^ (2 * n + 1) : ℝ) : ℂ) * Complex.I := by
      rw [pow_succ, he]
      push_cast
      ring
    rw [he, ho]
    have z1 : ((((-1) ^ n * a ^ (2 * n) : ℝ) : ℂ) / (((2 * n).factorial : Nat) : ℂ)).im = 0 := by
      rw [← Complex.ofReal_natCast, ← Complex.ofReal_div, Complex.ofReal_im]
    have z2 : ((((-1) ^ n * a ^ (2 * n + 1) : ℝ) : ℂ) * Complex.I / (((2 * n + 1).factorial : Nat) : ℂ)).im
        = (-1) ^ n * a ^ (2 * n + 1) / ((2 * n + 1).factorial : ℝ) := by
      rw [mul_div_right_comm, ← Complex.ofReal_natCast, ← Complex.ofReal_div, Complex.im_ofReal_mul, Complex.I_im, mul_one]
    rw [z1, z2]
    ring

/-- The sine series of `n` terms is near the sine for an angle of at most 4. -/
theorem exactSeries_near (a : Rat) (n : Nat) (ha : |(a : ℝ)| ≤ 4) (hn : 8 ≤ 2 * n + 1) :
    |Real.sin a - ((a * exactSeries (a * a) n 1 : Rat) : ℝ)| ≤ 4 ^ (2 * n) / ((2 * n).factorial : ℝ) * 2 := by
  have hnorm : ‖((a : ℝ) : ℂ) * Complex.I‖ = |(a : ℝ)| := by simp
  have hb := Complex.exp_bound' (x := ((a : ℝ) : ℂ) * Complex.I) (n := 2 * n) (by
    rw [hnorm, div_le_iff₀ (by positivity)]
    have : (8 : ℝ) ≤ ((2 * n).succ : ℝ) := by exact_mod_cast hn
    linarith)
  rw [hnorm] at hb
  have him := le_trans (Complex.abs_im_le_norm _) hb
  rw [Complex.sub_im, exp_partial_sum_im, Complex.exp_ofReal_mul_I_im] at him
  have hs : ((a * exactSeries (a * a) n 1 : Rat) : ℝ)
      = ∑ j ∈ Finset.range n, (-1) ^ j * (a : ℝ) ^ (2 * j + 1) / ((2 * j + 1).factorial : ℝ) := by
    rw [exactSeries_eq_sum]
    push_cast
    rw [Finset.mul_sum]
    refine Finset.sum_congr rfl fun j _ => ?_
    rw [show 1 + 2 * j = 2 * j + 1 by ring, ← pow_two, ← pow_mul]
    simp only [Nat.factorial_one, Nat.cast_one]
    ring
  rw [hs]
  refine le_trans him ?_
  have : |(a : ℝ)| ^ (2 * n) ≤ 4 ^ (2 * n) := pow_le_pow_left₀ (abs_nonneg _) ha _
  gcongr

theorem roundDown_near {scale : Nat} (hs : 0 < scale) (q : Rat) : |q - roundDown scale q| ≤ 1 / scale := by
  have h0 : (0 : Rat) < scale := by exact_mod_cast hs
  have h1 := Int.floor_le (q * scale)
  have h2 := Int.lt_floor_add_one (q * scale)
  have e : q - roundDown scale q = (q * scale - ⌊q * scale⌋) / scale := by
    change q - (⌊q * scale⌋ : Rat) / scale = _
    field_simp
  rw [e, abs_div, abs_of_pos h0]
  gcongr
  rw [abs_le]
  constructor <;> linarith

/-- Rounding moves the series from its fourth power on by five steps at most. -/
theorem sineSeries_near_of_three_le {scale : Nat} (hs : 0 < scale) {sq : Rat} (h0 : 0 ≤ sq) (h1 : sq ≤ 16) (n k : Nat)
    (hk : 3 ≤ k) : |exactSeries sq n k - sineSeries scale sq n k| ≤ 5 / scale := by
  have hs' : (0 : Rat) < scale := by exact_mod_cast hs
  induction n generalizing k with
  | zero => simp only [exactSeries, sineSeries, sub_self, abs_zero]; positivity
  | succ n ih =>
    have ih := ih (k + 2) (by omega)
    have hr := roundDown_near hs (sq / ((k + 1) * (k + 2) : Nat) * sineSeries scale sq n (k + 2))
    rw [exactSeries, sineSeries]
    set c : Rat := sq / ((k + 1) * (k + 2) : Nat)
    have hc0 : 0 ≤ c := by positivity
    have hc1 : c ≤ 4 / 5 := by
      rw [div_le_iff₀ (by positivity)]
      have : (20 : Rat) ≤ ((k + 1) * (k + 2) : Nat) := by
        have : 20 ≤ (k + 1) * (k + 2) := by nlinarith
        exact_mod_cast this
      linarith
    set x := exactSeries sq n (k + 2)
    set y := sineSeries scale sq n (k + 2)
    calc |1 - c * x - (1 - roundDown scale (c * y))|
        = |-(c * (x - y)) - (c * y - roundDown scale (c * y))| := by ring_nf
      _ ≤ |c * (x - y)| + |c * y - roundDown scale (c * y)| := by
          rw [← abs_neg (c * (x - y))]
          exact abs_sub _ _
      _ ≤ 4 / 5 * (5 / scale) + 1 / scale := by
          rw [abs_mul, abs_of_nonneg hc0]
          gcongr
      _ = 5 / scale := by ring

/-- Rounding moves the whole series by fifteen steps at most. -/
theorem sineSeries_near {scale : Nat} (hs : 0 < scale) {sq : Rat} (h0 : 0 ≤ sq) (h1 : sq ≤ 16) (n : Nat) :
    |exactSeries sq n 1 - sineSeries scale sq n 1| ≤ 15 / scale := by
  have hs' : (0 : Rat) < scale := by exact_mod_cast hs
  cases n with
  | zero => simp only [exactSeries, sineSeries, sub_self, abs_zero]; positivity
  | succ n =>
    have ih := sineSeries_near_of_three_le hs h0 h1 n 3 le_rfl
    have hr := roundDown_near hs (sq / ((1 + 1) * (1 + 2) : Nat) * sineSeries scale sq n 3)
    rw [exactSeries, sineSeries]
    set c : Rat := sq / ((1 + 1) * (1 + 2) : Nat) with hc
    have hc0 : 0 ≤ c := by positivity
    have hc1 : c ≤ 8 / 3 := by
      rw [hc]
      norm_num
      linarith
    set x := exactSeries sq n (1 + 2)
    set y := sineSeries scale sq n (1 + 2)
    calc |1 - c * x - (1 - roundDown scale (c * y))|
        = |-(c * (x - y)) - (c * y - roundDown scale (c * y))| := by ring_nf
      _ ≤ |c * (x - y)| + |c * y - roundDown scale (c * y)| := by
          rw [← abs_neg (c * (x - y))]
          exact abs_sub _ _
      _ ≤ 8 / 3 * (5 / scale) + 1 / scale := by
          rw [abs_mul, abs_of_nonneg hc0]
          gcongr
      _ ≤ 15 / scale := by
          have : (0 : Rat) ≤ 1 / scale := by positivity
          linear_combination (2 / 3) * this

/-! ### pi -/

/-- The arctangent series stopped after `n` terms. -/
theorem arctan_near (x : ℝ) (h0 : 0 ≤ x) (h1 : x < 1) (n : ℕ) :
    |Real.arctan x - ∑ k ∈ Finset.range n, (-1) ^ k * x ^ (2 * k + 1) / ((2 * k + 1 : ℕ) : ℝ)| ≤ x ^ (2 * n + 1) / (1 - x ^ 2) := by
  have hn : ‖x‖ < 1 := by rwa [Real.norm_eq_abs, abs_of_nonneg h0]
  have hs := Real.hasSum_arctan hn
  have hx2 : x ^ 2 < 1 := by nlinarith
  have htail := (hasSum_nat_add_iff' n).mpr hs
  have hg : HasSum (fun k => x ^ (2 * n + 1) * (x ^ 2) ^ k) (x ^ (2 * n + 1) / (1 - x ^ 2)) := by
    rw [div_eq_mul_inv]
    exact (hasSum_geometric_of_lt_one (by positivity) hx2).mul_left _
  rw [← htail.tsum_eq, ← Real.norm_eq_abs]
  refine tsum_of_norm_bounded hg fun k => ?_
  rw [norm_div, norm_mul, norm_pow, norm_neg, norm_one, one_pow, one_mul, norm_pow, Real.norm_of_nonneg h0]
  have h1' : (1 : ℝ) ≤ ‖((2 * (k + n) + 1 : ℕ) : ℝ)‖ := by
    rw [Real.norm_natCast]; exact_mod_cast Nat.le_add_left 1 _
  calc x ^ (2 * (k + n) + 1) / ‖((2 * (k + n) + 1 : ℕ) : ℝ)‖ ≤ x ^ (2 * (k + n) + 1) / 1 := by gcongr
    _ = x ^ (2 * n + 1) * (x ^ 2) ^ k := by rw [div_one, ← pow_mul, ← pow_add]; congr 1; ring

/-- The rounded arctangent series. -/
theorem arctanInverse_near {scale : Nat} (hs : 0 < scale) (m : Nat) (hm : 1 < m) (n : Nat) :
    |Real.arctan (m : ℝ)⁻¹ - (arctanInverse scale m n : ℝ)| ≤ (m : ℝ)⁻¹ ^ (2 * n + 1) / (1 - (m : ℝ)⁻¹ ^ 2) + n / scale := by
  have hmR : (1 : ℝ) < m := by exact_mod_cast hm
  have hsR : (0 : ℝ) < scale := by exact_mod_cast hs
  have h := arctan_near ((m : ℝ)⁻¹) (by positivity) (inv_lt_one_of_one_lt₀ hmR) n
  have hr : |∑ k ∈ Finset.range n, (-1) ^ k * ((m : ℝ)⁻¹) ^ (2 * k + 1) / ((2 * k + 1 : ℕ) : ℝ) - (arctanInverse scale m n : ℝ)|
      ≤ n / scale := by
    clear h
    induction n with
    | zero => simp [arctanInverse]
    | succ n ih =>
      have hn := roundDown_near hs ((-1) ^ n / (m ^ (2 * n + 1) * (2 * n + 1) : Nat))
      have hnR : |(((-1) ^ n / (m ^ (2 * n + 1) * (2 * n + 1) : Nat) : Rat) : ℝ)
          - (roundDown scale ((-1) ^ n / (m ^ (2 * n + 1) * (2 * n + 1) : Nat)) : ℝ)| ≤ 1 / scale := by
        rw [← Rat.cast_sub]
        refine (abs_cast_le hn).trans_eq ?_
        push_cast
        rfl
      have e : (-1) ^ n * ((m : ℝ)⁻¹) ^ (2 * n + 1) / ((2 * n + 1 : ℕ) : ℝ)
          = (((-1) ^ n / (m ^ (2 * n + 1) * (2 * n + 1) : Nat) : Rat) : ℝ) := by
        push_cast
        rw [inv_pow, div_eq_mul_inv, div_eq_mul_inv, mul_inv]
        ring
      rw [arctanInverse, Finset.sum_range_succ, e, Rat.cast_add, Nat.cast_add, Nat.cast_one, add_div, add_sub_add_comm]
      exact (abs_add_le _ _).trans (add_le_add ih hnR)
  calc |Real.arctan (m : ℝ)⁻¹ - (arctanInverse scale m n : ℝ)| ≤ _ + _ := abs_sub_le _ _ _
    _ ≤ _ := add_le_add h hr

/-! ### precisions -/

/-- What makes a precision right: its pi is as near as it says, its tail bounds the series, and its scale is no less
than 2. -/
structure Precision.Sound (p : Precision) : Prop where
  pi_ge : 1 ≤ p.pi
  pi_le : p.pi ≤ 7 / 2
  near : |Real.pi - p.pi| ≤ p.piError
  enough : 8 ≤ 2 * p.terms + 1
  tail : (4 : ℝ) ^ (2 * p.terms) / ((2 * p.terms).factorial : ℝ) * 2 ≤ p.tail
  scale : 2 ≤ p.scale

theorem Precision.coarse_sound : Precision.coarse.Sound where
  pi_ge := by norm_num [Precision.coarse]
  pi_le := by norm_num [Precision.coarse]
  near := by
    have h1 := Real.pi_gt_d20
    have h2 := Real.pi_lt_d20
    rw [abs_le]
    norm_num [Precision.coarse] at *
    constructor <;> linarith
  enough := by norm_num [Precision.coarse]
  tail := by norm_num [Precision.coarse, Nat.factorial]
  scale := by norm_num [Precision.coarse]

theorem Precision.fine_sound : Precision.fine.Sound where
  pi_ge := by norm_num [Precision.fine]
  pi_le := by norm_num [Precision.fine]
  near := by
    have h1 := Real.pi_gt_d20
    have h2 := Real.pi_lt_d20
    rw [abs_le]
    norm_num [Precision.fine] at *
    constructor <;> linarith
  enough := by norm_num [Precision.fine]
  tail := by norm_num [Precision.fine, Nat.factorial]
  scale := by norm_num [Precision.fine]

theorem Precision.level_near (n : Nat) : |Real.pi - (Precision.level n).pi| ≤ (Precision.level n).piError := by
  have hs : 0 < 10 ^ (n + 3) := by positivity
  have h5 := arctanInverse_near hs 5 (by norm_num) (n + 3)
  have h239 := arctanInverse_near hs 239 (by norm_num) (n + 3)
  have hpi := Real.four_mul_arctan_inv_5_sub_arctan_inv_239
  have b5 : ((5 : ℕ) : ℝ)⁻¹ ^ (2 * (n + 3) + 1) / (1 - ((5 : ℕ) : ℝ)⁻¹ ^ 2) ≤ 5 / 24 * (1 / 10 ^ (n + 3)) := by
    have : ((5 : ℝ)⁻¹ ^ 2) ^ (n + 3) ≤ 1 / 10 ^ (n + 3) := by
      rw [← one_div_pow]
      exact pow_le_pow_left₀ (by positivity) (by norm_num) _
    rw [pow_succ, pow_mul]
    push_cast
    norm_num at this ⊢
    linarith
  have b239 : ((239 : ℕ) : ℝ)⁻¹ ^ (2 * (n + 3) + 1) / (1 - ((239 : ℕ) : ℝ)⁻¹ ^ 2) ≤ 1 / 200 * (1 / 10 ^ (n + 3)) := by
    have : ((239 : ℝ)⁻¹ ^ 2) ^ (n + 3) ≤ 1 / 10 ^ (n + 3) := by
      rw [← one_div_pow]
      exact pow_le_pow_left₀ (by positivity) (by norm_num) _
    rw [pow_succ, pow_mul]
    push_cast
    norm_num at this ⊢
    have pos : (0 : ℝ) ≤ (10 ^ (n + 3))⁻¹ := by positivity
    linarith
  simp only [Precision.level]
  push_cast at *
  set e5 := (5 : ℝ)⁻¹ ^ (2 * (n + 3) + 1) / (1 - (5 : ℝ)⁻¹ ^ 2)
  set e239 := (239 : ℝ)⁻¹ ^ (2 * (n + 3) + 1) / (1 - (239 : ℝ)⁻¹ ^ 2)
  have split : (20 * ((n : ℝ) + 3) + 5) / 10 ^ (n + 3) = 20 * (((n : ℝ) + 3) / 10 ^ (n + 3)) + 5 * (1 / 10 ^ (n + 3)) := by ring
  have pos : (0 : ℝ) ≤ 1 / 10 ^ (n + 3) := by positivity
  rw [split]
  rw [abs_le] at *
  constructor <;> linarith [h5.1, h5.2, h239.1, h239.2]

theorem Precision.level_piError_le (n : Nat) : (Precision.level n).piError ≤ 1 / 10 := by
  have h : n + 1 ≤ 10 ^ n := Nat.lt_pow_self (by norm_num)
  have h' : (n : Rat) + 1 ≤ 10 ^ n := by exact_mod_cast h
  simp only [Precision.level]
  rw [div_le_iff₀ (by positivity), pow_add]
  linarith

theorem Precision.level_sound (n : Nat) : (Precision.level n).Sound where
  pi_ge := by
    have h1 := abs_le.mp (Precision.level_near n)
    have h2 : ((Precision.level n).piError : ℝ) ≤ ((1 / 10 : Rat) : ℝ) := by exact_mod_cast Precision.level_piError_le n
    have : (1 : ℝ) ≤ (Precision.level n).pi := by
      push_cast at h2
      linarith [h1.2, Real.pi_gt_three]
    exact_mod_cast this
  pi_le := by
    have h1 := abs_le.mp (Precision.level_near n)
    have h2 : ((Precision.level n).piError : ℝ) ≤ ((1 / 10 : Rat) : ℝ) := by exact_mod_cast Precision.level_piError_le n
    have : ((Precision.level n).pi : ℝ) ≤ ((7 / 2 : Rat) : ℝ) := by
      push_cast at h2 ⊢
      linarith [h1.1, Real.pi_lt_d2]
    exact_mod_cast this
  near := Precision.level_near n
  enough := by
    simp only [Precision.level]
    omega
  tail := by
    simp only [Precision.level]
    push_cast
    exact le_of_eq (by ring)
  scale := by
    simp only [Precision.level]
    calc 2 ≤ 10 ^ 1 := by norm_num
      _ ≤ 10 ^ (n + 3) := Nat.pow_le_pow_right (by norm_num) (by omega)

/-! ### a tone and its rational neighbour -/

/-- The angle left when the nearest whole turn is taken away is at most half a turn. -/
theorem Tone.nearestTurn_near (p : Precision) (t : Tone) :
    |t.turns + t.phase / (2 * p.pi) - (t.nearestTurn p : Rat)| ≤ 1 / 2 := by
  have hfl : t.nearestTurn p = ⌊t.turns + t.phase / (2 * p.pi) + 1 / 2⌋ := rfl
  have l1 := Int.floor_le (t.turns + t.phase / (2 * p.pi) + 1 / 2)
  have l2 := Int.lt_floor_add_one (t.turns + t.phase / (2 * p.pi) + 1 / 2)
  rw [← hfl] at l1 l2
  rw [abs_le]
  constructor <;> linarith

/-- A tone's rational neighbour is as near as its error says. -/
theorem Tone.approx_near (p : Precision) (hp : p.Sound) (t : Tone) :
    |t.toReal - (t.approx p : ℝ)| ≤ (t.error p : ℝ) := by
  set n := t.nearestTurn p with hn
  set b : Rat := 2 * p.pi * (t.turns - n) + t.phase with hb
  set a : Rat := roundDown p.scale b with ha
  have hpi : (0 : Rat) < p.pi := by linarith [hp.pi_ge]
  have hs : 0 < p.scale := by linarith [hp.scale]
  have hsR : (0 : ℝ) < p.scale := by exact_mod_cast hs
  have hba := roundDown_near hs b
  rw [← ha] at hba
  have hs2 : (1 : Rat) / p.scale ≤ 1 / 2 := by
    have : (2 : Rat) ≤ p.scale := by exact_mod_cast hp.scale
    gcongr
  have hb4 : |b| ≤ 7 / 2 := by
    have hround := t.nearestTurn_near p
    rw [← hn] at hround
    have hbeq : b = 2 * p.pi * (t.turns + t.phase / (2 * p.pi) - n) := by
      rw [hb]
      field_simp
      ring
    rw [hbeq, abs_mul, abs_of_pos (by linarith)]
    nlinarith [hp.pi_le, hround]
  have ha4 : |a| ≤ 4 := by
    have := abs_sub_abs_le_abs_sub a b
    rw [abs_sub_comm] at this
    linarith
  have ha4' : |(a : ℝ)| ≤ 4 := by exact_mod_cast ha4
  have hexact := le_trans (exactSeries_near a p.terms ha4' hp.enough) hp.tail
  have hrounded : |((a * exactSeries (a * a) p.terms 1 : Rat) : ℝ) - ((a * sineSeries p.scale (a * a) p.terms 1 : Rat) : ℝ)|
      ≤ 60 / p.scale := by
    have h16 : a * a ≤ 16 := by nlinarith [abs_le.mp ha4]
    have h := sineSeries_near hs (mul_self_nonneg a) h16 p.terms
    have : |a * exactSeries (a * a) p.terms 1 - a * sineSeries p.scale (a * a) p.terms 1| ≤ 60 / p.scale := by
      rw [← mul_sub, abs_mul]
      calc |a| * _ ≤ 4 * (15 / p.scale) := by gcongr
        _ = 60 / p.scale := by ring
    have := abs_cast_le this
    rwa [Rat.cast_sub, Rat.cast_div, Rat.cast_natCast, Rat.cast_ofNat] at this
  have hangle : |Real.sin b - Real.sin a| ≤ 1 / p.scale := by
    refine le_trans (Real.abs_sin_sub_sin_le _ _) ?_
    have := abs_cast_le hba
    rwa [Rat.cast_sub, Rat.cast_div, Rat.cast_one, Rat.cast_natCast] at this
  have hsin : Real.sin (2 * Real.pi * (t.turns : ℝ) + t.phase)
      = Real.sin (2 * Real.pi * ((t.turns : ℝ) - n) + t.phase) := by
    rw [show 2 * Real.pi * ((t.turns : ℝ) - n) + (t.phase : ℝ) = 2 * Real.pi * (t.turns : ℝ) + t.phase - n * (2 * Real.pi) by ring]
    exact (Real.sin_sub_int_mul_two_pi _ _).symm
  have hlip : |Real.sin (2 * Real.pi * ((t.turns : ℝ) - n) + t.phase) - Real.sin b|
      ≤ 2 * (p.piError : ℝ) * |(t.turns : ℝ) - n| := by
    refine le_trans (Real.abs_sin_sub_sin_le _ _) ?_
    have : 2 * Real.pi * ((t.turns : ℝ) - n) + t.phase - (b : ℝ) = 2 * (Real.pi - p.pi) * ((t.turns : ℝ) - n) := by
      rw [hb]
      push_cast
      ring
    rw [this, abs_mul, abs_mul, abs_of_pos (by norm_num : (0 : ℝ) < 2)]
    gcongr
    exact hp.near
  have hval : t.toReal - (t.approx p : ℝ)
      = t.amp * (Real.sin (2 * Real.pi * ((t.turns : ℝ) - n) + t.phase) - ((a * sineSeries p.scale (a * a) p.terms 1 : Rat) : ℝ)) := by
    rw [Tone.toReal, hsin, Tone.approx]
    simp only [← hn, ← hb, ← ha]
    push_cast
    ring
  have herr : (t.error p : ℝ) = |(t.amp : ℝ)| * (2 * p.piError * |(t.turns : ℝ) - n| + 61 / p.scale + p.tail) := by
    rw [Tone.error, ← hn]
    push_cast
    rfl
  rw [hval, herr, abs_mul]
  refine mul_le_mul_of_nonneg_left ?_ (abs_nonneg _)
  calc |Real.sin (2 * Real.pi * ((t.turns : ℝ) - n) + t.phase) - ((a * sineSeries p.scale (a * a) p.terms 1 : Rat) : ℝ)|
      ≤ |Real.sin (2 * Real.pi * ((t.turns : ℝ) - n) + t.phase) - Real.sin b| + |Real.sin b - Real.sin a|
        + |Real.sin a - ((a * exactSeries (a * a) p.terms 1 : Rat) : ℝ)|
        + |((a * exactSeries (a * a) p.terms 1 : Rat) : ℝ) - ((a * sineSeries p.scale (a * a) p.terms 1 : Rat) : ℝ)| :=
        (abs_sub_le _ _ _).trans (add_le_add_left ((abs_sub_le _ _ _).trans (add_le_add_left (abs_sub_le _ _ _) _)) _)
    _ ≤ 2 * p.piError * |(t.turns : ℝ) - n| + 1 / p.scale + p.tail + 60 / p.scale := by gcongr
    _ = _ := by ring

/-- A sample's rational neighbour is as near as its error says. -/
theorem Sample.approx_near (p : Precision) (hp : p.Sound) (x : Sample) :
    |x.toReal - (x.approx p : ℝ)| ≤ (x.error p : ℝ) := by
  unfold Sample.toReal Sample.approx Sample.error
  induction x.tones with
  | nil => simp
  | cons t ts ih =>
    simp only [List.map_cons, List.sum_cons, Rat.cast_add]
    rw [show t.toReal + (ts.map Tone.toReal).sum - ((t.approx p : ℝ) + ((ts.map (Tone.approx p)).sum : ℝ))
      = (t.toReal - t.approx p) + ((ts.map Tone.toReal).sum - ((ts.map (Tone.approx p)).sum : ℝ)) by ring]
    refine le_trans (abs_add_le _ _) ?_
    exact add_le_add (t.approx_near p hp) ih

theorem Sample.signAt?_sound (p : Precision) (hp : p.Sound) (x : Sample) (o : Ordering) (h : x.signAt? p = some o) :
    IsSign o x.toReal := by
  have hn := abs_le.mp (x.approx_near p hp)
  unfold Sample.signAt? at h
  dsimp only at h
  split at h
  · rename_i hlt
    have : (x.error p : ℝ) < x.approx p := by exact_mod_cast hlt
    cases h
    show (0 : ℝ) < _
    linarith [hn.1]
  · split at h
    · rename_i hlt
      have : (x.approx p : ℝ) < -(x.error p : ℝ) := by exact_mod_cast hlt
      cases h
      show _ < (0 : ℝ)
      linarith [hn.2]
    · cases h

/-! ### some level settles every sign -/

/-- The errors of the levels, but for the tone's own factors. -/
theorem tendsto_level_error :
    Filter.Tendsto (fun n => ((Precision.level n).piError : ℝ)) Filter.atTop (nhds 0) ∧
    Filter.Tendsto (fun n => (61 / ((Precision.level n).scale : ℝ))) Filter.atTop (nhds 0) ∧
    Filter.Tendsto (fun n => ((Precision.level n).tail : ℝ)) Filter.atTop (nhds 0) := by
  have hr : |(1 / 10 : ℝ)| < 1 := by rw [abs_of_pos] <;> norm_num
  have p0 := tendsto_pow_atTop_nhds_zero_of_abs_lt_one hr
  have p1 := tendsto_pow_const_mul_const_pow_of_abs_lt_one 1 hr
  refine ⟨?_, ?_, ?_⟩
  · have h := ((p1.const_mul (20 / 1000)).add (p0.const_mul (65 / 1000)))
    simp only [mul_zero, add_zero] at h
    refine h.congr fun n => ?_
    simp only [Precision.level]
    push_cast
    rw [one_div_pow, pow_add, pow_one]
    field_simp
    ring
  · have h := p0.const_mul (61 / 1000)
    rw [mul_zero] at h
    refine h.congr fun n => ?_
    simp only [Precision.level]
    push_cast
    rw [one_div_pow, pow_add]
    field_simp
    norm_num
  · have hn : Filter.Tendsto (fun n : ℕ => 2 * (n / 2 + 10)) Filter.atTop Filter.atTop :=
      Filter.tendsto_atTop_mono (fun n => by show n ≤ _; omega) Filter.tendsto_id
    have h := ((FloorSemiring.tendsto_pow_div_factorial_atTop (4 : ℝ)).comp hn).const_mul 2
    rw [mul_zero] at h
    refine h.congr fun n => ?_
    simp only [Precision.level, Function.comp]
    push_cast
    ring

theorem Tone.error_level_le (n : Nat) (t : Tone) : (t.error (Precision.level n) : ℝ) ≤
    |(t.amp : ℝ)| * (2 * (Precision.level n).piError * (|(t.phase : ℝ)| + 1) + 61 / ((Precision.level n).scale : ℝ)
      + (Precision.level n).tail) := by
  have hs := Precision.level_sound n
  have hpi : (0 : ℝ) ≤ (Precision.level n).piError := (abs_nonneg _).trans hs.near
  have hround := t.nearestTurn_near (Precision.level n)
  have hturn : |t.turns - (t.nearestTurn (Precision.level n) : Rat)| ≤ |t.phase| + 1 := by
    have h1 := abs_sub_abs_le_abs_sub (t.turns - (t.nearestTurn (Precision.level n) : Rat)) (-(t.phase / (2 * (Precision.level n).pi)))
    have h2 : |t.phase / (2 * (Precision.level n).pi)| ≤ |t.phase| := by
      rw [abs_div]
      refine div_le_self (abs_nonneg _) ?_
      rw [abs_of_nonneg (by linarith [hs.pi_ge])]
      linarith [hs.pi_ge]
    rw [abs_neg, sub_neg_eq_add, sub_add_eq_add_sub] at h1
    linarith
  have hturnR : |(t.turns : ℝ) - (t.nearestTurn (Precision.level n) : ℝ)| ≤ |(t.phase : ℝ)| + 1 := by
    have := abs_cast_le hturn
    push_cast at this
    exact this
  rw [Tone.error]
  push_cast
  gcongr

theorem Sample.tendsto_error_level (x : Sample) :
    Filter.Tendsto (fun n => (x.error (Precision.level n) : ℝ)) Filter.atTop (nhds 0) := by
  obtain ⟨h1, h2, h3⟩ := tendsto_level_error
  have ht : ∀ t : Tone, Filter.Tendsto (fun n => (t.error (Precision.level n) : ℝ)) Filter.atTop (nhds 0) := by
    intro t
    have hb : Filter.Tendsto (fun n => |(t.amp : ℝ)| * (2 * ((Precision.level n).piError : ℝ) * (|(t.phase : ℝ)| + 1)
        + 61 / ((Precision.level n).scale : ℝ) + (Precision.level n).tail)) Filter.atTop (nhds 0) := by
      have := ((((h1.const_mul 2).mul_const (|(t.phase : ℝ)| + 1)).add h2).add h3).const_mul |(t.amp : ℝ)|
      simpa using this
    refine squeeze_zero (fun n => ?_) (fun n => t.error_level_le n) hb
    exact (abs_nonneg _).trans (t.approx_near _ (Precision.level_sound n))
  unfold Sample.error
  induction x.tones with
  | nil => simp
  | cons t l ih =>
    have := (ht t).add ih
    rw [add_zero] at this
    refine this.congr fun n => ?_
    simp only [List.map_cons, List.sum_cons]
    push_cast
    rfl

/-- Some level settles the sign of a sample that is not 0. -/
theorem Sample.exists_level_settles (x : Sample) (h : x.isZero = false) :
    ∃ n, (x.signAt? (Precision.level n)).isSome = true := by
  have h0 : x.toReal ≠ 0 := fun hx => by
    rw [(Sample.isZero_iff x).mpr hx] at h
    cases h
  obtain ⟨n, hn⟩ := (x.tendsto_error_level.eventually (gt_mem_nhds (half_pos (abs_pos.mpr h0)))).exists
  refine ⟨n, ?_⟩
  have hnear := abs_le.mp (x.approx_near _ (Precision.level_sound n))
  unfold Sample.signAt?
  rcases lt_or_gt_of_ne h0 with hneg | hpos
  · rw [abs_of_neg hneg] at hn
    have hlt : (x.approx (Precision.level n) : ℝ) < -(x.error (Precision.level n) : ℝ) := by linarith [hnear.1]
    have hlt' : x.approx (Precision.level n) < -(x.error (Precision.level n)) := by exact_mod_cast hlt
    dsimp only
    split_ifs <;> rfl
  · rw [abs_of_pos hpos] at hn
    have hlt : (x.error (Precision.level n) : ℝ) < (x.approx (Precision.level n) : ℝ) := by linarith [hnear.2]
    have hlt' : x.error (Precision.level n) < x.approx (Precision.level n) := by exact_mod_cast hlt
    dsimp only
    rw [if_pos hlt']
    rfl

end Sys2Proof
end

