-- ==== Sys2Proof/Machine/SampleOrder.lean ====
section
/-! DEFINITION. The order of samples, which is that of the real numbers they stand for (45_carrier_modem R231), rounding to one
decimal place (R232), and the pattern the bus shows. The search in `Sample.signSearch` ends because of a law of the
bounds, which is why this file imports Laws/Bounds.lean. -/

namespace Sys2Proof

/-! ### order (45_carrier_modem R231) -/

/-- The sign of a sample by the two cheap precisions, where one settles it. -/
def Sample.signQuick? (x : Sample) : Option Ordering :=
  match x.signAt? Precision.coarse with
  | some o => some o
  | none => x.signAt? Precision.fine

/-- The sign of a sample by levels of 100 to 12,800 decimal places, where one settles it. -/
def Sample.signDeep? (x : Sample) : Option Ordering :=
  [97, 197, 397, 797, 1597, 3197, 6397, 12797].findSome? fun n => x.signAt? (Precision.level n)

/-- The sign of a sample that is not 0, by the first level that settles it; there always is one. -/
def Sample.signSearch (x : Sample) (h : x.isZero = false) : Ordering :=
  (x.signAt? (Precision.level (Nat.find (x.exists_level_settles h)))).getD .eq

/-- The order of a sample against 0: `.lt` below, `.eq` equal, `.gt` above. It is that of the real number for every
sample (`Sample.sign_isSign`); the quick and deep tries only save work. -/
def Sample.sign (x : Sample) : Ordering :=
  let y := Sample.ofTones x.tones
  match y.signQuick? with
  | some o => o
  | none =>
    if h : y.isZero = true then .eq
    else
      match y.signDeep? with
      | some o => o
      | none => y.signSearch (Bool.eq_false_iff.mpr h)

/-- `x < y`. -/
def Sample.lt (x y : Sample) : Bool := (x.sub y).sign = .lt

/-- `x >= 0`. -/
def Sample.nonneg (x : Sample) : Bool := x.sign ≠ .lt

/-- The absolute value. -/
def Sample.abs (x : Sample) : Sample := if x.nonneg then x else x.neg

/-- The larger of two samples. -/
def Sample.max (x y : Sample) : Sample := if x.lt y then y else x

/-! ### rounding (45_carrier_modem R232) -/

/-- The tone is a rational number (a quarter turn in standard form). -/
def Tone.isRational (t : Tone) : Bool := t.turns = 1 / 4 ∧ t.phase = 0

/-- The rational number a sample in standard form is seen to be. -/
def Sample.rat? (x : Sample) : Option Rat :=
  match x.tones with
  | [] => some 0
  | [t] => if t.isRational then some t.amp else none
  | _ :: _ :: _ => none

/-- The greatest integer in `lo .. lo + 2^n - 1` that is not above `x`, by halving, for an `x` not below `lo`. -/
def Sample.floorFrom (x : Sample) : Nat → Int → Int
  | 0, lo => lo
  | n + 1, lo =>
    if x.lt (Sample.ofRat (lo + 2 ^ n : Int)) then Sample.floorFrom x n lo else Sample.floorFrom x n (lo + 2 ^ n)

/-- A natural number that no tone sum exceeds in absolute value. -/
def Sample.magnitude (x : Sample) : Nat := ((x.tones.map fun t : Tone => |t.amp|).sum.floor + 1).toNat

/-- The greatest integer not above a sample. -/
def Sample.floor (x : Sample) : Int :=
  match x.rat? with
  | some q => q.floor
  | none => x.floorFrom (x.magnitude.log2 + 2) (-(x.magnitude : Int))

/-- `round1` of 45_carrier_modem R232: the nearest multiple of 1/10; halfway, the one with an even numerator. -/
def Sample.round1 (x : Sample) : Rat :=
  let y := x.scale 10
  let f := y.floor
  let n : Int :=
    match (y.sub (Sample.ofRat ((f : Rat) + 1 / 2))).sign with
    | .lt => f
    | .gt => f + 1
    | .eq => if f % 2 = 0 then f else f + 1
  mkRat n 10

/-! ### the bus (10_state R44, 45_carrier_modem R231) -/

/-- The pattern the bus shows for a sample: its own, if it is a binary64 number; for 1/3 and -1/3 the pattern that
95_test_vectors gives for 1/3, with the sign; else a free value (log 9). -/
def Sample.onBus (x : Sample) : Finite64 :=
  match x.rat? with
  | some q =>
    match Finite64.ofRat? q with
    | some p => p
    | none =>
      if q = 1 / 3 ∨ q = -(1 / 3) then ⟨decide (q < 0), 1021, 0x5555555555555#52⟩ else Config.busRound x
  | none => Config.busRound x

end Sys2Proof
end

