-- ==== Sys2Proof/Machine/Operands.lean ====
section
/-! DEFINITION. How operations and the host read and form operands: buffer tags and lengths, the typed input stream,
the elements of the data ports, the scheme selectors, and the bit and byte views of a stream. -/

namespace Sys2Proof.Machine

/-! ### buffers (10_state R40 to R42) -/

/-- The type tag of a buffer (10_state R40). -/
def Buffer.tag : Buffer → Nat
  | .none => 0
  | .char _ => 1
  | .bit _ => 2
  | .byte _ => 3
  | .sym _ => 4
  | .sample _ => 5

/-- The number of elements of a buffer. -/
def Buffer.len : Buffer → Nat
  | .none => 0
  | .char d => d.length
  | .bit d => d.length
  | .byte d => d.length
  | .sym d => d.length
  | .sample d => d.length

/-- The empty buffer of the type `t[2:0]` of an `ITYPE` write; the reserved tags 6 and 7 give `NONE` (10_state R39). -/
def Buffer.emptyOfTag (t : Nat) : Buffer :=
  match t % 8 with
  | 1 => .char []
  | 2 => .bit []
  | 3 => .byte []
  | 4 => .sym []
  | 5 => .sample []
  | _ => .none

/-- Append one element in the low bits of `v` (10_state R39 `conv`, R40); `none` where the value is a non-finite
sample. A `NONE` buffer takes nothing. -/
def Buffer.append? (b : Buffer) (v : Nat) : Option Buffer :=
  match b with
  | .none => some .none
  | .char d => some (.char (d ++ [BitVec.ofNat 32 v]))
  | .bit d => some (.bit (d ++ [v.testBit 0]))
  | .byte d => some (.byte (d ++ [BitVec.ofNat 8 v]))
  | .sym d => some (.sym (d ++ [BitVec.ofNat 2 v]))
  | .sample d => (Finite64.ofNat? v).map fun x => .sample (d ++ [Sample.ofFinite64 x])

/-- The element at an index as the data port shows it, 0 past the end (10_state R39, R40; log 13). -/
def Buffer.elementAt (b : Buffer) (i : Nat) : Nat :=
  match b with
  | .none => 0
  | .char d => (d[i]?.map BitVec.toNat).getD 0
  | .bit d => (d[i]?.map Bool.toNat).getD 0
  | .byte d => (d[i]?.map BitVec.toNat).getD 0
  | .sym d => (d[i]?.map BitVec.toNat).getD 0
  | .sample d => (d[i]?.map fun x => x.onBus.toNat).getD 0

/-- `require_type(CHAR)` (00_scope R11). -/
def Buffer.char? : Buffer → Option (List CodePoint)
  | .char d => some d
  | .none | .bit _ | .byte _ | .sym _ | .sample _ => Option.none

/-- `require_type(BIT)` (00_scope R11). -/
def Buffer.bit? : Buffer → Option (List Bool)
  | .bit d => some d
  | .none | .char _ | .byte _ | .sym _ | .sample _ => Option.none

/-- `require_type(BYTE)` (00_scope R11). -/
def Buffer.byte? : Buffer → Option (List Byte)
  | .byte d => some d
  | .none | .char _ | .bit _ | .sym _ | .sample _ => Option.none

/-- `require_type(SYM)` (00_scope R11). -/
def Buffer.sym? : Buffer → Option (List Sym)
  | .sym d => some d
  | .none | .char _ | .bit _ | .byte _ | .sample _ => Option.none

/-- `require_type(SAMPLE)` (00_scope R11). -/
def Buffer.sample? : Buffer → Option (List Sample)
  | .sample d => some d
  | .none | .char _ | .bit _ | .byte _ | .sym _ => Option.none

/-! ### scheme selectors (10_state R24) -/

/-- `SCHEME.LINE_CODE`, bits 1:0; 3 is reserved. -/
def lineCode? (scheme : BitVec 8) : Option LineCode :=
  match (scheme.extractLsb' 0 2).toNat with
  | 0 => some .nrzPolar
  | 1 => some .manchester
  | 2 => some .bipolar
  | _ => none

/-- `SCHEME.CARRIER`, bits 3:2; 3 is reserved. -/
def carrier? (scheme : BitVec 8) : Option CarrierScheme :=
  match (scheme.extractLsb' 2 2).toNat with
  | 0 => some .ask
  | 1 => some .fsk
  | 2 => some .qam8
  | _ => none

/-- `SCHEME.FRAMING`, bits 5:4; 2 and 3 are reserved. -/
def framing? (scheme : BitVec 8) : Option FramingMethod :=
  match (scheme.extractLsb' 4 2).toNat with
  | 0 => some .charCount
  | 1 => some .byteStuffing
  | _ => none

/-- `SCHEME.ERRCTL`, bits 7:6. -/
def errorControl (scheme : BitVec 8) : ErrorControl :=
  match (scheme.extractLsb' 6 2).toNat with
  | 0 => .none
  | 1 => .parity
  | 2 => .crc32
  | _ => .hamming

/-! ### streams of bits and bytes (00_scope R9, R10) -/

/-- The first `k` consecutive pieces of `n` elements of a stream; the last may be shorter. -/
def slices {α : Type} (n k : Nat) (l : List α) : List (List α) :=
  (List.range k).map fun i => (l.drop (i * n)).take n

/-- `bits8(b)`: the bits of a byte, `b[7]` first (00_scope R10). -/
def bits8 (b : Byte) : List Bool := (List.range 8).map fun j => b.getLsbD (7 - j)

/-- The number whose bits are `g`, the first the most significant. -/
def msbFirst (g : List Bool) : Nat := g.foldl (fun acc b => 2 * acc + b.toNat) 0

/-- `byte(g)`: the byte of 8 bits, the first the most significant (00_scope R10). -/
def byteOf (g : List Bool) : Byte := BitVec.ofNat 8 (msbFirst g)

/-- `be32(v)`: the 32 bits of a value, bit 31 first (00_scope R10). -/
def be32 (v : BitVec 32) : List Bool := (List.range 32).map fun j => v.getLsbD (31 - j)

end Sys2Proof.Machine
end

