-- ==== Sys2Proof/Machine/Ops.lean ====
section
/-! DEFINITION. The operations every meaning is built from: reports of stages, the capacity of a buffer, fault entry
and its return, and the common template of an operation. -/

namespace Sys2Proof.Machine

/-! ### reports -/

/-- A stage that completes with a result and sets the flags `f`. -/
def Report.done {α : Type} (f : Flags) (a : α) : Report α := ⟨f, .ok a⟩

/-- A stage that completes and sets no flag. -/
def Report.pure {α : Type} (a : α) : Report α := ⟨Flags.clear, .ok a⟩

/-- A stage that raises a fault after setting the flags `f`. -/
def Report.fail {α : Type} (f : Flags) (kind : FaultKind) (info : Nat) : Report α := ⟨f, .error ⟨kind, info⟩⟩

/-- One stage after another: a stage is evaluated completely, flags included, before the next begins, and nothing
after the first fault is evaluated (60_exceptions R305). -/
def Report.bind {α β : Type} (r : Report α) (k : α → Report β) : Report β :=
  match r.result with
  | .error c => ⟨r.flags, .error c⟩
  | .ok a => ⟨r.flags.or (k a).flags, (k a).result⟩

/-- `if bad then raise kind(info)`, before what follows. -/
def Report.check {α : Type} (bad : Bool) (kind : FaultKind) (info : Nat) (k : Report α) : Report α :=
  if bad then Report.fail Flags.clear kind info else k

/-- `n` elements fit a buffer (20_memory R72). -/
def fits (cap : Option Nat) (n : Nat) : Bool :=
  match cap with
  | none => true
  | some c => n ≤ c

/-- Hold a stage's result to `BUF_CAP`: a longer one raises `CapacityError` with its length (00_scope R11 `emit`;
46_pipeline_and_channel R283). -/
def Report.fit {α : Type} (cap : Option Nat) (r : Report (List α)) : Report (List α) :=
  r.bind fun l => Report.check (!fits cap l.length) .capacityError l.length (Report.pure l)

/-! ### effects on the state -/

/-- Set flags; the others keep their values (10_state R22). -/
def State.setFlags (s : State) (f : Flags) : State := { s with flags := s.flags.or f }

/-- Replace OBUF whole (10_state R42). -/
def State.setObuf (s : State) (b : Buffer) : State := { s with obuf := b }

/-- Replace IBUF whole (10_state R41). -/
def State.setIbuf (s : State) (b : Buffer) : State := { s with ibuf := b }

/-- Write `DLEN` (10_state R34). -/
def State.setDlen (s : State) (n : Nat) : State := { s with dlen := n }

/-- Count a drawn `BITERR` mask (46_pipeline_and_channel R290; log 12). -/
def State.countDraw (s : State) : State := { s with draws := s.draws + 1 }

/-- FAULT ENTRY, `raise K(info)`: OBUF emptied, `STATUS.FAULT` and `FINFO` written, all else kept (60_exceptions
R310). Control goes nowhere, since there is no program counter, vector or saved state. -/
def State.raise (s : State) (c : Cause) : State :=
  { s with obuf := .none, fault := some c.kind, finfo := BitVec.ofNat 32 c.info }

/-- RETURN FROM THE FAULT STATE, what `CLR` does: `STATUS`, `FINFO`, both buffers and `OIDX` cleared, the
configuration and `DLEN` kept (40_system_ops R122, 60_exceptions R315). -/
def State.clearMessage (s : State) : State :=
  { s with fault := none, flags := Flags.clear, finfo := 0, ibuf := .none, obuf := .none, oidx := 0 }

/-- Every piece of the core's state at its reset value (10_state R46, 40_system_ops R123, 70_reset R340). The model's
own fields are no part of the core and keep their values (log 4). -/
def State.resetCore (s : State) : State :=
  { State.reset with bufCap := s.bufCap, draws := s.draws, program := s.program, pc := s.pc, observed := s.observed }

/-- The core is in the fault state, `STATUS.FAULT != 0` (60_exceptions R311). -/
def State.faulted (s : State) : Bool := s.fault.isSome

/-! ### the template of an operation -/

/-- An operation other than `NOP`, `CLR`, `RST` is dropped in the fault state: no state changes (60_exceptions R311;
log 15). -/
def unlessFaulted (s : State) (s' : State) : Outcome := if s.faulted then .next s else .next s'

/-- What a report does to the state: its flags are set, then its result is delivered or its fault is raised (60_exceptions
R305, R310). -/
def State.deliver {β : Type} (s : State) (r : Report β) (finish : State → β → State) : State :=
  match r.result with
  | .ok b => finish (s.setFlags r.flags) b
  | .error c => (s.setFlags r.flags).raise c

/-- The common shape of every transform (41_bit_converter R130): dropped in the fault state; `require_type`, which raises
`OperandTypeError(IBUF.type)`; then the stage and its delivery. -/
def transform {α β : Type} (s : State) (take : Buffer → Option α) (stage : α → Report β)
    (finish : State → β → State) : Outcome :=
  unlessFaulted s
    (match take s.ibuf with
     | none => s.raise ⟨.operandTypeError, s.ibuf.tag⟩
     | some a => s.deliver (stage a) finish)

end Sys2Proof.Machine
end

