-- ==== Sys2Proof/Machine/LineCoder.lean ====
section
/-! DEFINITION. The Line Coder: NRZ-Polar, Manchester, Bipolar (44_line_coder). The scheme comes from the command word. -/

namespace Sys2Proof.Machine

/-- What a line encoder leaves: the digital signal in OBUF and its length in `DLEN` (44_line_coder R212). -/
def State.finishEncode (s : State) (d : List Sym) : State := (s.setObuf (.sym d)).setDlen d.length

/-! ### NRZ-Polar (44_line_coder R211, R213) -/

/-- `true` becomes 1, `false` -1 (R211). -/
def nrzEncode (b : List Bool) : List Sym := b.map fun x => if x then Sym.one else Sym.negOne

/-- The symbol 1 becomes `true`, every other `false` (R213). -/
def nrzDecode (d : List Sym) : List Bool := d.map fun x => decide (x = Sym.one)

/-- `LC.NRZ.ENC` (R211). -/
def lcNrzEncStage (s : State) (b : List Bool) : Report (List Sym) := (Report.pure (nrzEncode b)).fit s.bufCap

/-- `LC.NRZ.DEC` (R213): only the symbol 1 is `true`. -/
def lcNrzDecStage (s : State) (d : List Sym) : Report (List Bool) := (Report.pure (nrzDecode d)).fit s.bufCap

/-- `LC.NRZ.ENC`: `BIT` in, `SYM` out (44_line_coder R211, R212). -/
def execLcNrzEnc (s : State) : Outcome := transform s Buffer.bit? (lcNrzEncStage s) State.finishEncode

/-- `LC.NRZ.DEC`: `SYM` in, `BIT` out (44_line_coder R213). -/
def execLcNrzDec (s : State) : Outcome :=
  transform s Buffer.sym? (lcNrzDecStage s) fun s' b => s'.setObuf (.bit b)

/-! ### Manchester (44_line_coder R214, R216) -/

/-- A slot holds the integer 0 or 1 (R214). -/
def slotSym (b : Bool) : Sym := if b then Sym.one else Sym.zero

/-- The two slots of a bit: `bit xor 0`, then `bit xor 1` (R214). -/
def manEncode (b : List Bool) : List Sym := b.flatMap fun x => [slotSym (x ^^ false), slotSym (x ^^ true)]

/-- The first slot of each pair, the second is not looked at (R216). -/
def manDecode (d : List Sym) : List Bool :=
  (List.range (d.length / 2)).map fun i => decide (d[2 * i]? = some Sym.one)

/-- `LC.MAN.ENC` (R214). -/
def lcManEncStage (s : State) (b : List Bool) : Report (List Sym) := (Report.pure (manEncode b)).fit s.bufCap

/-- `LC.MAN.DEC` (R216): an odd number of symbols raises `LengthError`. -/
def lcManDecStage (s : State) (d : List Sym) : Report (List Bool) :=
  (Report.check (d.length % 2 != 0) .lengthError d.length (Report.pure (manDecode d))).fit s.bufCap

/-- `LC.MAN.ENC`: `BIT` in, `SYM` out (44_line_coder R212, R214). -/
def execLcManEnc (s : State) : Outcome := transform s Buffer.bit? (lcManEncStage s) State.finishEncode

/-- `LC.MAN.DEC`: `SYM` in, `BIT` out (44_line_coder R216). -/
def execLcManDec (s : State) : Outcome :=
  transform s Buffer.sym? (lcManDecStage s) fun s' b => s'.setObuf (.bit b)

/-! ### Bipolar (44_line_coder R217, R219) -/

/-- The alternation from a given last polarity: a `true` bit flips it and emits it, a `false` bit emits 0 (R217). -/
def bipolarFrom : Sym → List Bool → List Sym
  | _, [] => []
  | last, true :: b => (-last) :: bipolarFrom (-last) b
  | last, false :: b => Sym.zero :: bipolarFrom last b

/-- `bipolar(b)`: the alternation from -1, so that the first `true` emits +1 (R217). -/
def bipolar (b : List Bool) : List Sym := bipolarFrom Sym.negOne b

/-- Every nonzero symbol is `true` (R219). -/
def bipDecode (d : List Sym) : List Bool := d.map fun x => decide (x ≠ Sym.zero)

/-- `LC.BIP.ENC` (R217). -/
def lcBipEncStage (s : State) (b : List Bool) : Report (List Sym) := (Report.pure (bipolar b)).fit s.bufCap

/-- `LC.BIP.DEC` (R219): alternation is not checked. -/
def lcBipDecStage (s : State) (d : List Sym) : Report (List Bool) := (Report.pure (bipDecode d)).fit s.bufCap

/-- `LC.BIP.ENC`: `BIT` in, `SYM` out (44_line_coder R212, R217). -/
def execLcBipEnc (s : State) : Outcome := transform s Buffer.bit? (lcBipEncStage s) State.finishEncode

/-- `LC.BIP.DEC`: `SYM` in, `BIT` out (44_line_coder R219). -/
def execLcBipDec (s : State) : Outcome :=
  transform s Buffer.sym? (lcBipDecStage s) fun s' b => s'.setObuf (.bit b)

end Sys2Proof.Machine
end

