-- ==== Sys2Proof/Machine/CarrierModem.lean ====
section
/-! DEFINITION. The Carrier Modem: ASK, FSK, 8-QAM (45_carrier_modem). Samples are exact reals (R231). -/

namespace Sys2Proof.Machine

/-! ### common definitions (45_carrier_modem R230 to R235) -/

/-- The logical value of a symbol (R233). -/
def logical : LineCode → Sym → Bool
  | .nrzPolar, x => decide (x = Sym.one)
  | .manchester, x => decide (x ≠ Sym.zero)
  | .bipolar, x => decide (x ≠ Sym.zero)

/-- `symbols_of`: a digital signal from logical values; Bipolar polarity is regenerated (R234). -/
def symbolsOf : LineCode → List Bool → List Sym
  | .nrzPolar, v => v.map fun x => if x then Sym.one else Sym.negOne
  | .manchester, v => v.map fun x => if x then Sym.one else Sym.zero
  | .bipolar, v => bipolar v

/-- `0x10000 + CSR[SCHEME]`, the information word of a reserved selector (60_exceptions R300). -/
def schemeInfo (s : State) : Nat := 0x10000 + s.scheme.toNat

/-- The checks common to the six operations: the line code, then `SAMPLE_COUNT` (R235). -/
def carrierChecks {α : Type} (s : State) (k : LineCode → Report α) : Report α :=
  match lineCode? s.scheme with
  | none => Report.fail Flags.clear .unsupportedScheme (schemeInfo s)
  | some lc => Report.check (s.sampleCount.toNat == 0) .configError 0x04 (k lc)

/-- The third check, of the demodulators: whole windows only (R235). The windows are handed on. -/
def demodChecks {α : Type} (s : State) (a : List Sample) (k : LineCode → List (List Sample) → Report α) : Report α :=
  carrierChecks s fun lc =>
    Report.check (a.length % s.sampleCount.toNat != 0) .lengthError a.length
      (k lc (slices s.sampleCount.toNat (a.length / s.sampleCount.toNat) a))

/-- `f * k / S`: the turns of the carrier at sample `k` of a window (R230). -/
def carrierTurns (s : State) (f : Rat) (k : Nat) : Rat := f * k / s.sampleCount.toNat

/-- `A * sin (2 * pi * f * k / S + ph)` for `k` in `0 .. S-1`: one window of a carrier (R230, R240, R245). -/
def sineWindow (s : State) (amp f ph : Rat) : List Sample :=
  (List.range s.sampleCount.toNat).map fun k => (Sample.sine (carrierTurns s f k) ph).scale amp

/-! ### ASK (45_carrier_modem R240, R241) -/

/-- `CM.ASK.MOD` (R240). -/
def cmAskModStage (s : State) (d : List Sym) : Report (List Sample) :=
  (carrierChecks s fun lc =>
    Report.pure (d.flatMap fun x =>
      sineWindow s (if logical lc x then s.ampOne.toRat else s.ampZero.toRat) s.frequency.toRat s.phase.toRat)).fit s.bufCap

/-- The largest absolute value of a window (R241). -/
def peak (w : List Sample) : Sample := (w.map Sample.abs).foldl Sample.max Sample.zero

/-- The decision of one window: against the midpoint under NRZ-Polar, by distance otherwise; a tie is logical 0 (R241). -/
def askOne (lc : LineCode) (a0 a1 : Rat) (w : List Sample) : Bool :=
  match lc with
  | .nrzPolar => (Sample.ofRat ((a0 + a1) / 2)).lt (peak w)
  | .manchester => ((peak w).sub (Sample.ofRat a1)).abs.lt ((peak w).sub (Sample.ofRat a0)).abs
  | .bipolar => ((peak w).sub (Sample.ofRat a1)).abs.lt ((peak w).sub (Sample.ofRat a0)).abs

/-- `CM.ASK.DEM` (R241). -/
def cmAskDemStage (s : State) (a : List Sample) : Report (List Sym) :=
  (demodChecks s a fun lc ws =>
    Report.pure (symbolsOf lc (ws.map (askOne lc s.ampZero.toRat s.ampOne.toRat)))).fit s.bufCap

/-- `CM.ASK.MOD`: `SYM` in, `SAMPLE` out (45_carrier_modem R240). -/
def execCmAskMod (s : State) : Outcome :=
  transform s Buffer.sym? (cmAskModStage s) fun s' a => s'.setObuf (.sample a)

/-- `CM.ASK.DEM`: `SAMPLE` in, `SYM` out (45_carrier_modem R241). -/
def execCmAskDem (s : State) : Outcome :=
  transform s Buffer.sample? (cmAskDemStage s) fun s' d => s'.setObuf (.sym d)

/-! ### FSK (45_carrier_modem R245 to R247) -/

/-- `CM.FSK.MOD` (R245). -/
def cmFskModStage (s : State) (d : List Sym) : Report (List Sample) :=
  (carrierChecks s fun lc =>
    Report.pure (d.flatMap fun x =>
      sineWindow s s.amplitude.toRat (if logical lc x then s.freqOne.toRat else s.freqZero.toRat) s.phase.toRat)).fit s.bufCap

/-- `crossings(w)`: how often neighbours differ in being non-negative (R246). -/
def crossings (w : List Sample) : Nat :=
  let signs := w.map Sample.nonneg
  ((signs.zip signs.tail).filter fun p => p.1 != p.2).length

/-- The decision of one window: the count is strictly nearer to `FREQ_ONE` (R247). -/
def fskOne (f0 f1 : Rat) (w : List Sample) : Bool := decide (|(crossings w : Rat) - f1| < |(crossings w : Rat) - f0|)

/-- `CM.FSK.DEM` (R247). -/
def cmFskDemStage (s : State) (a : List Sample) : Report (List Sym) :=
  (demodChecks s a fun lc ws =>
    Report.pure (symbolsOf lc (ws.map (fskOne s.freqZero.toRat s.freqOne.toRat)))).fit s.bufCap

/-- `CM.FSK.MOD`: `SYM` in, `SAMPLE` out (45_carrier_modem R245). -/
def execCmFskMod (s : State) : Outcome :=
  transform s Buffer.sym? (cmFskModStage s) fun s' a => s'.setObuf (.sample a)

/-- `CM.FSK.DEM`: `SAMPLE` in, `SYM` out (45_carrier_modem R247). -/
def execCmFskDem (s : State) : Outcome :=
  transform s Buffer.sample? (cmFskDemStage s) fun s' d => s'.setObuf (.sym d)

/-! ### 8-QAM (45_carrier_modem R250 to R256) -/

/-- The point `(I, Q)` of a code: `b0` selects the magnitude, `b1` the sign of I, `b2` the sign of Q (R250). -/
def qamPoint (code : Nat) : Rat × Rat :=
  let m : Rat := if code.testBit 2 then 1 / 3 else 1
  (if code.testBit 1 then -m else m, if code.testBit 0 then -m else m)

/-- `qam_pack`: logical bits, padded with zeros at the front to groups of three, as codes (R251). -/
def qamPack (lc : LineCode) (d : List Sym) : List Nat :=
  let p := (3 - d.length % 3) % 3
  let b := List.replicate p false ++ d.map (logical lc)
  (slices 3 (b.length / 3) b).map msbFirst

/-- The window of a point: `I * cos (2 * pi * f * k / S) + Q * sin (2 * pi * f * k / S)` (R253). -/
def qamWindow (s : State) (iq : Rat × Rat) : List Sample :=
  (List.range s.sampleCount.toNat).map fun k =>
    ((Sample.cosine (carrierTurns s s.frequency.toRat k)).scale iq.1).add
      ((Sample.sine (carrierTurns s s.frequency.toRat k) 0).scale iq.2)

/-- `CM.QAM.MOD` (R253). -/
def cmQamModStage (s : State) (d : List Sym) : Report (List Sample) :=
  (carrierChecks s fun lc =>
    Report.pure ((qamPack lc d).flatMap fun code => qamWindow s (qamPoint code))).fit s.bufCap

/-- `(2 / S) * sum over k of w[k] * reference(k)`: the correlation of a window with a reference (R254). -/
def correlate (s : State) (w : List Sample) (reference : Nat → Sample) : Sample :=
  (Sample.sum (w.zipIdx.map fun xk => xk.1.mul (reference xk.2))).scale (2 / (s.sampleCount.toNat : Rat))

/-- `qam_estimate` (R254). -/
def qamEstimate (s : State) (w : List Sample) : Rat × Rat :=
  ((correlate s w fun k => Sample.cosine (carrierTurns s s.frequency.toRat k)).round1,
   (correlate s w fun k => Sample.sine (carrierTurns s s.frequency.toRat k) 0).round1)

/-- The squared distance from an estimate to a point. -/
def qamDistance (e p : Rat × Rat) : Rat := (e.1 - p.1) * (e.1 - p.1) + (e.2 - p.2) * (e.2 - p.2)

/-- `qam_nearest`: the code of least distance, the lowest of several (R255). -/
def qamNearest (e : Rat × Rat) : Nat :=
  (List.range 8).foldl
    (fun best code => if qamDistance e (qamPoint code) < qamDistance e (qamPoint best) then code else best) 0

/-- The three bits of a code, `b0` first (R256). -/
def codeBits (code : Nat) : List Bool := [code.testBit 2, code.testBit 1, code.testBit 0]

/-- `CM.QAM.DEM` (R256): the front padding, `3 * N - DLEN` bits of 0 to 2, is dropped. -/
def cmQamDemStage (s : State) (a : List Sample) : Report (List Sym) :=
  (demodChecks s a fun lc ws =>
    let b := ws.flatMap fun w => codeBits (qamNearest (qamEstimate s w))
    let p : Int := 3 * ws.length - s.dlen
    Report.check (decide (p < 0 ∨ 2 < p)) .lengthError (3 * ws.length)
      (Report.pure (symbolsOf lc (b.drop p.toNat)))).fit s.bufCap

/-- `CM.QAM.MOD`: `SYM` in, `SAMPLE` out (45_carrier_modem R253). -/
def execCmQamMod (s : State) : Outcome :=
  transform s Buffer.sym? (cmQamModStage s) fun s' a => s'.setObuf (.sample a)

/-- `CM.QAM.DEM`: `SAMPLE` in, `SYM` out (45_carrier_modem R256). -/
def execCmQamDem (s : State) : Outcome :=
  transform s Buffer.sample? (cmQamDemStage s) fun s' d => s'.setObuf (.sym d)

end Sys2Proof.Machine
end

