-- ==== Sys2Proof/Machine/BitConverter.lean ====
section
/-! DEFINITION. The Bit Converter: `T2B`, `B2Y`, `Y2S`, `S2Y`, `Y2T` (41_bit_converter). -/

namespace Sys2Proof.Machine

/-- `bytes_to_bits` (41_bit_converter R135). -/
def bytesToBits (y : List Byte) : List Bool := y.flatMap bits8

/-- `bits_to_bytes`: the whole bytes, and whether trailing bits were dropped (41_bit_converter R132). -/
def bitsToBytes (b : List Bool) : List Byte × Bool :=
  ((slices 8 (b.length / 8) b).map byteOf, b.length % 8 != 0)

/-- Group payload bits into bytes, flagging `TRUNC` where bits were dropped (41_bit_converter R132, 42_error_control R150). -/
def groupBytes (f : Flags) (b : List Bool) : Report (List Byte) :=
  Report.done (f.or (Flags.truncation (bitsToBytes b).2)) (bitsToBytes b).1

/-- The largest code point `T2B` accepts (00_scope R7). -/
def charMax : Nat := 255

/-- `T2B` (41_bit_converter R131): the first code point above 255 raises `EncodingError` with its index. -/
def t2bStage (s : State) (t : List CodePoint) : Report (List Bool) :=
  (match t.findIdx? fun c : CodePoint => decide (charMax < c.toNat) with
   | some i => Report.fail Flags.clear .encodingError i
   | none => Report.pure (t.flatMap fun c : CodePoint => bits8 (c.setWidth 8))).fit s.bufCap

/-- `B2Y` (41_bit_converter R132). -/
def b2yStage (s : State) (b : List Bool) : Report (List Byte) := (groupBytes Flags.clear b).fit s.bufCap

/-- `Y2S` (41_bit_converter R135). -/
def y2sStage (s : State) (y : List Byte) : Report (List Bool) := (Report.pure (bytesToBits y)).fit s.bufCap

/-- `S2Y` (41_bit_converter R137): a length that is no multiple of 8 raises `LengthError`; `TRUNC` is never set. -/
def s2yStage (s : State) (b : List Bool) : Report (List Byte) :=
  (Report.check (b.length % 8 != 0) .lengthError b.length (Report.pure (bitsToBytes b).1)).fit s.bufCap

/-- `Y2T` (41_bit_converter R138): byte value to code point. -/
def y2tStage (s : State) (y : List Byte) : Report (List CodePoint) :=
  (Report.pure (y.map fun v => v.setWidth 32)).fit s.bufCap

/-- `T2B`: `CHAR` in, `BIT` out (41_bit_converter R131). -/
def execT2b (s : State) : Outcome :=
  transform s Buffer.char? (t2bStage s) fun s' b => s'.setObuf (.bit b)

/-- `B2Y`: `BIT` in, `BYTE` out (41_bit_converter R132). -/
def execB2y (s : State) : Outcome :=
  transform s Buffer.bit? (b2yStage s) fun s' y => s'.setObuf (.byte y)

/-- `Y2S`: `BYTE` in, `BIT` out (41_bit_converter R135). -/
def execY2s (s : State) : Outcome :=
  transform s Buffer.byte? (y2sStage s) fun s' b => s'.setObuf (.bit b)

/-- `S2Y`: `BIT` in, `BYTE` out (41_bit_converter R137). -/
def execS2y (s : State) : Outcome :=
  transform s Buffer.bit? (s2yStage s) fun s' y => s'.setObuf (.byte y)

/-- `Y2T`: `BYTE` in, `CHAR` out (41_bit_converter R138). -/
def execY2t (s : State) : Outcome :=
  transform s Buffer.byte? (y2tStage s) fun s' t => s'.setObuf (.char t)

end Sys2Proof.Machine
end

