-- ==== Sys2Proof/Machine/ErrorControl.lean ====
section
/-! DEFINITION. The Error-Control Codec: none, parity, CRC-32, Hamming (42_error_control). The whole input stream is one
message (R157). -/

namespace Sys2Proof.Machine

/-! ### none (42_error_control R151, R152) -/

/-- `EC.NONE.ENC` (R151). -/
def ecNoneEncStage (s : State) (y : List Byte) : Report (List Bool) := (Report.pure (bytesToBits y)).fit s.bufCap

/-- `EC.NONE.CHK` (R152): never sets `ERRDET`. -/
def ecNoneChkStage (s : State) (b : List Bool) : Report (List Byte) := (groupBytes Flags.clear b).fit s.bufCap

/-- `EC.NONE.ENC`: `BYTE` in, `BIT` out (42_error_control R151). -/
def execEcNoneEnc (s : State) : Outcome :=
  transform s Buffer.byte? (ecNoneEncStage s) fun s' b => s'.setObuf (.bit b)

/-- `EC.NONE.CHK`: `BIT` in, `BYTE` out (42_error_control R152). -/
def execEcNoneChk (s : State) : Outcome :=
  transform s Buffer.bit? (ecNoneChkStage s) fun s' y => s'.setObuf (.byte y)

/-! ### parity (42_error_control R153 to R155) -/

/-- `parity(b)`: the exclusive-or of all elements, 0 for the empty stream (R153). -/
def parity (b : List Bool) : Bool := b.foldl Bool.xor false

/-- `EC.PAR.ENC` (R154). -/
def ecParEncStage (s : State) (y : List Byte) : Report (List Bool) :=
  (Report.pure (bytesToBits y ++ [parity (bytesToBits y)])).fit s.bufCap

/-- `EC.PAR.CHK` (R155): the last bit is compared with the parity of the others. -/
def ecParChkStage (s : State) (b : List Bool) : Report (List Byte) :=
  (match b.getLast? with
   | none => Report.fail Flags.clear .lengthError 0
   | some last => groupBytes (Flags.mismatch (parity b.dropLast != last)) b.dropLast).fit s.bufCap

/-- `EC.PAR.ENC`: `BYTE` in, `BIT` out (42_error_control R154). -/
def execEcParEnc (s : State) : Outcome :=
  transform s Buffer.byte? (ecParEncStage s) fun s' b => s'.setObuf (.bit b)

/-- `EC.PAR.CHK`: `BIT` in, `BYTE` out (42_error_control R155). -/
def execEcParChk (s : State) : Outcome :=
  transform s Buffer.bit? (ecParChkStage s) fun s' y => s'.setObuf (.byte y)

/-! ### CRC-32 (42_error_control R160 to R163) -/

/-- The generator without its `x^32` term (R160). -/
def crc32Poly : BitVec 32 := 0x04C11DB7

/-- One step of the shift register (R160): the bit enters at bit 0, the bit shifted out decides the exclusive-or. -/
def crc32Step (reg : BitVec 32) (b : Bool) : BitVec 32 :=
  let shifted := reg <<< 1 ||| (BitVec.ofBool b).setWidth 32
  if reg.getLsbD 31 then shifted ^^^ crc32Poly else shifted

/-- `crc32_rem` (R160): the message bits, then 32 zero bits, through a register that starts at 0. -/
def crc32Rem (m : List Bool) : BitVec 32 := (m ++ List.replicate 32 false).foldl crc32Step 0

/-- `EC.CRC.ENC` (R162): the remainder is appended most significant bit first. -/
def ecCrcEncStage (s : State) (y : List Byte) : Report (List Bool) :=
  (Report.pure (bytesToBits y ++ be32 (crc32Rem (bytesToBits y)))).fit s.bufCap

/-- Bytes as one number, the first the most significant (20_memory R65). -/
def bigEndian (y : List Byte) : Nat := y.foldl (fun acc b => 256 * acc + b.toNat) 0

/-- The check of whole bytes in `EC.CRC.CHK` (R163): the last four are the received remainder. -/
def crcChecked (y : List Byte) : Report (List Byte) :=
  let payload := y.take (y.length - 4)
  let received := BitVec.ofNat 32 (bigEndian (y.drop (y.length - 4)))
  Report.check (decide (y.length < 4)) .lengthError y.length
    (Report.done (Flags.mismatch (crc32Rem (bytesToBits payload) != received)) payload)

/-- `EC.CRC.CHK` (R163): bits are grouped first, so `TRUNC` is set even where `LengthError` follows. -/
def ecCrcChkStage (s : State) (b : List Bool) : Report (List Byte) :=
  ((groupBytes Flags.clear b).bind crcChecked).fit s.bufCap

/-- `EC.CRC.ENC`: `BYTE` in, `BIT` out (42_error_control R162). -/
def execEcCrcEnc (s : State) : Outcome :=
  transform s Buffer.byte? (ecCrcEncStage s) fun s' b => s'.setObuf (.bit b)

/-- `EC.CRC.CHK`: `BIT` in, `BYTE` out (42_error_control R163). -/
def execEcCrcChk (s : State) : Outcome :=
  transform s Buffer.bit? (ecCrcChkStage s) fun s' y => s'.setObuf (.byte y)

/-! ### Hamming (42_error_control R170 to R173) -/

/-- The least `r` of `n` candidates from `r` up with `2^r >= m + r + 1`. -/
def hamRFrom (m : Nat) : Nat → Nat → Nat
  | 0, r => r
  | n + 1, r => if m + r + 1 ≤ 2 ^ r then r else hamRFrom m n (r + 1)

/-- `ham_r(m)`: the least `r` with `2^r >= m + r + 1` (R170); it is never above `m + 1`. -/
def hamR (m : Nat) : Nat := hamRFrom m (m + 1) 0

/-- The position is a power of two, a parity slot (R170). -/
def isPowerOfTwo (p : Nat) : Bool := p ≠ 0 ∧ 2 ^ p.log2 = p

/-- The `n` positions from `p` up: parity slots 0, the others the data bits in order (R171). -/
def hamPlace : Nat → Nat → List Bool → List Bool
  | 0, _, _ => []
  | n + 1, p, d =>
    if isPowerOfTwo p then false :: hamPlace n (p + 1) d
    else d.headD false :: hamPlace n (p + 1) d.tail

/-- The exclusive-or over all 1-indexed positions with bit `i` set (R171, R172). -/
def hamCheck (c : List Bool) (i : Nat) : Bool :=
  (c.zipIdx 1).foldl (fun acc bp => if bp.2.testBit i then acc ^^ bp.1 else acc) false

/-- `ham_encode` (R171). -/
def hamEncode (d : List Bool) : List Bool :=
  let r := hamR d.length
  (List.range r).foldl (fun c i => c.set (2 ^ i - 1) (hamCheck c i)) (hamPlace (d.length + r) 1 d)

/-- The error position: the sum of the powers of two, not above the length, whose check fails (R172). -/
def hamErrorPosition (c : List Bool) : Nat :=
  (((List.range (c.length.log2 + 1)).filter fun i => 2 ^ i ≤ c.length && hamCheck c i).map fun i => 2 ^ i).sum

/-- The elements at the positions that are no powers of two, in order (R172). -/
def hamStrip (c : List Bool) : List Bool :=
  ((c.zipIdx 1).filter fun bp => !isPowerOfTwo bp.2).map Prod.fst

/-- `ham_decode` (R172): the data bits and the error position; a position beyond the end flips nothing. -/
def hamDecode (c : List Bool) : List Bool × Nat :=
  let e := hamErrorPosition c
  (hamStrip (if e ≠ 0 ∧ e ≤ c.length then c.modify (e - 1) not else c), e)

/-- `EC.HAM.ENC` (R171). -/
def ecHamEncStage (s : State) (y : List Byte) : Report (List Bool) :=
  (Report.pure (hamEncode (bytesToBits y))).fit s.bufCap

/-- `EC.HAM.DEC` (R173). -/
def ecHamDecStage (s : State) (b : List Bool) : Report (List Byte) :=
  (groupBytes (Flags.correction ((hamDecode b).2 != 0)) (hamDecode b).1).fit s.bufCap

/-- `EC.HAM.ENC`: `BYTE` in, `BIT` out (42_error_control R171). -/
def execEcHamEnc (s : State) : Outcome :=
  transform s Buffer.byte? (ecHamEncStage s) fun s' b => s'.setObuf (.bit b)

/-- `EC.HAM.DEC`: `BIT` in, `BYTE` out (42_error_control R173). -/
def execEcHamDec (s : State) : Outcome :=
  transform s Buffer.bit? (ecHamDecStage s) fun s' y => s'.setObuf (.byte y)

end Sys2Proof.Machine
end

