-- ==== Sys2Proof/Machine/Framing.lean ====
section
/-! DEFINITION. The Framing Codec: character count and byte stuffing (43_framing). -/

namespace Sys2Proof.Machine

/-- `FLAG` (43_framing R190). -/
def flagByte : Byte := 0x16

/-- `ESC` (43_framing R190). -/
def escByte : Byte := 0x1B

/-- `chunks(p, F)`: pieces of `F` bytes, the last of 1 to `F`; none for the empty payload (43_framing R191). -/
def chunks (p : List Byte) (f : Nat) : List (List Byte) := slices f ((p.length + f - 1) / f) p

/-- The frame operations raise `ConfigError` with the register's number where `MAX_FRAME_SIZE` is 0 (43_framing R190). -/
def withFrameSize {α : Type} (s : State) (k : Nat → Report α) : Report α :=
  Report.check (s.maxFrameSize.toNat == 0) .configError 0x0C (k s.maxFrameSize.toNat)

/-! ### character count (43_framing R192, R194) -/

/-- A frame: its length byte, then its payload (R192). -/
def ccFrame (ch : List Byte) : List Byte := BitVec.ofNat 8 ch.length :: ch

/-- `FR.CC.F` (R192). -/
def frCcFStage (s : State) (p : List Byte) : Report (List Byte) :=
  (withFrameSize s fun f => Report.pure ((chunks p f).flatMap ccFrame)).fit s.bufCap

/-- The deframing loop (R194): `i` is the offset of the rest of the input, `out` what has been delivered. Each turn takes
at least the length byte, so as many turns as there are bytes are enough. -/
def ccDeframe : Nat → Nat → List Byte → List Byte → Report (List Byte)
  | 0, _, _, out => Report.pure out
  | _ + 1, _, [], out => Report.pure out
  | n + 1, i, l :: rest, out =>
    if rest.length < l.toNat then Report.fail Flags.clear .framingError i
    else ccDeframe n (i + 1 + l.toNat) (rest.drop l.toNat) (out ++ rest.take l.toNat)

/-- `FR.CC.D` (R194): reads no configuration. -/
def frCcDStage (s : State) (b : List Byte) : Report (List Byte) := (ccDeframe b.length 0 b []).fit s.bufCap

/-- `FR.CC.F`: `BYTE` in, `BYTE` out (43_framing R192). -/
def execFrCcF (s : State) : Outcome :=
  transform s Buffer.byte? (frCcFStage s) fun s' y => s'.setObuf (.byte y)

/-- `FR.CC.D`: `BYTE` in, `BYTE` out (43_framing R194). -/
def execFrCcD (s : State) : Outcome :=
  transform s Buffer.byte? (frCcDStage s) fun s' y => s'.setObuf (.byte y)

/-! ### byte stuffing (43_framing R196, R198) -/

/-- A payload byte as sent: `ESC` before `FLAG` and before `ESC` (R196). -/
def stuff (b : Byte) : List Byte := if b = flagByte ∨ b = escByte then [escByte, b] else [b]

/-- A frame: `FLAG`, the stuffed payload, `FLAG` (R196). -/
def bsFrame (ch : List Byte) : List Byte := [flagByte] ++ ch.flatMap stuff ++ [flagByte]

/-- `FR.BS.F` (R196). -/
def frBsFStage (s : State) (p : List Byte) : Report (List Byte) :=
  (withFrameSize s fun f => Report.pure ((chunks p f).flatMap bsFrame)).fit s.bufCap

/-- One byte of the deframing scan (R198): the escape flag and the output so far. -/
def bsScan (st : Bool × List Byte) (b : Byte) : Bool × List Byte :=
  if st.1 then (false, st.2 ++ [b])
  else if b = flagByte then st
  else if b = escByte then (true, st.2)
  else (false, st.2 ++ [b])

/-- `FR.BS.D` (R198): a stream that ends after an unescaped `ESC` raises `FramingError` with its length. -/
def frBsDStage (s : State) (b : List Byte) : Report (List Byte) :=
  let st := b.foldl bsScan (false, [])
  (Report.check st.1 .framingError b.length (Report.pure st.2)).fit s.bufCap

/-- `FR.BS.F`: `BYTE` in, `BYTE` out (43_framing R196). -/
def execFrBsF (s : State) : Outcome :=
  transform s Buffer.byte? (frBsFStage s) fun s' y => s'.setObuf (.byte y)

/-- `FR.BS.D`: `BYTE` in, `BYTE` out (43_framing R198). -/
def execFrBsD (s : State) : Outcome :=
  transform s Buffer.byte? (frBsDStage s) fun s' y => s'.setObuf (.byte y)

end Sys2Proof.Machine
end

