-- ==== Sys2Proof/Machine/Pipeline.lean ====
section
/-! DEFINITION. The whole-pipeline operations `ENCMSG`, `DECMSG` and the channel hook `BITERR` (46_pipeline_and_channel). -/

namespace Sys2Proof.Machine

/-! ### the stage a selector names (46_pipeline_and_channel R280, R285) -/

/-- The framing that `FRAMING` names (R280). -/
def frameStage (s : State) : FramingMethod → List Byte → Report (List Byte)
  | .charCount => frCcFStage s
  | .byteStuffing => frBsFStage s

/-- The deframing that `FRAMING` names (R285). -/
def deframeStage (s : State) : FramingMethod → List Byte → Report (List Byte)
  | .charCount => frCcDStage s
  | .byteStuffing => frBsDStage s

/-- The error-control encoding that `ERRCTL` names (R280). -/
def ecEncodeStage (s : State) : ErrorControl → List Byte → Report (List Bool)
  | .none => ecNoneEncStage s
  | .parity => ecParEncStage s
  | .crc32 => ecCrcEncStage s
  | .hamming => ecHamEncStage s

/-- The error-control check that `ERRCTL` names (R285). -/
def ecCheckStage (s : State) : ErrorControl → List Bool → Report (List Byte)
  | .none => ecNoneChkStage s
  | .parity => ecParChkStage s
  | .crc32 => ecCrcChkStage s
  | .hamming => ecHamDecStage s

/-- The line encoding that `LINE_CODE` names (R280). -/
def lineEncodeStage (s : State) : LineCode → List Bool → Report (List Sym)
  | .nrzPolar => lcNrzEncStage s
  | .manchester => lcManEncStage s
  | .bipolar => lcBipEncStage s

/-- The line decoding that `LINE_CODE` names (R285). -/
def lineDecodeStage (s : State) : LineCode → List Sym → Report (List Bool)
  | .nrzPolar => lcNrzDecStage s
  | .manchester => lcManDecStage s
  | .bipolar => lcBipDecStage s

/-- The modulation that `CARRIER` names (R280). -/
def modulateStage (s : State) : CarrierScheme → List Sym → Report (List Sample)
  | .ask => cmAskModStage s
  | .fsk => cmFskModStage s
  | .qam8 => cmQamModStage s

/-- The demodulation that `CARRIER` names (R285). -/
def demodulateStage (s : State) : CarrierScheme → List Sample → Report (List Sym)
  | .ask => cmAskDemStage s
  | .fsk => cmFskDemStage s
  | .qam8 => cmQamDemStage s

/-- The selectors of `ENCMSG` and `DECMSG`; a reserved one raises `UnsupportedScheme` (R280, R285). All values of `ERRCTL`
are valid. -/
def withSelectors {α : Type} (s : State)
    (k : LineCode → CarrierScheme → FramingMethod → ErrorControl → Report α) : Report α :=
  match lineCode? s.scheme, carrier? s.scheme, framing? s.scheme with
  | some lc, some cs, some fm => k lc cs fm (errorControl s.scheme)
  | _, _, _ => Report.fail Flags.clear .unsupportedScheme (schemeInfo s)

/-! ### ENCMSG (46_pipeline_and_channel R280, R281) -/

/-- The stages after the checks: the samples, with the length of the digital signal. -/
def encodeChain (s : State) (lc : LineCode) (cs : CarrierScheme) (fm : FramingMethod) (ec : ErrorControl)
    (t : List CodePoint) : Report (List Sample × Nat) :=
  (t2bStage s t).bind fun b =>
  (b2yStage s b).bind fun y =>
  (frameStage s fm y).bind fun f =>
  (ecEncodeStage s ec f).bind fun e =>
  (lineEncodeStage s lc e).bind fun d =>
  (modulateStage s cs d).bind fun a =>
  Report.pure (a, d.length)

/-- `ENCMSG`: selectors, then `MAX_FRAME_SIZE`, then `SAMPLE_COUNT`, then the stages (R280). -/
def encmsgStage (s : State) (t : List CodePoint) : Report (List Sample × Nat) :=
  withSelectors s fun lc cs fm ec =>
    Report.check (s.maxFrameSize.toNat == 0) .configError 0x0C
      (Report.check (s.sampleCount.toNat == 0) .configError 0x04 (encodeChain s lc cs fm ec t))

/-- `DLEN` is written on completion only, whatever the carrier scheme (R280, R281). -/
def execEncmsg (s : State) : Outcome :=
  transform s Buffer.char? (encmsgStage s) fun s' r => (s'.setObuf (.sample r.1)).setDlen r.2

/-! ### DECMSG (46_pipeline_and_channel R285) -/

/-- The stages after the checks. -/
def decodeChain (s : State) (lc : LineCode) (cs : CarrierScheme) (fm : FramingMethod) (ec : ErrorControl)
    (a : List Sample) : Report (List CodePoint) :=
  (demodulateStage s cs a).bind fun d =>
  (lineDecodeStage s lc d).bind fun e =>
  (ecCheckStage s ec e).bind fun f =>
  (deframeStage s fm f).bind fun y =>
  y2tStage s y

/-- `DECMSG`: selectors, then `SAMPLE_COUNT`, then the stages; `MAX_FRAME_SIZE` is not read (R285). -/
def decmsgStage (s : State) (a : List Sample) : Report (List CodePoint) :=
  withSelectors s fun lc cs fm ec =>
    Report.check (s.sampleCount.toNat == 0) .configError 0x04 (decodeChain s lc cs fm ec a)

/-- `DECMSG`: `SAMPLE` in, `CHAR` out (46_pipeline_and_channel R285). -/
def execDecmsg (s : State) : Outcome :=
  transform s Buffer.sample? (decmsgStage s) fun s' t => s'.setObuf (.char t)

/-! ### BITERR (46_pipeline_and_channel R290, R291) -/

/-- Bit `i` of the mask: 0 at 0 per mille, 1 at 1000 per mille, a free value between (R290). -/
def flipBit (s : State) (i : Nat) : Bool :=
  if s.errPermille.toNat = 0 then false
  else if s.errPermille.toNat = 1000 then true
  else Config.channelFlip s.draws i

/-- `BITERR` (R290): more than 1000 per mille raises `ConfigError`. -/
def biterrStage (s : State) (b : List Bool) : Report (List Bool) :=
  (Report.check (decide (1000 < s.errPermille.toNat)) .configError 0x0E
    (Report.pure (b.mapIdx fun i x => x ^^ flipBit s i))).fit s.bufCap

/-- `BITERR`: `BIT` in, `BIT` out (46_pipeline_and_channel R290; the draw is counted, log 12). -/
def execBiterr (s : State) : Outcome :=
  transform s Buffer.bit? (biterrStage s) fun s' b => (s'.setObuf (.bit b)).countDraw

end Sys2Proof.Machine
end

