-- ==== Sys2Proof/Machine/System.lean ====
section
/-! DEFINITION. The system operations `NOP`, `XFER`, `CLR`, `RST` (40_system_ops R120 to R124). -/

namespace Sys2Proof.Machine

/-- `NOP`: nothing changes, in the fault state too (40_system_ops R120). -/
def execNop (s : State) : Outcome := .next s

/-- `XFER`: OBUF becomes IBUF and is emptied; dropped in the fault state (40_system_ops R121). -/
def execXfer (s : State) : Outcome := unlessFaulted s ((s.setIbuf s.obuf).setObuf .none)

/-- `CLR`: the message and the fault state end; executes in the fault state too (40_system_ops R122). -/
def execClr (s : State) : Outcome := .next s.clearMessage

/-- `RST`: the reset state; executes in the fault state too (40_system_ops R123). -/
def execRst (s : State) : Outcome := .next s.resetCore

end Sys2Proof.Machine
end

