-- ==== Sys2Proof/Machine/Dispatch.lean ====
section
/-! DEFINITION. One arm per operation: the whole effect of writing its word to `CMD` (10_state R37). -/

namespace Sys2Proof.Machine

/-- What an operation does to the state. -/
def exec (i : Instr) (s : State) : Host.Outcome State Fault Refusal :=
  match i with
  | .nop => Sys2Proof.Machine.execNop s
  | .xfer => Sys2Proof.Machine.execXfer s
  | .clr => Sys2Proof.Machine.execClr s
  | .rst => Sys2Proof.Machine.execRst s
  | .t2b => Sys2Proof.Machine.execT2b s
  | .b2y => Sys2Proof.Machine.execB2y s
  | .y2s => Sys2Proof.Machine.execY2s s
  | .s2y => Sys2Proof.Machine.execS2y s
  | .y2t => Sys2Proof.Machine.execY2t s
  | .ecNoneEnc => Sys2Proof.Machine.execEcNoneEnc s
  | .ecNoneChk => Sys2Proof.Machine.execEcNoneChk s
  | .ecParEnc => Sys2Proof.Machine.execEcParEnc s
  | .ecParChk => Sys2Proof.Machine.execEcParChk s
  | .ecCrcEnc => Sys2Proof.Machine.execEcCrcEnc s
  | .ecCrcChk => Sys2Proof.Machine.execEcCrcChk s
  | .ecHamEnc => Sys2Proof.Machine.execEcHamEnc s
  | .ecHamDec => Sys2Proof.Machine.execEcHamDec s
  | .frCcF => Sys2Proof.Machine.execFrCcF s
  | .frCcD => Sys2Proof.Machine.execFrCcD s
  | .frBsF => Sys2Proof.Machine.execFrBsF s
  | .frBsD => Sys2Proof.Machine.execFrBsD s
  | .lcNrzEnc => Sys2Proof.Machine.execLcNrzEnc s
  | .lcNrzDec => Sys2Proof.Machine.execLcNrzDec s
  | .lcManEnc => Sys2Proof.Machine.execLcManEnc s
  | .lcManDec => Sys2Proof.Machine.execLcManDec s
  | .lcBipEnc => Sys2Proof.Machine.execLcBipEnc s
  | .lcBipDec => Sys2Proof.Machine.execLcBipDec s
  | .cmAskMod => Sys2Proof.Machine.execCmAskMod s
  | .cmAskDem => Sys2Proof.Machine.execCmAskDem s
  | .cmFskMod => Sys2Proof.Machine.execCmFskMod s
  | .cmFskDem => Sys2Proof.Machine.execCmFskDem s
  | .cmQamMod => Sys2Proof.Machine.execCmQamMod s
  | .cmQamDem => Sys2Proof.Machine.execCmQamDem s
  | .encmsg => Sys2Proof.Machine.execEncmsg s
  | .decmsg => Sys2Proof.Machine.execDecmsg s
  | .biterr => Sys2Proof.Machine.execBiterr s

end Sys2Proof.Machine
end

