-- ==== Sys2Proof/Machine/HostPort.lean ====
section
/-! DEFINITION. The host interface: command words, register writes and reads, hardware reset, and the fetch of the
host's next event (10_state R37 to R39, 20_memory R60, 60_exceptions R311, R312). -/

namespace Sys2Proof.Machine

/-- The fault a word that is no operation raises, with the word (30_encoding R96, 60_exceptions R300). -/
def decodeCause (w : CommandWord) : DecodeError → Cause
  | .illegalCommand => ⟨.illegalCommand, w.toNat⟩
  | .unsupportedScheme => ⟨.unsupportedScheme, w.toNat⟩

/-- A command word written to `CMD` (10_state R37). A word that is an operation runs it; the meanings themselves drop
every operation but `NOP`, `CLR`, `RST` in the fault state. Any other word raises its fault, unless the core is in the
fault state, where it is dropped undecoded (30_encoding R96, 60_exceptions R311). -/
def command (w : CommandWord) (s : State) : Outcome :=
  match decode w with
  | .ok i => exec i s
  | .error e => unlessFaulted s (s.raise (decodeCause w e))

/-- `RegWrite(IDATA, v)`: append to IBUF; ignored while its type is `NONE`; a full IBUF raises `CapacityError`, or nothing
in the fault state (10_state R39, 60_exceptions R312; log 16); a non-finite sample is refused (93 U9; log 10). -/
def writeIdata (s : State) (v : Nat) : Outcome :=
  match s.ibuf with
  | .none => .next s
  | b =>
    match s.bufCap with
    | some c => if c ≤ b.len then unlessFaulted s (s.raise ⟨.capacityError, c⟩) else appendIbuf b
    | none => appendIbuf b
where
  appendIbuf (b : Buffer) : Outcome :=
    match b.append? v with
    | some b' => .next (s.setIbuf b')
    | none => .refused .nonFiniteSample

/-- A write of a `Sample` register: the low 64 bits, if they are finite (10_state R38, R44; 93 U9; log 10). -/
def writeSample (v : Nat) (k : Finite64 → State) : Outcome :=
  match Finite64.ofNat? v with
  | some x => .next (k x)
  | none => .refused .nonFiniteSample

/-- `RegWrite(n, v)`: a value wider than the register keeps the low bits of its width; a write of a reserved number or a
read-only register is ignored (10_state R38, R39). -/
def regWrite (n v : Nat) (s : State) : Outcome :=
  match RegName.ofNumber? n with
  | none => .next s
  | some .cmd => command (BitVec.ofNat 16 v) s
  | some .status => .next s
  | some .finfo => .next s
  | some .scheme => .next { s with scheme := BitVec.ofNat 8 v }
  | some .sampleCount => .next { s with sampleCount := BitVec.ofNat 32 v }
  | some .amplitude => writeSample v fun x => { s with amplitude := x }
  | some .frequency => writeSample v fun x => { s with frequency := x }
  | some .phase => writeSample v fun x => { s with phase := x }
  | some .ampZero => writeSample v fun x => { s with ampZero := x }
  | some .ampOne => writeSample v fun x => { s with ampOne := x }
  | some .freqZero => writeSample v fun x => { s with freqZero := x }
  | some .freqOne => writeSample v fun x => { s with freqOne := x }
  | some .maxFrameSize => .next { s with maxFrameSize := BitVec.ofNat 8 v }
  | some .dlen => .next (s.setDlen (v % 2 ^ 32))
  | some .errPermille => .next { s with errPermille := BitVec.ofNat 16 v }
  | some .itype => .next (s.setIbuf (Buffer.emptyOfTag v))
  | some .ilen => .next s
  | some .idata => writeIdata s v
  | some .otype => .next s
  | some .olen => .next s
  | some .oidx => .next { s with oidx := BitVec.ofNat 32 v }
  | some .odata => .next s

/-- `RegRead(n)`: no read has a side effect; a reserved number or a write-only register reads 0 (10_state R38, R39,
20_memory R70). -/
def regRead (n : Nat) (s : State) : Nat :=
  match RegName.ofNumber? n with
  | none => 0
  | some .cmd => 0
  | some .status => s.status.toNat
  | some .finfo => s.finfo.toNat
  | some .scheme => s.scheme.toNat
  | some .sampleCount => s.sampleCount.toNat
  | some .amplitude => s.amplitude.toNat
  | some .frequency => s.frequency.toNat
  | some .phase => s.phase.toNat
  | some .ampZero => s.ampZero.toNat
  | some .ampOne => s.ampOne.toNat
  | some .freqZero => s.freqZero.toNat
  | some .freqOne => s.freqOne.toNat
  | some .maxFrameSize => s.maxFrameSize.toNat
  | some .dlen => s.dlen
  | some .errPermille => s.errPermille.toNat
  | some .itype => s.ibuf.tag
  | some .ilen => s.ibuf.len
  | some .idata => 0
  | some .otype => s.obuf.tag
  | some .olen => s.obuf.len
  | some .oidx => s.oidx.toNat
  | some .odata => s.obuf.elementAt s.oidx.toNat

/-- Hand a read value to the host (30_encoding R110; log 3). -/
def State.observe (s : State) (v : Nat) : State := { s with observed := s.observed ++ [v] }

/-- One host event: each completes before the next begins (20_memory R69, R73). -/
def hostEvent (e : HostEvent) (s : State) : Outcome :=
  match e with
  | .write n v => regWrite n v s
  | .read n => .next (s.observe (regRead n s))
  | .hardReset => .next s.resetCore

/-- The host's next event (10_state R20). -/
def State.fetch (s : State) : Option HostEvent := s.program[s.pc]?

/-- The host's position moves on by one (10_state R20). -/
def State.advance (s : State) : State := { s with pc := s.pc + 1 }

/-- The event and then the move of the host's position, which every completed event makes (10_state R20). -/
def runEvent (e : HostEvent) (s : State) : Outcome :=
  match hostEvent e s with
  | .next s' => .next s'.advance
  | .fault r => .fault r
  | .refused r => .refused r

/-- Put an event at the host's next position; where the list ends before it, `NOP` writes fill it up (log 1). -/
def State.placeEvent (s : State) (e : HostEvent) : State :=
  { s with
    program := s.program.take s.pc ++ List.replicate (s.pc - s.program.length) (.write 0 0) ++
      e :: s.program.drop (s.pc + 1) }

end Sys2Proof.Machine
end

