-- ==== Sys2Proof/Machine/Step.lean ====
section
/-! DEFINITION. One step of the machine: the host's next event. -/

namespace Sys2Proof.Machine

/-- One host event; when the host's list is exhausted the core stays as it is (10_state R20, 60_exceptions R334; log 2). -/
def step (s : State) : Host.Outcome State Fault Refusal :=
  match s.fetch with
  | some e => runEvent e s
  | none => .next s

/-- The write of a word of the opcode table to `CMD`, placed where `step` fetches next (log 1). -/
def State.withFetchWord (s : State) (nbits w : Nat) : State :=
  s.placeEvent (.write 0 (tableWord nbits w).toNat)

end Sys2Proof.Machine
end

