-- ==== Sys2Proof/Machine/Assembler.lean ====
section
/-! DEFINITION. The assembler: the host events each line and pseudo-operation stands for (30_encoding R110, R111). -/

namespace Sys2Proof.Machine

/-- The tag of the element type an `LD` line loads (30_encoding R110, 10_state R40). -/
def ElemType.tag : ElemType → Nat
  | .char => 1
  | .bit => 2
  | .byte => 3
  | .sym => 4
  | .sample => 5

/-- The `LINE_CODE` number of a name (10_state R24). -/
def LineCode.number : LineCode → Nat
  | .nrzPolar => 0
  | .manchester => 1
  | .bipolar => 2

/-- The `CARRIER` number of a name (10_state R24). -/
def CarrierScheme.number : CarrierScheme → Nat
  | .ask => 0
  | .fsk => 1
  | .qam8 => 2

/-- The `FRAMING` number of a name (10_state R24). -/
def FramingMethod.number : FramingMethod → Nat
  | .charCount => 0
  | .byteStuffing => 1

/-- The `ERRCTL` number of a name (10_state R24). -/
def ErrorControl.number : ErrorControl → Nat
  | .none => 0
  | .parity => 1
  | .crc32 => 2
  | .hamming => 3

/-- The value of a `SCHEME` line, `lc + 4*cs + 16*fm + 64*ec` (30_encoding R111). -/
def schemeValue (lc : LineCode) (cs : CarrierScheme) (fm : FramingMethod) (ec : ErrorControl) : Nat :=
  LineCode.number lc + 4 * CarrierScheme.number cs + 16 * FramingMethod.number fm + 64 * ErrorControl.number ec

/-- The write of a register by its name. -/
def writeOf (reg : RegName) (value : Nat) : HostEvent := .write reg.number value

/-- The read of a register by its name. -/
def readOf (reg : RegName) : HostEvent := .read reg.number

/-- The start of an operation. -/
def startOf (i : Instr) : HostEvent := writeOf .cmd (encode i).toNat

/-- The host events of a line, for an OBUF of `olen` elements when the line is an `OUT` (30_encoding R110, R111; log 20). -/
def Line.expand (olen : Nat) : Line → List HostEvent
  | .wr reg value => [writeOf reg value]
  | .rd reg => [readOf reg]
  | .ld type elems => writeOf .itype (ElemType.tag type) :: elems.map (writeOf .idata)
  | .op i => [startOf i]
  | .cmd value => [writeOf .cmd value]
  | .out =>
    readOf .otype :: readOf .olen :: (List.range olen).flatMap fun i => [writeOf .oidx i, readOf .odata]
  | .thenOp i => [startOf .xfer, startOf i]
  | .scheme lc cs fm ec => [writeOf .scheme (schemeValue lc cs fm ec)]
  | .config samples amplitude frequency phase =>
    [writeOf .sampleCount samples, writeOf .amplitude amplitude, writeOf .frequency frequency, writeOf .phase phase]
  | .askParams a0 a1 => [writeOf .ampZero a0, writeOf .ampOne a1]
  | .fskParams f0 f1 => [writeOf .freqZero f0, writeOf .freqOne f1]

end Sys2Proof.Machine
end

