-- ==== Sys2Proof/Safety.lean ====
section
/-! DEFINITION. The terms the claims are stated in: the invariant of the machine, and plain readings of the
spec's tables and formulas that do not go through the machine's own definitions. -/

namespace Sys2Proof

namespace Machine

/-! ### states -/

/-- Ready to run an operation on the buffer `b`: no fault stands and IBUF holds `b`. -/
def State.Holds (s : State) (b : Buffer) : Prop := s.fault = none ∧ s.ibuf = b

/-- A buffer has room for `n` elements (20_memory R72). -/
def State.Room (s : State) (n : Nat) : Prop := ∀ c, s.bufCap = some c → n ≤ c

/-- The state that `raise kind(info)` leaves: three writes and nothing else (60_exceptions R310). -/
def State.afterFault (s : State) (kind : FaultKind) (info : Nat) : State :=
  { s with obuf := .none, fault := some kind, finfo := BitVec.ofNat 32 info }

/-- The table of reset values (10_state R46). -/
structure State.AtReset (s : State) : Prop where
  fault : s.fault = none
  flags : s.flags = ⟨false, false, false, false⟩
  finfo : s.finfo = 0
  scheme : s.scheme = 0
  sampleCount : s.sampleCount = 0
  amplitude : s.amplitude = ⟨false, 0, 0⟩
  frequency : s.frequency = ⟨false, 0, 0⟩
  phase : s.phase = ⟨false, 0, 0⟩
  ampZero : s.ampZero = ⟨false, 0, 0⟩
  ampOne : s.ampOne = ⟨false, 0, 0⟩
  freqZero : s.freqZero = ⟨false, 0, 0⟩
  freqOne : s.freqOne = ⟨false, 0, 0⟩
  maxFrameSize : s.maxFrameSize = 4
  dlen : s.dlen = 0
  errPermille : s.errPermille = 0
  ibuf : s.ibuf = .none
  obuf : s.obuf = .none
  oidx : s.oidx = 0

/-- The invariant of the machine: what holds at reset and after every step. -/
structure State.Inv (s : State) : Prop where
  /-- `ERRDET = CHKMISMATCH or CORRECTED` (10_state R21) -/
  errdet : s.flags.errdet = (s.flags.chkmismatch || s.flags.corrected)
  /-- IBUF holds at most `BUF_CAP` elements (10_state R41) -/
  ibufRoom : s.Room s.ibuf.len
  /-- OBUF holds at most `BUF_CAP` elements (10_state R42) -/
  obufRoom : s.Room s.obuf.len
  /-- a finite `BUF_CAP` is at most `2^32 - 1` (20_memory R72) -/
  capWidth : ∀ c, s.bufCap = some c → c ≤ 2 ^ 32 - 1
  /-- with a finite `BUF_CAP`, `DLEN` fits its 32 bits (10_state R34, 20_memory R72) -/
  dlenWidth : ∀ c, s.bufCap = some c → s.dlen ≤ 2 ^ 32 - 1
  /-- with `BUF_CAP` unbounded no `CapacityError` occurs (20_memory R72) -/
  noCapacity : s.bufCap = none → s.fault ≠ some .capacityError
  /-- while a fault stands, OBUF is empty (60_exceptions R310, R311) -/
  faultEmpties : s.fault ≠ none → s.obuf = .none
  /-- `FINFO` is 0 while no fault stands (10_state R23) -/
  finfoClear : s.fault = none → s.finfo = 0
  /-- no operation produces the symbol -2 (10_state R43) -/
  noMinusTwo : ∀ d, s.obuf = .sym d → 2#2 ∉ d
  /-- the host's position is an index into its list, or its end (10_state R20) -/
  position : s.pc ≤ s.program.length

/-! ### operations -/

/-- The input column of the opcode map: the tag of the stream an operation takes (30_encoding R95). -/
def inputTag : Instr → Option Nat
  | .nop | .xfer | .clr | .rst => none
  | .t2b | .encmsg => some 1
  | .b2y | .s2y | .ecNoneChk | .ecParChk | .ecCrcChk | .ecHamDec => some 2
  | .lcNrzEnc | .lcManEnc | .lcBipEnc | .biterr => some 2
  | .y2s | .y2t | .ecNoneEnc | .ecParEnc | .ecCrcEnc | .ecHamEnc => some 3
  | .frCcF | .frCcD | .frBsF | .frBsD => some 3
  | .lcNrzDec | .lcManDec | .lcBipDec | .cmAskMod | .cmFskMod | .cmQamMod => some 4
  | .cmAskDem | .cmFskDem | .cmQamDem | .decmsg => some 5

/-- The output column of the opcode map (30_encoding R95). -/
def outputTag : Instr → Option Nat
  | .nop | .xfer | .clr | .rst => none
  | .y2t | .decmsg => some 1
  | .t2b | .y2s | .ecNoneEnc | .ecParEnc | .ecCrcEnc | .ecHamEnc => some 2
  | .lcNrzDec | .lcManDec | .lcBipDec | .biterr => some 2
  | .b2y | .s2y | .ecNoneChk | .ecParChk | .ecCrcChk | .ecHamDec => some 3
  | .frCcF | .frCcD | .frBsF | .frBsD => some 3
  | .lcNrzEnc | .lcManEnc | .lcBipEnc | .cmAskDem | .cmFskDem | .cmQamDem => some 4
  | .cmAskMod | .cmFskMod | .cmQamMod | .encmsg => some 5

/-- The operations that write `DLEN` when they complete (10_state R34). -/
def writesDlen (i : Instr) : Bool := i = .lcNrzEnc ∨ i = .lcManEnc ∨ i = .lcBipEnc ∨ i = .encmsg

/-- The flags an operation can set (10_state R21; the flag lines of files 41 to 46). -/
def flagsSetBy : Instr → Flags
  | .b2y | .ecNoneChk => ⟨false, false, false, true⟩
  | .ecParChk | .ecCrcChk => ⟨true, true, false, true⟩
  | .ecHamDec => ⟨true, false, true, true⟩
  | .decmsg => ⟨true, true, true, true⟩
  | .nop | .xfer | .clr | .rst | .t2b | .y2s | .s2y | .y2t => ⟨false, false, false, false⟩
  | .ecNoneEnc | .ecParEnc | .ecCrcEnc | .ecHamEnc => ⟨false, false, false, false⟩
  | .frCcF | .frCcD | .frBsF | .frBsD => ⟨false, false, false, false⟩
  | .lcNrzEnc | .lcNrzDec | .lcManEnc | .lcManDec | .lcBipEnc | .lcBipDec => ⟨false, false, false, false⟩
  | .cmAskMod | .cmAskDem | .cmFskMod | .cmFskDem | .cmQamMod | .cmQamDem => ⟨false, false, false, false⟩
  | .encmsg | .biterr => ⟨false, false, false, false⟩

/-- Every flag of `f` is set in `g`. -/
def Flags.le (f g : Flags) : Prop :=
  (f.errdet = true → g.errdet = true) ∧ (f.chkmismatch = true → g.chkmismatch = true) ∧
    (f.corrected = true → g.corrected = true) ∧ (f.trunc = true → g.trunc = true)

/-- An operation raises `OperandTypeError` with the tag it finds, on every state but one that holds the tag it takes,
and whatever the configuration (60_exceptions R305; the fault lines of files 41 to 46). -/
def ChecksType (i : Instr) (tag : Nat) : Prop :=
  ∀ s : State, s.fault = none → s.ibuf.tag ≠ tag → exec i s = .next (s.afterFault .operandTypeError s.ibuf.tag)

/-- Operations one after another, each started when the one before has ended (20_memory R73). -/
def runOps : List Instr → State → Outcome
  | [], s => .next s
  | i :: is, s =>
    match exec i s with
    | .next t => runOps is t
    | .fault r => .fault r
    | .refused r => .refused r

/-- The operations of a list with `XFER` between them: the first, then `THEN` each of the others (30_encoding R111). -/
def chain : List Instr → List Instr
  | [] => []
  | [i] => [i]
  | i :: j :: is => i :: .xfer :: chain (j :: is)

/-- Host events one after another, without the host's list (20_memory R73). -/
def runEvents : List HostEvent → State → Outcome
  | [], s => .next s
  | e :: es, s =>
    match hostEvent e s with
    | .next t => runEvents es t
    | .fault r => .fault r
    | .refused r => .refused r

/-- The registers that hold what is written to them, with their widths (10_state R38). -/
def plainRegisters : List (Nat × Nat) :=
  [(0x03, 8), (0x04, 32), (0x05, 64), (0x06, 64), (0x07, 64), (0x08, 64), (0x09, 64), (0x0A, 64), (0x0B, 64),
   (0x0C, 8), (0x0D, 32), (0x0E, 16), (0x16, 32)]

/-- The numbers that name no register (10_state R38). -/
def reservedNumber (n : Nat) : Prop := n = 0x0F ∨ n = 0x13 ∨ 0x18 ≤ n

/-- The codes of the faults (60_exceptions R300). -/
def causeCode : Option FaultKind → Nat
  | none => 0
  | some .encodingError => 1
  | some .framingError => 2
  | some .unsupportedScheme => 3
  | some .lengthError => 4
  | some .configError => 5
  | some .operandTypeError => 6
  | some .capacityError => 7
  | some .illegalCommand => 8

/-! ### the fields of `SCHEME` as numbers (10_state R24) -/

/-- `LINE_CODE`. -/
def State.lineCode (s : State) : Nat := s.scheme.toNat % 4

/-- `CARRIER`. -/
def State.carrier (s : State) : Nat := s.scheme.toNat / 4 % 4

/-- `FRAMING`. -/
def State.framing (s : State) : Nat := s.scheme.toNat / 16 % 4

/-- `ERRCTL`. -/
def State.errctl (s : State) : Nat := s.scheme.toNat / 64 % 4

/-- `S`, the value of `SAMPLE_COUNT`. -/
def State.samples (s : State) : Nat := s.sampleCount.toNat

/-- All four selectors hold values in use: 72 combinations (46_pipeline_and_channel R280). -/
def State.selectorsValid (s : State) : Prop := s.lineCode < 3 ∧ s.carrier < 3 ∧ s.framing < 2

/-- The framing operation that a selector names (46_pipeline_and_channel R280). -/
def frameOp (fm : Nat) : Instr := if fm = 0 then .frCcF else .frBsF

/-- The deframing operation that a selector names (46_pipeline_and_channel R285). -/
def deframeOp (fm : Nat) : Instr := if fm = 0 then .frCcD else .frBsD

/-- The error-control encoding that a selector names (46_pipeline_and_channel R280). -/
def errctlEncodeOp (ec : Nat) : Instr :=
  if ec = 0 then .ecNoneEnc else if ec = 1 then .ecParEnc else if ec = 2 then .ecCrcEnc else .ecHamEnc

/-- The error-control check that a selector names (46_pipeline_and_channel R285). -/
def errctlCheckOp (ec : Nat) : Instr :=
  if ec = 0 then .ecNoneChk else if ec = 1 then .ecParChk else if ec = 2 then .ecCrcChk else .ecHamDec

/-- The line encoding that a selector names (46_pipeline_and_channel R280). -/
def lineEncodeOp (lc : Nat) : Instr := if lc = 0 then .lcNrzEnc else if lc = 1 then .lcManEnc else .lcBipEnc

/-- The line decoding that a selector names (46_pipeline_and_channel R285). -/
def lineDecodeOp (lc : Nat) : Instr := if lc = 0 then .lcNrzDec else if lc = 1 then .lcManDec else .lcBipDec

/-- The modulation that a selector names (46_pipeline_and_channel R280). -/
def modulateOp (cs : Nat) : Instr := if cs = 0 then .cmAskMod else if cs = 1 then .cmFskMod else .cmQamMod

/-- The demodulation that a selector names (46_pipeline_and_channel R285). -/
def demodulateOp (cs : Nat) : Instr := if cs = 0 then .cmAskDem else if cs = 1 then .cmFskDem else .cmQamDem

/-- The six operations of the carrier modem. -/
def isCarrier (i : Instr) : Bool :=
  i = .cmAskMod ∨ i = .cmAskDem ∨ i = .cmFskMod ∨ i = .cmFskDem ∨ i = .cmQamMod ∨ i = .cmQamDem

/-- The three demodulators. -/
def isDemodulator (i : Instr) : Bool := i = .cmAskDem ∨ i = .cmFskDem ∨ i = .cmQamDem

/-- The two whole-pipeline operations. -/
def isPipeline (i : Instr) : Bool := i = .encmsg ∨ i = .decmsg

/-- An operation takes part in carrier scheme number `cs`: the single stages by their word, the whole-pipeline
operations by the selector (10_state R36). -/
def usesCarrier (i : Instr) (s : State) (cs : Nat) (single : List Instr) (whole : List Instr) : Prop :=
  i ∈ single ∨ (i ∈ whole ∧ s.carrier = cs)

/-- Two states agree on every register and field that an operation reads by the table of 10_state R36. -/
structure State.AgreeFor (i : Instr) (s t : State) : Prop where
  lineCode : isCarrier i = true ∨ isPipeline i = true → s.lineCode = t.lineCode
  selectors : isPipeline i = true → s.scheme = t.scheme
  sampleCount : isCarrier i = true ∨ isPipeline i = true → s.sampleCount = t.sampleCount
  amplitude : usesCarrier i s 1 [.cmFskMod] [.encmsg] → s.amplitude = t.amplitude
  frequency : usesCarrier i s 0 [.cmAskMod] [.encmsg] ∨ usesCarrier i s 2 [.cmQamMod, .cmQamDem] [.encmsg, .decmsg] →
    s.frequency = t.frequency
  phase : usesCarrier i s 0 [.cmAskMod] [.encmsg] ∨ usesCarrier i s 1 [.cmFskMod] [.encmsg] → s.phase = t.phase
  ask : usesCarrier i s 0 [.cmAskMod, .cmAskDem] [.encmsg, .decmsg] → s.ampZero = t.ampZero ∧ s.ampOne = t.ampOne
  fsk : usesCarrier i s 1 [.cmFskMod, .cmFskDem] [.encmsg, .decmsg] → s.freqZero = t.freqZero ∧ s.freqOne = t.freqOne
  maxFrameSize : i = .frCcF ∨ i = .frBsF ∨ i = .encmsg → s.maxFrameSize = t.maxFrameSize
  dlen : usesCarrier i s 2 [.cmQamDem] [.decmsg] → s.dlen = t.dlen
  errPermille : i = .biterr → s.errPermille = t.errPermille

/-! ### streams -/

/-- Bit `k` of a stream of bytes, the most significant bit of each byte first (20_memory R64). -/
def byteBit? (y : List Byte) (k : Nat) : Option Bool := y[k / 8]?.map fun b => b.getLsbD (7 - k % 8)

/-- `b` is the bits of the bytes `y`, eight of each (41_bit_converter R135). -/
def BitsOf (y : List Byte) (b : List Bool) : Prop := b.length = 8 * y.length ∧ ∀ k, b[k]? = byteBit? y k

/-- `y` is the whole bytes of the bits `b`; trailing bits are in none (41_bit_converter R132). -/
def BytesOf (b : List Bool) (y : List Byte) : Prop :=
  y.length = b.length / 8 ∧ ∀ k < 8 * (b.length / 8), byteBit? y k = b[k]?

/-- A stream of bits has an odd number of ones. -/
def odd (b : List Bool) : Bool := b.count true % 2 = 1

/-- At how many positions two streams of one length differ. -/
def differences (b c : List Bool) : Nat := ((b.zip c).filter fun p => p.1 != p.2).length

/-- A frame of the character-count method (43_framing R192). -/
def lengthFrame (ch : List Byte) : List Byte := BitVec.ofNat 8 ch.length :: ch

/-- A frame of the byte-stuffing method (43_framing R196). -/
def flagFrame (ch : List Byte) : List Byte :=
  [0x16#8] ++ (ch.flatMap fun b => if b = 0x16#8 ∨ b = 0x1B#8 then [0x1B#8, b] else [b]) ++ [0x16#8]

/-- `chs` cuts `p` into chunks of `f`: all but the last of exactly `f` bytes, the last of 1 to `f` (43_framing R191). -/
def IsChunking (f : Nat) (p : List Byte) (chs : List (List Byte)) : Prop :=
  chs.flatten = p ∧ (∀ ch ∈ chs, 1 ≤ ch.length ∧ ch.length ≤ f) ∧ ∀ ch ∈ chs.dropLast, ch.length = f

/-- What a byte-stuffed stream delivers; `none` where it ends after an unescaped `ESC` (43_framing R198). -/
def unstuffed : List Byte → Option (List Byte)
  | [] => some []
  | [b] => if b = 0x16#8 then some [] else if b = 0x1B#8 then none else some [b]
  | b :: c :: rest =>
    if b = 0x16#8 then unstuffed (c :: rest)
    else if b = 0x1B#8 then (unstuffed rest).map (c :: ·)
    else (unstuffed (c :: rest)).map (b :: ·)

/-! ### error control (42_error_control) -/

/-- The polynomial over GF(2) of a stream of bits, the first element the highest power (42_error_control R160). -/
noncomputable def bitsPoly (m : List Bool) : Polynomial (ZMod 2) :=
  ∑ i ∈ Finset.range m.length, if m[i]? = some true then Polynomial.X ^ (m.length - 1 - i) else 0

/-- The polynomial whose coefficient of `x^j` is bit `j` of a register (42_error_control R161). -/
noncomputable def registerPoly (r : BitVec 32) : Polynomial (ZMod 2) :=
  ∑ j ∈ Finset.range 32, if r.getLsbD j then Polynomial.X ^ j else 0

open Polynomial in
/-- The generator `G(x)` (42_error_control R160). -/
noncomputable def crcGenerator : Polynomial (ZMod 2) :=
  X ^ 32 + X ^ 26 + X ^ 23 + X ^ 22 + X ^ 16 + X ^ 12 + X ^ 11 + X ^ 10 + X ^ 8 + X ^ 7 + X ^ 5 + X ^ 4 + X ^ 2 + X + 1

/-- Check `i` of a codeword fails: an odd number of ones at the 1-indexed positions with bit `i` set (42_error_control
R171, R172). -/
def checkFails (w : List Bool) (i : Nat) : Bool :=
  ((List.range w.length).countP fun k => (k + 1).testBit i && decide (w[k]? = some true)) % 2 = 1

/-- The sum of the powers of two, none above the length, whose check fails (42_error_control R172). -/
def failingSum (c : List Bool) : Nat :=
  ((List.range c.length).map fun i => if 2 ^ i ≤ c.length ∧ checkFails c i = true then 2 ^ i else 0).sum

/-- The elements at the positions that are no powers of two, in order (42_error_control R170, R172). -/
def dataBits (w : List Bool) : List Bool :=
  (List.range w.length).filterMap fun k => if ∃ i < k + 1, 2 ^ i = k + 1 then none else w[k]?

/-- A codeword with the bit at a 1-indexed position flipped; a position of 0 or past the end flips none. -/
def flipPosition (c : List Bool) (p : Nat) : List Bool := c.mapIdx fun k b => if k + 1 = p then !b else b

/-! ### symbols and samples -/

/-- The logical value of a symbol on the carrier, by the number of the line code (45_carrier_modem R233). -/
def logicalBit (lc : Nat) (x : Sym) : Bool := if lc = 0 then x = 1#2 else x ≠ 0#2

/-- The symbol of bit `i` of a stream, by the number of the line code; the `k`-th `true` of Bipolar is +1 for odd `k`,
-1 for even `k` (44_line_coder R211, R217; 45_carrier_modem R234). -/
def symbolAt (lc : Nat) (v : List Bool) (i : Nat) (x : Bool) : Sym :=
  if lc = 0 then (if x then 1#2 else 3#2)
  else if lc = 1 then (if x then 1#2 else 0#2)
  else if x then (if odd (v.take (i + 1)) then 1#2 else 3#2) else 0#2

/-- A digital signal from logical values (45_carrier_modem R234). -/
def symbolStream (lc : Nat) (v : List Bool) : List Sym := v.mapIdx (symbolAt lc v)

/-- The signals a line encoder of a code can produce (44_line_coder R210). -/
def IsSignal (lc : Nat) (d : List Sym) : Prop :=
  ∃ v : List Bool, d = if lc = 1 then v.flatMap fun x => if x then [1#2, 0#2] else [0#2, 1#2] else symbolStream lc v

/-- The carrier argument of sample `k` of a window (45_carrier_modem R230). -/
noncomputable def carrierAngle (s : State) (f : Rat) (k : Nat) : ℝ := 2 * Real.pi * (f : ℝ) * (k : ℝ) / (s.samples : ℝ)

/-- How many pieces of `n` elements a stream of `k` elements takes, `ceil(k / n)`. -/
def pieces (k n : Nat) : Nat := (k + n - 1) / n

/-- The number of bytes a framed payload takes, by the number of the method (43_framing R192, R196; 20_memory R71). -/
def framedLength (fm f : Nat) (p : List Byte) : Nat :=
  if fm = 0 then p.length + pieces p.length f
  else p.length + 2 * pieces p.length f + p.countP fun b => b = 0x16#8 ∨ b = 0x1B#8

/-- The number of bits that `m` bytes take under an error control, by its number (42_error_control R151, R154, R162, R171;
20_memory R71). -/
def encodedLength (ec m : Nat) : Nat :=
  if ec = 0 then 8 * m else if ec = 1 then 8 * m + 1 else if ec = 2 then 8 * m + 32 else 8 * m + hamR (8 * m)

/-- The length of the digital signal of a text whose code points are at most 255, by the selectors: two symbols for each
bit under Manchester, else one (44_line_coder R211, R214, R217; 46_pipeline_and_channel R280). -/
def signalLength (s : State) (t : List CodePoint) : Nat :=
  let bits := encodedLength s.errctl (framedLength s.framing s.maxFrameSize.toNat (t.map fun c => c.setWidth 8))
  if s.lineCode = 1 then 2 * bits else bits

/-- The number of windows that `n` symbols take: one for each, or one for each group of three under 8-QAM
(45_carrier_modem R240, R245, R253). -/
def windowCount (cs n : Nat) : Nat := if cs = 2 then pieces n 3 else n

/-- The number of elements an operation produces, for the operations that the table of 20_memory R71 lists. -/
def outputLength (i : Instr) (s : State) : Option Nat :=
  let n := s.ibuf.len
  match i with
  | .t2b | .y2s | .ecNoneEnc => some (8 * n)
  | .b2y | .s2y => some (n / 8)
  | .y2t | .lcNrzEnc | .lcBipEnc | .lcNrzDec | .lcBipDec | .biterr => some n
  | .ecParEnc => some (8 * n + 1)
  | .ecCrcEnc => some (8 * n + 32)
  | .ecHamEnc => some (8 * n + hamR (8 * n))
  | .frCcF => s.ibuf.byte?.map (framedLength 0 s.maxFrameSize.toNat)
  | .frBsF => s.ibuf.byte?.map (framedLength 1 s.maxFrameSize.toNat)
  | .lcManEnc => some (2 * n)
  | .lcManDec => some (n / 2)
  | .cmAskMod | .cmFskMod => some (n * s.samples)
  | .cmQamMod => some (pieces n 3 * s.samples)
  | .cmAskDem | .cmFskDem => some (n / s.samples)
  | .cmQamDem => some s.dlen
  | .nop | .xfer | .clr | .rst | .ecNoneChk | .ecParChk | .ecCrcChk | .ecHamDec | .frCcD | .frBsD => none
  | .encmsg | .decmsg => none

/-- Window `j` of a stream of samples, as the real numbers they stand for (45_carrier_modem R231, R235). -/
noncomputable def windowOf (s : State) (a : List Sample) (j : Nat) : List ℝ :=
  ((a.drop (j * s.samples)).take s.samples).map Sample.toReal

/-- The largest absolute value of a window (45_carrier_modem R241). -/
noncomputable def largest (w : List ℝ) : ℝ := w.foldl (fun m x => max m |x|) 0

/-- The ASK decision (45_carrier_modem R241). -/
def askReads (lc : Nat) (a0 a1 : ℝ) (w : List ℝ) : Prop :=
  if lc = 0 then (a0 + a1) / 2 < largest w else |largest w - a1| < |largest w - a0|

open Classical in
/-- How often neighbours of a window differ in being non-negative (45_carrier_modem R246). -/
noncomputable def signChanges (w : List ℝ) : Nat :=
  ((Finset.range (w.length - 1)).filter fun k => ¬(0 ≤ w.getD k 0 ↔ 0 ≤ w.getD (k + 1) 0)).card

/-- The FSK decision (45_carrier_modem R247). -/
def fskReads (f0 f1 : ℝ) (w : List ℝ) : Prop := |(signChanges w : ℝ) - f1| < |(signChanges w : ℝ) - f0|

/-- `(2 / S) * sum over k of w[k] * reference(2 pi f k / S)`, before it is rounded (45_carrier_modem R254). -/
noncomputable def correlation (s : State) (w : List ℝ) (reference : ℝ → ℝ) : ℝ :=
  2 / (s.samples : ℝ) * ∑ k ∈ Finset.range s.samples, w.getD k 0 * reference (carrierAngle s s.frequency.toRat k)

/-- The constellation, by code (45_carrier_modem R250). -/
def constellation : Nat → Rat × Rat
  | 0 => (1, 1)
  | 1 => (1, -1)
  | 2 => (-1, 1)
  | 3 => (-1, -1)
  | 4 => (1 / 3, 1 / 3)
  | 5 => (1 / 3, -1 / 3)
  | 6 => (-1 / 3, 1 / 3)
  | _ => (-1 / 3, -1 / 3)

/-- `n` is ten times `round1(x)`: nearest, and even where halfway (45_carrier_modem R232). -/
def IsTenths (x : ℝ) (n : Int) : Prop := |10 * x - n| ≤ 1 / 2 ∧ (|10 * x - n| = 1 / 2 → n % 2 = 0)

/-- The squared distance from tenths `(a, b)` to the point of a code. -/
def distance (a b : Int) (code : Nat) : Rat :=
  ((a : Rat) / 10 - (constellation code).1) ^ 2 + ((b : Rat) / 10 - (constellation code).2) ^ 2

/-- The code is at the least distance, and the lowest of several (45_carrier_modem R255). -/
def IsNearest (a b : Int) (code : Nat) : Prop :=
  code < 8 ∧ ∀ other < 8, distance a b code ≤ distance a b other ∧
    (distance a b other = distance a b code → code ≤ other)

/-- The logical bits of a digital signal, with the padding zeros in front (45_carrier_modem R251). -/
def paddedBits (lc : Nat) (d : List Sym) : List Bool :=
  List.replicate ((3 - d.length % 3) % 3) false ++ d.map (logicalBit lc)

end Machine

end Sys2Proof
end

