-- ==== Sys2Proof/Certificates/Slice0/Obligations.lean ====
section
/-! DEFINITION. The statements for the provers, from the numbered rules of spec/. -/

open Sys2Proof Sys2Proof.Machine

/-! ### reset and the system operations -/

/-- 10_state R46: hardware reset and `RST` leave every piece of state at the value of the table, from every state. -/
def Obligations.ResetAndRstGiveTheResetTable : Prop :=
  State.reset.AtReset ∧ decode 0x0030#16 = .ok .rst ∧
    ∀ s : State, ∃ t, exec .rst s = .next t ∧ hostEvent .hardReset s = .next t ∧ t.AtReset

/-- 40_system_ops R120: `NOP` changes nothing, in the fault state too. -/
def Obligations.NopChangesNothing : Prop :=
  decode 0x0000#16 = .ok .nop ∧ ∀ s : State, exec .nop s = .next s

/-- 40_system_ops R121: `XFER` makes the output the input and empties the output; in the fault state it is dropped; two
in a row empty both. -/
def Obligations.XferMovesTheOutput : Prop :=
  decode 0x0010#16 = .ok .xfer ∧ ∀ s : State,
    (s.fault = none → exec .xfer s = .next { s with ibuf := s.obuf, obuf := .none }) ∧
    (s.fault ≠ none → exec .xfer s = .next s) ∧
    (s.fault = none → runOps [.xfer, .xfer] s = .next { s with ibuf := .none, obuf := .none })

/-- 40_system_ops R122: `CLR` ends the message and the fault state and keeps the configuration. -/
def Obligations.ClrEndsTheMessage : Prop :=
  decode 0x0020#16 = .ok .clr ∧ ∀ s : State,
    exec .clr s = .next { s with
      fault := none, flags := ⟨false, false, false, false⟩, finfo := 0, ibuf := .none, obuf := .none, oidx := 0 }

/-! ### command words -/

/-- 30_encoding R95, R96: a word is an operation exactly when it is that operation's word. -/
def Obligations.DecodeInvertsEncode : Prop :=
  ∀ (w : CommandWord) (i : Instr), decode w = .ok i ↔ w = encode i

/-- 30_encoding R96: what each word does, by the checks in their order, where no fault stands. -/
def Obligations.CommandWordsAreCheckedInOrder : Prop :=
  ∀ (s : State) (w : CommandWord), s.fault = none →
    let unit := w.toNat / 4096
    let scheme := w.toNat / 256 % 16
    let func := w.toNat / 16 % 16
    let rsv := w.toNat % 16
    if rsv ≠ 0 ∨ 8 ≤ unit ∨ [4, 5, 2, 2, 2, 2, 2, 1].getD unit 0 ≤ func ∨ (unit ∈ [0, 1, 6, 7] ∧ scheme ≠ 0) then
      command w s = .next (s.afterFault .illegalCommand w.toNat)
    else if unit ∈ [2, 3, 4, 5] ∧ [0, 0, 4, 2, 3, 3].getD unit 0 ≤ scheme then
      command w s = .next (s.afterFault .unsupportedScheme w.toNat)
    else ∃ i, encode i = w ∧ (∀ j, encode j = w → j = i) ∧ command w s = exec i s

/-- 30_encoding R97: 36 words are operations, 104 raise `UnsupportedScheme`, 65,396 raise `IllegalCommand`, and `NOP` is the
only operation that changes nothing. -/
def Obligations.CommandWordsAreCounted : Prop :=
  ((List.range 65536).countP fun w => decide (∃ i ∈ Instr.all, decode (BitVec.ofNat 16 w) = .ok i)) = 36 ∧
  ((List.range 65536).countP fun w =>
    match decode (BitVec.ofNat 16 w) with | .error .unsupportedScheme => true | _ => false) = 104 ∧
  ((List.range 65536).countP fun w =>
    match decode (BitVec.ofNat 16 w) with | .error .illegalCommand => true | _ => false) = 65396 ∧
  (∀ s : State, exec .nop s = .next s) ∧
  ∀ i : Instr, i ≠ .nop → ∃ s t : State, exec i s = .next t ∧ t ≠ s

/-- 30_encoding R90 to R93: a few words written out bit by bit decode to the operations they stand for. -/
def Obligations.WordsOfTheOpcodeMapDecode : Prop :=
  decode 0b0000000000110000#16 = .ok .rst ∧ decode 0b0001000001000000#16 = .ok .y2t ∧
  decode 0b0010001000010000#16 = .ok .ecCrcChk ∧ decode 0b0011000100000000#16 = .ok .frBsF ∧
  decode 0b0100001000010000#16 = .ok .lcBipDec ∧ decode 0b0101000100010000#16 = .ok .cmFskDem ∧
  decode 0b0110000000010000#16 = .ok .decmsg ∧ decode 0b0111000000000000#16 = .ok .biterr

/-! ### the step -/

/-- 10_state R20, R37: when the host's next event writes `CMD` and the word is an operation, the step runs that operation
and moves the host on by one. The word that `withFetchWord` places runs so (log 1). At the end of the host's list a step
changes nothing (log 2). -/
def Obligations.StepRunsTheDecodedOperation : Prop :=
  (∀ (s : State) (v : Nat) (i : Instr), s.program[s.pc]? = some (.write 0 v) → decode (BitVec.ofNat 16 v) = .ok i →
    i.wf = true → ∃ t, exec i s = .next t ∧ step s = .next { t with pc := t.pc + 1 }) ∧
  (∀ (s : State) (i : Instr), ∃ t, exec i (s.withFetchWord 16 (encode i).toNat) = .next t ∧
    step (s.withFetchWord 16 (encode i).toNat) = .next { t with pc := t.pc + 1 }) ∧
  ∀ s : State, s.program.length ≤ s.pc → step s = .next s

/-- 10_state R44, 93 U9 (log 10, 14): a step stops only where the host writes a non-finite binary64 pattern to a
`Sample` register or to an IBUF of type `SAMPLE`, and there it does, unless the buffer is full. -/
def Obligations.StepStopsOnlyAtNonFiniteSamples : Prop :=
  ∀ s : State,
    ((∃ t, step s = .next t) ∨
      (step s = .refused .nonFiniteSample ∧ ∃ n v, s.program[s.pc]? = some (.write n v) ∧ finitePattern v = false ∧
        ((5 ≤ n ∧ n ≤ 11) ∨ (n = 0x12 ∧ s.ibuf.tag = 5)))) ∧
    ∀ n v, s.program[s.pc]? = some (.write n v) → finitePattern v = false →
      ((5 ≤ n ∧ n ≤ 11) ∨ (n = 0x12 ∧ s.ibuf.tag = 5 ∧ s.Room (s.ibuf.len + 1))) →
      step s = .refused .nonFiniteSample

/-! ### registers and ports -/

/-- 10_state R38: a register keeps the low bits of what is written and nothing else changes; a reserved number and a
read-only register ignore writes; a reserved number and a write-only register read 0; none of this faults. Each number from
0x02 to 0x0E is the piece of state that the table of the rule names. -/
def Obligations.RegistersHoldWhatIsWritten : Prop :=
  ∀ (s : State) (n v : Nat),
    (∀ w, (n, w) ∈ plainRegisters → (5 ≤ n ∧ n ≤ 11 → finitePattern v = true) →
      ∃ t, regWrite n v s = .next t ∧ regRead n t = v % 2 ^ w ∧
        (∀ m, m ≠ n → ¬(n = 0x16 ∧ m = 0x17) → regRead m t = regRead m s) ∧
        t.ibuf = s.ibuf ∧ t.obuf = s.obuf ∧ t.fault = s.fault ∧ t.bufCap = s.bufCap ∧ t.draws = s.draws ∧
        t.program = s.program ∧ t.pc = s.pc ∧ t.observed = s.observed) ∧
    (reservedNumber n ∨ n ∈ [0x01, 0x02, 0x11, 0x14, 0x15, 0x17] → regWrite n v s = .next s) ∧
    (reservedNumber n ∨ n ∈ [0x00, 0x12] → regRead n s = 0) ∧
    regWrite 0x00 v s = command (BitVec.ofNat 16 v) s ∧
    regWrite 0x03 v s = .next { s with scheme := BitVec.ofNat 8 v } ∧
    regWrite 0x04 v s = .next { s with sampleCount := BitVec.ofNat 32 v } ∧
    (finitePattern v = true → ∃ x : Finite64, x.toNat = v % 2 ^ 64 ∧
      regWrite 0x05 v s = .next { s with amplitude := x } ∧ regWrite 0x06 v s = .next { s with frequency := x } ∧
      regWrite 0x07 v s = .next { s with phase := x } ∧ regWrite 0x08 v s = .next { s with ampZero := x } ∧
      regWrite 0x09 v s = .next { s with ampOne := x } ∧ regWrite 0x0A v s = .next { s with freqZero := x } ∧
      regWrite 0x0B v s = .next { s with freqOne := x }) ∧
    regWrite 0x0C v s = .next { s with maxFrameSize := BitVec.ofNat 8 v } ∧
    regWrite 0x0D v s = .next { s with dlen := v % 2 ^ 32 } ∧
    regWrite 0x0E v s = .next { s with errPermille := BitVec.ofNat 16 v } ∧
    regRead 0x02 s = s.finfo.toNat ∧ regRead 0x03 s = s.scheme.toNat ∧ regRead 0x04 s = s.sampleCount.toNat ∧
    regRead 0x05 s = s.amplitude.toNat ∧ regRead 0x06 s = s.frequency.toNat ∧ regRead 0x07 s = s.phase.toNat ∧
    regRead 0x08 s = s.ampZero.toNat ∧ regRead 0x09 s = s.ampOne.toNat ∧ regRead 0x0A s = s.freqZero.toNat ∧
    regRead 0x0B s = s.freqOne.toNat ∧ regRead 0x0C s = s.maxFrameSize.toNat ∧ regRead 0x0D s = s.dlen ∧
    regRead 0x0E s = s.errPermille.toNat

/-- 10_state R39, 60_exceptions R312: the ports of the two buffers, whether or not a fault stands. Three clauses are the
model's: `ODATA` shows a `SYM` as its two-bit pattern, 3 for -1 (log 13, DEDUCED); it shows a `SAMPLE` as `onBus` says (log 9);
a full IBUF raises `CapacityError` for every value, a non-finite one written to a `SAMPLE` buffer included (log 16, DEDUCED). -/
def Obligations.BufferPorts : Prop :=
  ∀ (s : State) (v : Nat),
    (∃ b, regWrite 0x10 v s = .next { s with ibuf := b } ∧ b.len = 0 ∧ b.tag = if v % 8 ≤ 5 then v % 8 else 0) ∧
    regRead 0x10 s = s.ibuf.tag ∧ regRead 0x11 s = s.ibuf.len ∧
    regRead 0x14 s = s.obuf.tag ∧ regRead 0x15 s = s.obuf.len ∧
    (s.ibuf = .none → regWrite 0x12 v s = .next s) ∧
    (s.Room (s.ibuf.len + 1) →
      (∀ d, s.ibuf = .char d → regWrite 0x12 v s = .next { s with ibuf := .char (d ++ [BitVec.ofNat 32 v]) }) ∧
      (∀ d, s.ibuf = .bit d → regWrite 0x12 v s = .next { s with ibuf := .bit (d ++ [decide (v % 2 = 1)]) }) ∧
      (∀ d, s.ibuf = .byte d → regWrite 0x12 v s = .next { s with ibuf := .byte (d ++ [BitVec.ofNat 8 v]) }) ∧
      (∀ d, s.ibuf = .sym d → regWrite 0x12 v s = .next { s with ibuf := .sym (d ++ [BitVec.ofNat 2 v]) }) ∧
      (∀ d, s.ibuf = .sample d → finitePattern v = true → ∃ x : Finite64, x.toNat = v % 2 ^ 64 ∧
        regWrite 0x12 v s = .next { s with ibuf := .sample (d ++ [Sample.ofFinite64 x]) })) ∧
    (s.ibuf ≠ .none → s.bufCap = some s.ibuf.len →
      (s.fault = none → regWrite 0x12 v s = .next (s.afterFault .capacityError s.ibuf.len)) ∧
      (s.fault ≠ none → regWrite 0x12 v s = .next s)) ∧
    regWrite 0x16 v s = .next { s with oidx := BitVec.ofNat 32 v } ∧ regRead 0x16 s = s.oidx.toNat ∧
    (s.obuf.len ≤ s.oidx.toNat → regRead 0x17 s = 0) ∧
    (∀ d e, s.obuf = .char d → d[s.oidx.toNat]? = some e → regRead 0x17 s = e.toNat) ∧
    (∀ d e, s.obuf = .bit d → d[s.oidx.toNat]? = some e → regRead 0x17 s = if e then 1 else 0) ∧
    (∀ d e, s.obuf = .byte d → d[s.oidx.toNat]? = some e → regRead 0x17 s = e.toNat) ∧
    (∀ d e, s.obuf = .sym d → d[s.oidx.toNat]? = some e → regRead 0x17 s = e.toNat) ∧
    (∀ d e, s.obuf = .sample d → d[s.oidx.toNat]? = some e → regRead 0x17 s = e.onBus.toNat)

/-- 10_state R44, 45_carrier_modem R231 (log 9, 11): a sample that a binary64 pattern gives shows on the bus as a pattern of
the same value. -/
def Obligations.BusShowsBinary64Exactly : Prop :=
  ∀ x : Finite64, (Sample.ofFinite64 x).onBus.toRat = x.toRat

/-- 10_state R21, 60_exceptions R300: the places of the fault code and the flags in `STATUS`, and that writes are ignored. -/
def Obligations.StatusWord : Prop :=
  ∀ (s : State) (v : Nat), regWrite 0x01 v s = .next s ∧
    regRead 0x01 s = causeCode s.fault + 16 * s.flags.errdet.toNat + 32 * s.flags.chkmismatch.toNat +
      64 * s.flags.corrected.toNat + 128 * s.flags.trunc.toNat

/-- 30_encoding R110: an `LD` line loads IBUF with its elements; an `OUT` line reads back the type, the length and every
element of OBUF (log 3, 20). -/
def Obligations.LinesLoadAndReadBack : Prop :=
  (∀ (s : State) (l : List Nat), s.Room l.length →
    runEvents (Line.expand 0 (.ld .char l)) s = .next { s with ibuf := .char (l.map (BitVec.ofNat 32)) } ∧
    runEvents (Line.expand 0 (.ld .bit l)) s = .next { s with ibuf := .bit (l.map fun v => decide (v % 2 = 1)) } ∧
    runEvents (Line.expand 0 (.ld .byte l)) s = .next { s with ibuf := .byte (l.map (BitVec.ofNat 8)) } ∧
    runEvents (Line.expand 0 (.ld .sym l)) s = .next { s with ibuf := .sym (l.map (BitVec.ofNat 2)) } ∧
    (l.all finitePattern = true → ∃ x : List Finite64, x.map Finite64.toNat = l.map (· % 2 ^ 64) ∧
      runEvents (Line.expand 0 (.ld .sample l)) s = .next { s with ibuf := .sample (x.map Sample.ofFinite64) })) ∧
  ∀ s : State, s.obuf.len ≤ 2 ^ 32 → ∃ t, runEvents (Line.expand s.obuf.len .out) s = .next t ∧
    t = { s with oidx := t.oidx, observed := t.observed } ∧
    t.observed = s.observed ++ [s.obuf.tag, s.obuf.len] ++ (List.range s.obuf.len).map s.obuf.elementAt

/-! ### faults and flags -/

/-- 60_exceptions R311: while a fault stands, `NOP`, `CLR` and `RST` execute and every other word is dropped; the other
registers and the ports work as always. -/
def Obligations.FaultedCommandsAreDropped : Prop :=
  ∀ s : State, s.fault ≠ none →
    (∀ w : CommandWord, w ≠ 0x0000#16 → w ≠ 0x0020#16 → w ≠ 0x0030#16 → command w s = .next s) ∧
    command 0x0000#16 s = .next s ∧ command 0x0020#16 s = exec .clr s ∧ command 0x0030#16 s = exec .rst s ∧
    (∀ n v t, n ≠ 0x00 → (n = 0x12 → s.Room (s.ibuf.len + 1)) → regWrite n v { s with fault := none } = .next t →
      regWrite n v s = .next { t with fault := s.fault }) ∧
    ∀ n, n ≠ 0x01 → regRead n s = regRead n { s with fault := none }

/-- 60_exceptions R315, R316: only `CLR`, `RST` and hardware reset leave the fault state; until then the first fault and
its information word stay; the three clear it and cannot fault. -/
def Obligations.FaultStateEndsOnlyByClrRstReset : Prop :=
  ∀ (s : State) (k : FaultKind), s.fault = some k →
    (∀ e t, hostEvent e s = .next t → (t.fault = some k ∧ t.finfo = s.finfo) ∨ e = .hardReset ∨
      ∃ v, e = .write 0x00 v ∧ (BitVec.ofNat 16 v = 0x0020#16 ∨ BitVec.ofNat 16 v = 0x0030#16)) ∧
    exec .clr s = .next { s with
      fault := none, flags := ⟨false, false, false, false⟩, finfo := 0, ibuf := .none, obuf := .none, oidx := 0 } ∧
    (∃ t, exec .rst s = .next t ∧ t.AtReset) ∧ (∃ t, hostEvent .hardReset s = .next t ∧ t.AtReset) ∧
    ∀ i : Instr, i ≠ .clr → i ≠ .rst → exec i s = .next s

/-- 10_state R22: no event but `CLR`, `RST` and hardware reset clears a flag or ends a fault; these three clear all. -/
def Obligations.FlagsAreSticky : Prop :=
  ∀ s : State,
    (∀ e t, hostEvent e s = .next t → e ≠ .hardReset →
      (∀ v, e = .write 0x00 v → BitVec.ofNat 16 v ≠ 0x0020#16 ∧ BitVec.ofNat 16 v ≠ 0x0030#16) →
      s.flags.le t.flags ∧ (s.fault ≠ none → t.fault = s.fault)) ∧
    ∀ t, exec .clr s = .next t ∨ exec .rst s = .next t ∨ hostEvent .hardReset s = .next t →
      t.flags = ⟨false, false, false, false⟩ ∧ t.fault = none

/-- 60_exceptions R305 and the fault lines of files 41 to 46: each of the 32 operations that read IBUF raises
`OperandTypeError` with the tag it finds, before any other check, on a stream of another type. -/
def Obligations.OperandTypeIsCheckedFirst : Prop :=
  ∀ (i : Instr) (tag : Nat), inputTag i = some tag → ChecksType i tag

/-- 41_bit_converter R130, 60_exceptions R310: what an operation can change. In the fault state nothing; else OBUF, the
flags its rule names, `DLEN` where stated and on completion only, and on a fault `STATUS.FAULT` and `FINFO`, with OBUF
emptied. The model's own counter of draws changes for `BITERR` only (log 12), and no operation changes the host's side
or `BUF_CAP` (log 1, 3, 4, 5). -/
def Obligations.OperationFrame : Prop :=
  (∀ (i : Instr) (s t : State), exec i s = .next t →
    t.bufCap = s.bufCap ∧ t.program = s.program ∧ t.pc = s.pc ∧ t.observed = s.observed) ∧
  ∀ (i : Instr) (tag : Nat) (s t : State), inputTag i = some tag → exec i s = .next t →
    t = { s with
      obuf := t.obuf, flags := t.flags, fault := t.fault, finfo := t.finfo, dlen := t.dlen, draws := t.draws } ∧
    (s.fault ≠ none → t = s) ∧
    (t.dlen ≠ s.dlen → writesDlen i = true ∧ t.fault = none) ∧
    (t.draws ≠ s.draws → i = .biterr ∧ t.fault = none) ∧
    s.flags.le t.flags ∧ t.flags.le (s.flags.or (flagsSetBy i)) ∧
    (s.fault = none → t.fault ≠ none → t.obuf = .none) ∧
    (s.fault = none → t.fault = none → outputTag i = some t.obuf.tag ∧ t.finfo = s.finfo)

/-- 10_state R36: a configuration register or field that an operation does not read has no effect on it. (The information
word of `UnsupportedScheme` is the whole `SCHEME` register by 60_exceptions R300, so it is excepted.) -/
def Obligations.UnreadConfigurationHasNoEffect : Prop :=
  ∀ (i : Instr) (tag : Nat) (s t s' t' : State), inputTag i = some tag →
    exec i s = .next s' → exec i t = .next t' →
    s.fault = t.fault → s.flags = t.flags → s.finfo = t.finfo → s.ibuf = t.ibuf → s.obuf = t.obuf →
    s.bufCap = t.bufCap → s.draws = t.draws → State.AgreeFor i s t →
    s'.fault = t'.fault ∧ s'.flags = t'.flags ∧ s'.obuf = t'.obuf ∧
      (s'.fault ≠ some .unsupportedScheme → s'.finfo = t'.finfo) ∧
      (writesDlen i = true → s.fault = none → s'.fault = none → s'.dlen = t'.dlen)

/-- 20_memory R71: the number of elements each operation of the table produces when it completes. -/
def Obligations.OutputLengths : Prop :=
  ∀ (i : Instr) (s t : State) (n : Nat), s.fault = none → exec i s = .next t → t.fault = none →
    outputLength i s = some n → t.obuf.len = n

/-! ### the invariant -/

/-- The invariant holds of the state after reset (10_state R46). -/
def Obligations.ResetHasTheInvariant : Prop := State.reset.Inv

/-- 10_state R20, R21, R23, R34, R41 to R43, 20_memory R72, 60_exceptions R310: every step keeps the invariant, from
every state that has it, and leaves `BUF_CAP` (70_reset R341) and the host's list (log 1) as they are. -/
def Obligations.StepKeepsTheInvariant : Prop :=
  ∀ s t : State, s.Inv → step s = .next t → t.Inv ∧ t.bufCap = s.bufCap ∧ t.program = s.program

/-! ### Bit Converter -/

/-- 41_bit_converter R131: `T2B` on every text. -/
def Obligations.T2bGivesTheBitsOfTheText : Prop :=
  decode 0x1000#16 = .ok .t2b ∧ ChecksType .t2b 1 ∧ ∀ (s : State) (t : List CodePoint), s.Holds (.char t) →
    ((∀ c ∈ t, c.toNat ≤ 255) →
      (s.Room (8 * t.length) → ∃ b, exec .t2b s = .next { s with obuf := .bit b } ∧ b.length = 8 * t.length ∧
        ∀ k, b[k]? = t[k / 8]?.map fun c => c.getLsbD (7 - k % 8)) ∧
      (¬s.Room (8 * t.length) → exec .t2b s = .next (s.afterFault .capacityError (8 * t.length)))) ∧
    ∀ i c, t[i]? = some c → 255 < c.toNat → (∀ c' ∈ t.take i, c'.toNat ≤ 255) →
      exec .t2b s = .next (s.afterFault .encodingError i)

/-- 41_bit_converter R132, 42_error_control R152: `B2Y` and `EC.NONE.CHK` group the bits into bytes, drop the trailing
ones and flag that with `TRUNC`. -/
def Obligations.B2yAndEcNoneChkGroupBits : Prop :=
  decode 0x1010#16 = .ok .b2y ∧ decode 0x2010#16 = .ok .ecNoneChk ∧ ChecksType .b2y 2 ∧ ChecksType .ecNoneChk 2 ∧
  ∀ (s : State) (b : List Bool), s.Holds (.bit b) → s.Room b.length → ∃ y, BytesOf b y ∧
    let t := { s with obuf := .byte y, flags := { s.flags with trunc := s.flags.trunc || decide (b.length % 8 ≠ 0) } }
    exec .b2y s = .next t ∧ exec .ecNoneChk s = .next t

/-- 41_bit_converter R135, 42_error_control R151: `Y2S` and `EC.NONE.ENC` give the bits of the bytes. -/
def Obligations.Y2sAndEcNoneEncGiveTheBits : Prop :=
  decode 0x1020#16 = .ok .y2s ∧ decode 0x2000#16 = .ok .ecNoneEnc ∧ ChecksType .y2s 3 ∧ ChecksType .ecNoneEnc 3 ∧
  ∀ (s : State) (y : List Byte), s.Holds (.byte y) →
    (s.Room (8 * y.length) → ∃ b, BitsOf y b ∧
      exec .y2s s = .next { s with obuf := .bit b } ∧ exec .ecNoneEnc s = .next { s with obuf := .bit b }) ∧
    (¬s.Room (8 * y.length) → exec .y2s s = .next (s.afterFault .capacityError (8 * y.length)) ∧
      exec .ecNoneEnc s = .next (s.afterFault .capacityError (8 * y.length)))

/-- 41_bit_converter R137, R138: `S2Y` groups whole bytes and raises `LengthError` on any other length; `Y2T` gives the
code points of the bytes. -/
def Obligations.S2yAndY2t : Prop :=
  decode 0x1030#16 = .ok .s2y ∧ decode 0x1040#16 = .ok .y2t ∧ ChecksType .s2y 2 ∧ ChecksType .y2t 3 ∧
  (∀ (s : State) (b : List Bool), s.Holds (.bit b) →
    (b.length % 8 = 0 → s.Room b.length → ∃ y, BytesOf b y ∧ exec .s2y s = .next { s with obuf := .byte y }) ∧
    (b.length % 8 ≠ 0 → exec .s2y s = .next (s.afterFault .lengthError b.length))) ∧
  ∀ (s : State) (y : List Byte), s.Holds (.byte y) → s.Room y.length → ∃ t : List CodePoint,
    t.map BitVec.toNat = y.map BitVec.toNat ∧ exec .y2t s = .next { s with obuf := .char t }

/-- 41_bit_converter R139: the four round trips of the unit. -/
def Obligations.BitConverterRoundTrips : Prop :=
  (∀ y : List Byte, bitsToBytes (bytesToBits y) = (y, false)) ∧
  (∀ b : List Bool, bytesToBits (bitsToBytes b).1 = b.take (8 * (b.length / 8))) ∧
  (∀ (s : State) (t : List CodePoint), s.Holds (.char t) → (∀ c ∈ t, c.toNat ≤ 255) → s.Room (8 * t.length) →
    ∃ u, runOps (chain [.t2b, .b2y, .y2t]) s = .next u ∧ u.fault = none ∧ u.flags = s.flags ∧ u.obuf = .char t) ∧
  ∀ (s u : State) (t : List CodePoint), s.Holds (.char t) → u.Holds (.byte (t.map fun c => c.setWidth 8)) →
    (∀ c ∈ t, c.toNat ≤ 255) → s.Room (8 * t.length) → u.Room (8 * t.length) →
    ∃ s' u', exec .t2b s = .next s' ∧ exec .y2s u = .next u' ∧ s'.fault = none ∧ u'.fault = none ∧ s'.obuf = u'.obuf

/-! ### Error-Control Codec -/

/-- 42_error_control R153, R154: `EC.PAR.ENC` appends the even-parity bit. -/
def Obligations.EcParEncAppendsTheParityBit : Prop :=
  decode 0x2100#16 = .ok .ecParEnc ∧ ChecksType .ecParEnc 3 ∧
  ∀ (s : State) (y : List Byte), s.Holds (.byte y) →
    (s.Room (8 * y.length + 1) → ∃ m, BitsOf y m ∧ exec .ecParEnc s = .next { s with obuf := .bit (m ++ [odd m]) }) ∧
    (¬s.Room (8 * y.length + 1) → exec .ecParEnc s = .next (s.afterFault .capacityError (8 * y.length + 1)))

/-- 42_error_control R155: `EC.PAR.CHK` compares the last bit with the parity of the others. -/
def Obligations.EcParChkComparesTheLastBit : Prop :=
  decode 0x2110#16 = .ok .ecParChk ∧ ChecksType .ecParChk 2 ∧
  (∀ s : State, s.Holds (.bit []) → exec .ecParChk s = .next (s.afterFault .lengthError 0)) ∧
  ∀ (s : State) (p : List Bool) (x : Bool), s.Holds (.bit (p ++ [x])) → s.Room (p.length + 1) →
    ∃ y, BytesOf p y ∧ exec .ecParChk s = .next { s with
      obuf := .byte y
      flags := ⟨s.flags.errdet || odd p != x, s.flags.chkmismatch || odd p != x, s.flags.corrected,
        s.flags.trunc || decide (p.length % 8 ≠ 0)⟩ }

/-- 42_error_control R156: an unmodified encoding passes; a stream of its length is a mismatch exactly when an odd number of
its bits is flipped. -/
def Obligations.ParityFindsOddNumbersOfFlips : Prop :=
  ∀ y : List Byte,
    (∀ s : State, s.Holds (.byte y) → s.Room (8 * y.length + 1) → ∃ t,
      runOps (chain [.ecParEnc, .ecParChk]) s = .next t ∧ t.fault = none ∧ t.flags = s.flags ∧ t.obuf = .byte y) ∧
    ∀ (s : State) (w : List Bool), w.length = 8 * y.length + 1 → s.Holds (.bit w) → s.Room w.length → ∃ t,
      exec .ecParChk s = .next t ∧ t.fault = none ∧
      let bad := decide (differences w (bytesToBits y ++ [parity (bytesToBits y)]) % 2 = 1)
      t.flags.chkmismatch = (s.flags.chkmismatch || bad) ∧ t.flags.errdet = (s.flags.errdet || bad)

/-- 42_error_control R160, R161: the shift register computes the remainder of the polynomial division over GF(2). -/
def Obligations.CrcIsThePolynomialRemainder : Prop :=
  ∀ m : List Bool, registerPoly (crc32Rem m) = (bitsPoly m * Polynomial.X ^ 32) %ₘ crcGenerator

/-- 42_error_control R162: `EC.CRC.ENC` appends the remainder, bit 31 first. -/
def Obligations.EcCrcEncAppendsTheRemainder : Prop :=
  decode 0x2200#16 = .ok .ecCrcEnc ∧ ChecksType .ecCrcEnc 3 ∧
  ∀ (s : State) (y : List Byte), s.Holds (.byte y) →
    (s.Room (8 * y.length + 32) → ∃ m r, BitsOf y m ∧ r.length = 32 ∧
      (∀ k < 32, r[k]? = some ((crc32Rem m).getLsbD (31 - k))) ∧
      exec .ecCrcEnc s = .next { s with obuf := .bit (m ++ r) }) ∧
    (¬s.Room (8 * y.length + 32) → exec .ecCrcEnc s = .next (s.afterFault .capacityError (8 * y.length + 32)))

/-- 42_error_control R163: `EC.CRC.CHK` drops trailing bits, takes the last four bytes as the received remainder and
compares. -/
def Obligations.EcCrcChkComparesTheRemainder : Prop :=
  decode 0x2210#16 = .ok .ecCrcChk ∧ ChecksType .ecCrcChk 2 ∧
  ∀ (s : State) (b : List Bool), s.Holds (.bit b) → s.Room b.length →
    (b.length / 8 < 4 → exec .ecCrcChk s = .next
      ({ s with flags := { s.flags with trunc := s.flags.trunc || decide (b.length % 8 ≠ 0) } }.afterFault
        .lengthError (b.length / 8))) ∧
    (4 ≤ b.length / 8 → ∃ p m r, BytesOf b (p ++ r) ∧ r.length = 4 ∧ BitsOf p m ∧
      ∀ bad : Bool, (bad = false ↔ (crc32Rem m).toNat = (r.map BitVec.toNat).foldl (fun acc v => acc * 2 ^ 8 + v) 0) →
        exec .ecCrcChk s = .next { s with
          obuf := .byte p
          flags := ⟨s.flags.errdet || bad, s.flags.chkmismatch || bad, s.flags.corrected,
            s.flags.trunc || decide (b.length % 8 ≠ 0)⟩ })

/-- 42_error_control R164: leading zeros, the remainder of an encoded message, the round trip, every single flip found, and
the two values. -/
def Obligations.CrcProperties : Prop :=
  (crc32Rem [] = 0 ∧ ∀ k m, crc32Rem (List.replicate k false ++ m) = crc32Rem m) ∧
  ((∀ m, crc32Rem (m ++ be32 (crc32Rem m)) = 0) ∧
    ∀ (s : State) (b : List Bool), s.Holds (.bit b) → s.Room b.length → b.length % 8 = 0 → 32 ≤ b.length → ∃ t,
      exec .ecCrcChk s = .next t ∧ t.fault = none ∧
        t.flags.chkmismatch = (s.flags.chkmismatch || decide (crc32Rem b ≠ 0))) ∧
  (∀ (s : State) (y : List Byte), s.Holds (.byte y) → s.Room (8 * y.length + 32) → ∃ t,
    runOps (chain [.ecCrcEnc, .ecCrcChk]) s = .next t ∧ t.fault = none ∧ t.flags = s.flags ∧ t.obuf = .byte y) ∧
  (∀ (s : State) (y : List Byte) (k : Nat), 1 ≤ k → k ≤ 8 * y.length + 32 →
    let w := flipPosition (bytesToBits y ++ be32 (crc32Rem (bytesToBits y))) k
    s.Holds (.bit w) → s.Room (8 * y.length + 32) → ∃ t p r, exec .ecCrcChk s = .next t ∧ t.fault = none ∧
      t.flags.chkmismatch = true ∧ t.flags.errdet = true ∧ t.obuf = .byte p ∧ BytesOf w (p ++ r) ∧ r.length = 4) ∧
  crc32Rem (bytesToBits [0x01#8]) = 0x04C11DB7#32 ∧
  crc32Rem (bytesToBits [0x31#8, 0x32#8, 0x33#8, 0x34#8, 0x35#8, 0x36#8, 0x37#8, 0x38#8, 0x39#8]) = 0x89A1897F#32

/-- 42_error_control R170, R171: the number of parity positions is least, the codeword holds the data in order at the other
positions, and every check of it is 0; `EC.HAM.ENC` emits it. -/
def Obligations.EcHamEncGivesTheCodeword : Prop :=
  decode 0x2300#16 = .ok .ecHamEnc ∧ ChecksType .ecHamEnc 3 ∧
  (∀ m, m + hamR m + 1 ≤ 2 ^ hamR m ∧ ∀ r, m + r + 1 ≤ 2 ^ r → hamR m ≤ r) ∧
  (∀ d : List Bool, (hamEncode d).length = d.length + hamR d.length ∧ dataBits (hamEncode d) = d ∧
    ∀ i < hamR d.length, checkFails (hamEncode d) i = false) ∧
  ∀ (s : State) (y : List Byte), s.Holds (.byte y) →
    (s.Room (8 * y.length + hamR (8 * y.length)) → ∃ m, BitsOf y m ∧
      exec .ecHamEnc s = .next { s with obuf := .bit (hamEncode m) }) ∧
    (¬s.Room (8 * y.length + hamR (8 * y.length)) →
      exec .ecHamEnc s = .next (s.afterFault .capacityError (8 * y.length + hamR (8 * y.length))))

/-- 42_error_control R172, R173: `EC.HAM.DEC` flips the position that the failing checks add up to, where there is one,
strips the parity positions, and flags a nonzero sum. -/
def Obligations.EcHamDecCorrectsOnePosition : Prop :=
  decode 0x2310#16 = .ok .ecHamDec ∧ ChecksType .ecHamDec 2 ∧
  ∀ (s : State) (w : List Bool), s.Holds (.bit w) → s.Room w.length →
    let e := failingSum w
    let d := dataBits (flipPosition w e)
    ∃ y, BytesOf d y ∧ exec .ecHamDec s = .next { s with
      obuf := .byte y
      flags := ⟨s.flags.errdet || decide (e ≠ 0), s.flags.chkmismatch, s.flags.corrected || decide (e ≠ 0),
        s.flags.trunc || decide (d.length % 8 ≠ 0)⟩ }

/-- 42_error_control R174: decoding inverts encoding, one flip at any position is located and corrected, two flips give
the exclusive-or of their positions, and three can pass unnoticed. -/
def Obligations.HammingCorrectsSingleErrors : Prop :=
  (∀ d : List Bool, hamDecode (hamEncode d) = (d, 0)) ∧
  (∀ (d : List Bool) (q : Nat), 1 ≤ q → q ≤ (hamEncode d).length → hamDecode (flipPosition (hamEncode d) q) = (d, q)) ∧
  (∀ (d : List Bool) (p q : Nat), 1 ≤ p → p < q → q ≤ (hamEncode d).length →
    (hamDecode (flipPosition (flipPosition (hamEncode d) p) q)).2 = p ^^^ q ∧ p ^^^ q ≠ 0 ∧ p ^^^ q ≠ p ∧ p ^^^ q ≠ q) ∧
  ∃ (d : List Bool) (p q r : Nat), p < q ∧ q < r ∧ 1 ≤ p ∧ r ≤ (hamEncode d).length ∧
    let w := flipPosition (flipPosition (flipPosition (hamEncode d) p) q) r
    (hamDecode w).2 = 0 ∧ (hamDecode w).1 ≠ d

/-! ### Framing Codec -/

/-- 43_framing R190 to R192: `FR.CC.F` prefixes each chunk with its length. -/
def Obligations.FrCcFPrefixesLengths : Prop :=
  decode 0x3000#16 = .ok .frCcF ∧ ChecksType .frCcF 3 ∧ ∀ (s : State) (p : List Byte), s.Holds (.byte p) →
    (s.maxFrameSize = 0 → exec .frCcF s = .next (s.afterFault .configError 0x0C)) ∧
    (s.maxFrameSize ≠ 0 → ∃ chs, IsChunking s.maxFrameSize.toNat p chs ∧
      (s.Room (chs.flatMap lengthFrame).length → exec .frCcF s = .next { s with obuf := .byte (chs.flatMap lengthFrame) }) ∧
      (¬s.Room (chs.flatMap lengthFrame).length →
        exec .frCcF s = .next (s.afterFault .capacityError (chs.flatMap lengthFrame).length)))

/-- 43_framing R194: `FR.CC.D` delivers the payloads of any sequence of frames, empty ones included; a length byte that
exceeds what remains raises `FramingError` with its offset; every stream is one or the other. -/
def Obligations.FrCcDReadsLengths : Prop :=
  decode 0x3010#16 = .ok .frCcD ∧ ChecksType .frCcD 3 ∧
  (∀ (s : State) (chs : List (List Byte)), (∀ ch ∈ chs, ch.length ≤ 255) → s.Holds (.byte (chs.flatMap lengthFrame)) →
    s.Room (chs.flatMap lengthFrame).length → exec .frCcD s = .next { s with obuf := .byte chs.flatten }) ∧
  (∀ (s : State) (chs : List (List Byte)) (l : Byte) (rest : List Byte), (∀ ch ∈ chs, ch.length ≤ 255) →
    rest.length < l.toNat → s.Holds (.byte (chs.flatMap lengthFrame ++ l :: rest)) →
    exec .frCcD s = .next (s.afterFault .framingError (chs.flatMap lengthFrame).length)) ∧
  ∀ b : List Byte, ∃ chs : List (List Byte), (∀ ch ∈ chs, ch.length ≤ 255) ∧
    (b = chs.flatMap lengthFrame ∨ ∃ l rest, rest.length < l.toNat ∧ b = chs.flatMap lengthFrame ++ l :: rest)

/-- 43_framing R190, R191, R196: `FR.BS.F` puts `FLAG` around each chunk and `ESC` before `FLAG` and `ESC` within it. -/
def Obligations.FrBsFStuffsBytes : Prop :=
  decode 0x3100#16 = .ok .frBsF ∧ ChecksType .frBsF 3 ∧ ∀ (s : State) (p : List Byte), s.Holds (.byte p) →
    (s.maxFrameSize = 0 → exec .frBsF s = .next (s.afterFault .configError 0x0C)) ∧
    (s.maxFrameSize ≠ 0 → ∃ chs, IsChunking s.maxFrameSize.toNat p chs ∧
      (s.Room (chs.flatMap flagFrame).length → exec .frBsF s = .next { s with obuf := .byte (chs.flatMap flagFrame) }) ∧
      (¬s.Room (chs.flatMap flagFrame).length →
        exec .frBsF s = .next (s.afterFault .capacityError (chs.flatMap flagFrame).length)))

/-- 43_framing R198: `FR.BS.D` drops delimiters and takes the byte after an `ESC` as it is; a stream that ends after an
unescaped `ESC` raises `FramingError` with its length. -/
def Obligations.FrBsDUnstuffsBytes : Prop :=
  decode 0x3110#16 = .ok .frBsD ∧ ChecksType .frBsD 3 ∧
  ∀ (s : State) (b : List Byte), s.Holds (.byte b) → s.Room b.length →
    (∀ p, unstuffed b = some p → exec .frBsD s = .next { s with obuf := .byte p }) ∧
    (unstuffed b = none → exec .frBsD s = .next (s.afterFault .framingError b.length))

/-- 43_framing R200: deframing gives back every payload, for every frame size from 1 to 255 and both methods, without
fault, where the framed stream has room, and whatever frame size the deframer finds. -/
def Obligations.FramingRoundTrip : Prop :=
  ∀ (s : State) (p : List Byte) (f : BitVec 8), s.Holds (.byte p) → s.maxFrameSize ≠ 0 →
    ∀ c ∈ [(0, Instr.frCcF, Instr.frCcD), (1, .frBsF, .frBsD)], s.Room (framedLength c.1 s.maxFrameSize.toNat p) →
      ∃ u t, exec c.2.1 s = .next u ∧ runOps [.xfer, c.2.2] { u with maxFrameSize := f } = .next t ∧
        t.fault = none ∧ t.flags = s.flags ∧ t.obuf = .byte p

/-! ### Line Coder -/

/-- 44_line_coder R211, R212, R214, R217: the three line encodings, with `DLEN` the length of the signal. -/
def Obligations.LineEncodersGiveTheirSymbols : Prop :=
  decode 0x4000#16 = .ok .lcNrzEnc ∧ decode 0x4100#16 = .ok .lcManEnc ∧ decode 0x4200#16 = .ok .lcBipEnc ∧
  ChecksType .lcNrzEnc 2 ∧ ChecksType .lcManEnc 2 ∧ ChecksType .lcBipEnc 2 ∧
  ∀ (s : State) (b : List Bool), s.Holds (.bit b) →
    (s.Room b.length →
      exec .lcNrzEnc s = .next { s with obuf := .sym (b.map fun x => if x then 1#2 else 3#2), dlen := b.length } ∧
      exec .lcBipEnc s = .next { s with obuf := .sym (symbolStream 2 b), dlen := b.length }) ∧
    (s.Room (2 * b.length) → exec .lcManEnc s = .next { s with
      obuf := .sym (b.flatMap fun x => if x then [1#2, 0#2] else [0#2, 1#2]), dlen := 2 * b.length }) ∧
    (¬s.Room (2 * b.length) → exec .lcManEnc s = .next (s.afterFault .capacityError (2 * b.length)))

/-- 44_line_coder R213, R216, R219: the three line decodings, on every symbol value, with `LengthError` for an odd number of
Manchester symbols. -/
def Obligations.LineDecodersReadTheirSymbols : Prop :=
  decode 0x4010#16 = .ok .lcNrzDec ∧ decode 0x4110#16 = .ok .lcManDec ∧ decode 0x4210#16 = .ok .lcBipDec ∧
  ChecksType .lcNrzDec 4 ∧ ChecksType .lcManDec 4 ∧ ChecksType .lcBipDec 4 ∧
  ∀ (s : State) (d : List Sym), s.Holds (.sym d) → s.Room d.length →
    exec .lcNrzDec s = .next { s with obuf := .bit (d.map fun x => decide (x = 1#2)) } ∧
    exec .lcBipDec s = .next { s with obuf := .bit (d.map fun x => decide (x ≠ 0#2)) } ∧
    (d.length % 2 = 0 → ∃ b, b.length = d.length / 2 ∧ (∀ i, b[i]? = d[2 * i]?.map fun x => decide (x = 1#2)) ∧
      exec .lcManDec s = .next { s with obuf := .bit b }) ∧
    (d.length % 2 ≠ 0 → exec .lcManDec s = .next (s.afterFault .lengthError d.length))

/-- 44_line_coder R220: the three round trips, and the alphabet of each encoder. -/
def Obligations.LineCodeRoundTrips : Prop :=
  ∀ (s : State) (b : List Bool), s.Holds (.bit b) → s.Room (2 * b.length) →
    ∀ c ∈ [(Instr.lcNrzEnc, Instr.lcNrzDec, [1#2, 3#2]), (.lcManEnc, .lcManDec, [0#2, 1#2]),
        (.lcBipEnc, .lcBipDec, [3#2, 0#2, 1#2])],
      ∃ d t u, exec c.1 s = .next t ∧ t.obuf = .sym d ∧ (∀ x ∈ d, x ∈ c.2.2) ∧
        runOps (chain [c.1, c.2.1]) s = .next u ∧ u.fault = none ∧ u.flags = s.flags ∧ u.obuf = .bit b

/-! ### Carrier Modem -/

/-- 45_carrier_modem R235: the checks of the six operations, in their order, after the operand type. -/
def Obligations.CarrierOperationsCheckInOrder : Prop :=
  ∀ (i : Instr) (s : State), isCarrier i = true → s.fault = none → inputTag i = some s.ibuf.tag →
    (s.lineCode = 3 → exec i s = .next (s.afterFault .unsupportedScheme (0x10000 + s.scheme.toNat))) ∧
    (s.lineCode < 3 → s.samples = 0 → exec i s = .next (s.afterFault .configError 0x04)) ∧
    (isDemodulator i = true → s.lineCode < 3 → 0 < s.samples → s.ibuf.len % s.samples ≠ 0 →
      exec i s = .next (s.afterFault .lengthError s.ibuf.len))

/-- 45_carrier_modem R230, R233, R240: the samples of `CM.ASK.MOD` are exactly `A * sin (2 pi f k / S + ph)`, with the
amplitude that the symbol's logical value selects. -/
def Obligations.CmAskModGivesTheSine : Prop :=
  decode 0x5000#16 = .ok .cmAskMod ∧ ∀ (s : State) (d : List Sym), s.Holds (.sym d) → s.lineCode < 3 → 0 < s.samples →
    (s.Room (d.length * s.samples) → ∃ a : List Sample, exec .cmAskMod s = .next { s with obuf := .sample a } ∧
      a.length = d.length * s.samples ∧
      ∀ j k, k < s.samples → a[j * s.samples + k]?.map Sample.toReal = d[j]?.map fun x =>
        (if logicalBit s.lineCode x then (s.ampOne.toRat : ℝ) else s.ampZero.toRat) *
          Real.sin (carrierAngle s s.frequency.toRat k + s.phase.toRat)) ∧
    (¬s.Room (d.length * s.samples) → exec .cmAskMod s = .next (s.afterFault .capacityError (d.length * s.samples)))

/-- 45_carrier_modem R230, R233, R245: the samples of `CM.FSK.MOD` are exactly `A * sin (2 pi f k / S + ph)`, with the
frequency that the symbol's logical value selects. -/
def Obligations.CmFskModGivesTheSine : Prop :=
  decode 0x5100#16 = .ok .cmFskMod ∧ ∀ (s : State) (d : List Sym), s.Holds (.sym d) → s.lineCode < 3 → 0 < s.samples →
    (s.Room (d.length * s.samples) → ∃ a : List Sample, exec .cmFskMod s = .next { s with obuf := .sample a } ∧
      a.length = d.length * s.samples ∧
      ∀ j k, k < s.samples → a[j * s.samples + k]?.map Sample.toReal = d[j]?.map fun x =>
        (s.amplitude.toRat : ℝ) * Real.sin
          (carrierAngle s (if logicalBit s.lineCode x then s.freqOne.toRat else s.freqZero.toRat) k + s.phase.toRat)) ∧
    (¬s.Room (d.length * s.samples) → exec .cmFskMod s = .next (s.afterFault .capacityError (d.length * s.samples)))

/-- 45_carrier_modem R250, R251, R253: the samples of `CM.QAM.MOD` are exactly `I cos + Q sin` for the point of each group of
three logical bits, the padding zeros in front. -/
def Obligations.CmQamModGivesTheConstellation : Prop :=
  decode 0x5200#16 = .ok .cmQamMod ∧ ∀ (s : State) (d : List Sym), s.Holds (.sym d) → s.lineCode < 3 → 0 < s.samples →
    let n := pieces d.length 3
    let bit := fun i => ((paddedBits s.lineCode d)[i]?.getD false).toNat
    (s.Room (n * s.samples) → ∃ a : List Sample, exec .cmQamMod s = .next { s with obuf := .sample a } ∧
      a.length = n * s.samples ∧
      ∀ j k, j < n → k < s.samples → a[j * s.samples + k]?.map Sample.toReal = some
        (let p := constellation (4 * bit (3 * j) + 2 * bit (3 * j + 1) + bit (3 * j + 2))
         (p.1 : ℝ) * Real.cos (carrierAngle s s.frequency.toRat k) +
          (p.2 : ℝ) * Real.sin (carrierAngle s s.frequency.toRat k))) ∧
    (¬s.Room (n * s.samples) → exec .cmQamMod s = .next (s.afterFault .capacityError (n * s.samples)))

/-- 45_carrier_modem R234, R241, R242: `CM.ASK.DEM` completes on every stream of whole windows with one symbol of the line
code's alphabet for each, and each is the decision of the rule on the window's peak, in the exact reals (R231). Under the
condition of R242 it returns what was modulated. -/
def Obligations.CmAskDemReadsThePeaks : Prop :=
  decode 0x5010#16 = .ok .cmAskDem ∧
  (∀ (s : State) (a : List Sample), s.Holds (.sample a) → s.lineCode < 3 → 0 < s.samples →
    a.length % s.samples = 0 → s.Room (a.length / s.samples) → ∃ v : List Bool, v.length = a.length / s.samples ∧
      exec .cmAskDem s = .next { s with obuf := .sym (symbolStream s.lineCode v) } ∧
      ∀ j < v.length, (v[j]? = some true ↔
        askReads s.lineCode s.ampZero.toRat s.ampOne.toRat (windowOf s a j))) ∧
  ∀ (s : State) (d : List Sym), s.Holds (.sym d) → s.lineCode < 3 → s.Room (d.length * s.samples) →
    IsSignal s.lineCode d → 0 ≤ s.ampZero.toRat → s.ampZero.toRat < s.ampOne.toRat →
    (∃ k < s.samples, ((s.ampZero.toRat : ℝ) + s.ampOne.toRat) / (2 * s.ampOne.toRat) <
      |Real.sin (carrierAngle s s.frequency.toRat k + s.phase.toRat)|) →
    ∃ t, runOps (chain [.cmAskMod, .cmAskDem]) s = .next t ∧ t.fault = none ∧ t.flags = s.flags ∧ t.obuf = .sym d

/-- 45_carrier_modem R234, R246, R247: `CM.FSK.DEM` completes on every stream of whole windows with one symbol of the line
code's alphabet for each, and each is the decision of the rule on the window's crossing count, in the exact reals (R231). -/
def Obligations.CmFskDemCountsCrossings : Prop :=
  decode 0x5110#16 = .ok .cmFskDem ∧ ∀ (s : State) (a : List Sample), s.Holds (.sample a) → s.lineCode < 3 →
    0 < s.samples → a.length % s.samples = 0 → s.Room (a.length / s.samples) →
    ∃ v : List Bool, v.length = a.length / s.samples ∧
      exec .cmFskDem s = .next { s with obuf := .sym (symbolStream s.lineCode v) } ∧
      ∀ j < v.length, (v[j]? = some true ↔ fskReads s.freqZero.toRat s.freqOne.toRat (windowOf s a j))

/-- 45_carrier_modem R232, R234, R254 to R256: `CM.QAM.DEM` raises `LengthError` on whole windows whose number does not fit
`DLEN`; else it completes, where `DLEN` symbols have room, with the logical values that the codes' bits give, the padding in
front dropped, and each code is the nearest point of the rounded estimates, in the exact reals (R231). -/
def Obligations.CmQamDemFindsTheNearestPoints : Prop :=
  decode 0x5210#16 = .ok .cmQamDem ∧ ∀ (s : State) (a : List Sample), s.Holds (.sample a) → s.lineCode < 3 →
    0 < s.samples → a.length % s.samples = 0 →
    let n := a.length / s.samples
    (3 * n < s.dlen ∨ s.dlen + 2 < 3 * n → exec .cmQamDem s = .next (s.afterFault .lengthError (3 * n))) ∧
    (s.dlen ≤ 3 * n → 3 * n ≤ s.dlen + 2 →
      (¬s.Room s.dlen → exec .cmQamDem s = .next (s.afterFault .capacityError s.dlen)) ∧
      (s.Room s.dlen → ∃ codes : List Nat, codes.length = n ∧
        (∀ j < n, ∃ (i q : Int) (code : Nat), codes[j]? = some code ∧
          IsTenths (correlation s (windowOf s a j) Real.cos) i ∧ IsTenths (correlation s (windowOf s a j) Real.sin) q ∧
          IsNearest i q code) ∧
        exec .cmQamDem s = .next { s with obuf := .sym (symbolStream s.lineCode
          ((codes.flatMap fun code => [code.testBit 2, code.testBit 1, code.testBit 0]).drop (3 * n - s.dlen))) }))

/-- 45_carrier_modem R248: the crossing law, the condition under which FSK demodulation returns what was modulated, and the
pair of frequencies that misses it. -/
def Obligations.FskReturnsWhatWasModulated : Prop :=
  (∀ (s : State) (amp : Rat) (f : Nat), 0 < amp → 2 * f < s.samples → crossings (sineWindow s amp f 0) = 2 * f - 1) ∧
  ∀ (s : State) (d : List Sym) (f0 f1 : Nat), s.Holds (.sym d) → s.lineCode < 3 → s.Room (d.length * s.samples) →
    s.phase.toRat = 0 → 0 < s.amplitude.toRat → s.freqZero.toRat = f0 → s.freqOne.toRat = f1 → f0 < f1 →
    2 * f1 < s.samples →
    (f1 + 2 ≥ 3 * f0 → IsSignal s.lineCode d → ∃ t, runOps (chain [.cmFskMod, .cmFskDem]) s = .next t ∧ t.fault = none ∧
      t.flags = s.flags ∧ t.obuf = .sym d) ∧
    (f0 = 2 → f1 = 3 → ∃ t, runOps (chain [.cmFskMod, .cmFskDem]) s = .next t ∧ t.fault = none ∧
      t.obuf = .sym (symbolStream s.lineCode (List.replicate d.length true)))

/-! ### whole pipeline and channel -/

/-- 46_pipeline_and_channel R280, R281: `ENCMSG` completes under the checks of its rule where the digital signal and its
samples have room (no stream of the chain is longer), and writes OBUF, `S` samples for each symbol or for each group of
three, and `DLEN`, the length of the digital signal that the selectors give; a text with a code point above 255 raises `EncodingError` with the first one's index; the checks before the text
come first. -/
def Obligations.EncmsgEncodesAMessage : Prop :=
  decode 0x6000#16 = .ok .encmsg ∧ ∀ (s : State) (t : List CodePoint), s.Holds (.char t) →
    (¬s.selectorsValid → exec .encmsg s = .next (s.afterFault .unsupportedScheme (0x10000 + s.scheme.toNat))) ∧
    (s.selectorsValid → s.maxFrameSize = 0 → exec .encmsg s = .next (s.afterFault .configError 0x0C)) ∧
    (s.selectorsValid → s.maxFrameSize ≠ 0 → s.samples = 0 → exec .encmsg s = .next (s.afterFault .configError 0x04)) ∧
    (s.selectorsValid → s.maxFrameSize ≠ 0 → 0 < s.samples →
      (∀ i c, t[i]? = some c → 255 < c.toNat → (∀ c' ∈ t.take i, c'.toNat ≤ 255) →
        exec .encmsg s = .next (s.afterFault .encodingError i)) ∧
      ((∀ c ∈ t, c.toNat ≤ 255) → s.Room (signalLength s t) →
        s.Room (windowCount s.carrier (signalLength s t) * s.samples) → ∃ a : List Sample,
        exec .encmsg s = .next { s with obuf := .sample a, dlen := signalLength s t } ∧
        a.length = windowCount s.carrier (signalLength s t) * s.samples))

/-- 46_pipeline_and_channel R280, R282: `ENCMSG` ends with the same OBUF, `STATUS` and `FINFO` as the chain of single stages
that its selectors name, and where it completes with the same `DLEN`; it keeps the text in IBUF. -/
def Obligations.EncmsgIsTheChainOfStages : Prop :=
  ∀ (s : State) (t : List CodePoint), s.Holds (.char t) → s.selectorsValid → s.maxFrameSize ≠ 0 → 0 < s.samples →
    ∃ u v, exec .encmsg s = .next u ∧
      runOps (chain [.t2b, .b2y, frameOp s.framing, errctlEncodeOp s.errctl, lineEncodeOp s.lineCode,
        modulateOp s.carrier]) s = .next v ∧
      u.obuf = v.obuf ∧ u.fault = v.fault ∧ u.flags = v.flags ∧ u.finfo = v.finfo ∧ u.ibuf = .char t ∧
      (u.fault = none → u.dlen = v.dlen)

/-- 46_pipeline_and_channel R285, R286: `DECMSG` ends with the same OBUF, `STATUS` and `FINFO` as the chain of single stages
that its selectors name, faults and flags included; it keeps the samples in IBUF and `DLEN`; its checks before the samples
come first. With all selectors 0, one sample for each symbol and amplitudes 0 and 1, samples that the host loaded whose
bits are those of character-count frames give the text of the payload. -/
def Obligations.DecmsgIsTheChainOfStages : Prop :=
  decode 0x6010#16 = .ok .decmsg ∧ ∀ (s : State) (a : List Sample), s.Holds (.sample a) →
    (¬s.selectorsValid → exec .decmsg s = .next (s.afterFault .unsupportedScheme (0x10000 + s.scheme.toNat))) ∧
    (s.selectorsValid → s.samples = 0 → exec .decmsg s = .next (s.afterFault .configError 0x04)) ∧
    (s.selectorsValid → 0 < s.samples → ∃ u v, exec .decmsg s = .next u ∧
      runOps (chain [demodulateOp s.carrier, lineDecodeOp s.lineCode, errctlCheckOp s.errctl, deframeOp s.framing,
        .y2t]) s = .next v ∧
      u.obuf = v.obuf ∧ u.fault = v.fault ∧ u.flags = v.flags ∧ u.finfo = v.finfo ∧ u.ibuf = .sample a ∧
      u.dlen = s.dlen) ∧
    ∀ (x : List Finite64) (chs : List (List Byte)), a = x.map Sample.ofFinite64 → s.scheme = 0 → s.samples = 1 →
      s.ampZero.toRat = 0 → s.ampOne.toRat = 1 → s.Room a.length → (∀ ch ∈ chs, ch.length ≤ 255) →
      BitsOf (chs.flatMap lengthFrame) (x.map fun q => decide (1 / 2 < |q.toRat|)) →
      exec .decmsg s = .next { s with obuf := .char (chs.flatten.map fun c => c.setWidth 32) }

/-- 46_pipeline_and_channel R287, with the carrier parameters of program P4 of 95_test_vectors: for every text of code points
up to 255, each of the 72 combinations of schemes and every frame size from 1 to 255, `ENCMSG`, `XFER`, `DECMSG` return the
text, and `STATUS` is 0. -/
def Obligations.PipelineRoundTrip : Prop :=
  ∀ (s : State) (t : List CodePoint), s.Holds (.char t) → (∀ c ∈ t, c.toNat ≤ 255) → s.selectorsValid →
    s.flags = ⟨false, false, false, false⟩ → s.maxFrameSize ≠ 0 → s.samples = 8 → s.amplitude.toRat = 1 →
    s.frequency.toRat = 1 → s.phase.toRat = 0 → s.ampZero.toRat = 0 → s.ampOne.toRat = 1 → s.freqZero.toRat = 1 →
    s.freqOne.toRat = 2 → s.Room ((128 * t.length + 128) * 8) →
    ∃ u v w, exec .encmsg s = .next u ∧ exec .xfer u = .next v ∧ exec .decmsg v = .next w ∧
      w.obuf = .char t ∧ regRead 0x01 w = 0

/-- 46_pipeline_and_channel R290: `BITERR` flips the bits of a mask of the input's length, all 0 at 0 per mille and all 1 at
1000 per mille, and raises `ConfigError` above 1000. -/
def Obligations.BiterrFlipsTheBitsOfAMask : Prop :=
  decode 0x7000#16 = .ok .biterr ∧ ChecksType .biterr 2 ∧ ∀ (s : State) (b : List Bool), s.Holds (.bit b) →
    (1000 < s.errPermille.toNat → exec .biterr s = .next (s.afterFault .configError 0x0E)) ∧
    (s.errPermille.toNat ≤ 1000 → s.Room b.length → ∃ (mask : List Bool) (n : Nat), mask.length = b.length ∧
      (s.errPermille.toNat = 0 → mask = List.replicate b.length false) ∧
      (s.errPermille.toNat = 1000 → mask = List.replicate b.length true) ∧
      exec .biterr s = .next { s with obuf := .bit (List.zipWith xor b mask), draws := n })
end

