-- ==== Sys2Proof/Laws/State.lean ====
section
/-! SUPPORT. One lemma per field per update of State, so that no proof unfolds a record update. -/

namespace Sys2Proof.Machine

/-! ### setting flags -/

@[simp] theorem State.setFlags_fault (s : State) (f : Flags) : (s.setFlags f).fault = s.fault := rfl
@[simp] theorem State.setFlags_flags (s : State) (f : Flags) : (s.setFlags f).flags = s.flags.or f := rfl
@[simp] theorem State.setFlags_finfo (s : State) (f : Flags) : (s.setFlags f).finfo = s.finfo := rfl
@[simp] theorem State.setFlags_scheme (s : State) (f : Flags) : (s.setFlags f).scheme = s.scheme := rfl
@[simp] theorem State.setFlags_sampleCount (s : State) (f : Flags) : (s.setFlags f).sampleCount = s.sampleCount := rfl
@[simp] theorem State.setFlags_amplitude (s : State) (f : Flags) : (s.setFlags f).amplitude = s.amplitude := rfl
@[simp] theorem State.setFlags_frequency (s : State) (f : Flags) : (s.setFlags f).frequency = s.frequency := rfl
@[simp] theorem State.setFlags_phase (s : State) (f : Flags) : (s.setFlags f).phase = s.phase := rfl
@[simp] theorem State.setFlags_ampZero (s : State) (f : Flags) : (s.setFlags f).ampZero = s.ampZero := rfl
@[simp] theorem State.setFlags_ampOne (s : State) (f : Flags) : (s.setFlags f).ampOne = s.ampOne := rfl
@[simp] theorem State.setFlags_freqZero (s : State) (f : Flags) : (s.setFlags f).freqZero = s.freqZero := rfl
@[simp] theorem State.setFlags_freqOne (s : State) (f : Flags) : (s.setFlags f).freqOne = s.freqOne := rfl
@[simp] theorem State.setFlags_maxFrameSize (s : State) (f : Flags) : (s.setFlags f).maxFrameSize = s.maxFrameSize := rfl
@[simp] theorem State.setFlags_dlen (s : State) (f : Flags) : (s.setFlags f).dlen = s.dlen := rfl
@[simp] theorem State.setFlags_errPermille (s : State) (f : Flags) : (s.setFlags f).errPermille = s.errPermille := rfl
@[simp] theorem State.setFlags_ibuf (s : State) (f : Flags) : (s.setFlags f).ibuf = s.ibuf := rfl
@[simp] theorem State.setFlags_obuf (s : State) (f : Flags) : (s.setFlags f).obuf = s.obuf := rfl
@[simp] theorem State.setFlags_oidx (s : State) (f : Flags) : (s.setFlags f).oidx = s.oidx := rfl
@[simp] theorem State.setFlags_bufCap (s : State) (f : Flags) : (s.setFlags f).bufCap = s.bufCap := rfl
@[simp] theorem State.setFlags_draws (s : State) (f : Flags) : (s.setFlags f).draws = s.draws := rfl
@[simp] theorem State.setFlags_program (s : State) (f : Flags) : (s.setFlags f).program = s.program := rfl
@[simp] theorem State.setFlags_pc (s : State) (f : Flags) : (s.setFlags f).pc = s.pc := rfl
@[simp] theorem State.setFlags_observed (s : State) (f : Flags) : (s.setFlags f).observed = s.observed := rfl

/-! ### replacing OBUF -/

@[simp] theorem State.setObuf_fault (s : State) (b : Buffer) : (s.setObuf b).fault = s.fault := rfl
@[simp] theorem State.setObuf_flags (s : State) (b : Buffer) : (s.setObuf b).flags = s.flags := rfl
@[simp] theorem State.setObuf_finfo (s : State) (b : Buffer) : (s.setObuf b).finfo = s.finfo := rfl
@[simp] theorem State.setObuf_scheme (s : State) (b : Buffer) : (s.setObuf b).scheme = s.scheme := rfl
@[simp] theorem State.setObuf_sampleCount (s : State) (b : Buffer) : (s.setObuf b).sampleCount = s.sampleCount := rfl
@[simp] theorem State.setObuf_amplitude (s : State) (b : Buffer) : (s.setObuf b).amplitude = s.amplitude := rfl
@[simp] theorem State.setObuf_frequency (s : State) (b : Buffer) : (s.setObuf b).frequency = s.frequency := rfl
@[simp] theorem State.setObuf_phase (s : State) (b : Buffer) : (s.setObuf b).phase = s.phase := rfl
@[simp] theorem State.setObuf_ampZero (s : State) (b : Buffer) : (s.setObuf b).ampZero = s.ampZero := rfl
@[simp] theorem State.setObuf_ampOne (s : State) (b : Buffer) : (s.setObuf b).ampOne = s.ampOne := rfl
@[simp] theorem State.setObuf_freqZero (s : State) (b : Buffer) : (s.setObuf b).freqZero = s.freqZero := rfl
@[simp] theorem State.setObuf_freqOne (s : State) (b : Buffer) : (s.setObuf b).freqOne = s.freqOne := rfl
@[simp] theorem State.setObuf_maxFrameSize (s : State) (b : Buffer) : (s.setObuf b).maxFrameSize = s.maxFrameSize := rfl
@[simp] theorem State.setObuf_dlen (s : State) (b : Buffer) : (s.setObuf b).dlen = s.dlen := rfl
@[simp] theorem State.setObuf_errPermille (s : State) (b : Buffer) : (s.setObuf b).errPermille = s.errPermille := rfl
@[simp] theorem State.setObuf_ibuf (s : State) (b : Buffer) : (s.setObuf b).ibuf = s.ibuf := rfl
@[simp] theorem State.setObuf_obuf (s : State) (b : Buffer) : (s.setObuf b).obuf = b := rfl
@[simp] theorem State.setObuf_oidx (s : State) (b : Buffer) : (s.setObuf b).oidx = s.oidx := rfl
@[simp] theorem State.setObuf_bufCap (s : State) (b : Buffer) : (s.setObuf b).bufCap = s.bufCap := rfl
@[simp] theorem State.setObuf_draws (s : State) (b : Buffer) : (s.setObuf b).draws = s.draws := rfl
@[simp] theorem State.setObuf_program (s : State) (b : Buffer) : (s.setObuf b).program = s.program := rfl
@[simp] theorem State.setObuf_pc (s : State) (b : Buffer) : (s.setObuf b).pc = s.pc := rfl
@[simp] theorem State.setObuf_observed (s : State) (b : Buffer) : (s.setObuf b).observed = s.observed := rfl

/-! ### replacing IBUF -/

@[simp] theorem State.setIbuf_fault (s : State) (b : Buffer) : (s.setIbuf b).fault = s.fault := rfl
@[simp] theorem State.setIbuf_flags (s : State) (b : Buffer) : (s.setIbuf b).flags = s.flags := rfl
@[simp] theorem State.setIbuf_finfo (s : State) (b : Buffer) : (s.setIbuf b).finfo = s.finfo := rfl
@[simp] theorem State.setIbuf_scheme (s : State) (b : Buffer) : (s.setIbuf b).scheme = s.scheme := rfl
@[simp] theorem State.setIbuf_sampleCount (s : State) (b : Buffer) : (s.setIbuf b).sampleCount = s.sampleCount := rfl
@[simp] theorem State.setIbuf_amplitude (s : State) (b : Buffer) : (s.setIbuf b).amplitude = s.amplitude := rfl
@[simp] theorem State.setIbuf_frequency (s : State) (b : Buffer) : (s.setIbuf b).frequency = s.frequency := rfl
@[simp] theorem State.setIbuf_phase (s : State) (b : Buffer) : (s.setIbuf b).phase = s.phase := rfl
@[simp] theorem State.setIbuf_ampZero (s : State) (b : Buffer) : (s.setIbuf b).ampZero = s.ampZero := rfl
@[simp] theorem State.setIbuf_ampOne (s : State) (b : Buffer) : (s.setIbuf b).ampOne = s.ampOne := rfl
@[simp] theorem State.setIbuf_freqZero (s : State) (b : Buffer) : (s.setIbuf b).freqZero = s.freqZero := rfl
@[simp] theorem State.setIbuf_freqOne (s : State) (b : Buffer) : (s.setIbuf b).freqOne = s.freqOne := rfl
@[simp] theorem State.setIbuf_maxFrameSize (s : State) (b : Buffer) : (s.setIbuf b).maxFrameSize = s.maxFrameSize := rfl
@[simp] theorem State.setIbuf_dlen (s : State) (b : Buffer) : (s.setIbuf b).dlen = s.dlen := rfl
@[simp] theorem State.setIbuf_errPermille (s : State) (b : Buffer) : (s.setIbuf b).errPermille = s.errPermille := rfl
@[simp] theorem State.setIbuf_ibuf (s : State) (b : Buffer) : (s.setIbuf b).ibuf = b := rfl
@[simp] theorem State.setIbuf_obuf (s : State) (b : Buffer) : (s.setIbuf b).obuf = s.obuf := rfl
@[simp] theorem State.setIbuf_oidx (s : State) (b : Buffer) : (s.setIbuf b).oidx = s.oidx := rfl
@[simp] theorem State.setIbuf_bufCap (s : State) (b : Buffer) : (s.setIbuf b).bufCap = s.bufCap := rfl
@[simp] theorem State.setIbuf_draws (s : State) (b : Buffer) : (s.setIbuf b).draws = s.draws := rfl
@[simp] theorem State.setIbuf_program (s : State) (b : Buffer) : (s.setIbuf b).program = s.program := rfl
@[simp] theorem State.setIbuf_pc (s : State) (b : Buffer) : (s.setIbuf b).pc = s.pc := rfl
@[simp] theorem State.setIbuf_observed (s : State) (b : Buffer) : (s.setIbuf b).observed = s.observed := rfl

/-! ### writing `DLEN` -/

@[simp] theorem State.setDlen_fault (s : State) (n : Nat) : (s.setDlen n).fault = s.fault := rfl
@[simp] theorem State.setDlen_flags (s : State) (n : Nat) : (s.setDlen n).flags = s.flags := rfl
@[simp] theorem State.setDlen_finfo (s : State) (n : Nat) : (s.setDlen n).finfo = s.finfo := rfl
@[simp] theorem State.setDlen_scheme (s : State) (n : Nat) : (s.setDlen n).scheme = s.scheme := rfl
@[simp] theorem State.setDlen_sampleCount (s : State) (n : Nat) : (s.setDlen n).sampleCount = s.sampleCount := rfl
@[simp] theorem State.setDlen_amplitude (s : State) (n : Nat) : (s.setDlen n).amplitude = s.amplitude := rfl
@[simp] theorem State.setDlen_frequency (s : State) (n : Nat) : (s.setDlen n).frequency = s.frequency := rfl
@[simp] theorem State.setDlen_phase (s : State) (n : Nat) : (s.setDlen n).phase = s.phase := rfl
@[simp] theorem State.setDlen_ampZero (s : State) (n : Nat) : (s.setDlen n).ampZero = s.ampZero := rfl
@[simp] theorem State.setDlen_ampOne (s : State) (n : Nat) : (s.setDlen n).ampOne = s.ampOne := rfl
@[simp] theorem State.setDlen_freqZero (s : State) (n : Nat) : (s.setDlen n).freqZero = s.freqZero := rfl
@[simp] theorem State.setDlen_freqOne (s : State) (n : Nat) : (s.setDlen n).freqOne = s.freqOne := rfl
@[simp] theorem State.setDlen_maxFrameSize (s : State) (n : Nat) : (s.setDlen n).maxFrameSize = s.maxFrameSize := rfl
@[simp] theorem State.setDlen_dlen (s : State) (n : Nat) : (s.setDlen n).dlen = n := rfl
@[simp] theorem State.setDlen_errPermille (s : State) (n : Nat) : (s.setDlen n).errPermille = s.errPermille := rfl
@[simp] theorem State.setDlen_ibuf (s : State) (n : Nat) : (s.setDlen n).ibuf = s.ibuf := rfl
@[simp] theorem State.setDlen_obuf (s : State) (n : Nat) : (s.setDlen n).obuf = s.obuf := rfl
@[simp] theorem State.setDlen_oidx (s : State) (n : Nat) : (s.setDlen n).oidx = s.oidx := rfl
@[simp] theorem State.setDlen_bufCap (s : State) (n : Nat) : (s.setDlen n).bufCap = s.bufCap := rfl
@[simp] theorem State.setDlen_draws (s : State) (n : Nat) : (s.setDlen n).draws = s.draws := rfl
@[simp] theorem State.setDlen_program (s : State) (n : Nat) : (s.setDlen n).program = s.program := rfl
@[simp] theorem State.setDlen_pc (s : State) (n : Nat) : (s.setDlen n).pc = s.pc := rfl
@[simp] theorem State.setDlen_observed (s : State) (n : Nat) : (s.setDlen n).observed = s.observed := rfl

/-! ### counting a draw -/

@[simp] theorem State.countDraw_fault (s : State) : (s.countDraw).fault = s.fault := rfl
@[simp] theorem State.countDraw_flags (s : State) : (s.countDraw).flags = s.flags := rfl
@[simp] theorem State.countDraw_finfo (s : State) : (s.countDraw).finfo = s.finfo := rfl
@[simp] theorem State.countDraw_scheme (s : State) : (s.countDraw).scheme = s.scheme := rfl
@[simp] theorem State.countDraw_sampleCount (s : State) : (s.countDraw).sampleCount = s.sampleCount := rfl
@[simp] theorem State.countDraw_amplitude (s : State) : (s.countDraw).amplitude = s.amplitude := rfl
@[simp] theorem State.countDraw_frequency (s : State) : (s.countDraw).frequency = s.frequency := rfl
@[simp] theorem State.countDraw_phase (s : State) : (s.countDraw).phase = s.phase := rfl
@[simp] theorem State.countDraw_ampZero (s : State) : (s.countDraw).ampZero = s.ampZero := rfl
@[simp] theorem State.countDraw_ampOne (s : State) : (s.countDraw).ampOne = s.ampOne := rfl
@[simp] theorem State.countDraw_freqZero (s : State) : (s.countDraw).freqZero = s.freqZero := rfl
@[simp] theorem State.countDraw_freqOne (s : State) : (s.countDraw).freqOne = s.freqOne := rfl
@[simp] theorem State.countDraw_maxFrameSize (s : State) : (s.countDraw).maxFrameSize = s.maxFrameSize := rfl
@[simp] theorem State.countDraw_dlen (s : State) : (s.countDraw).dlen = s.dlen := rfl
@[simp] theorem State.countDraw_errPermille (s : State) : (s.countDraw).errPermille = s.errPermille := rfl
@[simp] theorem State.countDraw_ibuf (s : State) : (s.countDraw).ibuf = s.ibuf := rfl
@[simp] theorem State.countDraw_obuf (s : State) : (s.countDraw).obuf = s.obuf := rfl
@[simp] theorem State.countDraw_oidx (s : State) : (s.countDraw).oidx = s.oidx := rfl
@[simp] theorem State.countDraw_bufCap (s : State) : (s.countDraw).bufCap = s.bufCap := rfl
@[simp] theorem State.countDraw_draws (s : State) : (s.countDraw).draws = s.draws + 1 := rfl
@[simp] theorem State.countDraw_program (s : State) : (s.countDraw).program = s.program := rfl
@[simp] theorem State.countDraw_pc (s : State) : (s.countDraw).pc = s.pc := rfl
@[simp] theorem State.countDraw_observed (s : State) : (s.countDraw).observed = s.observed := rfl

/-! ### completing a line encoding -/

@[simp] theorem State.finishEncode_fault (s : State) (d : List Sym) : (s.finishEncode d).fault = s.fault := rfl
@[simp] theorem State.finishEncode_flags (s : State) (d : List Sym) : (s.finishEncode d).flags = s.flags := rfl
@[simp] theorem State.finishEncode_finfo (s : State) (d : List Sym) : (s.finishEncode d).finfo = s.finfo := rfl
@[simp] theorem State.finishEncode_scheme (s : State) (d : List Sym) : (s.finishEncode d).scheme = s.scheme := rfl
@[simp] theorem State.finishEncode_sampleCount (s : State) (d : List Sym) : (s.finishEncode d).sampleCount = s.sampleCount := rfl
@[simp] theorem State.finishEncode_amplitude (s : State) (d : List Sym) : (s.finishEncode d).amplitude = s.amplitude := rfl
@[simp] theorem State.finishEncode_frequency (s : State) (d : List Sym) : (s.finishEncode d).frequency = s.frequency := rfl
@[simp] theorem State.finishEncode_phase (s : State) (d : List Sym) : (s.finishEncode d).phase = s.phase := rfl
@[simp] theorem State.finishEncode_ampZero (s : State) (d : List Sym) : (s.finishEncode d).ampZero = s.ampZero := rfl
@[simp] theorem State.finishEncode_ampOne (s : State) (d : List Sym) : (s.finishEncode d).ampOne = s.ampOne := rfl
@[simp] theorem State.finishEncode_freqZero (s : State) (d : List Sym) : (s.finishEncode d).freqZero = s.freqZero := rfl
@[simp] theorem State.finishEncode_freqOne (s : State) (d : List Sym) : (s.finishEncode d).freqOne = s.freqOne := rfl
@[simp] theorem State.finishEncode_maxFrameSize (s : State) (d : List Sym) : (s.finishEncode d).maxFrameSize = s.maxFrameSize := rfl
@[simp] theorem State.finishEncode_dlen (s : State) (d : List Sym) : (s.finishEncode d).dlen = d.length := rfl
@[simp] theorem State.finishEncode_errPermille (s : State) (d : List Sym) : (s.finishEncode d).errPermille = s.errPermille := rfl
@[simp] theorem State.finishEncode_ibuf (s : State) (d : List Sym) : (s.finishEncode d).ibuf = s.ibuf := rfl
@[simp] theorem State.finishEncode_obuf (s : State) (d : List Sym) : (s.finishEncode d).obuf = .sym d := rfl
@[simp] theorem State.finishEncode_oidx (s : State) (d : List Sym) : (s.finishEncode d).oidx = s.oidx := rfl
@[simp] theorem State.finishEncode_bufCap (s : State) (d : List Sym) : (s.finishEncode d).bufCap = s.bufCap := rfl
@[simp] theorem State.finishEncode_draws (s : State) (d : List Sym) : (s.finishEncode d).draws = s.draws := rfl
@[simp] theorem State.finishEncode_program (s : State) (d : List Sym) : (s.finishEncode d).program = s.program := rfl
@[simp] theorem State.finishEncode_pc (s : State) (d : List Sym) : (s.finishEncode d).pc = s.pc := rfl
@[simp] theorem State.finishEncode_observed (s : State) (d : List Sym) : (s.finishEncode d).observed = s.observed := rfl

/-! ### fault entry -/

@[simp] theorem State.raise_fault (s : State) (c : Cause) : (s.raise c).fault = some c.kind := rfl
@[simp] theorem State.raise_flags (s : State) (c : Cause) : (s.raise c).flags = s.flags := rfl
@[simp] theorem State.raise_finfo (s : State) (c : Cause) : (s.raise c).finfo = BitVec.ofNat 32 c.info := rfl
@[simp] theorem State.raise_scheme (s : State) (c : Cause) : (s.raise c).scheme = s.scheme := rfl
@[simp] theorem State.raise_sampleCount (s : State) (c : Cause) : (s.raise c).sampleCount = s.sampleCount := rfl
@[simp] theorem State.raise_amplitude (s : State) (c : Cause) : (s.raise c).amplitude = s.amplitude := rfl
@[simp] theorem State.raise_frequency (s : State) (c : Cause) : (s.raise c).frequency = s.frequency := rfl
@[simp] theorem State.raise_phase (s : State) (c : Cause) : (s.raise c).phase = s.phase := rfl
@[simp] theorem State.raise_ampZero (s : State) (c : Cause) : (s.raise c).ampZero = s.ampZero := rfl
@[simp] theorem State.raise_ampOne (s : State) (c : Cause) : (s.raise c).ampOne = s.ampOne := rfl
@[simp] theorem State.raise_freqZero (s : State) (c : Cause) : (s.raise c).freqZero = s.freqZero := rfl
@[simp] theorem State.raise_freqOne (s : State) (c : Cause) : (s.raise c).freqOne = s.freqOne := rfl
@[simp] theorem State.raise_maxFrameSize (s : State) (c : Cause) : (s.raise c).maxFrameSize = s.maxFrameSize := rfl
@[simp] theorem State.raise_dlen (s : State) (c : Cause) : (s.raise c).dlen = s.dlen := rfl
@[simp] theorem State.raise_errPermille (s : State) (c : Cause) : (s.raise c).errPermille = s.errPermille := rfl
@[simp] theorem State.raise_ibuf (s : State) (c : Cause) : (s.raise c).ibuf = s.ibuf := rfl
@[simp] theorem State.raise_obuf (s : State) (c : Cause) : (s.raise c).obuf = .none := rfl
@[simp] theorem State.raise_oidx (s : State) (c : Cause) : (s.raise c).oidx = s.oidx := rfl
@[simp] theorem State.raise_bufCap (s : State) (c : Cause) : (s.raise c).bufCap = s.bufCap := rfl
@[simp] theorem State.raise_draws (s : State) (c : Cause) : (s.raise c).draws = s.draws := rfl
@[simp] theorem State.raise_program (s : State) (c : Cause) : (s.raise c).program = s.program := rfl
@[simp] theorem State.raise_pc (s : State) (c : Cause) : (s.raise c).pc = s.pc := rfl
@[simp] theorem State.raise_observed (s : State) (c : Cause) : (s.raise c).observed = s.observed := rfl

/-! ### `CLR` -/

@[simp] theorem State.clearMessage_fault (s : State) : (s.clearMessage).fault = none := rfl
@[simp] theorem State.clearMessage_flags (s : State) : (s.clearMessage).flags = Flags.clear := rfl
@[simp] theorem State.clearMessage_finfo (s : State) : (s.clearMessage).finfo = 0 := rfl
@[simp] theorem State.clearMessage_scheme (s : State) : (s.clearMessage).scheme = s.scheme := rfl
@[simp] theorem State.clearMessage_sampleCount (s : State) : (s.clearMessage).sampleCount = s.sampleCount := rfl
@[simp] theorem State.clearMessage_amplitude (s : State) : (s.clearMessage).amplitude = s.amplitude := rfl
@[simp] theorem State.clearMessage_frequency (s : State) : (s.clearMessage).frequency = s.frequency := rfl
@[simp] theorem State.clearMessage_phase (s : State) : (s.clearMessage).phase = s.phase := rfl
@[simp] theorem State.clearMessage_ampZero (s : State) : (s.clearMessage).ampZero = s.ampZero := rfl
@[simp] theorem State.clearMessage_ampOne (s : State) : (s.clearMessage).ampOne = s.ampOne := rfl
@[simp] theorem State.clearMessage_freqZero (s : State) : (s.clearMessage).freqZero = s.freqZero := rfl
@[simp] theorem State.clearMessage_freqOne (s : State) : (s.clearMessage).freqOne = s.freqOne := rfl
@[simp] theorem State.clearMessage_maxFrameSize (s : State) : (s.clearMessage).maxFrameSize = s.maxFrameSize := rfl
@[simp] theorem State.clearMessage_dlen (s : State) : (s.clearMessage).dlen = s.dlen := rfl
@[simp] theorem State.clearMessage_errPermille (s : State) : (s.clearMessage).errPermille = s.errPermille := rfl
@[simp] theorem State.clearMessage_ibuf (s : State) : (s.clearMessage).ibuf = .none := rfl
@[simp] theorem State.clearMessage_obuf (s : State) : (s.clearMessage).obuf = .none := rfl
@[simp] theorem State.clearMessage_oidx (s : State) : (s.clearMessage).oidx = 0 := rfl
@[simp] theorem State.clearMessage_bufCap (s : State) : (s.clearMessage).bufCap = s.bufCap := rfl
@[simp] theorem State.clearMessage_draws (s : State) : (s.clearMessage).draws = s.draws := rfl
@[simp] theorem State.clearMessage_program (s : State) : (s.clearMessage).program = s.program := rfl
@[simp] theorem State.clearMessage_pc (s : State) : (s.clearMessage).pc = s.pc := rfl
@[simp] theorem State.clearMessage_observed (s : State) : (s.clearMessage).observed = s.observed := rfl

/-! ### reset -/

@[simp] theorem State.resetCore_fault (s : State) : (s.resetCore).fault = none := rfl
@[simp] theorem State.resetCore_flags (s : State) : (s.resetCore).flags = Flags.clear := rfl
@[simp] theorem State.resetCore_finfo (s : State) : (s.resetCore).finfo = 0 := rfl
@[simp] theorem State.resetCore_scheme (s : State) : (s.resetCore).scheme = 0 := rfl
@[simp] theorem State.resetCore_sampleCount (s : State) : (s.resetCore).sampleCount = 0 := rfl
@[simp] theorem State.resetCore_amplitude (s : State) : (s.resetCore).amplitude = Finite64.zero := rfl
@[simp] theorem State.resetCore_frequency (s : State) : (s.resetCore).frequency = Finite64.zero := rfl
@[simp] theorem State.resetCore_phase (s : State) : (s.resetCore).phase = Finite64.zero := rfl
@[simp] theorem State.resetCore_ampZero (s : State) : (s.resetCore).ampZero = Finite64.zero := rfl
@[simp] theorem State.resetCore_ampOne (s : State) : (s.resetCore).ampOne = Finite64.zero := rfl
@[simp] theorem State.resetCore_freqZero (s : State) : (s.resetCore).freqZero = Finite64.zero := rfl
@[simp] theorem State.resetCore_freqOne (s : State) : (s.resetCore).freqOne = Finite64.zero := rfl
@[simp] theorem State.resetCore_maxFrameSize (s : State) : (s.resetCore).maxFrameSize = 4 := rfl
@[simp] theorem State.resetCore_dlen (s : State) : (s.resetCore).dlen = 0 := rfl
@[simp] theorem State.resetCore_errPermille (s : State) : (s.resetCore).errPermille = 0 := rfl
@[simp] theorem State.resetCore_ibuf (s : State) : (s.resetCore).ibuf = .none := rfl
@[simp] theorem State.resetCore_obuf (s : State) : (s.resetCore).obuf = .none := rfl
@[simp] theorem State.resetCore_oidx (s : State) : (s.resetCore).oidx = 0 := rfl
@[simp] theorem State.resetCore_bufCap (s : State) : (s.resetCore).bufCap = s.bufCap := rfl
@[simp] theorem State.resetCore_draws (s : State) : (s.resetCore).draws = s.draws := rfl
@[simp] theorem State.resetCore_program (s : State) : (s.resetCore).program = s.program := rfl
@[simp] theorem State.resetCore_pc (s : State) : (s.resetCore).pc = s.pc := rfl
@[simp] theorem State.resetCore_observed (s : State) : (s.resetCore).observed = s.observed := rfl

/-! ### the move of the host's position -/

@[simp] theorem State.advance_fault (s : State) : (s.advance).fault = s.fault := rfl
@[simp] theorem State.advance_flags (s : State) : (s.advance).flags = s.flags := rfl
@[simp] theorem State.advance_finfo (s : State) : (s.advance).finfo = s.finfo := rfl
@[simp] theorem State.advance_scheme (s : State) : (s.advance).scheme = s.scheme := rfl
@[simp] theorem State.advance_sampleCount (s : State) : (s.advance).sampleCount = s.sampleCount := rfl
@[simp] theorem State.advance_amplitude (s : State) : (s.advance).amplitude = s.amplitude := rfl
@[simp] theorem State.advance_frequency (s : State) : (s.advance).frequency = s.frequency := rfl
@[simp] theorem State.advance_phase (s : State) : (s.advance).phase = s.phase := rfl
@[simp] theorem State.advance_ampZero (s : State) : (s.advance).ampZero = s.ampZero := rfl
@[simp] theorem State.advance_ampOne (s : State) : (s.advance).ampOne = s.ampOne := rfl
@[simp] theorem State.advance_freqZero (s : State) : (s.advance).freqZero = s.freqZero := rfl
@[simp] theorem State.advance_freqOne (s : State) : (s.advance).freqOne = s.freqOne := rfl
@[simp] theorem State.advance_maxFrameSize (s : State) : (s.advance).maxFrameSize = s.maxFrameSize := rfl
@[simp] theorem State.advance_dlen (s : State) : (s.advance).dlen = s.dlen := rfl
@[simp] theorem State.advance_errPermille (s : State) : (s.advance).errPermille = s.errPermille := rfl
@[simp] theorem State.advance_ibuf (s : State) : (s.advance).ibuf = s.ibuf := rfl
@[simp] theorem State.advance_obuf (s : State) : (s.advance).obuf = s.obuf := rfl
@[simp] theorem State.advance_oidx (s : State) : (s.advance).oidx = s.oidx := rfl
@[simp] theorem State.advance_bufCap (s : State) : (s.advance).bufCap = s.bufCap := rfl
@[simp] theorem State.advance_draws (s : State) : (s.advance).draws = s.draws := rfl
@[simp] theorem State.advance_program (s : State) : (s.advance).program = s.program := rfl
@[simp] theorem State.advance_pc (s : State) : (s.advance).pc = s.pc + 1 := rfl
@[simp] theorem State.advance_observed (s : State) : (s.advance).observed = s.observed := rfl

/-! ### a read -/

@[simp] theorem State.observe_fault (s : State) (v : Nat) : (s.observe v).fault = s.fault := rfl
@[simp] theorem State.observe_flags (s : State) (v : Nat) : (s.observe v).flags = s.flags := rfl
@[simp] theorem State.observe_finfo (s : State) (v : Nat) : (s.observe v).finfo = s.finfo := rfl
@[simp] theorem State.observe_scheme (s : State) (v : Nat) : (s.observe v).scheme = s.scheme := rfl
@[simp] theorem State.observe_sampleCount (s : State) (v : Nat) : (s.observe v).sampleCount = s.sampleCount := rfl
@[simp] theorem State.observe_amplitude (s : State) (v : Nat) : (s.observe v).amplitude = s.amplitude := rfl
@[simp] theorem State.observe_frequency (s : State) (v : Nat) : (s.observe v).frequency = s.frequency := rfl
@[simp] theorem State.observe_phase (s : State) (v : Nat) : (s.observe v).phase = s.phase := rfl
@[simp] theorem State.observe_ampZero (s : State) (v : Nat) : (s.observe v).ampZero = s.ampZero := rfl
@[simp] theorem State.observe_ampOne (s : State) (v : Nat) : (s.observe v).ampOne = s.ampOne := rfl
@[simp] theorem State.observe_freqZero (s : State) (v : Nat) : (s.observe v).freqZero = s.freqZero := rfl
@[simp] theorem State.observe_freqOne (s : State) (v : Nat) : (s.observe v).freqOne = s.freqOne := rfl
@[simp] theorem State.observe_maxFrameSize (s : State) (v : Nat) : (s.observe v).maxFrameSize = s.maxFrameSize := rfl
@[simp] theorem State.observe_dlen (s : State) (v : Nat) : (s.observe v).dlen = s.dlen := rfl
@[simp] theorem State.observe_errPermille (s : State) (v : Nat) : (s.observe v).errPermille = s.errPermille := rfl
@[simp] theorem State.observe_ibuf (s : State) (v : Nat) : (s.observe v).ibuf = s.ibuf := rfl
@[simp] theorem State.observe_obuf (s : State) (v : Nat) : (s.observe v).obuf = s.obuf := rfl
@[simp] theorem State.observe_oidx (s : State) (v : Nat) : (s.observe v).oidx = s.oidx := rfl
@[simp] theorem State.observe_bufCap (s : State) (v : Nat) : (s.observe v).bufCap = s.bufCap := rfl
@[simp] theorem State.observe_draws (s : State) (v : Nat) : (s.observe v).draws = s.draws := rfl
@[simp] theorem State.observe_program (s : State) (v : Nat) : (s.observe v).program = s.program := rfl
@[simp] theorem State.observe_pc (s : State) (v : Nat) : (s.observe v).pc = s.pc := rfl
@[simp] theorem State.observe_observed (s : State) (v : Nat) : (s.observe v).observed = s.observed ++ [v] := rfl

/-! ### the state after a fault -/

@[simp] theorem State.afterFault_fault (s : State) (k : FaultKind) (n : Nat) : (s.afterFault k n).fault = some k := rfl
@[simp] theorem State.afterFault_flags (s : State) (k : FaultKind) (n : Nat) : (s.afterFault k n).flags = s.flags := rfl
@[simp] theorem State.afterFault_finfo (s : State) (k : FaultKind) (n : Nat) : (s.afterFault k n).finfo = BitVec.ofNat 32 n := rfl
@[simp] theorem State.afterFault_scheme (s : State) (k : FaultKind) (n : Nat) : (s.afterFault k n).scheme = s.scheme := rfl
@[simp] theorem State.afterFault_sampleCount (s : State) (k : FaultKind) (n : Nat) : (s.afterFault k n).sampleCount = s.sampleCount := rfl
@[simp] theorem State.afterFault_amplitude (s : State) (k : FaultKind) (n : Nat) : (s.afterFault k n).amplitude = s.amplitude := rfl
@[simp] theorem State.afterFault_frequency (s : State) (k : FaultKind) (n : Nat) : (s.afterFault k n).frequency = s.frequency := rfl
@[simp] theorem State.afterFault_phase (s : State) (k : FaultKind) (n : Nat) : (s.afterFault k n).phase = s.phase := rfl
@[simp] theorem State.afterFault_ampZero (s : State) (k : FaultKind) (n : Nat) : (s.afterFault k n).ampZero = s.ampZero := rfl
@[simp] theorem State.afterFault_ampOne (s : State) (k : FaultKind) (n : Nat) : (s.afterFault k n).ampOne = s.ampOne := rfl
@[simp] theorem State.afterFault_freqZero (s : State) (k : FaultKind) (n : Nat) : (s.afterFault k n).freqZero = s.freqZero := rfl
@[simp] theorem State.afterFault_freqOne (s : State) (k : FaultKind) (n : Nat) : (s.afterFault k n).freqOne = s.freqOne := rfl
@[simp] theorem State.afterFault_maxFrameSize (s : State) (k : FaultKind) (n : Nat) : (s.afterFault k n).maxFrameSize = s.maxFrameSize := rfl
@[simp] theorem State.afterFault_dlen (s : State) (k : FaultKind) (n : Nat) : (s.afterFault k n).dlen = s.dlen := rfl
@[simp] theorem State.afterFault_errPermille (s : State) (k : FaultKind) (n : Nat) : (s.afterFault k n).errPermille = s.errPermille := rfl
@[simp] theorem State.afterFault_ibuf (s : State) (k : FaultKind) (n : Nat) : (s.afterFault k n).ibuf = s.ibuf := rfl
@[simp] theorem State.afterFault_obuf (s : State) (k : FaultKind) (n : Nat) : (s.afterFault k n).obuf = .none := rfl
@[simp] theorem State.afterFault_oidx (s : State) (k : FaultKind) (n : Nat) : (s.afterFault k n).oidx = s.oidx := rfl
@[simp] theorem State.afterFault_bufCap (s : State) (k : FaultKind) (n : Nat) : (s.afterFault k n).bufCap = s.bufCap := rfl
@[simp] theorem State.afterFault_draws (s : State) (k : FaultKind) (n : Nat) : (s.afterFault k n).draws = s.draws := rfl
@[simp] theorem State.afterFault_program (s : State) (k : FaultKind) (n : Nat) : (s.afterFault k n).program = s.program := rfl
@[simp] theorem State.afterFault_pc (s : State) (k : FaultKind) (n : Nat) : (s.afterFault k n).pc = s.pc := rfl
@[simp] theorem State.afterFault_observed (s : State) (k : FaultKind) (n : Nat) : (s.afterFault k n).observed = s.observed := rfl

end Sys2Proof.Machine
end

