-- ==== Sys2Proof/Laws/Ops.lean ====
section
/-! SUPPORT. What each shared operation does, said once: the flags, the capacity, the reports of stages, the template of
an operation, the ports of the host interface and the step. -/

namespace Sys2Proof.Machine

/-! ### flags -/

@[simp] theorem Flags.or_clear (f : Flags) : f.or Flags.clear = f := by simp [Flags.or, Flags.clear]

@[simp] theorem Flags.clear_or (f : Flags) : Flags.clear.or f = f := by simp [Flags.or, Flags.clear]

theorem Flags.or_assoc (f g h : Flags) : (f.or g).or h = f.or (g.or h) := by simp [Flags.or, Bool.or_assoc]

theorem Flags.le_refl (f : Flags) : f.le f := ⟨id, id, id, id⟩

/-- Setting flags clears none (10_state R22). -/
theorem Flags.le_or (f g : Flags) : f.le (f.or g) := by
  simp only [Flags.le, Flags.or, Bool.or_eq_true]
  exact ⟨Or.inl, Or.inl, Or.inl, Or.inl⟩

@[simp] theorem State.setFlags_clear (s : State) : s.setFlags Flags.clear = s := by simp [State.setFlags]

/-! ### capacity -/

@[simp] theorem fits_none (n : Nat) : fits none n = true := rfl

@[simp] theorem fits_some (c n : Nat) : fits (some c) n = true ↔ n ≤ c := by simp [fits]

/-- The capacity test is that of the claims. -/
theorem fits_iff_room (s : State) (n : Nat) : fits s.bufCap n = true ↔ s.Room n := by
  unfold State.Room
  cases s.bufCap <;> simp

theorem fits_of_le {cap : Option Nat} {m n : Nat} (h : m ≤ n) (hn : fits cap n = true) : fits cap m = true := by
  cases cap with
  | none => rfl
  | some c => simp only [fits_some] at hn ⊢; omega

/-! ### reports -/

@[simp] theorem Report.bind_ok {α β : Type} (f : Flags) (a : α) (k : α → Report β) :
    Report.bind ⟨f, .ok a⟩ k = ⟨f.or (k a).flags, (k a).result⟩ := rfl

@[simp] theorem Report.bind_error {α β : Type} (f : Flags) (e : Cause) (k : α → Report β) :
    Report.bind ⟨f, .error e⟩ k = ⟨f, .error e⟩ := rfl

/-- All that one stage after another can do. -/
theorem Report.bind_cases {α β : Type} (r : Report α) (k : α → Report β) :
    (∃ e, r.result = .error e ∧ r.bind k = ⟨r.flags, .error e⟩) ∨
      ∃ a, r.result = .ok a ∧ r.bind k = ⟨r.flags.or (k a).flags, (k a).result⟩ := by
  obtain ⟨f, e | a⟩ := r
  · exact .inl ⟨e, rfl, rfl⟩
  · exact .inr ⟨a, rfl, rfl⟩

@[simp] theorem Report.check_true {α : Type} (kind : FaultKind) (info : Nat) (k : Report α) :
    Report.check true kind info k = Report.fail Flags.clear kind info := rfl

@[simp] theorem Report.check_false {α : Type} (kind : FaultKind) (info : Nat) (k : Report α) :
    Report.check false kind info k = k := rfl

/-- A result that fits is handed on. -/
theorem Report.fit_ok {α : Type} {cap : Option Nat} {f : Flags} {l : List α} (h : fits cap l.length = true) :
    Report.fit cap ⟨f, .ok l⟩ = ⟨f, .ok l⟩ := by
  simp [Report.fit, h, Report.pure]

/-- A result that does not fit raises `CapacityError`; the flags stay set. -/
theorem Report.fit_over {α : Type} {cap : Option Nat} {f : Flags} {l : List α} (h : fits cap l.length = false) :
    Report.fit cap ⟨f, .ok l⟩ = ⟨f, .error ⟨.capacityError, l.length⟩⟩ := by
  simp [Report.fit, h, Report.fail]

@[simp] theorem Report.fit_error {α : Type} (cap : Option Nat) (f : Flags) (e : Cause) :
    Report.fit (α := α) cap ⟨f, .error e⟩ = ⟨f, .error e⟩ := rfl

/-! ### the template of an operation -/

theorem unlessFaulted_of_fault {s t : State} (h : s.fault ≠ none) : unlessFaulted s t = .next s := by
  cases hf : s.fault with
  | none => exact absurd hf h
  | some k => simp [unlessFaulted, State.faulted, hf]

theorem unlessFaulted_of_ready {s t : State} (h : s.fault = none) : unlessFaulted s t = .next t := by
  simp [unlessFaulted, State.faulted, h]

section Template

variable {α β : Type} {s : State} {take : Buffer → Option α} {stage : α → Report β} {finish : State → β → State}

/-- In the fault state an operation is dropped. -/
theorem transform_of_fault (h : s.fault ≠ none) : transform s take stage finish = .next s :=
  unlessFaulted_of_fault h

/-- A buffer of another type raises `OperandTypeError`, and nothing else is looked at. -/
theorem transform_of_type (h : s.fault = none) (ht : take s.ibuf = none) :
    transform s take stage finish = .next (s.afterFault .operandTypeError s.ibuf.tag) := by
  rw [transform, ht]
  exact unlessFaulted_of_ready h

/-- A stage that completes delivers its result, its flags set. -/
theorem transform_of_done {a : α} {f : Flags} {b : β} (h : s.fault = none) (ht : take s.ibuf = some a)
    (hs : stage a = ⟨f, .ok b⟩) : transform s take stage finish = .next (finish (s.setFlags f) b) := by
  rw [transform, ht]
  dsimp only
  rw [hs]
  exact unlessFaulted_of_ready h

/-- A stage that faults leaves the state after the fault, its flags set. -/
theorem transform_of_error {a : α} {f : Flags} {e : Cause} (h : s.fault = none) (ht : take s.ibuf = some a)
    (hs : stage a = ⟨f, .error e⟩) :
    transform s take stage finish = .next ((s.setFlags f).afterFault e.kind e.info) := by
  rw [transform, ht]
  dsimp only
  rw [hs]
  exact unlessFaulted_of_ready h

/-- All that an operation of the common shape can do. -/
theorem transform_cases (s : State) (take : Buffer → Option α) (stage : α → Report β) (finish : State → β → State) :
    (s.fault ≠ none ∧ transform s take stage finish = .next s) ∨
    (s.fault = none ∧ take s.ibuf = none ∧
      transform s take stage finish = .next (s.afterFault .operandTypeError s.ibuf.tag)) ∨
    (∃ a f b, s.fault = none ∧ take s.ibuf = some a ∧ stage a = ⟨f, .ok b⟩ ∧
      transform s take stage finish = .next (finish (s.setFlags f) b)) ∨
    (∃ a f e, s.fault = none ∧ take s.ibuf = some a ∧ stage a = ⟨f, .error e⟩ ∧
      transform s take stage finish = .next ((s.setFlags f).afterFault e.kind e.info)) := by
  by_cases h : s.fault = none
  · refine .inr ?_
    cases ht : take s.ibuf with
    | none => exact .inl ⟨h, rfl, transform_of_type h ht⟩
    | some a =>
      cases hs : stage a with
      | mk f r =>
        cases r with
        | error e => exact .inr (.inr ⟨a, f, e, h, rfl, hs, transform_of_error h ht hs⟩)
        | ok b => exact .inr (.inl ⟨a, f, b, h, rfl, hs, transform_of_done h ht hs⟩)
  · exact .inl ⟨h, transform_of_fault h⟩

end Template

/-! ### operands -/

theorem Buffer.char?_eq_some {b : Buffer} {d : List CodePoint} : b.char? = some d ↔ b = .char d := by
  cases b <;> simp [Buffer.char?]

theorem Buffer.bit?_eq_some {b : Buffer} {d : List Bool} : b.bit? = some d ↔ b = .bit d := by
  cases b <;> simp [Buffer.bit?]

theorem Buffer.byte?_eq_some {b : Buffer} {d : List Byte} : b.byte? = some d ↔ b = .byte d := by
  cases b <;> simp [Buffer.byte?]

theorem Buffer.sym?_eq_some {b : Buffer} {d : List Sym} : b.sym? = some d ↔ b = .sym d := by
  cases b <;> simp [Buffer.sym?]

theorem Buffer.sample?_eq_some {b : Buffer} {d : List Sample} : b.sample? = some d ↔ b = .sample d := by
  cases b <;> simp [Buffer.sample?]

theorem Buffer.char?_eq_none {b : Buffer} : b.char? = Option.none ↔ b.tag ≠ 1 := by cases b <;> simp [Buffer.char?, Buffer.tag]

theorem Buffer.bit?_eq_none {b : Buffer} : b.bit? = Option.none ↔ b.tag ≠ 2 := by cases b <;> simp [Buffer.bit?, Buffer.tag]

theorem Buffer.byte?_eq_none {b : Buffer} : b.byte? = Option.none ↔ b.tag ≠ 3 := by cases b <;> simp [Buffer.byte?, Buffer.tag]

theorem Buffer.sym?_eq_none {b : Buffer} : b.sym? = Option.none ↔ b.tag ≠ 4 := by cases b <;> simp [Buffer.sym?, Buffer.tag]

theorem Buffer.sample?_eq_none {b : Buffer} : b.sample? = Option.none ↔ b.tag ≠ 5 := by
  cases b <;> simp [Buffer.sample?, Buffer.tag]

@[simp] theorem slices_length {α : Type} (n k : Nat) (l : List α) : (slices n k l).length = k := by simp [slices]

@[simp] theorem bits8_length (b : Byte) : (bits8 b).length = 8 := by simp [bits8]

@[simp] theorem be32_length (v : BitVec 32) : (be32 v).length = 32 := by simp [be32]

/-- Appending an element keeps the type and adds one to the length, unless the buffer is `NONE`. -/
theorem Buffer.append?_cases {b b' : Buffer} {v : Nat} (h : b.append? v = some b') :
    (b = .none ∧ b' = .none) ∨ (b ≠ .none ∧ b'.tag = b.tag ∧ b'.len = b.len + 1) := by
  cases b <;> simp only [Buffer.append?, Option.some.injEq, Option.map_eq_some_iff] at h
  case none => exact .inl ⟨rfl, h.symm⟩
  case sample =>
    obtain ⟨x, -, rfl⟩ := h
    exact .inr ⟨by simp, rfl, by simp [Buffer.len]⟩
  all_goals
    subst h
    exact .inr ⟨by simp, rfl, by simp [Buffer.len]⟩

/-! ### the host interface -/

/-- All that a write of `IDATA` can do. -/
theorem writeIdata_cases (s : State) (v : Nat) :
    (s.ibuf = .none ∧ writeIdata s v = .next s) ∨
    (∃ c, s.ibuf ≠ .none ∧ s.bufCap = some c ∧ c ≤ s.ibuf.len ∧
      writeIdata s v = unlessFaulted s (s.afterFault .capacityError c)) ∨
    (s.ibuf ≠ .none ∧ s.Room (s.ibuf.len + 1) ∧
      ((∃ b, s.ibuf.append? v = some b ∧ writeIdata s v = .next (s.setIbuf b)) ∨
        (s.ibuf.append? v = Option.none ∧ writeIdata s v = .refused .nonFiniteSample))) := by
  by_cases hb : s.ibuf = .none
  · exact .inl ⟨hb, by rw [writeIdata, hb]⟩
  refine .inr ?_
  by_cases hc : ∃ c, s.bufCap = some c ∧ c ≤ s.ibuf.len
  · obtain ⟨c, hc, hle⟩ := hc
    refine .inl ⟨c, hb, hc, hle, ?_⟩
    rw [writeIdata]
    split
    · exact absurd ‹_› hb
    · rw [hc]
      dsimp only
      rw [if_pos hle]
      rfl
  · have hroom : s.Room (s.ibuf.len + 1) := fun c h => by
      by_contra hcon
      exact hc ⟨c, h, by omega⟩
    have hw : writeIdata s v = writeIdata.appendIbuf s v s.ibuf := by
      rw [writeIdata]
      split
      · exact absurd ‹_› hb
      · split
        · rename_i c hcap
          rw [if_neg fun hle => hc ⟨c, hcap, hle⟩]
        · rfl
    refine .inr ⟨hb, hroom, ?_⟩
    rw [hw, writeIdata.appendIbuf]
    cases s.ibuf.append? v with
    | some b => exact .inl ⟨b, rfl, rfl⟩
    | none => exact .inr ⟨rfl, rfl⟩

/-- All that a write of `CMD` can do. -/
theorem command_cases (w : CommandWord) (s : State) :
    (∃ i, decode w = .ok i ∧ command w s = exec i s) ∨
      ∃ e, decode w = .error e ∧
        command w s = unlessFaulted s (s.afterFault (decodeCause w e).kind (decodeCause w e).info) := by
  rw [command]
  cases h : decode w with
  | ok i => exact .inl ⟨i, rfl, rfl⟩
  | error e => exact .inr ⟨e, rfl, rfl⟩

/-- All that a step can do: nothing at the end of the host's list; else its next event, and the host moves on. -/
theorem step_cases (s : State) :
    (s.fetch = none ∧ step s = .next s) ∨
      ∃ e, s.fetch = some e ∧
        ((∃ t, hostEvent e s = .next t ∧ step s = .next t.advance) ∨
          ∃ r, hostEvent e s = .refused r ∧ step s = .refused r) := by
  rw [step]
  cases hf : s.fetch with
  | none => exact .inl ⟨rfl, rfl⟩
  | some e =>
    refine .inr ⟨e, rfl, ?_⟩
    dsimp only
    rw [runEvent]
    cases he : hostEvent e s with
    | next t => exact .inl ⟨t, rfl, rfl⟩
    | fault r => exact nomatch r
    | refused r => exact .inr ⟨r, rfl, rfl⟩

/-- What is placed at the host's position is fetched next. -/
theorem State.fetch_placeEvent (s : State) (e : HostEvent) : (s.placeEvent e).fetch = some e := by
  unfold State.fetch State.placeEvent
  dsimp only
  rw [List.getElem?_append_right (by simp; omega)]
  have : s.pc - (s.program.take s.pc ++ List.replicate (s.pc - s.program.length) (HostEvent.write 0 0)).length = 0 := by
    simp
    omega
  rw [this]
  rfl

end Sys2Proof.Machine
end

