-- ==== Sys2Proof/Laws/SampleOrder.lean ====
section
/-! SUPPORT. The order of samples, their absolute value, maximum, floor and rounding are those of the real numbers they stand
for (45_carrier_modem R231, R232), for every sample. -/

namespace Sys2Proof

theorem Sample.signQuick?_sound (x : Sample) (o : Ordering) (h : x.signQuick? = some o) : IsSign o x.toReal := by
  unfold Sample.signQuick? at h
  split at h
  · cases h
    exact Sample.signAt?_sound _ Precision.coarse_sound _ _ ‹_›
  · exact Sample.signAt?_sound _ Precision.fine_sound _ _ h

theorem Sample.signDeep?_sound (x : Sample) (o : Ordering) (h : x.signDeep? = some o) : IsSign o x.toReal := by
  obtain ⟨n, -, hn⟩ := List.exists_of_findSome?_eq_some h
  exact Sample.signAt?_sound _ (Precision.level_sound n) _ _ hn

theorem Sample.signSearch_sound (x : Sample) (h : x.isZero = false) : IsSign (x.signSearch h) x.toReal := by
  obtain ⟨o, ho⟩ := Option.isSome_iff_exists.mp (Nat.find_spec (x.exists_level_settles h))
  rw [Sample.signSearch, ho]
  exact Sample.signAt?_sound _ (Precision.level_sound _) _ _ ho

/-- The order of a sample against 0 is that of its real number. -/
theorem Sample.sign_isSign (x : Sample) : IsSign x.sign x.toReal := by
  have hx : (Sample.ofTones x.tones).toReal = x.toReal := Sample.ofTones_toReal x.tones
  rw [← hx]
  unfold Sample.sign
  dsimp only
  split
  · exact Sample.signQuick?_sound _ _ ‹_›
  · split
    · exact (Sample.isZero_iff _).mp ‹_›
    · split
      · exact Sample.signDeep?_sound _ _ ‹_›
      · exact Sample.signSearch_sound _ _

/-- A real number has one sign. -/
theorem IsSign.unique {o o' : Ordering} {r : ℝ} (h : IsSign o r) (h' : IsSign o' r) : o = o' := by
  cases o <;> cases o' <;> simp only [IsSign] at h h' <;> first | rfl | (exfalso; linarith)

theorem Sample.sign_eq_iff (x : Sample) (o : Ordering) : x.sign = o ↔ IsSign o x.toReal :=
  ⟨fun h => h ▸ x.sign_isSign, fun h => x.sign_isSign.unique h⟩

@[simp] theorem Sample.lt_iff (x y : Sample) : x.lt y = true ↔ x.toReal < y.toReal := by
  simp [Sample.lt, Sample.sign_eq_iff, IsSign]

@[simp] theorem Sample.nonneg_iff (x : Sample) : x.nonneg = true ↔ 0 ≤ x.toReal := by
  simp [Sample.nonneg, Sample.sign_eq_iff, IsSign]

@[simp] theorem Sample.abs_toReal (x : Sample) : x.abs.toReal = |x.toReal| := by
  unfold Sample.abs
  split_ifs with h
  · rw [abs_of_nonneg ((Sample.nonneg_iff x).mp h)]
  · rw [Sample.neg_toReal, abs_of_neg (not_le.mp fun hh => h ((Sample.nonneg_iff x).mpr hh))]

@[simp] theorem Sample.max_toReal (x y : Sample) : (x.max y).toReal = Max.max x.toReal y.toReal := by
  unfold Sample.max
  split_ifs with h
  · rw [max_eq_right ((Sample.lt_iff x y).mp h).le]
  · rw [max_eq_left (not_lt.mp fun hh => h ((Sample.lt_iff x y).mpr hh))]

theorem Tone.toReal_of_isRational (t : Tone) (h : t.isRational = true) : t.toReal = t.amp := by
  simp only [Tone.isRational, decide_eq_true_eq] at h
  rw [Tone.toReal, h.1, h.2]
  push_cast
  rw [show 2 * Real.pi * (1 / 4) + 0 = Real.pi / 2 by ring, Real.sin_pi_div_two, mul_one]

theorem Tone.abs_toReal_le (t : Tone) : |t.toReal| ≤ |(t.amp : ℝ)| := by
  rw [Tone.toReal, abs_mul]
  have := Real.abs_sin_le_one (2 * Real.pi * (t.turns : ℝ) + t.phase)
  nlinarith [abs_nonneg (t.amp : ℝ)]

/-- A rational number that a sample is seen to be is its value. -/
theorem Sample.rat?_sound (x : Sample) (q : Rat) (h : x.rat? = some q) : x.toReal = q := by
  unfold Sample.rat? at h
  unfold Sample.toReal
  split at h
  · cases h
    simp [*]
  · rename_i t ht
    split_ifs at h with hr
    cases h
    simp [ht, t.toReal_of_isRational hr]
  · cases h

theorem Sample.abs_toReal_le_magnitude (x : Sample) : |x.toReal| ≤ (x.magnitude : ℝ) := by
  have h : |x.toReal| ≤ (((x.tones.map fun t : Tone => |t.amp|).sum : Rat) : ℝ) := by
    unfold Sample.toReal
    induction x.tones with
    | nil => simp
    | cons t l ih =>
      simp only [List.map_cons, List.sum_cons]
      rw [Rat.cast_add, Rat.cast_abs]
      exact (abs_add_le _ _).trans (add_le_add t.abs_toReal_le ih)
  refine h.trans ?_
  unfold Sample.magnitude
  set q : Rat := (x.tones.map fun t : Tone => |t.amp|).sum
  have h1 : q ≤ (((⌊q⌋ + 1).toNat : Nat) : Rat) := by
    have h2 := (Int.lt_floor_add_one q).le
    have h3 : ⌊q⌋ + 1 ≤ (((⌊q⌋ + 1).toNat : Nat) : Int) := Int.self_le_toNat _
    exact h2.trans (by exact_mod_cast h3)
  exact_mod_cast (Rat.cast_le (K := ℝ)).mpr h1

/-- The halving keeps the number between its bounds. -/
theorem Sample.floorFrom_eq (x : Sample) (n : Nat) (lo : Int) (h0 : (lo : ℝ) ≤ x.toReal) (h1 : x.toReal < lo + 2 ^ n) :
    x.floorFrom n lo = ⌊x.toReal⌋ := by
  induction n generalizing lo with
  | zero =>
    rw [Sample.floorFrom]
    exact (Int.floor_eq_iff.mpr ⟨h0, by simpa using h1⟩).symm
  | succ n ih =>
    rw [Sample.floorFrom]
    split_ifs with h
    · rw [Sample.lt_iff, Sample.ofRat_toReal] at h
      exact ih lo h0 (by push_cast at h; exact h)
    · rw [Sample.lt_iff, Sample.ofRat_toReal, not_lt] at h
      refine ih _ (by push_cast at h ⊢; exact h) ?_
      push_cast
      rw [pow_succ] at h1
      linarith

/-- The floor of a sample is that of its real number. -/
theorem Sample.floor_eq (x : Sample) : x.floor = ⌊x.toReal⌋ := by
  unfold Sample.floor
  split
  · rename_i q hq
    rw [x.rat?_sound q hq, Rat.floor_cast]
    rfl
  · have hm := abs_le.mp x.abs_toReal_le_magnitude
    refine x.floorFrom_eq _ _ (by push_cast; exact hm.1) ?_
    have h1 : x.magnitude < 2 ^ (x.magnitude.log2 + 1) := Nat.lt_log2_self
    have h2 : (x.magnitude : ℝ) < 2 ^ (x.magnitude.log2 + 1) := by exact_mod_cast h1
    rw [show x.magnitude.log2 + 2 = x.magnitude.log2 + 1 + 1 from rfl, pow_succ]
    push_cast
    linarith [hm.2]

/-- `round1` gives the nearest multiple of 1/10, and of two that are as near the one with an even numerator (45_carrier_modem
R232). -/
theorem Sample.round1_spec (x : Sample) : ∃ n : Int, x.round1 = n / 10 ∧ |10 * x.toReal - n| ≤ 1 / 2 ∧
    (|10 * x.toReal - n| = 1 / 2 → n % 2 = 0) := by
  have hf := (x.scale 10).floor_eq
  have hs := ((x.scale 10).sub (Sample.ofRat (((x.scale 10).floor : Rat) + 1 / 2))).sign_isSign
  rw [Sample.sub_toReal, Sample.ofRat_toReal, Sample.scale_toReal] at hs
  rw [Sample.scale_toReal] at hf
  have l1 := Int.floor_le (((10 : Rat) : ℝ) * x.toReal)
  have l2 := Int.lt_floor_add_one (((10 : Rat) : ℝ) * x.toReal)
  rw [← hf] at l1 l2
  push_cast at hs l1 l2
  unfold Sample.round1
  dsimp only
  set f := (x.scale 10).floor
  cases hsign : ((x.scale 10).sub (Sample.ofRat ((f : Rat) + 1 / 2))).sign with
  | lt =>
    rw [hsign] at hs
    simp only [IsSign] at hs
    refine ⟨f, Rat.mkRat_eq_div f 10, ?_, fun h => ?_⟩
    · rw [abs_le]
      constructor <;> linarith
    · rw [abs_of_nonneg (by linarith)] at h
      linarith
  | gt =>
    rw [hsign] at hs
    simp only [IsSign] at hs
    refine ⟨f + 1, Rat.mkRat_eq_div (f + 1) 10, ?_, fun h => ?_⟩
    · push_cast
      rw [abs_le]
      constructor <;> linarith
    · push_cast at h
      rw [abs_of_nonpos (by linarith)] at h
      linarith
  | eq =>
    rw [hsign] at hs
    simp only [IsSign] at hs
    dsimp only
    split_ifs with hpar
    · refine ⟨f, Rat.mkRat_eq_div f 10, ?_, fun _ => hpar⟩
      rw [abs_le]
      constructor <;> linarith
    · refine ⟨f + 1, Rat.mkRat_eq_div (f + 1) 10, ?_, fun _ => by omega⟩
      push_cast
      rw [abs_le]
      constructor <;> linarith

end Sys2Proof
end

