-- ==== Sys2Proof/Laws/CarrierModem.lean ====
section
/-! SUPPORT. What each named piece of the carrier modem computes, in the real numbers that samples stand for
(45_carrier_modem R230, R231, R241, R246, R247, R254). -/

namespace Sys2Proof.Machine

/-- The windows that a demodulator cuts are those of `windowOf`. -/
theorem slices_map_toReal (s : State) (a : List Sample) (n j : Nat) :
    (slices s.samples n a)[j]?.map (·.map Sample.toReal) = if j < n then some (windowOf s a j) else none := by
  by_cases h : j < n <;> simp [slices, windowOf, h]

/-- A window cut from a stream of whole windows has `S` samples. -/
theorem windowOf_length (s : State) (a : List Sample) (j : Nat) (h : j < a.length / s.samples) :
    (windowOf s a j).length = s.samples := by
  have h2 := Nat.mul_le_of_le_div _ _ _ (Nat.succ_le_of_lt h)
  rw [Nat.succ_mul] at h2
  simp only [windowOf, List.length_map, List.length_take, List.length_drop]
  omega

/-- `peak` is the largest absolute value (R241). -/
@[simp] theorem peak_toReal (w : List Sample) : (peak w).toReal = largest (w.map Sample.toReal) := by
  have h : ∀ (w : List Sample) (m : Sample), ((w.map Sample.abs).foldl Sample.max m).toReal =
      (w.map Sample.toReal).foldl (fun m x => Max.max m |x|) m.toReal := by
    intro w
    induction w with
    | nil => exact fun m => rfl
    | cons x w ih => intro m; simp [ih]
  simpa [peak, largest] using h w Sample.zero

/-- `askOne` is the decision of R241, by the number of the line code. -/
theorem askOne_iff (lc : LineCode) (a0 a1 : Rat) (w : List Sample) :
    askOne lc a0 a1 w = true ↔ askReads (match lc with | .nrzPolar => 0 | .manchester => 1 | .bipolar => 2) a0 a1
      (w.map Sample.toReal) := by
  cases lc <;> simp [askOne, askReads]

/-- `crossings` counts the sign changes (R246). -/
theorem crossings_eq (w : List Sample) : crossings w = signChanges (w.map Sample.toReal) := by
  have h : ∀ l : List Bool, ((l.zip l.tail).filter fun p => p.1 != p.2).length =
      ((Finset.range (l.length - 1)).filter fun k => l.getD k true ≠ l.getD (k + 1) true).card := by
    intro l
    induction l with
    | nil => rfl
    | cons a l ih =>
      cases l with
      | nil => rfl
      | cons b l =>
        simp only [List.tail_cons, List.zip_cons_cons, List.filter_cons] at ih ⊢
        have hs : (a :: b :: l).length - 1 = ((b :: l).length - 1) + 1 := rfl
        rw [hs, Finset.card_filter, Finset.sum_range_succ', ← Finset.card_filter]
        simp only [List.getD_cons_succ, List.getD_cons_zero] at ih ⊢
        rw [← ih]
        by_cases hab : a = b <;> simp [hab]
  rw [crossings, h, signChanges]
  congr 1
  simp only [List.length_map]
  refine Finset.filter_congr fun k hk => ?_
  have hk' : k + 1 < w.length := by have := Finset.mem_range.mp hk; omega
  have hk0 : k < w.length := by omega
  simp only [List.getD_eq_getElem?_getD, List.getElem?_map, List.getElem?_eq_getElem hk', List.getElem?_eq_getElem hk0,
    Option.map_some, Option.getD_some]
  rw [Ne, Bool.eq_iff_iff, Sample.nonneg_iff, Sample.nonneg_iff]

/-- `fskOne` is the decision of R247. -/
theorem fskOne_iff (f0 f1 : Rat) (w : List Sample) : fskOne f0 f1 w = true ↔ fskReads f0 f1 (w.map Sample.toReal) := by
  have h : ∀ f : Rat, |(signChanges (w.map Sample.toReal) : ℝ) - f| = ((|(crossings w : Rat) - f| : Rat) : ℝ) := by
    intro f; rw [crossings_eq]; push_cast; rfl
  rw [fskOne, fskReads, h, h, decide_eq_true_eq, Rat.cast_lt]

/-- The turns of the carrier are its angle (R230). -/
theorem carrierTurns_angle (s : State) (f : Rat) (k : Nat) :
    2 * Real.pi * (carrierTurns s f k : ℝ) = carrierAngle s f k := by
  simp only [carrierTurns, carrierAngle, State.samples]
  push_cast
  ring

/-- A window of a carrier holds `A * sin (2 * pi * f * k / S + ph)` (R240, R245). -/
theorem sineWindow_toReal (s : State) (amp f ph : Rat) :
    (sineWindow s amp f ph).map Sample.toReal =
      (List.range s.samples).map fun k => (amp : ℝ) * Real.sin (carrierAngle s f k + ph) := by
  simp [sineWindow, carrierTurns_angle, State.samples]

/-- `correlate` is the sum of R254, for a window of `S` samples. -/
theorem correlate_toReal (s : State) (w : List Sample) (reference : Nat → Sample) (h : w.length = s.samples) :
    (correlate s w reference).toReal =
      2 / (s.samples : ℝ) * ∑ k ∈ Finset.range s.samples, (w.map Sample.toReal).getD k 0 * (reference k).toReal := by
  have hsum : ∀ (w : List Sample) (n : Nat), ((w.zipIdx n).map fun xk => xk.1.toReal * (reference xk.2).toReal).sum =
      ∑ k ∈ Finset.range w.length, (w.map Sample.toReal).getD k 0 * (reference (n + k)).toReal := by
    intro w
    induction w with
    | nil => exact fun n => rfl
    | cons x w ih =>
      intro n
      rw [List.zipIdx_cons, List.map_cons, List.sum_cons, ih, List.length_cons, Finset.sum_range_succ']
      simp only [List.map_cons, List.getD_cons_succ, List.getD_cons_zero, Nat.add_zero]
      rw [add_comm]
      congr 1
      exact Finset.sum_congr rfl fun k _ => by rw [Nat.add_right_comm, Nat.add_assoc]
  rw [correlate, Sample.scale_toReal, Sample.sum_toReal, List.map_map]
  have := hsum w 0
  simp only [Nat.zero_add, h] at this
  rw [← this]
  simp [Function.comp_def, State.samples]

/-- Both numbers of `qam_estimate` are the correlations with the carrier, rounded (R254). -/
theorem qamEstimate_spec (s : State) (w : List Sample) (h : w.length = s.samples) : ∃ i q : Int,
    qamEstimate s w = ((i : Rat) / 10, (q : Rat) / 10) ∧
      IsTenths (correlation s (w.map Sample.toReal) Real.cos) i ∧ IsTenths (correlation s (w.map Sample.toReal) Real.sin) q := by
  obtain ⟨i, hi, hi'⟩ :=
    Sample.round1_spec (correlate s w fun k => Sample.cosine (carrierTurns s s.frequency.toRat k))
  obtain ⟨q, hq, hq'⟩ :=
    Sample.round1_spec (correlate s w fun k => Sample.sine (carrierTurns s s.frequency.toRat k) 0)
  refine ⟨i, q, by rw [qamEstimate, hi, hq], ?_, ?_⟩
  · simpa [correlate_toReal s w _ h, carrierTurns_angle, IsTenths, correlation] using hi'
  · simpa [correlate_toReal s w _ h, carrierTurns_angle, IsTenths, correlation] using hq'

end Sys2Proof.Machine
end

