-- ==== Sys2Proof/Laws/PerInstr.lean ====
section
/-! SUPPORT. One lemma per operation: its word, by the encoder, decodes to it. -/

namespace Sys2Proof.Laws.Roundtrip

/-- The operation is well formed, its word decodes to it, and has no bit in `RSV`. -/
def Statement (i : Instr) : Prop := i.wf = true ∧ decode (encode i) = .ok i ∧ rsvField (encode i) = 0

theorem nop : Statement .nop := ⟨rfl, rfl, rfl⟩
theorem xfer : Statement .xfer := ⟨rfl, rfl, rfl⟩
theorem clr : Statement .clr := ⟨rfl, rfl, rfl⟩
theorem rst : Statement .rst := ⟨rfl, rfl, rfl⟩
theorem t2b : Statement .t2b := ⟨rfl, rfl, rfl⟩
theorem b2y : Statement .b2y := ⟨rfl, rfl, rfl⟩
theorem y2s : Statement .y2s := ⟨rfl, rfl, rfl⟩
theorem s2y : Statement .s2y := ⟨rfl, rfl, rfl⟩
theorem y2t : Statement .y2t := ⟨rfl, rfl, rfl⟩
theorem ecNoneEnc : Statement .ecNoneEnc := ⟨rfl, rfl, rfl⟩
theorem ecNoneChk : Statement .ecNoneChk := ⟨rfl, rfl, rfl⟩
theorem ecParEnc : Statement .ecParEnc := ⟨rfl, rfl, rfl⟩
theorem ecParChk : Statement .ecParChk := ⟨rfl, rfl, rfl⟩
theorem ecCrcEnc : Statement .ecCrcEnc := ⟨rfl, rfl, rfl⟩
theorem ecCrcChk : Statement .ecCrcChk := ⟨rfl, rfl, rfl⟩
theorem ecHamEnc : Statement .ecHamEnc := ⟨rfl, rfl, rfl⟩
theorem ecHamDec : Statement .ecHamDec := ⟨rfl, rfl, rfl⟩
theorem frCcF : Statement .frCcF := ⟨rfl, rfl, rfl⟩
theorem frCcD : Statement .frCcD := ⟨rfl, rfl, rfl⟩
theorem frBsF : Statement .frBsF := ⟨rfl, rfl, rfl⟩
theorem frBsD : Statement .frBsD := ⟨rfl, rfl, rfl⟩
theorem lcNrzEnc : Statement .lcNrzEnc := ⟨rfl, rfl, rfl⟩
theorem lcNrzDec : Statement .lcNrzDec := ⟨rfl, rfl, rfl⟩
theorem lcManEnc : Statement .lcManEnc := ⟨rfl, rfl, rfl⟩
theorem lcManDec : Statement .lcManDec := ⟨rfl, rfl, rfl⟩
theorem lcBipEnc : Statement .lcBipEnc := ⟨rfl, rfl, rfl⟩
theorem lcBipDec : Statement .lcBipDec := ⟨rfl, rfl, rfl⟩
theorem cmAskMod : Statement .cmAskMod := ⟨rfl, rfl, rfl⟩
theorem cmAskDem : Statement .cmAskDem := ⟨rfl, rfl, rfl⟩
theorem cmFskMod : Statement .cmFskMod := ⟨rfl, rfl, rfl⟩
theorem cmFskDem : Statement .cmFskDem := ⟨rfl, rfl, rfl⟩
theorem cmQamMod : Statement .cmQamMod := ⟨rfl, rfl, rfl⟩
theorem cmQamDem : Statement .cmQamDem := ⟨rfl, rfl, rfl⟩
theorem encmsg : Statement .encmsg := ⟨rfl, rfl, rfl⟩
theorem decmsg : Statement .decmsg := ⟨rfl, rfl, rfl⟩
theorem biterr : Statement .biterr := ⟨rfl, rfl, rfl⟩

end Sys2Proof.Laws.Roundtrip
end

