-- ==== Sys2Proof/Tests/Slice0.lean ====
section
/-! SUPPORT. Small tests on values from the spec's encodings and test vectors (95_test_vectors V<n>), the smoke test of
WellFormed, and for every statement with hypotheses a concrete state and operands that meet them. -/

namespace Sys2Proof.Tests

open Sys2Proof.Machine

-- The kernel evaluates most tests; one after another they need one thread, all at once dozens.
set_option Elab.async false

/-! ### helpers -/

/-- The state after reset with a loaded input buffer. -/
def loaded (b : Buffer) : State := { State.reset with ibuf := b }

/-- The same with a finite `BUF_CAP`. -/
def capped (n : Nat) (b : Buffer) : State := { loaded b with bufCap := some n }

/-- The same after a fault. -/
def faulty (b : Buffer) : State := { loaded b with fault := some .framingError, finfo := 7 }

/-- The binary64 pattern of 1.0 (95_test_vectors, conventions). -/
def one64 : Finite64 := ⟨false, 1023, 0⟩

/-- The binary64 pattern of 2.0. -/
def two64 : Finite64 := ⟨false, 1024, 0⟩

/-- A configured modem: `SCHEME`, `SAMPLE_COUNT`, and the parameters of program P4. -/
def modem (scheme : BitVec 8) (samples : BitVec 32) (b : Buffer) : State :=
  { loaded b with
    scheme := scheme, sampleCount := samples, amplitude := one64, frequency := one64, ampOne := one64,
    freqZero := one64, freqOne := two64 }

/-- `n` bits of a number, the most significant first. -/
def bv (n w : Nat) : List Bool := (List.range n).map fun j => w.testBit (n - 1 - j)

/-- What a test looks at: OBUF, `STATUS`, `FINFO`. -/
def seen : Outcome → Option (Buffer × Nat × Nat)
  | .next t => some (t.obuf, t.status.toNat, t.finfo.toNat)
  | .fault _ => none
  | .refused _ => none

/-- `DLEN` afterwards. -/
def dlenOf : Outcome → Option Nat
  | .next t => some t.dlen
  | .fault _ => none
  | .refused _ => none

/-- Rational samples. -/
def rats (l : List Rat) : Buffer := .sample (l.map Sample.ofRat)

/-! ### WellFormed: ill-formed terms are refused -/

theorem test_wf_write_infinity_refused : (HostEvent.write 0x05 0x7FF0000000000000).wf = false := by decide
theorem test_wf_write_nan_refused : (HostEvent.write 0x0B 0xFFF8000000000001).wf = false := by decide
theorem test_wf_write_finite : (HostEvent.write 0x05 0x3FF0000000000000).wf = true := by decide
theorem test_wf_write_plain : (HostEvent.write 0x04 0x7FF0000000000000).wf = true := by decide
theorem test_wf_line_wr_refused : (Line.wr .phase 0x7FF0000000000000).wf = false := by decide
theorem test_wf_line_ld_refused : (Line.ld .sample [0, 0x7FF0000000000000]).wf = false := by decide
theorem test_wf_line_config_refused :
    (Line.config 4 0x7FF0000000000000 0 0).wf = false ∧ (Line.config 4 0 0x7FF0000000000000 0).wf = false ∧
    (Line.config 4 0 0 0x7FF0000000000000).wf = false := by decide
theorem test_wf_line_params_refused :
    (Line.askParams 0x7FF0000000000000 0).wf = false ∧ (Line.askParams 0 0x7FF0000000000000).wf = false ∧
    (Line.fskParams 0x7FF0000000000000 0).wf = false ∧ (Line.fskParams 0 0x7FF0000000000000).wf = false := by decide

/-! ### decoding, from words written out by 30_encoding R90 to R93: UNIT, SCHEME, FUNC, RSV, four bits each -/

theorem test_decode_sys :
    decode 0b0000000000000000#16 = .ok .nop ∧ decode 0b0000000000010000#16 = .ok .xfer ∧
    decode 0b0000000000100000#16 = .ok .clr ∧ decode 0b0000000000110000#16 = .ok .rst := ⟨rfl, rfl, rfl, rfl⟩
theorem test_decode_bc :
    decode 0b0001000000000000#16 = .ok .t2b ∧ decode 0b0001000000010000#16 = .ok .b2y ∧
    decode 0b0001000000100000#16 = .ok .y2s ∧ decode 0b0001000000110000#16 = .ok .s2y ∧
    decode 0b0001000001000000#16 = .ok .y2t := ⟨rfl, rfl, rfl, rfl, rfl⟩
theorem test_decode_ec :
    decode 0b0010000000000000#16 = .ok .ecNoneEnc ∧ decode 0b0010000000010000#16 = .ok .ecNoneChk ∧
    decode 0b0010000100000000#16 = .ok .ecParEnc ∧ decode 0b0010000100010000#16 = .ok .ecParChk ∧
    decode 0b0010001000000000#16 = .ok .ecCrcEnc ∧ decode 0b0010001000010000#16 = .ok .ecCrcChk ∧
    decode 0b0010001100000000#16 = .ok .ecHamEnc ∧ decode 0b0010001100010000#16 = .ok .ecHamDec :=
  ⟨rfl, rfl, rfl, rfl, rfl, rfl, rfl, rfl⟩
theorem test_decode_fr :
    decode 0b0011000000000000#16 = .ok .frCcF ∧ decode 0b0011000000010000#16 = .ok .frCcD ∧
    decode 0b0011000100000000#16 = .ok .frBsF ∧ decode 0b0011000100010000#16 = .ok .frBsD := ⟨rfl, rfl, rfl, rfl⟩
theorem test_decode_lc :
    decode 0b0100000000000000#16 = .ok .lcNrzEnc ∧ decode 0b0100000000010000#16 = .ok .lcNrzDec ∧
    decode 0b0100000100000000#16 = .ok .lcManEnc ∧ decode 0b0100000100010000#16 = .ok .lcManDec ∧
    decode 0b0100001000000000#16 = .ok .lcBipEnc ∧ decode 0b0100001000010000#16 = .ok .lcBipDec :=
  ⟨rfl, rfl, rfl, rfl, rfl, rfl⟩
theorem test_decode_cm :
    decode 0b0101000000000000#16 = .ok .cmAskMod ∧ decode 0b0101000000010000#16 = .ok .cmAskDem ∧
    decode 0b0101000100000000#16 = .ok .cmFskMod ∧ decode 0b0101000100010000#16 = .ok .cmFskDem ∧
    decode 0b0101001000000000#16 = .ok .cmQamMod ∧ decode 0b0101001000010000#16 = .ok .cmQamDem :=
  ⟨rfl, rfl, rfl, rfl, rfl, rfl⟩
theorem test_decode_pipe_chan :
    decode 0b0110000000000000#16 = .ok .encmsg ∧ decode 0b0110000000010000#16 = .ok .decmsg ∧
    decode 0b0111000000000000#16 = .ok .biterr := ⟨rfl, rfl, rfl⟩
/-- V3. -/
theorem test_decode_illegal :
    ([0x0001#16, 0x8000#16, 0xF000#16, 0x0040#16, 0x1050#16, 0x2020#16, 0x6020#16, 0x7010#16, 0x0110#16, 0x1100#16,
      0x6100#16, 0x7100#16, 0x2420#16, 0x2401#16].all fun w =>
        match decode w with | .error .illegalCommand => true | _ => false) = true := by decide +kernel
/-- V4. -/
theorem test_decode_unsupported :
    ([0x2400#16, 0x2F10#16, 0x3200#16, 0x3310#16, 0x4300#16, 0x4F10#16, 0x5300#16, 0x5410#16].all fun w =>
        match decode w with | .error .unsupportedScheme => true | _ => false) = true := by decide +kernel
theorem test_table_word : decodeTableWord 16 0x2310 = some .ecHamDec := by decide

/-! ### system operations, registers, faults (V1 to V9) -/

theorem test_nop : seen (exec .nop (faulty (.byte [1]))) = some (.none, 2, 7) := by decide +kernel
theorem test_xfer_moves :
    exec .xfer { State.reset with ibuf := .byte [1], obuf := .bit [true] } = .next (loaded (.bit [true])) := rfl
theorem test_xfer_dropped : exec .xfer (faulty (.byte [1])) = .next (faulty (.byte [1])) := rfl
theorem test_clr : exec .clr { faulty (.byte [1]) with dlen := 5 } = .next { State.reset with dlen := 5 } := rfl
theorem test_rst : exec .rst { faulty (.byte [1]) with dlen := 5, maxFrameSize := 200 } = .next State.reset := rfl
/-- V3. -/
theorem test_illegal_word : seen (command 0x2401#16 (loaded (.byte [1]))) = some (.none, 8, 0x2401) := by decide +kernel
/-- V4. -/
theorem test_unsupported_word : seen (command 0x2F10#16 State.reset) = some (.none, 3, 0x2F10) := by decide +kernel
/-- V6. -/
theorem test_illegal_word_dropped : seen (command 0xFFFF#16 (faulty .none)) = some (.none, 2, 7) := by decide +kernel
/-- V7. -/
theorem test_register_width :
    (match regWrite 0x0C 0x1FF State.reset with | .next t => regRead 0x0C t | _ => 0) = 0xFF := by decide
/-- V8. -/
theorem test_idata_sym :
    (match runEvents [.write 0x10 4, .write 0x12 3, .write 0x12 1, .write 0x12 0, .write 0x12 2] State.reset with
      | .next t => decide (t.ibuf = .sym [3#2, 1#2, 0#2, 2#2]) | _ => false) = true := by decide +kernel
/-- V8. -/
theorem test_itype_reserved : regRead 0x10 { State.reset with ibuf := Buffer.emptyOfTag 6 } = 0 := by decide
theorem test_idata_full :
    seen (regWrite 0x12 5 (capped 1 (.byte [1]))) = some (.none, 7, 1) := by decide +kernel
theorem test_idata_nonfinite : regWrite 0x12 0x7FF0000000000000 (loaded (.sample [])) = .refused .nonFiniteSample := rfl
theorem test_odata :
    regRead 0x17 { State.reset with obuf := .bit (bv 8 0b01001000), oidx := 1 } = 1 ∧
    regRead 0x17 { State.reset with obuf := .bit (bv 8 0b01001000), oidx := 8 } = 0 := by decide
/-- 95_test_vectors, conventions: 1/3 rounds to this pattern. -/
theorem test_odata_third : (Sample.ofRat (1 / 3)).onBus.toNat = 0x3FD5555555555555 := by decide +kernel
theorem test_odata_quarter : (Sample.ofRat (-1 / 4)).onBus.toNat = 0xBFD0000000000000 := by decide +kernel
/-- The sine of the largest binary64 number is 0.00496... (a libm value). -/
theorem test_sign_of_a_huge_phase :
    (Sample.sine 0 (Finite64.toRat ⟨false, 2046, 0xFFFFFFFFFFFFF#52⟩)).sign = .gt := by decide +kernel
/-- sin x is below x and above 0 for a small x. -/
theorem test_sign_of_a_tiny_phase : (Sample.sine 0 (1 / 10 ^ 100)).sign = .gt := by decide +kernel
/-- sin 18 - sin 54 + 1/2 = 0 (degrees): an exact zero of three angles. -/
theorem test_sign_of_a_hidden_zero :
    (Sample.sum [Sample.sine (1 / 20) 0, (Sample.sine (3 / 20) 0).neg, Sample.ofRat (1 / 2)]).sign = .eq := by decide +kernel
/-- 45_carrier_modem R232: ten times the number is -1/2, a tie, which goes to the even 0. -/
theorem test_round1_of_a_hidden_tie :
    (((Sample.sine (1 / 20) 0).sub (Sample.sine (3 / 20) 0)).scale (1 / 10)).round1 = 0 := by decide +kernel
theorem test_step_runs_t2b :
    seen (step ((loaded (.char [0x48])).withFetchWord 16 0x1000)) = some (.bit (bv 8 0x48), 0, 0) := by decide +kernel
theorem test_step_idle : step State.reset = .next State.reset := rfl
/-- 30_encoding R110. -/
theorem test_line_ld :
    Line.expand 0 (.ld .byte [0x48, 0x69]) = [.write 0x10 3, .write 0x12 0x48, .write 0x12 0x69] := by decide
/-- 30_encoding R111; 95_test_vectors V62 has the value. -/
theorem test_line_scheme : Line.expand 0 (.scheme .bipolar .qam8 .charCount .crc32) = [.write 0x03 0x8A] := by decide
theorem test_line_then : Line.expand 0 (.thenOp .y2s) = [.write 0x00 0x0010, .write 0x00 0x1020] := by decide

/-! ### Bit Converter (V5, V10 to V16) -/

theorem test_t2b_hi :
    seen (exec .t2b (loaded (.char [0x48, 0x69]))) = some (.bit (bv 16 0b0100100001101001), 0, 0) := by decide +kernel
theorem test_t2b_beyond : seen (exec .t2b (loaded (.char [0x48, 0x100, 0x69]))) = some (.none, 1, 1) := by decide +kernel
theorem test_t2b_type : seen (exec .t2b (loaded (.byte [1]))) = some (.none, 6, 3) := by decide +kernel
theorem test_b2y_truncates :
    seen (exec .b2y (loaded (.bit (bv 12 0b010010000110)))) = some (.byte [0x48], 0x80, 0) := by decide +kernel
theorem test_b2y_sticky :
    seen (exec .b2y { loaded (.bit (bv 8 0x48)) with flags := ⟨false, false, false, true⟩ }) =
      some (.byte [0x48], 0x80, 0) := by decide +kernel
theorem test_y2s : seen (exec .y2s (loaded (.byte [0x80, 0x01]))) = some (.bit (bv 16 0x8001), 0, 0) := by decide +kernel
theorem test_y2s_capacity : seen (exec .y2s (capped 15 (.byte [0x80, 0x01]))) = some (.none, 7, 16) := by decide +kernel
theorem test_s2y : seen (exec .s2y (loaded (.bit (bv 16 0x4869)))) = some (.byte [0x48, 0x69], 0, 0) := by decide +kernel
theorem test_s2y_length : seen (exec .s2y (loaded (.bit (bv 12 0x486)))) = some (.none, 4, 12) := by decide +kernel
theorem test_y2t : seen (exec .y2t (loaded (.byte [0xFF, 0x00]))) = some (.char [255, 0], 0, 0) := by decide +kernel

/-! ### Error-Control Codec (V20 to V32) -/

theorem test_ecNoneEnc :
    seen (exec .ecNoneEnc (loaded (.byte [0x02, 0x48, 0x69]))) = some (.bit (bv 24 0x024869), 0, 0) := by decide +kernel
theorem test_ecNoneChk :
    seen (exec .ecNoneChk (loaded (.bit (bv 25 (0x024869 * 2 + 1))))) = some (.byte [0x02, 0x48, 0x69], 0x80, 0) := by
  decide +kernel
theorem test_ecParEnc : seen (exec .ecParEnc (loaded (.byte [0x01]))) = some (.bit (bv 9 0b000000011), 0, 0) := by
  decide +kernel
theorem test_ecParChk_mismatch :
    seen (exec .ecParChk (loaded (.bit (bv 9 0b110000010)))) = some (.byte [0xC1], 0x30, 0) := by decide +kernel
theorem test_ecParChk_short : seen (exec .ecParChk (loaded (.bit (bv 5 0b01001)))) = some (.byte [], 0x80, 0) := by
  decide +kernel
theorem test_crc_check_value :
    crc32Rem (bytesToBits [0x31, 0x32, 0x33, 0x34, 0x35, 0x36, 0x37, 0x38, 0x39]) = 0x89A1897F := by decide +kernel
theorem test_ecCrcEnc :
    seen (exec .ecCrcEnc (loaded (.byte [0x02, 0x48, 0x69]))) = some (.bit (bv 56 0x02486946D34088), 0, 0) := by
  decide +kernel
theorem test_ecCrcChk_flip :
    seen (exec .ecCrcChk (loaded (.bit (bv 56 0x82486946D34088)))) = some (.byte [0x82, 0x48, 0x69], 0x30, 0) := by
  decide +kernel
theorem test_ecCrcChk_short : seen (exec .ecCrcChk (loaded (.bit (bv 31 0)))) = some (.none, 0x84, 3) := by
  decide +kernel
theorem test_ecHamEnc :
    seen (exec .ecHamEnc (loaded (.byte [0x48, 0x69]))) = some (.bit (bv 21 0b010010011000011001001), 0, 0) := by
  decide +kernel
theorem test_ecHamDec_position_5 :
    seen (exec .ecHamDec (loaded (.bit (bv 12 0b000100011000)))) = some (.byte [0x48], 0x50, 0) := by decide +kernel
theorem test_ecHamDec_beyond_end :
    seen (exec .ecHamDec (loaded (.bit (bv 12 0b100110011001)))) = some (.byte [0x49], 0x50, 0) := by decide +kernel

/-! ### Framing Codec (V43 to V49) -/

theorem test_frCcF :
    seen (exec .frCcF (loaded (.byte [1, 2, 3, 4, 5]))) = some (.byte [4, 1, 2, 3, 4, 1, 5], 0, 0) := by decide +kernel
theorem test_frCcF_config :
    seen (exec .frCcF { loaded (.byte []) with maxFrameSize := 0 }) = some (.none, 5, 0x0C) := by decide +kernel
theorem test_frCcD : seen (exec .frCcD (loaded (.byte [2, 1, 2, 0]))) = some (.byte [1, 2], 0, 0) := by decide +kernel
theorem test_frCcD_malformed : seen (exec .frCcD (loaded (.byte [1, 0x41, 5]))) = some (.none, 2, 2) := by decide +kernel
theorem test_frBsF :
    seen (exec .frBsF (loaded (.byte [0x16, 0x41, 0x1B]))) =
      some (.byte [0x16, 0x1B, 0x16, 0x41, 0x1B, 0x1B, 0x16], 0, 0) := by decide +kernel
theorem test_frBsF_two_chunks :
    seen (exec .frBsF { loaded (.byte [1, 2]) with maxFrameSize := 1 }) =
      some (.byte [0x16, 1, 0x16, 0x16, 2, 0x16], 0, 0) := by decide +kernel
theorem test_frBsD : seen (exec .frBsD (loaded (.byte [0x1B, 0x1B, 0x1B, 0x41]))) = some (.byte [0x1B, 0x41], 0, 0) := by
  decide +kernel
theorem test_frBsD_dangling : seen (exec .frBsD (loaded (.byte [0x16, 0x41, 0x1B]))) = some (.none, 2, 3) := by
  decide +kernel

/-! ### Line Coder (V50 to V53) -/

theorem test_lcNrzEnc :
    seen (exec .lcNrzEnc (loaded (.bit (bv 6 0b101101)))) = some (.sym [1, 3, 1, 1, 3, 1], 0, 0) ∧
    dlenOf (exec .lcNrzEnc (loaded (.bit (bv 6 0b101101)))) = some 6 := by decide +kernel
theorem test_lcNrzDec : seen (exec .lcNrzDec (loaded (.sym [1, 0, 3, 2]))) = some (.bit (bv 4 0b1000), 0, 0) := by
  decide +kernel
theorem test_lcManEnc :
    seen (exec .lcManEnc (loaded (.bit (bv 3 0b100)))) = some (.sym [1, 0, 0, 1, 0, 1], 0, 0) ∧
    dlenOf (exec .lcManEnc (loaded (.bit (bv 3 0b100)))) = some 6 := by decide +kernel
theorem test_lcManDec :
    seen (exec .lcManDec (loaded (.sym [1, 1, 0, 0, 3, 1, 1, 3]))) = some (.bit (bv 4 0b1001), 0, 0) := by decide +kernel
theorem test_lcManDec_odd : seen (exec .lcManDec (loaded (.sym [1, 0, 1]))) = some (.none, 4, 3) := by decide +kernel
theorem test_lcBipEnc :
    seen (exec .lcBipEnc (loaded (.bit (bv 6 0b101101)))) = some (.sym [1, 0, 3, 1, 0, 3], 0, 0) ∧
    dlenOf (exec .lcBipEnc (loaded (.bit (bv 6 0b101101)))) = some 6 := by decide +kernel
theorem test_lcBipDec : seen (exec .lcBipDec (loaded (.sym [1, 0, 3, 2, 1, 1]))) = some (.bit (bv 6 0b101111), 0, 0) := by
  decide +kernel

/-! ### Carrier Modem (V70 to V85) -/

theorem test_cmAskMod :
    seen (exec .cmAskMod (modem 0 4 (.sym [3, 1]))) = some (rats [0, 0, 0, 0, 0, 1, 0, -1], 0, 0) := by decide +kernel
theorem test_cmAskMod_config : seen (exec .cmAskMod (modem 3 0 (.sym []))) = some (.none, 3, 0x10003) := by decide +kernel
theorem test_cmAskDem :
    seen (exec .cmAskDem (modem 2 1 (rats [9 / 10, 1 / 10, 8 / 10, 7 / 10]))) = some (.sym [1, 0, 3, 1], 0, 0) := by
  decide +kernel
theorem test_cmAskDem_tie :
    seen (exec .cmAskDem (modem 0 1 (rats [1 / 2, 5000001 / 10000000, 3 / 4, -9 / 10]))) =
      some (.sym [3, 1, 1, 1], 0, 0) := by decide +kernel
theorem test_cmFskMod :
    seen (exec .cmFskMod (modem 0 4 (.sym [3, 1]))) = some (rats [0, 1, 0, -1, 0, 0, 0, 0], 0, 0) := by decide +kernel
theorem test_cmFskDem :
    seen (exec .cmFskDem (modem 0 4 (rats [1, -1, 1, -1, 0, 0, 0, 0]))) = some (.sym [1, 3], 0, 0) := by decide +kernel
theorem test_cmFskDem_partial : seen (exec .cmFskDem (modem 0 4 (rats [1, 2, 3, 4, 5, 6, 7]))) = some (.none, 4, 7) := by
  decide +kernel
theorem test_cmQamMod :
    seen (exec .cmQamMod (modem 2 4 (.sym [1, 0, 3, 1, 0]))) =
      some (rats [-1, 1, 1, -1, -1 / 3, 1 / 3, 1 / 3, -1 / 3], 0, 0) := by decide +kernel
theorem test_cmQamDem :
    seen (exec .cmQamDem { modem 2 4 (rats [-1, 1, 1, -1, -1 / 3, 1 / 3, 1 / 3, -1 / 3]) with dlen := 5 }) =
      some (.sym [1, 0, 3, 1, 0], 0, 0) ∧
    seen (exec .cmQamDem { modem 2 4 (rats [-1, 1, 1, -1, -1 / 3, 1 / 3, 1 / 3, -1 / 3]) with dlen := 7 }) =
      some (.none, 4, 6) := by decide +kernel
/-- 45_carrier_modem R254: over five samples the cosines sum to 0, so the estimate of I is -1/20, a tie that goes to 0. -/
theorem test_cmQamDem_tie :
    seen (exec .cmQamDem { modem 0 5 (rats [7 / 8, 1, 1, 1, 1]) with dlen := 3 }) = some (.sym [1, 3, 3], 0, 0) ∧
    seen (exec .cmQamDem { modem 0 5 (rats [0, 1 / 4, 1 / 4, 0, 0]) with dlen := 3 }) = some (.sym [1, 3, 3], 0, 0) := by
  decide +kernel
/-- 45_carrier_modem R232. -/
theorem test_round1 :
    (Sample.ofRat (1 / 20)).round1 = 0 ∧ (Sample.ofRat (3 / 20)).round1 = 2 / 10 ∧
    (Sample.ofRat (-1 / 3)).round1 = -3 / 10 := by decide +kernel

/-! ### whole pipeline and channel (V60 to V66) -/

/-- V60: 24 symbols. -/
theorem test_encmsg_dlen : dlenOf (exec .encmsg (modem 0 4 (.char [0x48, 0x69]))) = some 24 := by decide +kernel
theorem test_encmsg_order :
    seen (exec .encmsg (loaded (.char [0x48, 0x69]))) = some (.none, 5, 0x04) ∧
    seen (exec .encmsg { loaded (.char [0x48]) with scheme := 0x20, maxFrameSize := 0 }) = some (.none, 3, 0x10020) := by
  decide +kernel
/-- The framed bytes of V60, one sample for each bit. -/
theorem test_decmsg :
    seen (exec .decmsg (modem 0 1 (rats ((bv 24 0x024869).map fun b => if b then 1 else 0)))) =
      some (.char [0x48, 0x69], 0, 0) := by decide +kernel
/-- 43_framing R194 through `DECMSG`: `FramingError` delivers nothing. -/
theorem test_decmsg_framing :
    seen (exec .decmsg (modem 0 1 (rats ((bv 16 0x0248).map fun b => if b then 1 else 0)))) = some (.none, 2, 0) := by
  decide +kernel
theorem test_biterr_all :
    seen (exec .biterr { loaded (.bit (bv 6 0b101101)) with errPermille := 1000 }) = some (.bit (bv 6 0b010010), 0, 0) := by
  decide +kernel
theorem test_biterr_config :
    seen (exec .biterr { loaded (.bit (bv 6 0b101101)) with errPermille := 1001 }) = some (.none, 5, 0x0E) := by
  decide +kernel

/-! ### a concrete state and operands for the hypotheses of every statement that has some -/

/-- An unbounded buffer has room. -/
theorem room_of_unbounded {s : State} (h : s.bufCap = none) (n : Nat) : s.Room n := fun c hc => by simp [h] at hc

/-- A bounded buffer has room up to its bound. -/
theorem room_of_cap {s : State} {c n : Nat} (h : s.bufCap = some c) (hn : n ≤ c) : s.Room n := fun d hd => by
  rw [h, Option.some.injEq] at hd
  omega

/-- A bounded buffer has no room past its bound. -/
theorem no_room_of_cap {s : State} {c n : Nat} (h : s.bufCap = some c) (hn : c < n) : ¬s.Room n := fun hr => by
  have := hr c h
  omega

theorem witness_XferMovesTheOutput : State.reset.fault = none ∧ (faulty .none).fault ≠ none := ⟨rfl, by decide⟩

/-- One word for each check at the edge of its range, and a word that passes all. -/
theorem witness_CommandWordsAreCheckedInOrder :
    State.reset.fault = none ∧ (0x0001#16).toNat % 16 ≠ 0 ∧ 8 ≤ (0x8000#16).toNat / 4096 ∧
    [4, 5, 2, 2, 2, 2, 2, 1].getD ((0x7010#16).toNat / 4096) 0 ≤ (0x7010#16).toNat / 16 % 16 ∧
    (0x6100#16).toNat / 256 % 16 ≠ 0 ∧
    [0, 0, 4, 2, 3, 3].getD ((0x5300#16).toNat / 4096) 0 ≤ (0x5300#16).toNat / 256 % 16 ∧
    encode .biterr = 0x7000#16 := by decide

theorem witness_StepRunsTheDecodedOperation :
    let s := { loaded (.byte [0x48]) with program := [.write 0 0x11020], pc := 0 }
    s.program[s.pc]? = some (.write 0 0x11020) ∧ decode (BitVec.ofNat 16 0x11020) = .ok .y2s ∧ Instr.y2s.wf = true ∧
    State.reset.program.length ≤ State.reset.pc := ⟨rfl, rfl, rfl, by decide⟩

/-- A register at each end of the range, and the data port. -/
theorem witness_StepStopsOnlyAtNonFiniteSamples :
    (∀ n ∈ [5, 11], ({ State.reset with program := [.write n 0x7FF0000000000000] }).program[0]? =
      some (.write n 0x7FF0000000000000) ∧ 5 ≤ n ∧ n ≤ 11) ∧
    finitePattern 0x7FF0000000000000 = false ∧ (loaded (.sample [])).ibuf.tag = 5 ∧
    (capped 1 (.sample [])).Room ((capped 1 (.sample [])).ibuf.len + 1) :=
  ⟨by decide, by decide, rfl, room_of_cap rfl (by decide)⟩

/-- The last `Sample` register with the greatest finite pattern, and the reserved numbers. -/
theorem witness_RegistersHoldWhatIsWritten :
    (0x0B, 64) ∈ plainRegisters ∧ finitePattern 0x7FEFFFFFFFFFFFFF = true ∧ reservedNumber 0x0F ∧ reservedNumber 0x13 ∧
    reservedNumber 0x18 := by
  refine ⟨by decide, by decide, .inl rfl, .inr (.inl rfl), .inr (.inr (by decide))⟩

/-- For each type of IBUF and OBUF, a buffer that is full and one that is not, and an index at the end. -/
theorem witness_BufferPorts :
    (loaded .none).ibuf = .none ∧ (capped 1 (.char [])).Room 1 ∧ (loaded (.bit [])).ibuf = .bit [] ∧
    (loaded (.byte [])).ibuf = .byte [] ∧ (loaded (.sym [])).ibuf = .sym [] ∧
    ((loaded (.sample [])).ibuf = .sample [] ∧ finitePattern 0x7FEFFFFFFFFFFFFF = true) ∧
    ((capped 1 (.byte [5])).ibuf ≠ .none ∧ (capped 1 (.byte [5])).bufCap = some (capped 1 (.byte [5])).ibuf.len ∧
      (capped 1 (.byte [5])).fault = none) ∧
    ({ State.reset with obuf := .byte [5], oidx := 1 }).obuf.len ≤ 1 ∧ ([5#8] : List Byte)[0]? = some 5#8 :=
  ⟨rfl, room_of_cap rfl (by decide), rfl, rfl, rfl, ⟨rfl, by decide⟩, ⟨by simp [capped, loaded], rfl, rfl⟩, by decide, rfl⟩

theorem witness_LinesLoadAndReadBack :
    (capped 2 .none).Room [0x48, 0x69].length ∧ [0, 0x7FEFFFFFFFFFFFFF].all finitePattern = true ∧
    ({ State.reset with obuf := .byte [5, 6] }).obuf.len ≤ 2 ^ 32 :=
  ⟨room_of_cap rfl (by decide), by decide, by decide⟩

theorem witness_FaultedCommandsAreDropped :
    (faulty (.byte [1])).fault ≠ none ∧ (0x1000#16 ≠ 0x0000#16 ∧ 0x1000#16 ≠ 0x0020#16 ∧ 0x1000#16 ≠ 0x0030#16) ∧
    regWrite 0x0C 9 { faulty (.byte [1]) with fault := none } =
      .next { faulty (.byte [1]) with fault := none, maxFrameSize := 9 } := ⟨by decide, by decide, rfl⟩

theorem witness_FaultStateEndsOnlyByClrRstReset :
    (faulty (.byte [1])).fault = some .framingError ∧
    hostEvent (.write 0x00 0x1020) (faulty (.byte [1])) = .next (faulty (.byte [1])) := ⟨rfl, rfl⟩

theorem witness_FlagsAreSticky :
    hostEvent (.write 0x00 0x1010) (loaded (.bit [])) = .next { loaded (.bit []) with obuf := .byte [] } ∧
    BitVec.ofNat 16 0x1010 ≠ 0x0020#16 ∧ BitVec.ofNat 16 0x1010 ≠ 0x0030#16 ∧
    exec .clr State.reset = .next State.reset := ⟨rfl, by decide, by decide, rfl⟩

theorem witness_OperandTypeIsCheckedFirst :
    inputTag .decmsg = some 5 ∧ (loaded (.sym [])).fault = none ∧ (loaded (.sym [])).ibuf.tag ≠ 5 := by decide

theorem witness_OperationFrame :
    inputTag .y2t = some 3 ∧ exec .y2t (loaded (.byte [])) = .next { loaded (.byte []) with obuf := .char [] } ∧
    exec .y2t (faulty (.byte [])) = .next (faulty (.byte [])) := ⟨rfl, rfl, rfl⟩

/-- Two states that differ in a register that `FR.CC.D` does not read. -/
theorem witness_UnreadConfigurationHasNoEffect :
    inputTag .frCcD = some 3 ∧
    exec .frCcD (loaded (.byte [])) = .next { loaded (.byte []) with obuf := .byte [] } ∧
    exec .frCcD { loaded (.byte []) with maxFrameSize := 0 } =
      .next { loaded (.byte []) with maxFrameSize := 0, obuf := .byte [] } ∧
    State.AgreeFor .frCcD (loaded (.byte [])) { loaded (.byte []) with maxFrameSize := 0 } := by
  refine ⟨rfl, rfl, rfl, ?_⟩
  constructor <;> simp [isCarrier, isPipeline, usesCarrier]

theorem witness_OutputLengths :
    (loaded (.byte [])).fault = none ∧
    exec .ecParEnc (loaded (.byte [])) = .next { loaded (.byte []) with obuf := .bit [false] } ∧
    outputLength .ecParEnc (loaded (.byte [])) = some 1 := ⟨rfl, rfl, rfl⟩

theorem witness_StepKeepsTheInvariant :
    State.Inv { State.reset with program := [.write 0x0C 9] } ∧
    step { State.reset with program := [.write 0x0C 9] } =
      .next { State.reset with program := [.write 0x0C 9], maxFrameSize := 9, pc := 1 } := by
  refine ⟨?_, rfl⟩
  constructor <;> simp [State.reset, Flags.clear, State.Room, Buffer.len]

/-- A text that fits exactly, one that does not fit, and one with the least code point above 255. -/
theorem witness_T2bGivesTheBitsOfTheText :
    ((capped 8 (.char [255])).Holds (.char [255]) ∧ (∀ c ∈ ([255] : List CodePoint), c.toNat ≤ 255) ∧
      (capped 8 (.char [255])).Room (8 * ([255] : List CodePoint).length)) ∧
    ¬(capped 7 (.char [255])).Room (8 * ([255] : List CodePoint).length) ∧
    ((loaded (.char [255, 256])).Holds (.char [255, 256]) ∧ ([255, 256] : List CodePoint)[1]? = some 256 ∧
      255 < (256 : CodePoint).toNat ∧ ∀ c ∈ ([255, 256] : List CodePoint).take 1, c.toNat ≤ 255) :=
  ⟨⟨⟨rfl, rfl⟩, by simp, room_of_cap rfl (by decide)⟩, no_room_of_cap rfl (by decide), ⟨rfl, rfl⟩, rfl, by decide, by simp⟩

theorem witness_B2yAndEcNoneChkGroupBits :
    (capped 9 (.bit (bv 9 1))).Holds (.bit (bv 9 1)) ∧ (capped 9 (.bit (bv 9 1))).Room (bv 9 1).length :=
  ⟨⟨rfl, rfl⟩, room_of_cap rfl (by decide)⟩

theorem witness_Y2sAndEcNoneEncGiveTheBits :
    (capped 8 (.byte [1])).Holds (.byte [1]) ∧ (capped 8 (.byte [1])).Room 8 ∧ ¬(capped 7 (.byte [1])).Room 8 :=
  ⟨⟨rfl, rfl⟩, room_of_cap rfl (by decide), no_room_of_cap rfl (by decide)⟩

theorem witness_S2yAndY2t :
    ((loaded (.bit (bv 8 1))).Holds (.bit (bv 8 1)) ∧ (bv 8 1).length % 8 = 0 ∧ (loaded (.bit (bv 8 1))).Room 8) ∧
    ((loaded (.bit (bv 7 1))).Holds (.bit (bv 7 1)) ∧ (bv 7 1).length % 8 ≠ 0) ∧
    (loaded (.byte [255])).Holds (.byte [255]) ∧ (loaded (.byte [255])).Room 1 :=
  ⟨⟨⟨rfl, rfl⟩, by decide, room_of_unbounded rfl _⟩, ⟨⟨rfl, rfl⟩, by decide⟩, ⟨rfl, rfl⟩, room_of_unbounded rfl _⟩

theorem witness_BitConverterRoundTrips :
    (loaded (.char [255])).Holds (.char [255]) ∧
    (loaded (.byte [255])).Holds (.byte (([255] : List CodePoint).map fun c => c.setWidth 8)) ∧
    (∀ c ∈ ([255] : List CodePoint), c.toNat ≤ 255) ∧ (loaded (.char [255])).Room 8 ∧ (loaded (.byte [255])).Room 8 :=
  ⟨⟨rfl, rfl⟩, ⟨rfl, rfl⟩, by simp, room_of_unbounded rfl _, room_of_unbounded rfl _⟩

theorem witness_EcParEncAppendsTheParityBit :
    (capped 9 (.byte [1])).Holds (.byte [1]) ∧ (capped 9 (.byte [1])).Room 9 ∧ ¬(capped 8 (.byte [1])).Room 9 :=
  ⟨⟨rfl, rfl⟩, room_of_cap rfl (by decide), no_room_of_cap rfl (by decide)⟩

theorem witness_EcParChkComparesTheLastBit :
    (loaded (.bit [])).Holds (.bit []) ∧ (loaded (.bit [true])).Holds (.bit ([] ++ [true])) ∧
    (loaded (.bit [true])).Room 1 := ⟨⟨rfl, rfl⟩, ⟨rfl, rfl⟩, room_of_unbounded rfl _⟩

theorem witness_ParityFindsOddNumbersOfFlips :
    (loaded (.byte [1])).Holds (.byte [1]) ∧ (loaded (.byte [1])).Room 9 ∧ (bv 9 7).length = 8 * [1#8].length + 1 ∧
    (loaded (.bit (bv 9 7))).Holds (.bit (bv 9 7)) ∧ (loaded (.bit (bv 9 7))).Room 9 :=
  ⟨⟨rfl, rfl⟩, room_of_unbounded rfl _, by decide, ⟨rfl, rfl⟩, room_of_unbounded rfl _⟩

theorem witness_EcCrcEncAppendsTheRemainder :
    (capped 40 (.byte [1])).Holds (.byte [1]) ∧ (capped 40 (.byte [1])).Room 40 ∧ ¬(capped 39 (.byte [1])).Room 40 :=
  ⟨⟨rfl, rfl⟩, room_of_cap rfl (by decide), no_room_of_cap rfl (by decide)⟩

/-- The longest stream that is too short, and the shortest that is not. -/
theorem witness_EcCrcChkComparesTheRemainder :
    ((loaded (.bit (bv 31 0))).Holds (.bit (bv 31 0)) ∧ (loaded (.bit (bv 31 0))).Room 31 ∧ (bv 31 0).length / 8 < 4) ∧
    (loaded (.bit (bv 32 0))).Holds (.bit (bv 32 0)) ∧ (loaded (.bit (bv 32 0))).Room 32 ∧ 4 ≤ (bv 32 0).length / 8 :=
  ⟨⟨⟨rfl, rfl⟩, room_of_unbounded rfl _, by decide⟩, ⟨rfl, rfl⟩, room_of_unbounded rfl _, by decide⟩

theorem witness_CrcProperties :
    ((loaded (.bit (bv 32 1))).Holds (.bit (bv 32 1)) ∧ (loaded (.bit (bv 32 1))).Room 32 ∧ (bv 32 1).length % 8 = 0 ∧
      32 ≤ (bv 32 1).length) ∧
    ((loaded (.byte [1])).Holds (.byte [1]) ∧ (loaded (.byte [1])).Room 40) ∧
    (let w := flipPosition (bytesToBits [1#8] ++ be32 (crc32Rem (bytesToBits [1#8]))) 40
     (loaded (.bit w)).Holds (.bit w) ∧ (loaded (.bit w)).Room 40 ∧ 40 ≤ 8 * [1#8].length + 32) :=
  ⟨⟨⟨rfl, rfl⟩, room_of_unbounded rfl _, by decide, by decide⟩, ⟨⟨rfl, rfl⟩, room_of_unbounded rfl _⟩,
    ⟨rfl, rfl⟩, room_of_unbounded rfl _, by decide⟩

theorem witness_EcHamEncGivesTheCodeword :
    8 + 4 + 1 ≤ 2 ^ 4 ∧ 3 < hamR 8 ∧ (capped 12 (.byte [0x48])).Holds (.byte [0x48]) ∧
    (capped 12 (.byte [0x48])).Room (8 + hamR 8) ∧ ¬(capped 11 (.byte [0x48])).Room (8 + hamR 8) :=
  ⟨by decide, by decide, ⟨rfl, rfl⟩, room_of_cap rfl (by decide), no_room_of_cap rfl (by decide)⟩

theorem witness_EcHamDecCorrectsOnePosition :
    (loaded (.bit (bv 12 0b000100011000))).Holds (.bit (bv 12 0b000100011000)) ∧
    (loaded (.bit (bv 12 0b000100011000))).Room 12 := ⟨⟨rfl, rfl⟩, room_of_unbounded rfl _⟩

theorem witness_HammingCorrectsSingleErrors : (hamEncode (bv 8 0x48)).length = 12 := by decide +kernel

theorem witness_FrCcFPrefixesLengths :
    (loaded (.byte [1, 2])).Holds (.byte [1, 2]) ∧
    ({ loaded (.byte [1, 2]) with maxFrameSize := 0 } : State).maxFrameSize = 0 ∧
    ({ capped 4 (.byte [1, 2]) with maxFrameSize := 1 } : State).maxFrameSize ≠ 0 ∧
    ({ capped 4 (.byte [1, 2]) with maxFrameSize := 1 } : State).Room 4 ∧
    ¬({ capped 3 (.byte [1, 2]) with maxFrameSize := 1 } : State).Room 4 :=
  ⟨⟨rfl, rfl⟩, rfl, by decide, room_of_cap rfl (by decide), no_room_of_cap rfl (by decide)⟩

/-- A frame of the greatest length, and a length byte one above what remains. -/
theorem witness_FrCcDReadsLengths :
    (∀ ch ∈ [List.replicate 255 (1#8)], ch.length ≤ 255) ∧
    (loaded (.byte ([List.replicate 255 (1#8)].flatMap lengthFrame))).Holds
      (.byte ([List.replicate 255 (1#8)].flatMap lengthFrame)) ∧
    (loaded (.byte ([List.replicate 255 (1#8)].flatMap lengthFrame))).Room 256 ∧
    ([] : List Byte).length < (1#8).toNat ∧
    (loaded (.byte [1, 5, 1])).Holds (.byte ([[5#8]].flatMap lengthFrame ++ 1#8 :: [])) :=
  ⟨fun ch h => by rw [List.mem_singleton.mp h, List.length_replicate], ⟨rfl, rfl⟩, room_of_unbounded rfl _, by decide,
    ⟨rfl, rfl⟩⟩

theorem witness_FrBsFStuffsBytes :
    (loaded (.byte [0x16])).Holds (.byte [0x16]) ∧
    ({ loaded (.byte [0x16]) with maxFrameSize := 0 } : State).maxFrameSize = 0 ∧
    (capped 4 (.byte [0x16])).maxFrameSize ≠ 0 ∧ (capped 4 (.byte [0x16])).Room 4 ∧
    ¬(capped 3 (.byte [0x16])).Room 4 :=
  ⟨⟨rfl, rfl⟩, rfl, by decide, room_of_cap rfl (by decide), no_room_of_cap rfl (by decide)⟩

theorem witness_FrBsDUnstuffsBytes :
    (loaded (.byte [0x1B, 0x16])).Holds (.byte [0x1B, 0x16]) ∧ (loaded (.byte [0x1B, 0x16])).Room 2 ∧
    unstuffed [0x1B, 0x16] = some [0x16] ∧ unstuffed [0x16, 0x1B] = none ∧
    (loaded (.byte [0x16, 0x1B])).Holds (.byte [0x16, 0x1B]) :=
  ⟨⟨rfl, rfl⟩, room_of_unbounded rfl _, by decide, by decide, ⟨rfl, rfl⟩⟩

/-- Both methods, with a buffer that the framed stream fills. -/
theorem witness_FramingRoundTrip :
    (capped 4 (.byte [0x16, 0x41, 0x1B])).Holds (.byte [0x16, 0x41, 0x1B]) ∧
    (capped 4 (.byte [0x16, 0x41, 0x1B])).maxFrameSize ≠ 0 ∧
    (capped 4 (.byte [0x16, 0x41, 0x1B])).Room (framedLength 0 4 [0x16, 0x41, 0x1B]) ∧
    (capped 7 (.byte [0x16, 0x41, 0x1B])).Room (framedLength 1 4 [0x16, 0x41, 0x1B]) :=
  ⟨⟨rfl, rfl⟩, by decide, room_of_cap rfl (by decide), room_of_cap rfl (by decide)⟩

theorem witness_LineEncodersGiveTheirSymbols :
    (capped 4 (.bit (bv 2 1))).Holds (.bit (bv 2 1)) ∧ (capped 4 (.bit (bv 2 1))).Room 2 ∧
    (capped 4 (.bit (bv 2 1))).Room (2 * 2) ∧ ¬(capped 3 (.bit (bv 2 1))).Room (2 * 2) :=
  ⟨⟨rfl, rfl⟩, room_of_cap rfl (by decide), room_of_cap rfl (by decide), no_room_of_cap rfl (by decide)⟩

theorem witness_LineDecodersReadTheirSymbols :
    (loaded (.sym [1, 2])).Holds (.sym [1, 2]) ∧ (loaded (.sym [1, 2])).Room 2 ∧ ([1, 2] : List Sym).length % 2 = 0 ∧
    (loaded (.sym [1])).Holds (.sym [1]) ∧ ([1] : List Sym).length % 2 ≠ 0 :=
  ⟨⟨rfl, rfl⟩, room_of_unbounded rfl _, by decide, ⟨rfl, rfl⟩, by decide⟩

theorem witness_LineCodeRoundTrips :
    (capped 12 (.bit (bv 6 0b101101))).Holds (.bit (bv 6 0b101101)) ∧ (capped 12 (.bit (bv 6 0b101101))).Room (2 * 6) :=
  ⟨⟨rfl, rfl⟩, room_of_cap rfl (by decide)⟩

theorem witness_CarrierOperationsCheckInOrder :
    (isCarrier .cmQamDem = true ∧ isDemodulator .cmQamDem = true ∧ (modem 3 0 (rats [1])).fault = none ∧
      inputTag .cmQamDem = some (modem 3 0 (rats [1])).ibuf.tag ∧ (modem 3 0 (rats [1])).lineCode = 3) ∧
    ((modem 2 0 (rats [1])).lineCode < 3 ∧ (modem 2 0 (rats [1])).samples = 0) ∧
    (modem 2 2 (rats [1])).lineCode < 3 ∧ 0 < (modem 2 2 (rats [1])).samples ∧
    (modem 2 2 (rats [1])).ibuf.len % (modem 2 2 (rats [1])).samples ≠ 0 := by decide +kernel

/-- The modulators: a line code at each end of the range, one sample for each symbol, a buffer that is just large enough and
one that is not. -/
theorem witness_CmAskModGivesTheSine :
    (modem 2 1 (.sym [1, 3])).Holds (.sym [1, 3]) ∧ (modem 2 1 (.sym [1, 3])).lineCode < 3 ∧
    0 < (modem 2 1 (.sym [1, 3])).samples ∧ ({ modem 2 1 (.sym [1, 3]) with bufCap := some 2 } : State).Room (2 * 1) ∧
    ¬({ modem 2 1 (.sym [1, 3]) with bufCap := some 1 } : State).Room (2 * 1) :=
  ⟨⟨rfl, rfl⟩, by decide, by decide, room_of_cap rfl (by decide), no_room_of_cap rfl (by decide)⟩

theorem witness_CmFskModGivesTheSine :
    (modem 0 8 (.sym [1, 3])).Holds (.sym [1, 3]) ∧ (modem 0 8 (.sym [1, 3])).lineCode < 3 ∧
    0 < (modem 0 8 (.sym [1, 3])).samples ∧ ({ modem 0 8 (.sym [1, 3]) with bufCap := some 16 } : State).Room (2 * 8) ∧
    ¬({ modem 0 8 (.sym [1, 3]) with bufCap := some 15 } : State).Room (2 * 8) :=
  ⟨⟨rfl, rfl⟩, by decide, by decide, room_of_cap rfl (by decide), no_room_of_cap rfl (by decide)⟩

theorem witness_CmQamModGivesTheConstellation :
    (modem 2 4 (.sym [1, 3])).Holds (.sym [1, 3]) ∧ (modem 2 4 (.sym [1, 3])).lineCode < 3 ∧
    0 < (modem 2 4 (.sym [1, 3])).samples ∧
    ({ modem 2 4 (.sym [1, 3]) with bufCap := some 4 } : State).Room (pieces 2 3 * 4) ∧
    ¬({ modem 2 4 (.sym [1, 3]) with bufCap := some 3 } : State).Room (pieces 2 3 * 4) :=
  ⟨⟨rfl, rfl⟩, by decide, by decide, room_of_cap rfl (by decide), no_room_of_cap rfl (by decide)⟩

/-- Two windows of one sample; and amplitudes 0 and 1, four samples, where sample 1 falls on the carrier's peak. -/
theorem witness_CmAskDemReadsThePeaks :
    (let a := [one64, two64].map Sample.ofFinite64
     (modem 1 1 (.sample a)).Holds (.sample a) ∧ (modem 1 1 (.sample a)).lineCode < 3 ∧
      0 < (modem 1 1 (.sample a)).samples ∧ a.length % (modem 1 1 (.sample a)).samples = 0 ∧
      (modem 1 1 (.sample a)).Room (a.length / (modem 1 1 (.sample a)).samples)) ∧
    (let s := modem 2 4 (.sym [1, 0, 3])
     s.Holds (.sym [1, 0, 3]) ∧ s.lineCode < 3 ∧ s.Room (3 * s.samples) ∧ IsSignal s.lineCode [1, 0, 3] ∧
      0 ≤ s.ampZero.toRat ∧ s.ampZero.toRat < s.ampOne.toRat ∧
      ∃ k < s.samples, ((s.ampZero.toRat : ℝ) + s.ampOne.toRat) / (2 * s.ampOne.toRat) <
        |Real.sin (carrierAngle s s.frequency.toRat k + s.phase.toRat)|) := by
  refine ⟨⟨⟨rfl, rfl⟩, by decide, by decide, by decide, room_of_unbounded rfl _⟩,
    ⟨rfl, rfl⟩, by decide, room_of_unbounded rfl _, ⟨[true, false, true], by decide⟩, by decide +kernel, by decide +kernel,
    1, by decide, ?_⟩
  have h0 : (modem 2 4 (.sym [1, 0, 3])).ampZero.toRat = 0 := by decide +kernel
  have h1 : (modem 2 4 (.sym [1, 0, 3])).ampOne.toRat = 1 := by decide +kernel
  have hf : (modem 2 4 (.sym [1, 0, 3])).frequency.toRat = 1 := by decide +kernel
  have hp : (modem 2 4 (.sym [1, 0, 3])).phase.toRat = 0 := by decide +kernel
  have hs : (modem 2 4 (.sym [1, 0, 3])).samples = 4 := by decide +kernel
  have ha : 2 * Real.pi * ((1 : Rat) : ℝ) * ((1 : ℕ) : ℝ) / ((4 : ℕ) : ℝ) + ((0 : Rat) : ℝ) = Real.pi / 2 := by
    push_cast; ring
  rw [carrierAngle, h0, h1, hf, hp, hs, ha, Real.sin_pi_div_two]
  norm_num

theorem witness_CmFskDemCountsCrossings :
    let a := [one64, two64].map Sample.ofFinite64
    (modem 0 2 (.sample a)).Holds (.sample a) ∧ (modem 0 2 (.sample a)).lineCode < 3 ∧
    0 < (modem 0 2 (.sample a)).samples ∧ a.length % (modem 0 2 (.sample a)).samples = 0 ∧
    (modem 0 2 (.sample a)).Room (a.length / (modem 0 2 (.sample a)).samples) :=
  ⟨⟨rfl, rfl⟩, by decide, by decide, by decide, room_of_unbounded rfl _⟩

/-- `DLEN` at each end of its range for one window, and one past each end. -/
theorem witness_CmQamDemFindsTheNearestPoints :
    let a := [one64, one64, two64, two64].map Sample.ofFinite64
    let s := modem 0 4 (.sample a)
    (s.Holds (.sample a) ∧ s.lineCode < 3 ∧ 0 < s.samples ∧ a.length % s.samples = 0) ∧
    (∀ n ∈ [1, 3], n ≤ 3 * (a.length / s.samples) ∧ 3 * (a.length / s.samples) ≤ n + 2) ∧
    ({ s with bufCap := some 3, dlen := 3 } : State).Room 3 ∧ ¬({ s with bufCap := some 2, dlen := 3 } : State).Room 3 ∧
    0 + 2 < 3 * (a.length / s.samples) ∧ 3 * (a.length / s.samples) < 4 :=
  ⟨⟨⟨rfl, rfl⟩, by decide, by decide, by decide⟩, by decide, room_of_cap rfl (by decide),
    no_room_of_cap rfl (by decide), by decide, by decide⟩

/-- Frequencies 1 and 2 with the least number of samples, and the pair that misses the condition. -/
theorem witness_FskReturnsWhatWasModulated :
    (let s : State := modem 2 5 (.sym [1, 0, 3])
     s.Holds (.sym [1, 0, 3]) ∧ s.lineCode < 3 ∧ s.Room (3 * s.samples) ∧ s.phase.toRat = 0 ∧ 0 < s.amplitude.toRat ∧
      s.freqZero.toRat = ((1 : Nat) : Rat) ∧ s.freqOne.toRat = ((2 : Nat) : Rat) ∧ 2 * 2 < s.samples ∧ 2 + 2 ≥ 3 * 1 ∧
      IsSignal s.lineCode [1, 0, 3]) ∧
    (let s : State := { modem 0 7 (.sym [3, 1]) with freqZero := two64, freqOne := ⟨false, 1024, 1 <<< 51⟩ }
     s.Holds (.sym [3, 1]) ∧ s.freqZero.toRat = ((2 : Nat) : Rat) ∧ s.freqOne.toRat = ((3 : Nat) : Rat) ∧ 2 * 3 < s.samples) :=
  ⟨⟨⟨rfl, rfl⟩, by decide, room_of_unbounded rfl _, by decide +kernel, by decide +kernel, by decide +kernel,
    by decide +kernel, by decide, by decide, [true, false, true], by decide⟩, ⟨rfl, rfl⟩, by decide +kernel,
    by decide +kernel, by decide⟩

/-- The greatest code point and the least beyond it; each check alone. -/
theorem witness_EncmsgEncodesAMessage :
    ((modem 0xDA 1 (.char [255])).Holds (.char [255]) ∧ ¬(modem 3 1 (.char [255])).selectorsValid ∧
      ¬(modem 12 1 (.char [255])).selectorsValid ∧ ¬(modem 32 1 (.char [255])).selectorsValid) ∧
    ((modem 0xDA 1 (.char [255])).selectorsValid ∧ (modem 0xDA 1 (.char [255])).maxFrameSize ≠ 0 ∧
      0 < (modem 0xDA 1 (.char [255])).samples ∧ (∀ c ∈ ([255] : List CodePoint), c.toNat ≤ 255) ∧
      signalLength (modem 0xDA 1 (.char [255])) [255] = 29 ∧
      ({ modem 0xDA 1 (.char [255]) with bufCap := some 29 } : State).Room 29 ∧
      ({ modem 0xDA 1 (.char [255]) with bufCap := some 29 } : State).Room (windowCount 2 29 * 1)) ∧
    (modem 0xDA 0 (.char [255])).samples = 0 ∧ ({ modem 0xDA 0 (.char [255]) with maxFrameSize := 0 }).maxFrameSize = 0 ∧
    ([255, 256] : List CodePoint)[1]? = some 256 ∧ 255 < (256 : CodePoint).toNat :=
  ⟨⟨⟨rfl, rfl⟩, fun h => absurd h.1 (by decide), fun h => absurd h.2.1 (by decide), fun h => absurd h.2.2 (by decide)⟩,
    ⟨⟨by decide, by decide, by decide⟩, by decide, by decide, by simp, by decide +kernel, room_of_cap rfl (by decide),
      room_of_cap rfl (by decide)⟩,
    by decide, rfl, rfl, by decide⟩

theorem witness_EncmsgIsTheChainOfStages :
    (modem 0xDA 1 (.char [255])).Holds (.char [255]) ∧ (modem 0xDA 1 (.char [255])).selectorsValid ∧
    (modem 0xDA 1 (.char [255])).maxFrameSize ≠ 0 ∧ 0 < (modem 0xDA 1 (.char [255])).samples :=
  ⟨⟨rfl, rfl⟩, ⟨by decide, by decide, by decide⟩, by decide, by decide⟩

/-- Eight samples for the bits of an empty frame, one sample for each bit. -/
theorem witness_DecmsgIsTheChainOfStages :
    let x := List.replicate 8 Finite64.zero
    let s := modem 0 1 (.sample (x.map Sample.ofFinite64))
    s.Holds (.sample (x.map Sample.ofFinite64)) ∧ s.selectorsValid ∧ 0 < s.samples ∧
    ¬(modem 0xFF 1 (.sample [])).selectorsValid ∧ (modem 0 0 (.sample [])).samples = 0 ∧
    (s.scheme = 0 ∧ s.samples = 1 ∧ s.ampZero.toRat = 0 ∧ s.ampOne.toRat = 1 ∧ s.Room 8 ∧
      (∀ ch ∈ [([] : List Byte)], ch.length ≤ 255) ∧
      BitsOf ([([] : List Byte)].flatMap lengthFrame) (x.map fun q => decide (1 / 2 < |q.toRat|))) := by
  refine ⟨⟨rfl, rfl⟩, ⟨by decide, by decide, by decide⟩, by decide, fun h => absurd h.1 (by decide), by decide, rfl, by decide,
    by decide +kernel, by decide +kernel, room_of_unbounded rfl _, by simp, by simp [lengthFrame], fun k => ?_⟩
  have hx : ((List.replicate 8 Finite64.zero).map fun q => decide (1 / 2 < |q.toRat|)) = List.replicate 8 false := by
    decide +kernel
  rw [hx]
  by_cases hk : k < 8
  · interval_cases k <;> rfl
  · have h1 : (List.replicate 8 false)[k]? = none := List.getElem?_eq_none (by simp; omega)
    have h2 : ([([] : List Byte)].flatMap lengthFrame)[k / 8]? = none := List.getElem?_eq_none (by simp [lengthFrame]; omega)
    rw [h1, byteBit?, h2]
    rfl

theorem witness_PipelineRoundTrip :
    let s := modem 0xDA 8 (.char [0x16, 255])
    (s.Holds (.char [0x16, 255]) ∧ (∀ c ∈ ([0x16, 255] : List CodePoint), c.toNat ≤ 255) ∧ s.selectorsValid ∧
      s.flags = ⟨false, false, false, false⟩ ∧ s.maxFrameSize ≠ 0 ∧ s.samples = 8) ∧
    s.amplitude.toRat = 1 ∧ s.frequency.toRat = 1 ∧ s.phase.toRat = 0 ∧ s.ampZero.toRat = 0 ∧ s.ampOne.toRat = 1 ∧
    s.freqZero.toRat = 1 ∧ s.freqOne.toRat = 2 ∧ s.Room ((128 * 2 + 128) * 8) :=
  ⟨⟨⟨rfl, rfl⟩, by simp, ⟨by decide, by decide, by decide⟩, rfl, by decide, by decide⟩, by decide +kernel,
    by decide +kernel, by decide +kernel, by decide +kernel, by decide +kernel, by decide +kernel, by decide +kernel,
    room_of_unbounded rfl _⟩

/-- Probabilities at the ends of the range, and one above. -/
theorem witness_BiterrFlipsTheBitsOfAMask :
    (loaded (.bit [true])).Holds (.bit [true]) ∧ (loaded (.bit [true])).Room 1 ∧
    (loaded (.bit [true])).errPermille.toNat = 0 ∧
    ({ loaded (.bit [true]) with errPermille := 1000 } : State).errPermille.toNat = 1000 ∧
    1000 < ({ loaded (.bit [true]) with errPermille := 1001 } : State).errPermille.toNat :=
  ⟨⟨rfl, rfl⟩, room_of_unbounded rfl _, by decide, by decide, by decide⟩

end Sys2Proof.Tests
end

/-! ### flags: coherence and order (10_state R21, R22) -/

namespace Sys2Proof.Machine

/-- `ERRDET = CHKMISMATCH or CORRECTED` (10_state R21), as a property of flags that an operation sets. -/
def Flags.Coherent (f : Flags) : Prop := f.errdet = (f.chkmismatch || f.corrected)

theorem Flags.coherent_clear : Flags.clear.Coherent := rfl

theorem Flags.coherent_mismatch (bad : Bool) : (Flags.mismatch bad).Coherent := by simp [Coherent, mismatch]

theorem Flags.coherent_correction (bad : Bool) : (Flags.correction bad).Coherent := by simp [Coherent, correction]

theorem Flags.coherent_truncation (cut : Bool) : (Flags.truncation cut).Coherent := by simp [Coherent, truncation]

theorem Flags.Coherent.or {f g : Flags} (hf : f.Coherent) (hg : g.Coherent) : (f.or g).Coherent := by
  unfold Flags.Coherent at *
  simp only [Flags.or, hf, hg]
  ac_rfl

theorem Flags.clear_le (f : Flags) : Flags.clear.le f := by simp [Flags.le, Flags.clear]

theorem Flags.le_trans {f g h : Flags} (hfg : f.le g) (hgh : g.le h) : f.le h := by
  obtain ⟨e, m, c, t⟩ := hfg
  obtain ⟨e', m', c', t'⟩ := hgh
  exact ⟨e' ∘ e, m' ∘ m, c' ∘ c, t' ∘ t⟩

theorem Flags.or_le {f g h : Flags} (hf : f.le h) (hg : g.le h) : (f.or g).le h := by
  obtain ⟨e, m, c, t⟩ := hf
  obtain ⟨e', m', c', t'⟩ := hg
  simp only [Flags.le, Flags.or, Bool.or_eq_true]
  exact ⟨(·.elim e e'), (·.elim m m'), (·.elim c c'), (·.elim t t')⟩

theorem Flags.le_or_right (f g : Flags) : g.le (f.or g) := by
  simp only [Flags.le, Flags.or, Bool.or_eq_true]
  exact ⟨Or.inr, Or.inr, Or.inr, Or.inr⟩

theorem Flags.or_le_or_left {g h : Flags} (f : Flags) (hgh : g.le h) : (f.or g).le (f.or h) :=
  Flags.or_le (Flags.le_or f h) (Flags.le_trans hgh (Flags.le_or_right f h))

end Sys2Proof.Machine

/-! ### sound reports: what every stage guarantees of its flags, its result and its fault -/

namespace Sys2Proof.Machine

/-- What every stage guarantees under a buffer capacity: its flags are coherent and among those allowed, its result has the
property `P`, and it raises `CapacityError` only where the capacity is finite (10_state R21, 20_memory R72). -/
structure Report.Sound {α : Type} (cap : Option Nat) (allowed : Flags) (P : α → Prop) (r : Report α) : Prop where
  coherent : r.flags.Coherent
  allowed : r.flags.le allowed
  delivers : ∀ a, r.result = .ok a → P a
  capacity : ∀ c, r.result = .error c → c.kind = .capacityError → cap ≠ none

section Sound

variable {α β : Type} {cap : Option Nat} {allowed : Flags} {P : α → Prop} {Q : β → Prop}

theorem Report.sound_done {f : Flags} {a : α} (hf : f.Coherent) (hle : f.le allowed) (ha : P a) :
    (Report.done f a).Sound cap allowed P where
  coherent := hf
  allowed := hle
  delivers := fun _ h => by cases h; exact ha
  capacity := nofun

theorem Report.sound_pure {a : α} (ha : P a) : (Report.pure a).Sound cap allowed P :=
  Report.sound_done Flags.coherent_clear (Flags.clear_le _) ha

theorem Report.sound_fail {kind : FaultKind} (hk : kind ≠ .capacityError) (info : Nat) :
    (Report.fail (α := α) Flags.clear kind info).Sound cap allowed P where
  coherent := Flags.coherent_clear
  allowed := Flags.clear_le _
  delivers := nofun
  capacity := fun _ h hc => by cases h; exact absurd hc hk

theorem Report.sound_check {kind : FaultKind} (hk : kind ≠ .capacityError) (bad : Bool) (info : Nat) {k : Report α}
    (h : k.Sound cap allowed P) : (Report.check bad kind info k).Sound cap allowed P := by
  cases bad with
  | false => exact h
  | true => exact Report.sound_fail hk info

theorem Report.Sound.bind {r : Report α} {k : α → Report β} (h : r.Sound cap allowed P)
    (hk : ∀ a, P a → (k a).Sound cap allowed Q) : (r.bind k).Sound cap allowed Q := by
  rcases Report.bind_cases r k with ⟨e, he, hb⟩ | ⟨a, ha, hb⟩ <;> rw [hb]
  · exact ⟨h.coherent, h.allowed, nofun, fun c hc => by cases hc; exact h.capacity e he⟩
  · have hka := hk a (h.delivers a ha)
    exact ⟨h.coherent.or hka.coherent, Flags.or_le h.allowed hka.allowed, hka.delivers, hka.capacity⟩

/-- Holding a result to the capacity makes it fit. -/
theorem Report.Sound.fit {P : List α → Prop} {r : Report (List α)} (h : r.Sound cap allowed P) :
    (r.fit cap).Sound cap allowed fun l => fits cap l.length = true ∧ P l := by
  refine h.bind fun l hl => ?_
  cases hfit : fits cap l.length with
  | true => exact Report.sound_pure ⟨hfit, hl⟩
  | false => exact ⟨Flags.coherent_clear, Flags.clear_le _, nofun, fun _ _ _ hcap => by simp [hcap] at hfit⟩

theorem Report.Sound.mono {g : Flags} {P' : α → Prop} {r : Report α} (h : r.Sound cap allowed P) (hg : allowed.le g)
    (hP : ∀ a, P a → P' a) : r.Sound cap g P' :=
  ⟨h.coherent, Flags.le_trans h.allowed hg, fun a ha => hP a (h.delivers a ha), h.capacity⟩

/-- The case of a stage that promises nothing of its result but that it fits. -/
theorem Report.Sound.fit_room {s : State} {r : Report (List α)} (h : r.Sound s.bufCap allowed fun _ => True) :
    (r.fit s.bufCap).Sound s.bufCap allowed fun l => s.Room l.length :=
  h.fit.mono (Flags.le_refl _) fun _ hl => (fits_iff_room s _).mp hl.1

end Sound

end Sys2Proof.Machine

/-! ### every stage is sound -/

namespace Sys2Proof.Machine

/-- The symbol -2, which no operation produces, is not in a signal (10_state R43). -/
def NoMinusTwo (d : List Sym) : Prop := 2#2 ∉ d

/-- A digital signal that an operation may leave in OBUF: it fits, and it has no symbol -2. -/
def State.SignalRoom (s : State) (d : List Sym) : Prop := s.Room d.length ∧ NoMinusTwo d

section Stages

variable {allowed : Flags} (s : State)

theorem groupBytes_sound {cap : Option Nat} {f : Flags} (hf : f.Coherent) (hle : f.le allowed) (ht : allowed.trunc = true)
    (b : List Bool) : (groupBytes f b).Sound cap allowed fun _ => True :=
  Report.sound_done (hf.or (Flags.coherent_truncation _))
    (Flags.or_le hle (by simp [Flags.le, Flags.truncation, ht])) trivial

/-! #### Bit Converter -/

theorem length_flatMap_bits8 {α : Type} (f : α → Byte) (l : List α) :
    (l.flatMap fun x => bits8 (f x)).length = 8 * l.length := by
  simp [List.length_flatMap, Nat.mul_comm]

/-- What `T2B` delivers is whole bytes (41_bit_converter R131). -/
theorem t2bStage_sound (t : List CodePoint) :
    (t2bStage s t).Sound s.bufCap allowed fun l => s.Room l.length ∧ l.length % 8 = 0 := by
  refine (Report.Sound.fit (P := fun l => l.length % 8 = 0) ?_).mono (Flags.le_refl _)
    fun _ hl => ⟨(fits_iff_room s _).mp hl.1, hl.2⟩
  split
  · exact Report.sound_fail (by decide) _
  · exact Report.sound_pure (by rw [length_flatMap_bits8, Nat.mul_mod_right])

theorem b2yStage_sound (ht : allowed.trunc = true) (b : List Bool) :
    (b2yStage s b).Sound s.bufCap allowed fun l => s.Room l.length :=
  (groupBytes_sound Flags.coherent_clear (Flags.clear_le _) ht b).fit_room

/-- On whole bytes `B2Y` sets no flag (41_bit_converter R132). -/
theorem b2yStage_sound_of_whole {b : List Bool} (hb : b.length % 8 = 0) :
    (b2yStage s b).Sound s.bufCap allowed fun l => s.Room l.length := by
  have hclear : (bitsToBytes b).2 = false := by simp [bitsToBytes, hb]
  refine Report.Sound.fit_room ?_
  rw [groupBytes, hclear]
  exact Report.sound_pure trivial

theorem y2sStage_sound (y : List Byte) : (y2sStage s y).Sound s.bufCap allowed fun l => s.Room l.length :=
  (Report.sound_pure trivial).fit_room

theorem s2yStage_sound (b : List Bool) : (s2yStage s b).Sound s.bufCap allowed fun l => s.Room l.length :=
  (Report.sound_check (by decide) _ _ (Report.sound_pure trivial)).fit_room

theorem y2tStage_sound (y : List Byte) : (y2tStage s y).Sound s.bufCap allowed fun l => s.Room l.length :=
  (Report.sound_pure trivial).fit_room

/-! #### Error-Control Codec -/

theorem ecEncodeStage_sound (ec : ErrorControl) (y : List Byte) :
    (ecEncodeStage s ec y).Sound s.bufCap allowed fun l => s.Room l.length := by
  cases ec <;> exact (Report.sound_pure trivial).fit_room

theorem ecNoneChkStage_sound (ht : allowed.trunc = true) (b : List Bool) :
    (ecNoneChkStage s b).Sound s.bufCap allowed fun l => s.Room l.length :=
  (groupBytes_sound Flags.coherent_clear (Flags.clear_le _) ht b).fit_room

theorem ecParChkStage_sound (hm : Flags.le ⟨true, true, false, true⟩ allowed) (b : List Bool) :
    (ecParChkStage s b).Sound s.bufCap allowed fun l => s.Room l.length := by
  obtain ⟨he, hc, -, ht⟩ := hm
  refine Report.Sound.fit_room ?_
  split
  · exact Report.sound_fail (by decide) _
  · exact groupBytes_sound (Flags.coherent_mismatch _) (by simp [Flags.le, Flags.mismatch, he, hc]) (ht rfl) _

theorem ecCrcChkStage_sound (hm : Flags.le ⟨true, true, false, true⟩ allowed) (b : List Bool) :
    (ecCrcChkStage s b).Sound s.bufCap allowed fun l => s.Room l.length := by
  obtain ⟨he, hc, -, ht⟩ := hm
  refine Report.Sound.fit_room ((groupBytes_sound Flags.coherent_clear (Flags.clear_le _) (ht rfl) b).bind fun y _ => ?_)
  exact Report.sound_check (by decide) _ _
    (Report.sound_done (Flags.coherent_mismatch _) (by simp [Flags.le, Flags.mismatch, he, hc]) trivial)

theorem ecHamDecStage_sound (hm : Flags.le ⟨true, false, true, true⟩ allowed) (b : List Bool) :
    (ecHamDecStage s b).Sound s.bufCap allowed fun l => s.Room l.length := by
  obtain ⟨he, -, hc, ht⟩ := hm
  exact (groupBytes_sound (Flags.coherent_correction _) (by simp [Flags.le, Flags.correction, he, hc]) (ht rfl) _).fit_room

theorem ecCheckStage_sound (ec : ErrorControl) (b : List Bool) :
    (ecCheckStage s ec b).Sound s.bufCap ⟨true, true, true, true⟩ fun l => s.Room l.length := by
  cases ec with
  | none => exact ecNoneChkStage_sound s rfl b
  | parity => exact ecParChkStage_sound s (by simp [Flags.le]) b
  | crc32 => exact ecCrcChkStage_sound s (by simp [Flags.le]) b
  | hamming => exact ecHamDecStage_sound s (by simp [Flags.le]) b

/-! #### Framing Codec -/

theorem ccDeframe_sound {cap : Option Nat} (n i : Nat) (b out : List Byte) :
    (ccDeframe n i b out).Sound cap allowed fun _ => True := by
  induction n generalizing i b out with
  | zero => exact Report.sound_pure trivial
  | succ n ih =>
    cases b with
    | nil => exact Report.sound_pure trivial
    | cons l rest =>
      rw [ccDeframe]
      split
      · exact Report.sound_fail (by decide) _
      · exact ih _ _ _

theorem frameStage_sound (fm : FramingMethod) (p : List Byte) :
    (frameStage s fm p).Sound s.bufCap allowed fun l => s.Room l.length := by
  cases fm <;> exact (Report.sound_check (by decide) _ _ (Report.sound_pure trivial)).fit_room

theorem deframeStage_sound (fm : FramingMethod) (b : List Byte) :
    (deframeStage s fm b).Sound s.bufCap allowed fun l => s.Room l.length := by
  cases fm with
  | charCount => exact (ccDeframe_sound _ _ _ _).fit_room
  | byteStuffing => exact (Report.sound_check (by decide) _ _ (Report.sound_pure trivial)).fit_room

/-! #### Line Coder -/

/-- The alternation of Bipolar stays among +1, 0 and -1 when it starts from +1 or -1. -/
theorem noMinusTwo_bipolarFrom {last : Sym} (hlast : last ∈ [Sym.one, Sym.negOne]) (b : List Bool) :
    NoMinusTwo (bipolarFrom last b) := by
  induction b generalizing last with
  | nil => exact List.not_mem_nil
  | cons x b ih =>
    have hneg : -last ∈ [Sym.one, Sym.negOne] ∧ -last ≠ 2#2 := by revert last; decide
    cases x with
    | true => exact List.not_mem_cons_of_ne_of_not_mem hneg.2.symm (ih hneg.1)
    | false => exact List.not_mem_cons_of_ne_of_not_mem (by decide) (ih hlast)

theorem noMinusTwo_symbolsOf (lc : LineCode) (v : List Bool) : NoMinusTwo (symbolsOf lc v) := by
  cases lc with
  | nrzPolar => rw [symbolsOf, NoMinusTwo, List.mem_map]; rintro ⟨x, -, h⟩; revert x; decide
  | manchester => rw [symbolsOf, NoMinusTwo, List.mem_map]; rintro ⟨x, -, h⟩; revert x; decide
  | bipolar => exact noMinusTwo_bipolarFrom (by decide) v

theorem noMinusTwo_manEncode (b : List Bool) : NoMinusTwo (manEncode b) := by
  rw [manEncode, NoMinusTwo, List.mem_flatMap]
  rintro ⟨x, -, h⟩
  revert x
  decide

/-- A stage that hands on a signal without the symbol -2. -/
theorem Report.Sound.fit_signal {s : State} {r : Report (List Sym)} (h : r.Sound s.bufCap allowed NoMinusTwo) :
    (r.fit s.bufCap).Sound s.bufCap allowed s.SignalRoom :=
  h.fit.mono (Flags.le_refl _) fun _ hl => ⟨(fits_iff_room s _).mp hl.1, hl.2⟩

theorem lineEncodeStage_sound (lc : LineCode) (b : List Bool) :
    (lineEncodeStage s lc b).Sound s.bufCap allowed s.SignalRoom := by
  cases lc with
  | nrzPolar => exact (Report.sound_pure (noMinusTwo_symbolsOf .nrzPolar b)).fit_signal
  | manchester => exact (Report.sound_pure (noMinusTwo_manEncode b)).fit_signal
  | bipolar => exact (Report.sound_pure (noMinusTwo_symbolsOf .bipolar b)).fit_signal

theorem lineDecodeStage_sound (lc : LineCode) (d : List Sym) :
    (lineDecodeStage s lc d).Sound s.bufCap allowed fun l => s.Room l.length := by
  cases lc with
  | nrzPolar => exact (Report.sound_pure trivial).fit_room
  | manchester => exact (Report.sound_check (by decide) _ _ (Report.sound_pure trivial)).fit_room
  | bipolar => exact (Report.sound_pure trivial).fit_room

/-! #### Carrier Modem -/

theorem carrierChecks_sound {α : Type} {cap : Option Nat} {P : α → Prop} {k : LineCode → Report α}
    (hk : ∀ lc, (k lc).Sound cap allowed P) : (carrierChecks s k).Sound cap allowed P := by
  unfold carrierChecks
  split
  · exact Report.sound_fail (by decide) _
  · exact Report.sound_check (by decide) _ _ (hk _)

theorem demodChecks_sound {α : Type} {cap : Option Nat} {P : α → Prop} {k : LineCode → List (List Sample) → Report α}
    (a : List Sample) (hk : ∀ lc ws, (k lc ws).Sound cap allowed P) : (demodChecks s a k).Sound cap allowed P :=
  carrierChecks_sound s fun _ => Report.sound_check (by decide) _ _ (hk _ _)

theorem modulateStage_sound (cs : CarrierScheme) (d : List Sym) :
    (modulateStage s cs d).Sound s.bufCap allowed fun l => s.Room l.length := by
  cases cs <;> exact (carrierChecks_sound s fun _ => Report.sound_pure trivial).fit_room

theorem demodulateStage_sound (cs : CarrierScheme) (a : List Sample) :
    (demodulateStage s cs a).Sound s.bufCap allowed s.SignalRoom := by
  cases cs with
  | ask => exact (demodChecks_sound s a fun lc _ => Report.sound_pure (noMinusTwo_symbolsOf lc _)).fit_signal
  | fsk => exact (demodChecks_sound s a fun lc _ => Report.sound_pure (noMinusTwo_symbolsOf lc _)).fit_signal
  | qam8 =>
    exact (demodChecks_sound s a fun lc _ =>
      Report.sound_check (by decide) _ _ (Report.sound_pure (noMinusTwo_symbolsOf lc _))).fit_signal

/-! #### whole pipeline and channel -/

theorem withSelectors_sound {α : Type} {cap : Option Nat} {P : α → Prop}
    {k : LineCode → CarrierScheme → FramingMethod → ErrorControl → Report α}
    (hk : ∀ lc cs fm ec, (k lc cs fm ec).Sound cap allowed P) : (withSelectors s k).Sound cap allowed P := by
  unfold withSelectors
  split
  · exact hk _ _ _ _
  · exact Report.sound_fail (by decide) _

/-- The samples and the length of the digital signal both fit, as each came from a stage held to the capacity. -/
theorem encodeChain_sound (lc : LineCode) (cs : CarrierScheme) (fm : FramingMethod)
    (ec : ErrorControl) (t : List CodePoint) :
    (encodeChain s lc cs fm ec t).Sound s.bufCap allowed fun r => s.Room r.1.length ∧ s.Room r.2 :=
  (t2bStage_sound s t).bind fun _ hb =>
  (b2yStage_sound_of_whole s hb.2).bind fun y _ =>
  (frameStage_sound s fm y).bind fun f _ =>
  (ecEncodeStage_sound s ec f).bind fun e _ =>
  (lineEncodeStage_sound s lc e).bind fun d hd =>
  (modulateStage_sound s cs d).bind fun _ ha =>
  Report.sound_pure ⟨ha, hd.1⟩

theorem decmsgStage_sound (a : List Sample) :
    (decmsgStage s a).Sound s.bufCap ⟨true, true, true, true⟩ fun l => s.Room l.length :=
  withSelectors_sound s fun lc cs fm ec => Report.sound_check (by decide) _ _ <|
    (demodulateStage_sound s cs a).bind fun d _ =>
    (lineDecodeStage_sound s lc d).bind fun e _ =>
    (ecCheckStage_sound s ec e).bind fun f _ =>
    (deframeStage_sound s fm f).bind fun y _ =>
    y2tStage_sound s y

theorem biterrStage_sound (b : List Bool) : (biterrStage s b).Sound s.bufCap allowed fun l => s.Room l.length :=
  (Report.sound_check (by decide) _ _ (Report.sound_pure trivial)).fit_room

end Stages

end Sys2Proof.Machine

/-! ### all that an operation that reads IBUF can do -/

namespace Sys2Proof.Machine

/-- A buffer that the operation `i` may leave in OBUF: of its output type, within the capacity, without the symbol -2. -/
structure State.Delivers (s : State) (i : Instr) (b : Buffer) : Prop where
  tag : outputTag i = some b.tag
  room : s.Room b.len
  noMinusTwo : ∀ d, b = .sym d → NoMinusTwo d

/-- The state that the operation `i` leaves when it completes with the flags `f`, the output `b` and the length `n` for
`DLEN`, which only the operations of 10_state R34 write. -/
def State.completed (s : State) (i : Instr) (f : Flags) (b : Buffer) (n : Nat) : State :=
  { s with
    obuf := b, flags := s.flags.or f, dlen := if writesDlen i then n else s.dlen,
    draws := if i = .biterr then s.draws + 1 else s.draws }

/-- All that an operation that reads IBUF can make of a state (41_bit_converter R130, 60_exceptions R310, R311). -/
inductive Effect (i : Instr) (s : State) : State → Prop
  /-- dropped in the fault state -/
  | dropped (h : s.fault ≠ none) : Effect i s s
  /-- it raises a fault, its flags set -/
  | failed {f : Flags} {e : Cause} (h : s.fault = none) (hf : f.Coherent) (hle : f.le (flagsSetBy i))
      (hcap : e.kind = .capacityError → s.bufCap ≠ none) : Effect i s ((s.setFlags f).afterFault e.kind e.info)
  /-- it completes -/
  | completed {f : Flags} {b : Buffer} {n : Nat} (h : s.fault = none) (hf : f.Coherent) (hle : f.le (flagsSetBy i))
      (hb : s.Delivers i b) (hn : s.Room n) : Effect i s (s.completed i f b n)

/-- An operation with the outcome `o` answers a next state, and does to the state what operations can do. -/
def HasEffect (i : Instr) (s : State) (o : Outcome) : Prop := ∃ t, o = .next t ∧ Effect i s t

section Template

variable {α β : Type} {i : Instr} {s : State} {take : Buffer → Option α} {stage : α → Report β} {P : β → Prop}

/-- A transform with a sound stage has the effect of an operation. -/
theorem transform_hasEffect {finish : State → β → State}
    (hstage : ∀ a, (stage a).Sound s.bufCap (flagsSetBy i) P)
    (hfinish : ∀ f b, P b → ∃ buf n, finish (s.setFlags f) b = s.completed i f buf n ∧ s.Delivers i buf ∧ s.Room n) :
    HasEffect i s (transform s take stage finish) := by
  rcases transform_cases s take stage finish with
    ⟨hf, ht⟩ | ⟨hf, -, ht⟩ | ⟨a, f, b, hf, -, hs, ht⟩ | ⟨a, f, e, hf, -, hs, ht⟩
  · exact ⟨s, ht, .dropped hf⟩
  · have hmistyped := Effect.failed (i := i) (e := ⟨.operandTypeError, s.ibuf.tag⟩) hf Flags.coherent_clear
      (Flags.clear_le _) nofun
    rw [State.setFlags_clear] at hmistyped
    exact ⟨_, ht, hmistyped⟩
  · obtain ⟨hcoh, hle, hdel, -⟩ := hs ▸ hstage a
    obtain ⟨buf, n, hfin, hbuf, hn⟩ := hfinish f b (hdel b rfl)
    exact ⟨_, hfin ▸ ht, .completed hf hcoh hle hbuf hn⟩
  · obtain ⟨hcoh, hle, -, hcap⟩ := hs ▸ hstage a
    exact ⟨_, ht, .failed hf hcoh hle (hcap e rfl)⟩

/-- The operations that leave nothing but their output. -/
theorem transform_setObuf_hasEffect {mk : β → Buffer} (hd : writesDlen i = false) (hi : i ≠ .biterr)
    (hstage : ∀ a, (stage a).Sound s.bufCap (flagsSetBy i) P) (hmk : ∀ b, P b → s.Delivers i (mk b)) :
    HasEffect i s (transform s take stage fun s' b => s'.setObuf (mk b)) :=
  transform_hasEffect hstage fun f b hb =>
    ⟨mk b, 0, by simp [State.completed, hd, hi, State.setFlags, State.setObuf], hmk b hb, fun _ _ => Nat.zero_le _⟩

/-- The line encoders, which write `DLEN` too (44_line_coder R212). -/
theorem transform_finishEncode_hasEffect {stage : α → Report (List Sym)} (hd : writesDlen i = true) (hi : i ≠ .biterr)
    (ho : outputTag i = some 4) (hstage : ∀ a, (stage a).Sound s.bufCap (flagsSetBy i) s.SignalRoom) :
    HasEffect i s (transform s take stage State.finishEncode) :=
  transform_hasEffect hstage fun f d hsig =>
    ⟨.sym d, d.length,
      by simp [State.completed, hd, hi, State.setFlags, State.setObuf, State.finishEncode, State.setDlen],
      ⟨ho, hsig.1, fun _ h => by cases h; exact hsig.2⟩, hsig.1⟩

end Template

section Delivers

variable {s : State} {i : Instr}

theorem State.delivers_char (ho : outputTag i = some 1) (l : List CodePoint) (h : s.Room l.length) :
    s.Delivers i (.char l) := ⟨ho, h, nofun⟩

theorem State.delivers_bit (ho : outputTag i = some 2) (l : List Bool) (h : s.Room l.length) :
    s.Delivers i (.bit l) := ⟨ho, h, nofun⟩

theorem State.delivers_byte (ho : outputTag i = some 3) (l : List Byte) (h : s.Room l.length) :
    s.Delivers i (.byte l) := ⟨ho, h, nofun⟩

theorem State.delivers_sym (ho : outputTag i = some 4) (d : List Sym) (h : s.SignalRoom d) :
    s.Delivers i (.sym d) := ⟨ho, h.1, fun _ hd => by cases hd; exact h.2⟩

theorem State.delivers_sample (ho : outputTag i = some 5) (l : List Sample) (h : s.Room l.length) :
    s.Delivers i (.sample l) := ⟨ho, h, nofun⟩

end Delivers

/-- Each of the 32 operations that read IBUF has the effect of an operation: its stage is sound, and it delivers a buffer of
its output type. -/
theorem exec_hasEffect {i : Instr} {tag : Nat} (hi : inputTag i = some tag) (s : State) : HasEffect i s (exec i s) := by
  cases i with
  | nop | xfer | clr | rst => cases hi
  | t2b => exact transform_setObuf_hasEffect rfl (by decide) (t2bStage_sound s) fun l h => s.delivers_bit rfl l h.1
  | b2y => exact transform_setObuf_hasEffect rfl (by decide) (b2yStage_sound s rfl) (s.delivers_byte rfl)
  | y2s => exact transform_setObuf_hasEffect rfl (by decide) (y2sStage_sound s) (s.delivers_bit rfl)
  | s2y => exact transform_setObuf_hasEffect rfl (by decide) (s2yStage_sound s) (s.delivers_byte rfl)
  | y2t => exact transform_setObuf_hasEffect rfl (by decide) (y2tStage_sound s) (s.delivers_char rfl)
  | ecNoneEnc => exact transform_setObuf_hasEffect rfl (by decide) (ecEncodeStage_sound s .none) (s.delivers_bit rfl)
  | ecParEnc => exact transform_setObuf_hasEffect rfl (by decide) (ecEncodeStage_sound s .parity) (s.delivers_bit rfl)
  | ecCrcEnc => exact transform_setObuf_hasEffect rfl (by decide) (ecEncodeStage_sound s .crc32) (s.delivers_bit rfl)
  | ecHamEnc => exact transform_setObuf_hasEffect rfl (by decide) (ecEncodeStage_sound s .hamming) (s.delivers_bit rfl)
  | ecNoneChk => exact transform_setObuf_hasEffect rfl (by decide) (ecNoneChkStage_sound s rfl) (s.delivers_byte rfl)
  | ecParChk =>
    exact transform_setObuf_hasEffect rfl (by decide) (ecParChkStage_sound s (Flags.le_refl _)) (s.delivers_byte rfl)
  | ecCrcChk =>
    exact transform_setObuf_hasEffect rfl (by decide) (ecCrcChkStage_sound s (Flags.le_refl _)) (s.delivers_byte rfl)
  | ecHamDec =>
    exact transform_setObuf_hasEffect rfl (by decide) (ecHamDecStage_sound s (Flags.le_refl _)) (s.delivers_byte rfl)
  | frCcF => exact transform_setObuf_hasEffect rfl (by decide) (frameStage_sound s .charCount) (s.delivers_byte rfl)
  | frBsF => exact transform_setObuf_hasEffect rfl (by decide) (frameStage_sound s .byteStuffing) (s.delivers_byte rfl)
  | frCcD => exact transform_setObuf_hasEffect rfl (by decide) (deframeStage_sound s .charCount) (s.delivers_byte rfl)
  | frBsD => exact transform_setObuf_hasEffect rfl (by decide) (deframeStage_sound s .byteStuffing) (s.delivers_byte rfl)
  | lcNrzEnc => exact transform_finishEncode_hasEffect rfl (by decide) rfl (lineEncodeStage_sound s .nrzPolar)
  | lcManEnc => exact transform_finishEncode_hasEffect rfl (by decide) rfl (lineEncodeStage_sound s .manchester)
  | lcBipEnc => exact transform_finishEncode_hasEffect rfl (by decide) rfl (lineEncodeStage_sound s .bipolar)
  | lcNrzDec => exact transform_setObuf_hasEffect rfl (by decide) (lineDecodeStage_sound s .nrzPolar) (s.delivers_bit rfl)
  | lcManDec => exact transform_setObuf_hasEffect rfl (by decide) (lineDecodeStage_sound s .manchester) (s.delivers_bit rfl)
  | lcBipDec => exact transform_setObuf_hasEffect rfl (by decide) (lineDecodeStage_sound s .bipolar) (s.delivers_bit rfl)
  | cmAskMod => exact transform_setObuf_hasEffect rfl (by decide) (modulateStage_sound s .ask) (s.delivers_sample rfl)
  | cmFskMod => exact transform_setObuf_hasEffect rfl (by decide) (modulateStage_sound s .fsk) (s.delivers_sample rfl)
  | cmQamMod => exact transform_setObuf_hasEffect rfl (by decide) (modulateStage_sound s .qam8) (s.delivers_sample rfl)
  | cmAskDem => exact transform_setObuf_hasEffect rfl (by decide) (demodulateStage_sound s .ask) (s.delivers_sym rfl)
  | cmFskDem => exact transform_setObuf_hasEffect rfl (by decide) (demodulateStage_sound s .fsk) (s.delivers_sym rfl)
  | cmQamDem => exact transform_setObuf_hasEffect rfl (by decide) (demodulateStage_sound s .qam8) (s.delivers_sym rfl)
  | encmsg =>
    refine transform_hasEffect (P := fun r => s.Room r.1.length ∧ s.Room r.2) (fun t => ?_) fun f r hr =>
      ⟨.sample r.1, r.2, rfl, s.delivers_sample rfl r.1 hr.1, hr.2⟩
    exact withSelectors_sound s fun lc cs fm ec =>
      Report.sound_check (by decide) _ _ (Report.sound_check (by decide) _ _ (encodeChain_sound s lc cs fm ec t))
  | decmsg => exact transform_setObuf_hasEffect rfl (by decide) (decmsgStage_sound s) (s.delivers_char rfl)
  | biterr =>
    exact transform_hasEffect (biterrStage_sound s) fun f b hb =>
      ⟨.bit b, 0, rfl, s.delivers_bit rfl b hb, fun _ _ => Nat.zero_le _⟩

theorem unlessFaulted_cases (s t : State) :
    (s.fault ≠ none ∧ unlessFaulted s t = .next s) ∨ (s.fault = none ∧ unlessFaulted s t = .next t) := by
  by_cases h : s.fault = none
  · exact .inr ⟨h, unlessFaulted_of_ready h⟩
  · exact .inl ⟨h, unlessFaulted_of_fault h⟩

/-- All that an operation can do: `NOP`, `XFER`, `CLR`, `RST` by name, any other by its effect. -/
inductive ExecCases (i : Instr) (s : State) : Prop
  | nop (hi : i = .nop) (h : exec i s = .next s)
  | xferDropped (hi : i = .xfer) (hf : s.fault ≠ none) (h : exec i s = .next s)
  | xfer (hi : i = .xfer) (hf : s.fault = none) (h : exec i s = .next ((s.setIbuf s.obuf).setObuf .none))
  | clr (hi : i = .clr) (h : exec i s = .next s.clearMessage)
  | rst (hi : i = .rst) (h : exec i s = .next s.resetCore)
  | other {tag : Nat} {t : State} (hi : inputTag i = some tag) (h : exec i s = .next t) (ht : Effect i s t)

theorem exec_cases (i : Instr) (s : State) : ExecCases i s := by
  cases hi : inputTag i with
  | some tag =>
    obtain ⟨t, h, ht⟩ := exec_hasEffect hi s
    exact .other hi h ht
  | none =>
    cases i with
    | nop => exact .nop rfl rfl
    | clr => exact .clr rfl rfl
    | rst => exact .rst rfl rfl
    | xfer =>
      rcases unlessFaulted_cases s ((s.setIbuf s.obuf).setObuf .none) with ⟨hf, h⟩ | ⟨hf, h⟩
      · exact .xferDropped rfl hf h
      · exact .xfer rfl hf h
    | _ => cases hi

/-- Every operation answers a next state (30_encoding R97). -/
theorem exec_next (i : Instr) (s : State) : ∃ t, exec i s = .next t := by
  cases exec_cases i s <;> exact ⟨_, ‹_›⟩

end Sys2Proof.Machine

/-! ### all that the host interface can do -/

namespace Sys2Proof

theorem RegName.ofNumber?_number (r : RegName) : RegName.ofNumber? r.number = some r := by cases r <;> rfl

theorem RegName.eq_number_of_ofNumber? {n : Nat} {r : RegName} (h : RegName.ofNumber? n = some r) : n = r.number := by
  unfold RegName.ofNumber? at h
  split at h <;> cases h <;> rfl

/-- The numbers that name no register are the reserved ones (10_state R38). -/
theorem RegName.ofNumber?_eq_none_iff (n : Nat) : RegName.ofNumber? n = none ↔ Machine.reservedNumber n := by
  unfold Machine.reservedNumber
  constructor
  · intro h
    by_contra hn
    have hlt : n < 0x18 := by omega
    interval_cases n <;> simp [RegName.ofNumber?] at h hn
  · intro h
    cases hr : RegName.ofNumber? n with
    | none => rfl
    | some r =>
      have hnum := RegName.eq_number_of_ofNumber? hr
      cases r <;> simp only [RegName.number] at hnum <;> omega

/-- A pattern is refused exactly where it is that of an infinity or a NaN (10_state R44). -/
theorem Finite64.ofNat?_eq_none_iff (v : Nat) : Finite64.ofNat? v = none ↔ finitePattern v = false := by
  have : v / 2 ^ 52 % 2 ^ 11 < 2 ^ 11 := Nat.mod_lt _ (by decide)
  simp only [Finite64.ofNat?, finitePattern, bne_eq_false_iff_eq]
  split <;> simp <;> omega

theorem Finite64.isSome_of_finitePattern {v : Nat} (h : finitePattern v = true) : ∃ x, Finite64.ofNat? v = some x := by
  rw [← Option.ne_none_iff_exists', Ne, Finite64.ofNat?_eq_none_iff, h]
  decide

end Sys2Proof

namespace Sys2Proof.Machine

/-- `t` is `s` but for registers that no clause of the invariant speaks of: 0x03 to 0x0C, 0x0E and 0x16. -/
def State.SameButConfig (s t : State) : Prop :=
  t = { s with
    scheme := t.scheme, sampleCount := t.sampleCount, amplitude := t.amplitude, frequency := t.frequency,
    phase := t.phase, ampZero := t.ampZero, ampOne := t.ampOne, freqZero := t.freqZero, freqOne := t.freqOne,
    maxFrameSize := t.maxFrameSize, errPermille := t.errPermille, oidx := t.oidx }

theorem State.sameButConfig_refl (s : State) : s.SameButConfig s := rfl

theorem writeSample_of_finite {v : Nat} {x : Finite64} (h : Finite64.ofNat? v = some x) (k : Finite64 → State) :
    writeSample v k = .next (k x) := by rw [writeSample, h]

theorem writeSample_of_nonFinite {v : Nat} (h : finitePattern v = false) (k : Finite64 → State) :
    writeSample v k = .refused .nonFiniteSample := by rw [writeSample, (Finite64.ofNat?_eq_none_iff v).mpr h]

/-- All that a register write can do (10_state R38, R39): the named cases are those that reach beyond the configuration. -/
inductive RegWriteCases (n v : Nat) (s : State) : Prop
  | command (hn : n = 0x00) (h : regWrite n v s = command (BitVec.ofNat 16 v) s)
  | dlen (hn : n = 0x0D) (h : regWrite n v s = .next (s.setDlen (v % 2 ^ 32)))
  | itype (hn : n = 0x10) (h : regWrite n v s = .next (s.setIbuf (Buffer.emptyOfTag v)))
  | idata (hn : n = 0x12) (h : regWrite n v s = writeIdata s v)
  | nonFinite (hn : 5 ≤ n ∧ n ≤ 11) (hv : finitePattern v = false) (h : regWrite n v s = .refused .nonFiniteSample)
  | config {t : State} (hn : n ≠ 0x12) (hv : 5 ≤ n ∧ n ≤ 11 → finitePattern v = true) (h : regWrite n v s = .next t)
      (ht : s.SameButConfig t)

theorem regWrite_cases (n v : Nat) (s : State) : RegWriteCases n v s := by
  cases hr : RegName.ofNumber? n with
  | none =>
    have hres := (RegName.ofNumber?_eq_none_iff n).mp hr
    unfold reservedNumber at hres
    exact .config (by omega) (by omega) (by rw [regWrite, hr]) s.sameButConfig_refl
  | some r =>
    obtain rfl := RegName.eq_number_of_ofNumber? hr
    cases r with
    | cmd => exact .command rfl rfl
    | dlen => exact .dlen rfl rfl
    | itype => exact .itype rfl rfl
    | idata => exact .idata rfl rfl
    | status | finfo | scheme | sampleCount | maxFrameSize | errPermille | ilen | otype | olen | oidx | odata =>
      exact .config (by decide) (fun h => absurd h (by decide)) rfl rfl
    | amplitude | frequency | phase | ampZero | ampOne | freqZero | freqOne =>
      cases hv : finitePattern v with
      | false => exact .nonFinite (by decide) hv (writeSample_of_nonFinite hv _)
      | true =>
        obtain ⟨x, hx⟩ := Finite64.isSome_of_finitePattern hv
        exact .config (by decide) (fun _ => hv) (writeSample_of_finite hx _) rfl

end Sys2Proof.Machine

/-! ### what every event leaves as it is -/

namespace Sys2Proof.Machine

/-- An operation changes neither `BUF_CAP` nor the host's list, position or observations (log 1, 3, 4, 5). -/
theorem exec_keeps_host {i : Instr} {s t : State} (h : exec i s = .next t) :
    t.bufCap = s.bufCap ∧ t.program = s.program ∧ t.pc = s.pc ∧ t.observed = s.observed := by
  cases exec_cases i s with
  | nop _ he | xferDropped _ _ he | xfer _ _ he | clr _ he | rst _ he =>
    cases he.symm.trans h
    exact ⟨rfl, rfl, rfl, rfl⟩
  | other _ he ht =>
    cases he.symm.trans h
    cases ht <;> exact ⟨rfl, rfl, rfl, rfl⟩

/-- `BUF_CAP`, the host's list and its position are the same in both states. -/
structure State.SameHost (s t : State) : Prop where
  bufCap : t.bufCap = s.bufCap
  program : t.program = s.program
  pc : t.pc = s.pc

theorem command_sameHost {w : CommandWord} {s t : State} (h : command w s = .next t) : s.SameHost t := by
  rcases command_cases w s with ⟨i, -, hc⟩ | ⟨e, -, hc⟩ <;> rw [hc] at h
  · obtain ⟨hcap, hprog, hpc, -⟩ := exec_keeps_host h
    exact ⟨hcap, hprog, hpc⟩
  · rcases unlessFaulted_cases s _ with ⟨-, hu⟩ | ⟨-, hu⟩ <;> cases hu.symm.trans h <;> exact ⟨rfl, rfl, rfl⟩

theorem writeIdata_sameHost {v : Nat} {s t : State} (h : writeIdata s v = .next t) : s.SameHost t := by
  rcases writeIdata_cases s v with ⟨-, hw⟩ | ⟨c, -, -, -, hw⟩ | ⟨-, -, ⟨b, -, hw⟩ | ⟨-, hw⟩⟩
  · cases hw.symm.trans h
    exact ⟨rfl, rfl, rfl⟩
  · rw [hw] at h
    rcases unlessFaulted_cases s _ with ⟨-, hu⟩ | ⟨-, hu⟩ <;> cases hu.symm.trans h <;> exact ⟨rfl, rfl, rfl⟩
  · cases hw.symm.trans h
    exact ⟨rfl, rfl, rfl⟩
  · cases hw.symm.trans h

theorem State.SameButConfig.sameHost {s t : State} (h : s.SameButConfig t) : s.SameHost t := by
  rw [h]
  exact ⟨rfl, rfl, rfl⟩

/-- No event changes `BUF_CAP` or the host's list, and the host's position moves only when the step has ended. -/
theorem hostEvent_sameHost {e : HostEvent} {s t : State} (h : hostEvent e s = .next t) : s.SameHost t := by
  cases e with
  | read n => cases h; exact ⟨rfl, rfl, rfl⟩
  | hardReset => cases h; exact ⟨rfl, rfl, rfl⟩
  | write n v =>
    change regWrite n v s = .next t at h
    cases regWrite_cases n v s with
    | command _ hw => exact command_sameHost (hw.symm.trans h)
    | dlen _ hw | itype _ hw => cases hw.symm.trans h; exact ⟨rfl, rfl, rfl⟩
    | idata _ hw => exact writeIdata_sameHost (hw.symm.trans h)
    | nonFinite _ _ hw => cases hw.symm.trans h
    | config _ _ hw ht => cases hw.symm.trans h; exact ht.sameHost

end Sys2Proof.Machine

/-! ### the invariant (O23, O24) -/

namespace Sys2Proof.Machine

theorem State.room_zero (s : State) : s.Room 0 := fun _ _ => Nat.zero_le _

namespace State.Inv

variable {s : State}

theorem config {t : State} (hs : s.Inv) (h : s.SameButConfig t) : t.Inv := by
  rw [h]
  exact { hs with }

theorem observe (hs : s.Inv) (v : Nat) : (s.observe v).Inv := { hs with }

theorem setFlags {f : Flags} (hs : s.Inv) (hf : f.Coherent) : (s.setFlags f).Inv :=
  { hs with errdet := Flags.Coherent.or hs.errdet hf }

theorem setDlen {n : Nat} (hs : s.Inv) (hn : ∀ c, s.bufCap = some c → n ≤ 2 ^ 32 - 1) : (s.setDlen n).Inv :=
  { hs with dlenWidth := hn }

theorem setIbuf {b : Buffer} (hs : s.Inv) (hb : s.Room b.len) : (s.setIbuf b).Inv := { hs with ibufRoom := hb }

/-- Fault entry keeps the invariant, unless it is a `CapacityError` where no capacity is set (60_exceptions R310). -/
theorem afterFault {kind : FaultKind} {info : Nat} (hs : s.Inv) (hcap : kind = .capacityError → s.bufCap ≠ none) :
    (s.afterFault kind info).Inv :=
  { hs with
    obufRoom := s.room_zero
    noCapacity := fun hnone hk => hcap (Option.some.inj hk) hnone
    faultEmpties := fun _ => rfl
    finfoClear := nofun
    noMinusTwo := nofun }

theorem clearMessage (hs : s.Inv) : s.clearMessage.Inv :=
  { hs with
    errdet := rfl
    ibufRoom := s.room_zero
    obufRoom := s.room_zero
    noCapacity := nofun
    faultEmpties := fun h => absurd rfl h
    finfoClear := fun _ => rfl
    noMinusTwo := nofun }

theorem resetCore (hs : s.Inv) : s.resetCore.Inv :=
  { hs.clearMessage with dlenWidth := fun _ _ => Nat.zero_le _ }

/-- The output that `XFER` moves fits IBUF as it fitted OBUF (40_system_ops R121). -/
theorem xfer (hs : s.Inv) : ((s.setIbuf s.obuf).setObuf .none).Inv :=
  { hs with
    ibufRoom := hs.obufRoom
    obufRoom := s.room_zero
    faultEmpties := fun _ => rfl
    noMinusTwo := nofun }

theorem completed {i : Instr} {f : Flags} {b : Buffer} {n : Nat} (hs : s.Inv) (hready : s.fault = none)
    (hf : f.Coherent) (hb : s.Delivers i b) (hn : s.Room n) : (s.completed i f b n).Inv :=
  { hs with
    errdet := Flags.Coherent.or hs.errdet hf
    obufRoom := hb.room
    dlenWidth := fun c hc => by
      show (if writesDlen i then n else s.dlen) ≤ 2 ^ 32 - 1
      split
      · exact (hn c hc).trans (hs.capWidth c hc)
      · exact hs.dlenWidth c hc
    faultEmpties := fun h => absurd hready h
    noMinusTwo := hb.noMinusTwo }

theorem effect {i : Instr} {t : State} (hs : s.Inv) (h : Effect i s t) : t.Inv := by
  cases h with
  | dropped => exact hs
  | failed _ hf _ hcap => exact (hs.setFlags hf).afterFault hcap
  | completed hready hf _ hb hn => exact hs.completed hready hf hb hn

end State.Inv

theorem exec_keeps_inv {i : Instr} {s t : State} (hs : s.Inv) (h : exec i s = .next t) : t.Inv := by
  cases exec_cases i s with
  | nop _ he | xferDropped _ _ he => cases he.symm.trans h; exact hs
  | xfer _ _ he => cases he.symm.trans h; exact hs.xfer
  | clr _ he => cases he.symm.trans h; exact hs.clearMessage
  | rst _ he => cases he.symm.trans h; exact hs.resetCore
  | other _ he ht => cases he.symm.trans h; exact hs.effect ht

theorem unlessFaulted_keeps_inv {s t u : State} (hs : s.Inv) (ht : t.Inv) (h : unlessFaulted s t = .next u) : u.Inv := by
  rcases unlessFaulted_cases s t with ⟨-, hu⟩ | ⟨-, hu⟩ <;> cases hu.symm.trans h <;> assumption

/-- A word that is no operation does not raise `CapacityError` (30_encoding R96). -/
theorem decodeCause_kind_ne_capacityError (w : CommandWord) (e : DecodeError) :
    (decodeCause w e).kind ≠ .capacityError := by
  cases e <;> exact nofun

theorem command_keeps_inv {w : CommandWord} {s t : State} (hs : s.Inv) (h : command w s = .next t) : t.Inv := by
  rcases command_cases w s with ⟨i, -, hc⟩ | ⟨e, -, hc⟩ <;> rw [hc] at h
  · exact exec_keeps_inv hs h
  · exact unlessFaulted_keeps_inv hs (hs.afterFault fun hk => absurd hk (decodeCause_kind_ne_capacityError w e)) h

theorem writeIdata_keeps_inv {v : Nat} {s t : State} (hs : s.Inv) (h : writeIdata s v = .next t) : t.Inv := by
  rcases writeIdata_cases s v with ⟨-, hw⟩ | ⟨c, -, hcap, -, hw⟩ | ⟨hne, hroom, ⟨b, hb, hw⟩ | ⟨-, hw⟩⟩
  · cases hw.symm.trans h
    exact hs
  · rw [hw] at h
    exact unlessFaulted_keeps_inv hs (hs.afterFault fun _ hnone => nomatch hcap.symm.trans hnone) h
  · cases hw.symm.trans h
    rcases Buffer.append?_cases hb with ⟨hnone, -⟩ | ⟨-, -, hlen⟩
    · exact absurd hnone hne
    · exact hs.setIbuf (hlen ▸ hroom)
  · cases hw.symm.trans h

theorem Buffer.len_emptyOfTag (v : Nat) : (Buffer.emptyOfTag v).len = 0 := by
  unfold Buffer.emptyOfTag
  split <;> rfl

theorem hostEvent_keeps_inv {e : HostEvent} {s t : State} (hs : s.Inv) (h : hostEvent e s = .next t) : t.Inv := by
  cases e with
  | read n => cases h; exact hs.observe _
  | hardReset => cases h; exact hs.resetCore
  | write n v =>
    change regWrite n v s = .next t at h
    cases regWrite_cases n v s with
    | command _ hw => exact command_keeps_inv hs (hw.symm.trans h)
    | dlen _ hw =>
      cases hw.symm.trans h
      exact hs.setDlen fun _ _ => Nat.le_pred_of_lt (Nat.mod_lt _ (by decide))
    | itype _ hw =>
      cases hw.symm.trans h
      exact hs.setIbuf ((Buffer.len_emptyOfTag v).symm ▸ s.room_zero)
    | idata _ hw => exact writeIdata_keeps_inv hs (hw.symm.trans h)
    | nonFinite _ _ hw => cases hw.symm.trans h
    | config _ _ hw ht => cases hw.symm.trans h; exact hs.config ht

/-- Settles O24: each event keeps the invariant, and the host moves on within its list. -/
theorem stepKeepsTheInvariant : Obligations.StepKeepsTheInvariant := by
  unfold Obligations.StepKeepsTheInvariant
  intro s t hs h
  rcases step_cases s with ⟨-, hstep⟩ | ⟨e, hfetch, ⟨u, hu, hstep⟩ | ⟨r, -, hstep⟩⟩ <;> cases hstep.symm.trans h
  · exact ⟨hs, rfl, rfl⟩
  · obtain ⟨hcap, hprog, hpc⟩ := hostEvent_sameHost hu
    have hlt : s.pc < s.program.length := (List.getElem?_eq_some_iff.mp hfetch).1
    have hposition : u.advance.pc ≤ u.advance.program.length := by
      rw [State.advance_pc, State.advance_program, hprog, hpc]
      exact hlt
    exact ⟨{ hostEvent_keeps_inv hs hu with position := hposition }, hcap, hprog⟩

/-- Settles O23: at reset both buffers are empty, no flag and no fault stands, and `BUF_CAP` is unbounded. -/
theorem resetHasTheInvariant : Obligations.ResetHasTheInvariant where
  errdet := rfl
  ibufRoom := nofun
  obufRoom := nofun
  capWidth := nofun
  dlenWidth := nofun
  noCapacity := nofun
  faultEmpties := fun h => absurd rfl h
  finfoClear := fun _ => rfl
  noMinusTwo := nofun
  position := Nat.zero_le _

end Sys2Proof.Machine

/-! ### the frame of an operation (O20) -/

namespace Sys2Proof.Machine

section Effect

variable {i : Instr} {s t : State}

/-- The fields that an effect can reach. -/
theorem Effect.frame (h : Effect i s t) :
    t = { s with
      obuf := t.obuf, flags := t.flags, fault := t.fault, finfo := t.finfo, dlen := t.dlen, draws := t.draws } := by
  cases h <;> rfl

theorem Effect.eq_of_fault (h : Effect i s t) (hf : s.fault ≠ none) : t = s := by
  cases h with
  | dropped => rfl
  | failed hready | completed hready => exact absurd hready hf

/-- `DLEN` is written on completion only (10_state R34). -/
theorem Effect.dlen_changed (h : Effect i s t) (hd : t.dlen ≠ s.dlen) : writesDlen i = true ∧ t.fault = none := by
  cases h with
  | dropped | failed => exact absurd rfl hd
  | completed hready =>
    refine ⟨?_, hready⟩
    by_contra hw
    exact hd (if_neg hw)

/-- A draw is counted by `BITERR` on completion only (log 12). -/
theorem Effect.draws_changed (h : Effect i s t) (hd : t.draws ≠ s.draws) : i = .biterr ∧ t.fault = none := by
  cases h with
  | dropped | failed => exact absurd rfl hd
  | completed hready =>
    refine ⟨?_, hready⟩
    by_contra hw
    exact hd (if_neg hw)

theorem Effect.flags_kept (h : Effect i s t) : s.flags.le t.flags := by
  cases h with
  | dropped => exact Flags.le_refl _
  | failed | completed => exact Flags.le_or _ _

theorem Effect.flags_allowed (h : Effect i s t) : t.flags.le (s.flags.or (flagsSetBy i)) := by
  cases h with
  | dropped => exact Flags.le_or _ _
  | failed _ _ hle | completed _ _ hle => exact Flags.or_le_or_left _ hle

theorem Effect.obuf_of_failed (h : Effect i s t) (hready : s.fault = none) (hf : t.fault ≠ none) : t.obuf = .none := by
  cases h with
  | dropped | completed => exact absurd hready hf
  | failed => rfl

theorem Effect.output_of_completed (h : Effect i s t) (hready : s.fault = none) (hf : t.fault = none) :
    outputTag i = some t.obuf.tag ∧ t.finfo = s.finfo := by
  cases h with
  | dropped hne => exact absurd hready hne
  | failed => cases hf
  | completed _ _ _ hb => exact ⟨hb.tag, rfl⟩

end Effect

/-- Settles O20: the clauses are read off the effect of an operation. -/
theorem operationFrame : Obligations.OperationFrame := by
  unfold Obligations.OperationFrame
  refine ⟨fun _ _ _ => exec_keeps_host, fun i tag s t hi h => ?_⟩
  obtain ⟨u, hu, he⟩ := exec_hasEffect hi s
  cases hu.symm.trans h
  exact ⟨he.frame, he.eq_of_fault, he.dlen_changed, he.draws_changed, he.flags_kept, he.flags_allowed,
    he.obuf_of_failed, he.output_of_completed⟩

end Sys2Proof.Machine

/-! ### command words and the operations they stand for -/

namespace Sys2Proof

theorem toNat_append_eq_add {m n : Nat} (x : BitVec m) (y : BitVec n) : (x ++ y).toNat = x.toNat * 2 ^ n + y.toNat := by
  rw [BitVec.toNat_append, ← Nat.shiftLeft_add_eq_or_of_lt y.isLt, Nat.shiftLeft_eq]

/-- The word of an operation decodes to it (30_encoding R95, R96). -/
theorem decode_encode (i : Instr) : decode (encode i) = .ok i := by cases i <;> rfl

/-- The fields of an operation are those of its word. -/
theorem commandWord_of_operationOf {unit scheme func : Nat} {i : Instr} (h : operationOf unit scheme func = some i) :
    commandWord (BitVec.ofNat 4 unit) (BitVec.ofNat 4 scheme) (BitVec.ofNat 4 func) = encode i := by
  unfold operationOf at h
  split at h <;> cases h <;> rfl

/-- A word without bits in `RSV` is put together from its three other fields (30_encoding R90). -/
theorem commandWord_fields {w : CommandWord} (h : rsvField w = 0) :
    commandWord (BitVec.ofNat 4 (unitField w)) (BitVec.ofNat 4 (schemeField w)) (BitVec.ofNat 4 (funcField w)) = w := by
  have hrsv : w.extractLsb' 0 4 = 0#4 := BitVec.eq_of_toNat_eq h
  have hsplit : w = w.extractLsb' 12 4 ++ w.extractLsb' 8 4 ++ w.extractLsb' 4 4 ++ w.extractLsb' 0 4 := by
    apply BitVec.eq_of_toNat_eq
    simp only [toNat_append_eq_add, BitVec.extractLsb'_toNat, Nat.shiftRight_eq_div_pow]
    omega
  rw [commandWord, unitField, schemeField, funcField]
  simp only [BitVec.ofNat_toNat, BitVec.setWidth_eq]
  rw [← hrsv, ← hsplit]

/-- A word that decodes to an operation is that operation's word. -/
theorem eq_encode_of_decode {w : CommandWord} {i : Instr} (h : decode w = .ok i) : w = encode i := by
  unfold decode at h
  split_ifs at h with hrsv
  split at h
  · cases h
    rw [← commandWord_of_operationOf ‹_›, commandWord_fields (not_not.mp hrsv)]
  · cases h

end Sys2Proof

/-! ### sticky flags (O18) -/

namespace Sys2Proof.Machine

/-- Every flag of `s` is set in `t`, and a fault that stands in `s` stands in `t` (10_state R22, 60_exceptions R315). -/
def State.StickyTo (s t : State) : Prop := s.flags.le t.flags ∧ (s.fault ≠ none → t.fault = s.fault)

theorem State.stickyTo_of_eq {s t : State} (hflags : t.flags = s.flags) (hfault : t.fault = s.fault) : s.StickyTo t :=
  ⟨hflags ▸ Flags.le_refl _, fun _ => hfault⟩

/-- No operation but `CLR` and `RST` clears a flag or ends a fault. -/
theorem exec_sticky {i : Instr} {s t : State} (hclr : i ≠ .clr) (hrst : i ≠ .rst) (h : exec i s = .next t) :
    s.StickyTo t := by
  cases exec_cases i s with
  | nop _ he | xferDropped _ _ he | xfer _ _ he => cases he.symm.trans h; exact State.stickyTo_of_eq rfl rfl
  | clr hi => exact absurd hi hclr
  | rst hi => exact absurd hi hrst
  | other _ he ht =>
    cases he.symm.trans h
    exact ⟨ht.flags_kept, fun hf => congrArg State.fault (ht.eq_of_fault hf)⟩

theorem unlessFaulted_afterFault_sticky {s t : State} {kind : FaultKind} {info : Nat}
    (h : unlessFaulted s (s.afterFault kind info) = .next t) : s.StickyTo t := by
  rcases unlessFaulted_cases s (s.afterFault kind info) with ⟨-, hu⟩ | ⟨hready, hu⟩ <;> cases hu.symm.trans h
  · exact State.stickyTo_of_eq rfl rfl
  · exact ⟨Flags.le_refl _, fun hf => absurd hready hf⟩

theorem command_sticky {w : CommandWord} {s t : State} (hclr : w ≠ 0x0020#16) (hrst : w ≠ 0x0030#16)
    (h : command w s = .next t) : s.StickyTo t := by
  rcases command_cases w s with ⟨i, hi, hc⟩ | ⟨e, -, hc⟩ <;> rw [hc] at h
  · have hw := eq_encode_of_decode hi
    exact exec_sticky (fun hclr' => hclr (by rw [hw, hclr']; rfl)) (fun hrst' => hrst (by rw [hw, hrst']; rfl)) h
  · exact unlessFaulted_afterFault_sticky h

theorem writeIdata_sticky {v : Nat} {s t : State} (h : writeIdata s v = .next t) : s.StickyTo t := by
  rcases writeIdata_cases s v with ⟨-, hw⟩ | ⟨c, -, -, -, hw⟩ | ⟨-, -, ⟨b, -, hw⟩ | ⟨-, hw⟩⟩
  · cases hw.symm.trans h
    exact State.stickyTo_of_eq rfl rfl
  · exact unlessFaulted_afterFault_sticky (hw.symm.trans h)
  · cases hw.symm.trans h
    exact State.stickyTo_of_eq rfl rfl
  · cases hw.symm.trans h

theorem hostEvent_sticky {e : HostEvent} {s t : State} (h : hostEvent e s = .next t) (hreset : e ≠ .hardReset)
    (hcmd : ∀ v, e = .write 0x00 v → BitVec.ofNat 16 v ≠ 0x0020#16 ∧ BitVec.ofNat 16 v ≠ 0x0030#16) : s.StickyTo t := by
  cases e with
  | read n => cases h; exact State.stickyTo_of_eq rfl rfl
  | hardReset => exact absurd rfl hreset
  | write n v =>
    change regWrite n v s = .next t at h
    cases regWrite_cases n v s with
    | command hn hw =>
      obtain ⟨hclr, hrst⟩ := hcmd v (by rw [hn])
      exact command_sticky hclr hrst (hw.symm.trans h)
    | dlen _ hw | itype _ hw => cases hw.symm.trans h; exact State.stickyTo_of_eq rfl rfl
    | idata _ hw => exact writeIdata_sticky (hw.symm.trans h)
    | nonFinite _ _ hw => cases hw.symm.trans h
    | config _ _ hw ht =>
      cases hw.symm.trans h
      rw [ht]
      exact State.stickyTo_of_eq rfl rfl

/-- Settles O18: event by event, with `CLR` and `RST` told apart by their words. -/
theorem flagsAreSticky : Obligations.FlagsAreSticky := by
  unfold Obligations.FlagsAreSticky
  refine fun s => ⟨fun e t => hostEvent_sticky, fun t h => ?_⟩
  rcases h with h | h | h <;> cases h <;> exact ⟨rfl, rfl⟩

/-! ### reset, the step and the status word (O1, O9, O10, O14) -/

theorem State.resetCore_atReset (s : State) : s.resetCore.AtReset := by
  constructor <;> rfl

/-- Settles O1: `RST` and the hardware reset event are both `resetCore`. -/
theorem resetAndRstGiveTheResetTable : Obligations.ResetAndRstGiveTheResetTable := by
  unfold Obligations.ResetAndRstGiveTheResetTable
  exact ⟨State.resetCore_atReset State.reset, rfl, fun s => ⟨s.resetCore, rfl, rfl, s.resetCore_atReset⟩⟩

theorem step_of_event {s t : State} {e : HostEvent} (hfetch : s.fetch = some e) (h : hostEvent e s = .next t) :
    step s = .next { t with pc := t.pc + 1 } := by
  rw [step, hfetch]
  dsimp only
  rw [runEvent, h]
  rfl

theorem hostEvent_write_cmd {v : Nat} {i : Instr} (h : decode (BitVec.ofNat 16 v) = .ok i) (s : State) :
    hostEvent (.write 0x00 v) s = exec i s := by
  change command (BitVec.ofNat 16 v) s = exec i s
  rw [command, h]

/-- A step whose event writes the word of an operation to `CMD` runs that operation (10_state R37). -/
theorem step_of_command {s : State} {v : Nat} {i : Instr} (hfetch : s.fetch = some (.write 0x00 v))
    (h : decode (BitVec.ofNat 16 v) = .ok i) : ∃ t, exec i s = .next t ∧ step s = .next { t with pc := t.pc + 1 } := by
  obtain ⟨t, ht⟩ := exec_next i s
  exact ⟨t, ht, step_of_event hfetch ((hostEvent_write_cmd h s).trans ht)⟩

theorem decode_tableWord_encode (i : Instr) : decode (BitVec.ofNat 16 (tableWord 16 (encode i).toNat).toNat) = .ok i := by
  have hlt : (encode i).toNat < 2 ^ 16 := (encode i).isLt
  rw [tableWord, Nat.mod_eq_of_lt hlt]
  simp [decode_encode]

/-- Settles O9: every operation answers a next state, and the event that `withFetchWord` places is fetched. -/
theorem stepRunsTheDecodedOperation : Obligations.StepRunsTheDecodedOperation := by
  unfold Obligations.StepRunsTheDecodedOperation
  refine ⟨fun s v i hfetch hi _ => step_of_command hfetch hi, fun s i => ?_, fun s hend => ?_⟩
  · exact step_of_command (s.fetch_placeEvent _) (decode_tableWord_encode i)
  · have hfetch : s.fetch = none := List.getElem?_eq_none hend
    rw [step, hfetch]

/-- A command always answers a next state (30_encoding R97). -/
theorem command_next (w : CommandWord) (s : State) : ∃ t, command w s = .next t := by
  rcases command_cases w s with ⟨i, -, hc⟩ | ⟨e, -, hc⟩ <;> rw [hc]
  · exact exec_next i s
  · rcases unlessFaulted_cases s (s.afterFault (decodeCause w e).kind (decodeCause w e).info) with ⟨-, hu⟩ | ⟨-, hu⟩ <;>
      exact ⟨_, hu⟩

/-- Only a buffer of samples refuses an element, and only a non-finite one. -/
theorem Buffer.append?_eq_none_iff (b : Buffer) (v : Nat) :
    b.append? v = Option.none ↔ b.tag = 5 ∧ finitePattern v = false := by
  cases b <;> simp [Buffer.append?, Buffer.tag, Finite64.ofNat?_eq_none_iff]

theorem writeIdata_next_or_refused (s : State) (v : Nat) :
    (∃ t, writeIdata s v = .next t) ∨
      (writeIdata s v = .refused .nonFiniteSample ∧ finitePattern v = false ∧ s.ibuf.tag = 5) := by
  rcases writeIdata_cases s v with ⟨-, hw⟩ | ⟨c, -, -, -, hw⟩ | ⟨-, -, ⟨b, -, hw⟩ | ⟨hb, hw⟩⟩
  · exact .inl ⟨_, hw⟩
  · rw [hw]
    rcases unlessFaulted_cases s (s.afterFault .capacityError c) with ⟨-, hu⟩ | ⟨-, hu⟩ <;> exact .inl ⟨_, hu⟩
  · exact .inl ⟨_, hw⟩
  · obtain ⟨htag, hv⟩ := (Buffer.append?_eq_none_iff _ _).mp hb
    exact .inr ⟨hw, hv, htag⟩

/-- With room, a write of `IDATA` is an append. -/
theorem writeIdata_of_append {s : State} {v : Nat} {b : Buffer} (hne : s.ibuf ≠ .none) (hroom : s.Room (s.ibuf.len + 1))
    (hb : s.ibuf.append? v = some b) : writeIdata s v = .next (s.setIbuf b) := by
  rcases writeIdata_cases s v with ⟨hnone, -⟩ | ⟨c, -, hcap, hle, -⟩ | ⟨-, -, ⟨b', hb', hw⟩ | ⟨hb', -⟩⟩
  · exact absurd hnone hne
  · exact absurd (hroom c hcap) (by omega)
  · cases hb'.symm.trans hb
    exact hw
  · cases hb'.symm.trans hb

/-- With room, a write of `IDATA` is refused where the buffer takes no such element. -/
theorem writeIdata_of_no_append {s : State} {v : Nat} (hne : s.ibuf ≠ .none) (hroom : s.Room (s.ibuf.len + 1))
    (hb : s.ibuf.append? v = none) : writeIdata s v = .refused .nonFiniteSample := by
  rcases writeIdata_cases s v with ⟨hnone, -⟩ | ⟨c, -, hcap, hle, -⟩ | ⟨-, -, ⟨b', hb', -⟩ | ⟨-, hw⟩⟩
  · exact absurd hnone hne
  · exact absurd (hroom c hcap) (by omega)
  · cases hb'.symm.trans hb
  · exact hw

/-- A host event stops only where it writes a non-finite pattern to a `Sample` register or to an IBUF of type `SAMPLE`. -/
theorem hostEvent_next_or_refused (e : HostEvent) (s : State) :
    (∃ t, hostEvent e s = .next t) ∨
      (hostEvent e s = .refused .nonFiniteSample ∧ ∃ n v, e = .write n v ∧ finitePattern v = false ∧
        ((5 ≤ n ∧ n ≤ 11) ∨ (n = 0x12 ∧ s.ibuf.tag = 5))) := by
  cases e with
  | read n => exact .inl ⟨_, rfl⟩
  | hardReset => exact .inl ⟨_, rfl⟩
  | write n v =>
    change (∃ t, regWrite n v s = .next t) ∨ (regWrite n v s = .refused .nonFiniteSample ∧ _)
    cases regWrite_cases n v s with
    | command _ hw => rw [hw]; exact .inl (command_next _ s)
    | dlen _ hw | itype _ hw | config _ _ hw _ => exact .inl ⟨_, hw⟩
    | nonFinite hn hv hw => exact .inr ⟨hw, n, v, rfl, hv, .inl hn⟩
    | idata hn hw =>
      rw [hw]
      exact (writeIdata_next_or_refused s v).imp_right fun ⟨hr, hv, htag⟩ => ⟨hr, n, v, rfl, hv, .inr ⟨hn, htag⟩⟩

theorem regWrite_nonFinite {n v : Nat} {s : State} (hv : finitePattern v = false)
    (hn : (5 ≤ n ∧ n ≤ 11) ∨ (n = 0x12 ∧ s.ibuf.tag = 5 ∧ s.Room (s.ibuf.len + 1))) :
    regWrite n v s = .refused .nonFiniteSample := by
  cases regWrite_cases n v s with
  | command h | dlen h | itype h => omega
  | nonFinite _ _ hw => exact hw
  | config hne hfin =>
    rcases hn with hn | ⟨hn, -⟩
    · exact absurd (hfin hn) (by simp [hv])
    · exact absurd hn hne
  | idata h hw =>
    obtain ⟨-, htag, hroom⟩ := hn.resolve_left (by omega)
    have hne : s.ibuf ≠ .none := fun hb => by rw [hb] at htag; cases htag
    exact hw.trans (writeIdata_of_no_append hne hroom ((Buffer.append?_eq_none_iff _ _).mpr ⟨htag, hv⟩))

theorem step_refused {s : State} {e : HostEvent} {r : Refusal} (hfetch : s.fetch = some e)
    (h : hostEvent e s = .refused r) : step s = .refused r := by
  rw [step, hfetch]
  dsimp only
  rw [runEvent, h]

/-- Settles O10: the only event that stops is a write of a non-finite sample. -/
theorem stepStopsOnlyAtNonFiniteSamples : Obligations.StepStopsOnlyAtNonFiniteSamples := by
  unfold Obligations.StepStopsOnlyAtNonFiniteSamples
  refine fun s => ⟨?_, fun n v hfetch hv hn => step_refused hfetch (regWrite_nonFinite hv hn)⟩
  cases hfetch : s.fetch with
  | none => exact .inl ⟨s, by rw [step, hfetch]⟩
  | some e =>
    rcases hostEvent_next_or_refused e s with ⟨t, ht⟩ | ⟨hr, n, v, rfl, hv, hn⟩
    · exact .inl ⟨_, step_of_event hfetch ht⟩
    · exact .inr ⟨step_refused hfetch hr, n, v, hfetch, hv, hn⟩

theorem toNat_faultCode (f : Option FaultKind) : (faultCode f).toNat = causeCode f := by
  cases f with
  | none => rfl
  | some k => cases k <;> rfl

/-- Settles O14: `STATUS` is put together from its fields, each at its place. -/
theorem statusWord : Obligations.StatusWord := by
  unfold Obligations.StatusWord
  refine fun s v => ⟨rfl, ?_⟩
  change s.status.toNat = _
  simp only [State.status, toNat_append_eq_add, toNat_faultCode, BitVec.toNat_ofBool, BitVec.toNat_ofNat]
  omega

end Sys2Proof.Machine

/-! ### the register map and the buffer ports (O11, O12) -/

namespace Sys2Proof

/-- A finite pattern is kept bit for bit (10_state R38, R44). -/
theorem Finite64.toNat_of_ofNat? {v : Nat} {x : Finite64} (h : Finite64.ofNat? v = some x) : x.toNat = v % 2 ^ 64 := by
  unfold Finite64.ofNat? at h
  split at h
  · cases h
    simp only [Finite64.toNat, Nat.testBit_eq_decide_div_mod_eq, decide_eq_true_eq, BitVec.toNat_ofNat]
    split <;> omega
  · cases h

end Sys2Proof

namespace Sys2Proof.Machine

section Map

variable (s : State) (n v : Nat)

theorem regWrite_of_reserved (h : reservedNumber n) : regWrite n v s = .next s := by
  rw [regWrite, (RegName.ofNumber?_eq_none_iff n).mpr h]

theorem regRead_of_reserved (h : reservedNumber n) : regRead n s = 0 := by
  rw [regRead, (RegName.ofNumber?_eq_none_iff n).mpr h]

theorem regWrite_of_readOnly (h : n ∈ [0x01, 0x02, 0x11, 0x14, 0x15, 0x17]) : regWrite n v s = .next s := by
  simp only [List.mem_cons, List.not_mem_nil, or_false] at h
  rcases h with rfl | rfl | rfl | rfl | rfl | rfl <;> rfl

theorem regRead_of_writeOnly (h : n ∈ [0x00, 0x12]) : regRead n s = 0 := by
  simp only [List.mem_cons, List.not_mem_nil, or_false] at h
  rcases h with rfl | rfl <;> rfl

/-- What is read by number is settled by what is read by name. -/
theorem regRead_congr {s t : State} {n : Nat} (h : ∀ r : RegName, n = r.number → regRead r.number t = regRead r.number s) :
    regRead n t = regRead n s := by
  cases hr : RegName.ofNumber? n with
  | none =>
    have hres := (RegName.ofNumber?_eq_none_iff n).mp hr
    rw [regRead_of_reserved t n hres, regRead_of_reserved s n hres]
  | some r =>
    have hn := RegName.eq_number_of_ofNumber? hr
    rw [hn]
    exact h r hn

/-- `t` is the state after a write of `v` to the register `r` of width `w`: the register reads what is written, and
nothing else changes but what `ODATA` shows after a write of `OIDX` (10_state R38). -/
structure State.HoldsWritten (r : RegName) (w v : Nat) (s t : State) : Prop where
  held : regRead r.number t = v % 2 ^ w
  others : ∀ m : RegName, m ≠ r → ¬(r = .oidx ∧ m = .odata) → regRead m.number t = regRead m.number s
  rest : t.ibuf = s.ibuf ∧ t.obuf = s.obuf ∧ t.fault = s.fault ∧ t.bufCap = s.bufCap ∧ t.draws = s.draws ∧
    t.program = s.program ∧ t.pc = s.pc ∧ t.observed = s.observed

theorem regWrite_holdsWritten {r : RegName} {w : Nat} (hw : (r.number, w) ∈ plainRegisters)
    (hv : 5 ≤ r.number ∧ r.number ≤ 11 → finitePattern v = true) :
    ∃ t, regWrite r.number v s = .next t ∧ s.HoldsWritten r w v t := by
  cases r with
  | cmd | status | finfo | itype | ilen | idata | otype | olen | odata => simp [plainRegisters, RegName.number] at hw
  | dlen =>
    obtain rfl : w = 32 := by simpa [plainRegisters, RegName.number] using hw
    refine ⟨_, rfl, rfl, fun m hm _ => ?_, ⟨rfl, rfl, rfl, rfl, rfl, rfl, rfl, rfl⟩⟩
    cases m <;> first | rfl | exact absurd rfl hm
  | scheme | sampleCount | maxFrameSize | errPermille | oidx =>
    simp [plainRegisters, RegName.number] at hw
    subst hw
    refine ⟨_, rfl, BitVec.toNat_ofNat _ _, fun m hm ho => ?_, ⟨rfl, rfl, rfl, rfl, rfl, rfl, rfl, rfl⟩⟩
    cases m <;> first | rfl | exact absurd rfl hm | exact absurd ⟨rfl, rfl⟩ ho
  | amplitude | frequency | phase | ampZero | ampOne | freqZero | freqOne =>
    simp [plainRegisters, RegName.number] at hw
    subst hw
    obtain ⟨x, hx⟩ := Finite64.isSome_of_finitePattern (hv (by decide))
    refine ⟨_, writeSample_of_finite hx _, Finite64.toNat_of_ofNat? hx, fun m hm _ => ?_,
      ⟨rfl, rfl, rfl, rfl, rfl, rfl, rfl, rfl⟩⟩
    cases m <;> first | rfl | exact absurd rfl hm

theorem exists_name_of_mem_plainRegisters {n w : Nat} (h : (n, w) ∈ plainRegisters) : ∃ r : RegName, n = r.number := by
  cases hr : RegName.ofNumber? n with
  | some r => exact ⟨r, RegName.eq_number_of_ofNumber? hr⟩
  | none =>
    have hplain : ∀ p ∈ plainRegisters, RegName.ofNumber? p.1 ≠ none := by decide
    exact absurd hr (hplain _ h)

end Map

/-- Settles O11: register by register of the table. -/
theorem registersHoldWhatIsWritten : Obligations.RegistersHoldWhatIsWritten := by
  unfold Obligations.RegistersHoldWhatIsWritten
  refine fun s n v => ⟨fun w hw hv => ?_, ?_, ?_, rfl, rfl, rfl, fun hv => ?_, rfl, rfl, rfl, rfl, rfl, rfl, rfl, rfl, rfl,
    rfl, rfl, rfl, rfl, rfl, rfl, rfl⟩
  · obtain ⟨r, rfl⟩ := exists_name_of_mem_plainRegisters hw
    obtain ⟨t, ht, held, others, rest⟩ := regWrite_holdsWritten s v hw hv
    refine ⟨t, ht, held, fun m hm ho => regRead_congr fun r' hr' => others r' ?_ ?_, rest⟩
    · rintro rfl
      exact hm hr'
    · rintro ⟨rfl, rfl⟩
      exact ho ⟨rfl, hr'⟩
  · exact fun h => h.elim (regWrite_of_reserved s n v) (regWrite_of_readOnly s n v)
  · exact fun h => h.elim (regRead_of_reserved s n) (regRead_of_writeOnly s n)
  · obtain ⟨x, hx⟩ := Finite64.isSome_of_finitePattern hv
    have hwrite (k : Finite64 → State) : writeSample v k = .next (k x) := writeSample_of_finite hx k
    exact ⟨x, Finite64.toNat_of_ofNat? hx, hwrite _, hwrite _, hwrite _, hwrite _, hwrite _, hwrite _, hwrite _⟩

theorem Buffer.tag_emptyOfTag (v : Nat) : (Buffer.emptyOfTag v).tag = if v % 8 ≤ 5 then v % 8 else 0 := by
  have hlt : v % 8 < 8 := Nat.mod_lt _ (by decide)
  unfold Buffer.emptyOfTag
  generalize v % 8 = m at *
  interval_cases m <;> rfl

section Ports

variable {s : State} {v : Nat}

/-- With room, a write of `IDATA` to a buffer that is known appends to it. -/
theorem regWrite_idata_append {b b' : Buffer} (hroom : s.Room (s.ibuf.len + 1)) (hb : s.ibuf = b) (hne : b ≠ .none)
    (h : b.append? v = some b') : regWrite 0x12 v s = .next { s with ibuf := b' } :=
  writeIdata_of_append (hb ▸ hne) hroom (hb ▸ h)

/-- At a full IBUF a write of `IDATA` is a fault, or nothing where a fault stands (60_exceptions R312). -/
theorem regWrite_idata_full (hne : s.ibuf ≠ .none) (hfull : s.bufCap = some s.ibuf.len) :
    regWrite 0x12 v s = unlessFaulted s (s.afterFault .capacityError s.ibuf.len) := by
  change writeIdata s v = _
  rcases writeIdata_cases s v with ⟨hnone, -⟩ | ⟨c, -, hcap, -, hw⟩ | ⟨-, hroom, -⟩
  · exact absurd hnone hne
  · cases hcap.symm.trans hfull
    exact hw
  · exact absurd (hroom _ hfull) (by omega)

theorem regRead_odata (s : State) : regRead 0x17 s = s.obuf.elementAt s.oidx.toNat := rfl

theorem Buffer.elementAt_past_end (b : Buffer) {i : Nat} (h : b.len ≤ i) : b.elementAt i = 0 := by
  cases b with
  | none => rfl
  | char d | bit d | byte d | sym d | sample d =>
    have hnone : d[i]? = Option.none := List.getElem?_eq_none h
    simp [Buffer.elementAt, hnone]

end Ports

/-- Settles O12: port by port. -/
theorem bufferPorts : Obligations.BufferPorts := by
  unfold Obligations.BufferPorts
  refine fun s v => ⟨⟨_, rfl, Buffer.len_emptyOfTag v, Buffer.tag_emptyOfTag v⟩, rfl, rfl, rfl, rfl, fun hb => ?_,
    fun hroom => ⟨fun d hb => ?_, fun d hb => ?_, fun d hb => ?_, fun d hb => ?_, fun d hb hv => ?_⟩,
    fun hne hfull => ⟨fun hready => ?_, fun hf => ?_⟩, rfl, rfl, s.obuf.elementAt_past_end, fun d e hb he => ?_,
    fun d e hb he => ?_, fun d e hb he => ?_, fun d e hb he => ?_, fun d e hb he => ?_⟩
  · change writeIdata s v = _
    rw [writeIdata, hb]
  · exact regWrite_idata_append hroom hb nofun rfl
  · exact regWrite_idata_append hroom hb nofun (by rw [← Nat.testBit_zero]; rfl)
  · exact regWrite_idata_append hroom hb nofun rfl
  · exact regWrite_idata_append hroom hb nofun rfl
  · obtain ⟨x, hx⟩ := Finite64.isSome_of_finitePattern hv
    exact ⟨x, Finite64.toNat_of_ofNat? hx, regWrite_idata_append hroom hb nofun (by simp [Buffer.append?, hx])⟩
  · rw [regWrite_idata_full hne hfull, unlessFaulted_of_ready hready]
  · rw [regWrite_idata_full hne hfull, unlessFaulted_of_fault hf]
  all_goals rw [regRead_odata, hb, Buffer.elementAt, he]
  · rfl
  · cases e <;> rfl
  · rfl
  · rfl
  · rfl

end Sys2Proof.Machine

/-! ### binary64 patterns and the bus (O13) -/

namespace Sys2Proof

/-- The power of two that the last place of a pattern stands for. -/
def Finite64.lastPlace (x : Finite64) : ℤ := max (x.expo.val : ℤ) 1 - 1075

theorem Finite64.significand_lt (x : Finite64) : x.significand < 2 ^ 53 := by
  have := x.frac.isLt
  unfold Finite64.significand
  split <;> omega

theorem Finite64.lastPlace_bounds (x : Finite64) : -1074 ≤ x.lastPlace ∧ x.lastPlace ≤ 971 := by
  have := x.expo.isLt
  unfold Finite64.lastPlace
  omega

/-- The value of a pattern as sign, significand and power of two (10_state R44). -/
theorem Finite64.toRat_eq (x : Finite64) :
    x.toRat = (if x.neg then -1 else 1) * (x.significand : ℚ) * 2 ^ x.lastPlace := by
  have hsign : (((if x.neg then -(x.significand : Int) else x.significand) : Int) : ℚ) =
      (if x.neg then -1 else 1) * (x.significand : ℚ) := by
    split <;> simp
  have hmax : (max x.expo.val 1 : ℕ) = max (x.expo.val : ℤ) 1 := by push_cast; rfl
  unfold Finite64.toRat Finite64.lastPlace
  dsimp only
  rw [← hmax, ← hsign]
  generalize max x.expo.val 1 = e
  generalize (if x.neg then -(x.significand : Int) else x.significand) = n
  split
  · rename_i h
    rw [show (e : ℤ) - 1075 = ((e - 1075 : ℕ) : ℤ) by omega, zpow_natCast]
    push_cast
    rfl
  · rename_i h
    rw [show (e : ℤ) - 1075 = -((1075 - e : ℕ) : ℤ) by omega, zpow_neg, zpow_natCast, Rat.mkRat_eq_div]
    push_cast
    rw [div_eq_mul_inv]

theorem Finite64.zero_toRat : Finite64.zero.toRat = 0 := by
  simp [Finite64.toRat_eq, Finite64.significand, Finite64.zero]

/-- A number that times `2^n` is an integer has a power of two as its denominator. -/
theorem exists_den_eq_two_pow {q : ℚ} {n : ℕ} {a : ℤ} (h : q * 2 ^ n = a) : ∃ k ≤ n, q.den = 2 ^ k := by
  rw [← Nat.dvd_prime_pow Nat.prime_two]
  have hq : q = (a : ℚ) / ((2 ^ n : ℤ) : ℚ) := by
    rw [eq_div_iff (by positivity), ← h]
    push_cast
    rfl
  rw [hq]
  exact_mod_cast Rat.den_dvd a (2 ^ n)

theorem Finite64.exists_den_toRat (x : Finite64) : ∃ k ≤ 1074, x.toRat.den = 2 ^ k := by
  have hplace := x.lastPlace_bounds.1
  obtain ⟨m, hm⟩ : ∃ m : ℕ, x.lastPlace + (1074 : ℕ) = m := Int.eq_ofNat_of_zero_le (by omega)
  refine exists_den_eq_two_pow (a := (if x.neg then -1 else 1) * x.significand * 2 ^ m) ?_
  rw [Finite64.toRat_eq, mul_assoc, ← zpow_natCast, ← zpow_add₀ two_ne_zero, hm, zpow_natCast]
  push_cast
  rfl

/-- The numerator of a binary64 number over `2^k`, by the fields of the pattern. -/
theorem Finite64.natAbs_num_toRat {x : Finite64} {k : ℕ} (hden : x.toRat.den = 2 ^ k) :
    (x.toRat.num.natAbs : ℚ) = x.significand * 2 ^ (x.lastPlace + k) := by
  have hnum : (x.toRat.num : ℚ) = x.toRat * 2 ^ k := by
    have h := Rat.mul_den_eq_num x.toRat
    rw [hden] at h
    rw [← h]
    push_cast
    rfl
  rw [Nat.cast_natAbs, Int.cast_abs, hnum, Finite64.toRat_eq, abs_mul, abs_mul, abs_mul, zpow_add₀ two_ne_zero]
  have hsign : |(if x.neg then -1 else 1 : ℚ)| = 1 := by split <;> simp
  rw [hsign, one_mul, Nat.abs_cast, abs_of_pos (by positivity), abs_of_pos (by positivity), zpow_natCast, mul_assoc]

/-- The leading place of a binary64 number is at most 52 above its last place. -/
theorem Finite64.log2_num_toRat {x : Finite64} {k : ℕ} (hden : x.toRat.den = 2 ^ k) (hne : x.toRat ≠ 0) :
    (x.toRat.num.natAbs.log2 : ℤ) ≤ 52 + (x.lastPlace + k) := by
  have hnum : x.toRat.num.natAbs ≠ 0 := Int.natAbs_ne_zero.mpr (Rat.num_ne_zero.mpr hne)
  have hlow : (2 : ℚ) ^ x.toRat.num.natAbs.log2 ≤ x.toRat.num.natAbs := by exact_mod_cast Nat.log2_self_le hnum
  have hsig : (x.significand : ℚ) < 2 ^ (53 : ℤ) := by exact_mod_cast x.significand_lt
  have hlt : (2 : ℚ) ^ (x.toRat.num.natAbs.log2 : ℤ) < 2 ^ (53 + (x.lastPlace + k)) := by
    calc (2 : ℚ) ^ (x.toRat.num.natAbs.log2 : ℤ) ≤ x.toRat.num.natAbs := by rwa [zpow_natCast]
      _ = x.significand * 2 ^ (x.lastPlace + k) := Finite64.natAbs_num_toRat hden
      _ < 2 ^ (53 : ℤ) * 2 ^ (x.lastPlace + k) := mul_lt_mul_of_pos_right hsig (by positivity)
      _ = 2 ^ (53 + (x.lastPlace + k)) := (zpow_add₀ two_ne_zero _ _).symm
  have := (zpow_lt_zpow_iff_right₀ one_lt_two).mp hlt
  omega

/-- A numerator above 2^53 has zeros below its 53 leading places. -/
theorem Finite64.two_pow_dvd_num_toRat {x : Finite64} {k : ℕ} (hden : x.toRat.den = 2 ^ k) (hne : x.toRat ≠ 0)
    (h : 52 < x.toRat.num.natAbs.log2) : 2 ^ (x.toRat.num.natAbs.log2 - 52) ∣ x.toRat.num.natAbs := by
  have hlog := Finite64.log2_num_toRat hden hne
  obtain ⟨m, hm⟩ : ∃ m : ℕ, x.lastPlace + k = m := Int.eq_ofNat_of_zero_le (by omega)
  have hnum : x.toRat.num.natAbs = x.significand * 2 ^ m := by
    have := Finite64.natAbs_num_toRat hden
    rw [hm, zpow_natCast] at this
    exact_mod_cast this
  exact (Nat.pow_dvd_pow 2 (by omega)).trans (hnum ▸ Dvd.intro_left _ rfl)

/-! #### the pattern that `candidate` builds -/

/-- A number below the normal range keeps its last place, 2^-1074. -/
theorem Finite64.candidate_toRat_of_subnormal {neg : Bool} {num k : ℕ} (hk : k ≤ 1074) (h : num.log2 + 1022 < k) :
    (Finite64.candidate neg num (2 ^ k)).toRat = (if neg then -1 else 1) * (num : ℚ) * 2 ^ (-(k : ℤ)) := by
  have hfrac : num * 2 ^ (1074 - k) < 2 ^ 52 := by
    calc num * 2 ^ (1074 - k) < 2 ^ (num.log2 + 1) * 2 ^ (1074 - k) :=
          Nat.mul_lt_mul_of_pos_right Nat.lt_log2_self (by positivity)
      _ = 2 ^ (num.log2 + 1 + (1074 - k)) := (pow_add _ _ _).symm
      _ ≤ 2 ^ 52 := Nat.pow_le_pow_right (by decide) (by omega)
  have hc : Finite64.candidate neg num (2 ^ k) = ⟨neg, 0, BitVec.ofNat 52 (num * 2 ^ (1074 - k))⟩ := by
    simp only [Finite64.candidate, Nat.log2_two_pow, if_pos h]
  have hplace : (2 : ℚ) ^ (1074 - k) * 2 ^ (-1074 : ℤ) = 2 ^ (-(k : ℤ)) := by
    rw [← zpow_natCast, ← zpow_add₀ two_ne_zero]
    congr 1
    omega
  rw [hc, Finite64.toRat_eq]
  simp only [Finite64.significand, Finite64.lastPlace, BitVec.toNat_ofNat, Nat.mod_eq_of_lt hfrac]
  simp [mul_assoc, ← hplace]

/-- The 53 leading places of a number. -/
def leadingPlaces (num : ℕ) : ℕ := if num.log2 ≤ 52 then num * 2 ^ (52 - num.log2) else num / 2 ^ (num.log2 - 52)

theorem leadingPlaces_bounds {num : ℕ} (hne : num ≠ 0) : 2 ^ 52 ≤ leadingPlaces num ∧ leadingPlaces num < 2 ^ 53 := by
  have hlow := Nat.log2_self_le hne
  have hhigh : num < 2 ^ (num.log2 + 1) := Nat.lt_log2_self
  unfold leadingPlaces
  generalize num.log2 = l at *
  split
  · have h52 : 2 ^ 52 = 2 ^ l * 2 ^ (52 - l) := by rw [← pow_add]; congr 1; omega
    have h53 : 2 ^ 53 = 2 ^ (l + 1) * 2 ^ (52 - l) := by rw [← pow_add]; congr 1; omega
    rw [h52, h53]
    exact ⟨Nat.mul_le_mul_right _ hlow, Nat.mul_lt_mul_of_pos_right hhigh (by positivity)⟩
  · have hl : 2 ^ l = 2 ^ 52 * 2 ^ (l - 52) := by rw [← pow_add]; congr 1; omega
    have hl' : 2 ^ (l + 1) = 2 ^ 53 * 2 ^ (l - 52) := by rw [← pow_add]; congr 1; omega
    exact ⟨(Nat.le_div_iff_mul_le (by positivity)).mpr (hl ▸ hlow),
      (Nat.div_lt_iff_lt_mul (by positivity)).mpr (hl' ▸ hhigh)⟩

theorem leadingPlaces_cast {num : ℕ} (hdvd : 52 < num.log2 → 2 ^ (num.log2 - 52) ∣ num) :
    (leadingPlaces num : ℚ) = num * 2 ^ (52 - (num.log2 : ℤ)) := by
  unfold leadingPlaces
  split
  · rename_i h
    rw [show 52 - (num.log2 : ℤ) = ((52 - num.log2 : ℕ) : ℤ) by omega, zpow_natCast]
    push_cast
    rfl
  · rename_i h
    rw [Nat.cast_div (hdvd (by omega)) (by positivity),
      show 52 - (num.log2 : ℤ) = -((num.log2 - 52 : ℕ) : ℤ) by omega, zpow_neg, zpow_natCast, div_eq_mul_inv]
    push_cast
    rfl

/-- In the normal range the pattern holds the 53 leading places, the first of them hidden. -/
theorem Finite64.candidate_toRat_of_normal {neg : Bool} {num k : ℕ} (hne : num ≠ 0) (hlow : k ≤ num.log2 + 1022)
    (hhigh : num.log2 < k + 1024) (hdvd : 52 < num.log2 → 2 ^ (num.log2 - 52) ∣ num) :
    (Finite64.candidate neg num (2 ^ k)).toRat = (if neg then -1 else 1) * (num : ℚ) * 2 ^ (-(k : ℤ)) := by
  have hc : Finite64.candidate neg num (2 ^ k) =
      ⟨neg, Fin.ofNat 2047 (num.log2 + 1023 - k), BitVec.ofNat 52 (leadingPlaces num)⟩ := by
    simp only [Finite64.candidate, Nat.log2_two_pow, if_neg (Nat.not_lt.mpr hlow), leadingPlaces]
  have hexpo : (Fin.ofNat 2047 (num.log2 + 1023 - k)).val = num.log2 + 1023 - k := Nat.mod_eq_of_lt (by omega)
  have hsig : (Finite64.candidate neg num (2 ^ k)).significand = leadingPlaces num := by
    have := leadingPlaces_bounds hne
    rw [hc, Finite64.significand, hexpo, if_neg (by omega), BitVec.toNat_ofNat]
    omega
  have hplace : (Finite64.candidate neg num (2 ^ k)).lastPlace = num.log2 - 52 - k := by
    rw [hc, Finite64.lastPlace, hexpo]
    omega
  rw [Finite64.toRat_eq, hsig, hplace, leadingPlaces_cast hdvd, hc, mul_assoc, mul_assoc _ (num : ℚ), mul_assoc (num : ℚ),
    ← zpow_add₀ two_ne_zero]
  congr 3
  ring

/-- Every binary64 number is found again from its numerator and denominator. -/
theorem Finite64.candidate_toRat (x : Finite64) (hne : x.toRat ≠ 0) :
    (Finite64.candidate (x.toRat.num < 0) x.toRat.num.natAbs x.toRat.den).toRat = x.toRat := by
  obtain ⟨k, hk, hden⟩ := x.exists_den_toRat
  have hnum : x.toRat.num.natAbs ≠ 0 := Int.natAbs_ne_zero.mpr (Rat.num_ne_zero.mpr hne)
  have hcandidate : (Finite64.candidate (x.toRat.num < 0) x.toRat.num.natAbs (2 ^ k)).toRat =
      (if decide (x.toRat.num < 0) then -1 else 1) * (x.toRat.num.natAbs : ℚ) * 2 ^ (-(k : ℤ)) := by
    have hlog := Finite64.log2_num_toRat hden hne
    have hplace := x.lastPlace_bounds.2
    rcases Nat.lt_or_ge (x.toRat.num.natAbs.log2 + 1022) k with hsub | hnormal
    · exact Finite64.candidate_toRat_of_subnormal hk hsub
    · exact Finite64.candidate_toRat_of_normal hnum hnormal (by omega) (Finite64.two_pow_dvd_num_toRat hden hne)
  have hsign : (if decide (x.toRat.num < 0) then -1 else 1) * (x.toRat.num.natAbs : ℚ) = x.toRat.num := by
    rw [Nat.cast_natAbs, Int.cast_abs]
    have hiff : (x.toRat.num : ℚ) < 0 ↔ x.toRat.num < 0 := Int.cast_lt_zero
    split <;> rename_i h <;> simp only [decide_eq_true_eq] at h
    · rw [abs_of_neg (hiff.mpr h)]; ring
    · rw [abs_of_nonneg (not_lt.mp (mt hiff.mp h))]; ring
  conv_rhs => rw [← Rat.num_div_den x.toRat]
  rw [hden, hcandidate, hsign, zpow_neg, zpow_natCast, div_eq_mul_inv]
  push_cast
  rfl

/-- The pattern of a binary64 number is found, with the same value (log 11 for the zeros). -/
theorem Finite64.exists_ofRat?_toRat (x : Finite64) : ∃ p, Finite64.ofRat? x.toRat = some p ∧ p.toRat = x.toRat := by
  by_cases h : x.toRat = 0
  · exact ⟨Finite64.zero, by rw [Finite64.ofRat?, if_pos h], Finite64.zero_toRat.trans h.symm⟩
  · have hc := x.candidate_toRat h
    exact ⟨_, by rw [Finite64.ofRat?, if_neg h]; exact if_pos hc, hc⟩

/-- A rational sample is seen to be its number. -/
theorem Sample.rat?_ofRat (q : ℚ) : (Sample.ofRat q).rat? = some q := by
  have hfloor : ((1 / 4 : ℚ)).floor = 0 := by decide +kernel
  have hfold : Tone.fold ⟨q, 1 / 4, 0⟩ = ⟨q, 1 / 4, 0⟩ := by
    simp only [Tone.fold, Tone.foldHalf, hfloor]
    norm_num
  have htones : (Sample.ofRat q).tones = Tone.insert ⟨q, 1 / 4, 0⟩ [] := by
    change Tone.insert (Tone.fold ⟨q, 1 / 4, 0⟩) [] = _
    rw [hfold]
  rw [Sample.rat?, htones, Tone.insert]
  by_cases hq : q = 0
  · simp [hq]
  · simp [hq, Tone.isRational]

/-- Settles O13: the sample is seen to be a binary64 number, whose pattern is found from its numerator and denominator. -/
theorem busShowsBinary64Exactly : Obligations.BusShowsBinary64Exactly := by
  unfold Obligations.BusShowsBinary64Exactly
  intro x
  obtain ⟨p, hp, hvalue⟩ := x.exists_ofRat?_toRat
  rw [Sample.onBus, Sample.ofFinite64, Sample.rat?_ofRat]
  dsimp only
  rw [hp]
  exact hvalue

end Sys2Proof

/-! ### the configuration that an operation does not read (O21) -/

namespace Sys2Proof.Machine

/-! #### reports that differ at most in the information word of `UnsupportedScheme` -/

/-- Two reports set the same flags and have the same result, or both raise `UnsupportedScheme`, whose information word is
the whole `SCHEME` register (60_exceptions R300). -/
def Report.Agree {α : Type} (r r' : Report α) : Prop :=
  r.flags = r'.flags ∧ (r.result = r'.result ∨
    ∃ n n', r.result = .error ⟨.unsupportedScheme, n⟩ ∧ r'.result = .error ⟨.unsupportedScheme, n'⟩)

section Agree

variable {α β : Type}

theorem Report.agree_refl (r : Report α) : r.Agree r := ⟨rfl, .inl rfl⟩

theorem Report.agree_of_congr {stage stage' : α → Report β} (h : stage = stage') (a : α) : (stage a).Agree (stage' a) :=
  h ▸ Report.agree_refl _

theorem Report.agree_unsupportedScheme (n n' : Nat) :
    (Report.fail (α := α) Flags.clear .unsupportedScheme n).Agree (Report.fail Flags.clear .unsupportedScheme n') :=
  ⟨rfl, .inr ⟨n, n', rfl, rfl⟩⟩

theorem Report.Agree.check {k k' : Report α} (h : k.Agree k') (bad : Bool) (kind : FaultKind) (info : Nat) :
    (Report.check bad kind info k).Agree (Report.check bad kind info k') := by
  cases bad with
  | false => exact h
  | true => exact Report.agree_refl _

theorem Report.Agree.bind {r r' : Report α} {k k' : α → Report β} (h : r.Agree r') (hk : ∀ a, (k a).Agree (k' a)) :
    (r.bind k).Agree (r'.bind k') := by
  obtain ⟨f, res⟩ := r
  obtain ⟨f', res'⟩ := r'
  obtain ⟨rfl, rfl | ⟨n, n', rfl, rfl⟩⟩ := h
  · cases res with
    | error e => exact Report.agree_refl _
    | ok a => exact ⟨congrArg f.or (hk a).1, (hk a).2⟩
  · exact ⟨rfl, .inr ⟨n, n', rfl, rfl⟩⟩

theorem Report.Agree.fit {r r' : Report (List α)} (h : r.Agree r') (cap : Option Nat) : (r.fit cap).Agree (r'.fit cap) :=
  h.bind fun _ => Report.agree_refl _

end Agree

/-! #### two runs of one operation -/

/-- The message is the same in both states: fault, flags, `FINFO`, the buffers and their capacity, the counter of draws. -/
structure State.SameMessage (s t : State) : Prop where
  fault : s.fault = t.fault
  flags : s.flags = t.flags
  finfo : s.finfo = t.finfo
  ibuf : s.ibuf = t.ibuf
  obuf : s.obuf = t.obuf
  bufCap : s.bufCap = t.bufCap
  draws : s.draws = t.draws

/-- What two runs of the operation `i`, the first from `s`, have in common at their ends `s'` and `t'`. -/
structure State.SameResult (i : Instr) (s s' t' : State) : Prop where
  fault : s'.fault = t'.fault
  flags : s'.flags = t'.flags
  obuf : s'.obuf = t'.obuf
  finfo : s'.fault ≠ some .unsupportedScheme → s'.finfo = t'.finfo
  dlen : writesDlen i = true → s.fault = none → s'.fault = none → s'.dlen = t'.dlen

section TwoRuns

variable {α β : Type} {i : Instr} {s t s' t' : State} {take : Buffer → Option α} {stage stage' : α → Report β}
  {finish : State → β → State}

theorem State.SameMessage.failed (h : s.SameMessage t) (f : Flags) (kind : FaultKind) {n n' : Nat}
    (hn : kind ≠ .unsupportedScheme → n = n') :
    State.SameResult i s ((s.setFlags f).afterFault kind n) ((t.setFlags f).afterFault kind n') where
  fault := rfl
  flags := congrArg (Flags.or · f) h.flags
  obuf := rfl
  finfo := fun hk => congrArg (BitVec.ofNat 32) (hn fun hkind => hk (congrArg some hkind))
  dlen := nofun

/-- Two runs of a transform end alike, if their stages agree and what they deliver is alike. -/
theorem transform_sameResult (h : s.SameMessage t) (hstage : ∀ a, (stage a).Agree (stage' a))
    (hfinish : ∀ f b, State.SameResult i s (finish (s.setFlags f) b) (finish (t.setFlags f) b))
    (hs : transform s take stage finish = .next s') (ht : transform t take stage' finish = .next t') :
    State.SameResult i s s' t' := by
  by_cases hready : s.fault = none
  · have hready' : t.fault = none := h.fault ▸ hready
    cases htake : take s.ibuf with
    | none =>
      cases (transform_of_type hready htake).symm.trans hs
      cases (transform_of_type hready' (h.ibuf ▸ htake)).symm.trans ht
      rw [← h.ibuf]
      have hfailed := h.failed (i := i) Flags.clear .operandTypeError (n := s.ibuf.tag) fun _ => rfl
      rwa [State.setFlags_clear, State.setFlags_clear] at hfailed
    | some a =>
      have htake' : take t.ibuf = some a := h.ibuf ▸ htake
      have hagree := hstage a
      cases hr : stage a with | mk f res =>
      cases hr' : stage' a with | mk f' res' =>
      rw [hr, hr'] at hagree
      obtain ⟨rfl, rfl | ⟨n, n', rfl, rfl⟩⟩ := hagree
      · cases res with
        | error e =>
          cases (transform_of_error hready htake hr).symm.trans hs
          cases (transform_of_error hready' htake' hr').symm.trans ht
          exact h.failed f e.kind fun _ => rfl
        | ok b =>
          cases (transform_of_done hready htake hr).symm.trans hs
          cases (transform_of_done hready' htake' hr').symm.trans ht
          exact hfinish f b
      · cases (transform_of_error hready htake hr).symm.trans hs
        cases (transform_of_error hready' htake' hr').symm.trans ht
        exact h.failed f .unsupportedScheme fun hk => absurd rfl hk
  · cases (transform_of_fault hready).symm.trans hs
    cases (transform_of_fault (h.fault ▸ hready)).symm.trans ht
    exact ⟨h.fault, h.flags, h.obuf, fun _ => h.finfo, fun _ hn => absurd hn hready⟩

theorem transform_setObuf_sameResult {mk : β → Buffer} (hd : writesDlen i = false) (h : s.SameMessage t)
    (hstage : ∀ a, (stage a).Agree (stage' a)) (hs : transform s take stage (fun u b => u.setObuf (mk b)) = .next s')
    (ht : transform t take stage' (fun u b => u.setObuf (mk b)) = .next t') : State.SameResult i s s' t' :=
  transform_sameResult h hstage (fun f _ =>
    ⟨h.fault, congrArg (Flags.or · f) h.flags, rfl, fun _ => h.finfo, fun hw => nomatch hd.symm.trans hw⟩) hs ht

theorem transform_finishEncode_sameResult {stage stage' : α → Report (List Sym)} (h : s.SameMessage t)
    (hstage : ∀ a, (stage a).Agree (stage' a)) (hs : transform s take stage State.finishEncode = .next s')
    (ht : transform t take stage' State.finishEncode = .next t') : State.SameResult i s s' t' :=
  transform_sameResult h hstage (fun f _ =>
    ⟨h.fault, congrArg (Flags.or · f) h.flags, rfl, fun _ => h.finfo, fun _ _ _ => rfl⟩) hs ht

end TwoRuns

/-! #### stages that read little or no configuration -/

section Stages

variable {s t : State}

theorem ecEncodeStage_congr (hcap : s.bufCap = t.bufCap) (ec : ErrorControl) :
    ecEncodeStage s ec = ecEncodeStage t ec := by
  funext y
  cases ec <;> simp only [ecEncodeStage, ecNoneEncStage, ecParEncStage, ecCrcEncStage, ecHamEncStage, hcap]

theorem ecCheckStage_congr (hcap : s.bufCap = t.bufCap) (ec : ErrorControl) : ecCheckStage s ec = ecCheckStage t ec := by
  funext b
  cases ec <;> simp only [ecCheckStage, ecNoneChkStage, ecParChkStage, ecCrcChkStage, ecHamDecStage, hcap]

theorem frameStage_congr (hcap : s.bufCap = t.bufCap) (hmax : s.maxFrameSize = t.maxFrameSize) (fm : FramingMethod) :
    frameStage s fm = frameStage t fm := by
  funext p
  cases fm <;> simp only [frameStage, frCcFStage, frBsFStage, withFrameSize, hcap, hmax]

theorem deframeStage_congr (hcap : s.bufCap = t.bufCap) (fm : FramingMethod) :
    deframeStage s fm = deframeStage t fm := by
  funext b
  cases fm <;> simp only [deframeStage, frCcDStage, frBsDStage, hcap]

theorem lineEncodeStage_congr (hcap : s.bufCap = t.bufCap) (lc : LineCode) :
    lineEncodeStage s lc = lineEncodeStage t lc := by
  funext b
  cases lc <;> simp only [lineEncodeStage, lcNrzEncStage, lcManEncStage, lcBipEncStage, hcap]

theorem lineDecodeStage_congr (hcap : s.bufCap = t.bufCap) (lc : LineCode) :
    lineDecodeStage s lc = lineDecodeStage t lc := by
  funext d
  cases lc <;> simp only [lineDecodeStage, lcNrzDecStage, lcManDecStage, lcBipDecStage, hcap]

theorem t2bStage_congr (hcap : s.bufCap = t.bufCap) : t2bStage s = t2bStage t := by funext l; simp only [t2bStage, hcap]

theorem b2yStage_congr (hcap : s.bufCap = t.bufCap) : b2yStage s = b2yStage t := by funext l; simp only [b2yStage, hcap]

theorem y2sStage_congr (hcap : s.bufCap = t.bufCap) : y2sStage s = y2sStage t := by funext l; simp only [y2sStage, hcap]

theorem s2yStage_congr (hcap : s.bufCap = t.bufCap) : s2yStage s = s2yStage t := by funext l; simp only [s2yStage, hcap]

theorem y2tStage_congr (hcap : s.bufCap = t.bufCap) : y2tStage s = y2tStage t := by funext l; simp only [y2tStage, hcap]

theorem biterrStage_congr (hcap : s.bufCap = t.bufCap) (hdraws : s.draws = t.draws) (herr : s.errPermille = t.errPermille) :
    biterrStage s = biterrStage t := by
  funext b
  simp only [biterrStage, flipBit, hcap, hdraws, herr]

/-! #### the carrier modem -/

theorem lineCode?_congr (h : s.lineCode = t.lineCode) : lineCode? s.scheme = lineCode? t.scheme := by
  have hfield (u : State) : (u.scheme.extractLsb' 0 2).toNat = u.lineCode := by simp [State.lineCode]
  rw [lineCode?, lineCode?, hfield, hfield, h]

theorem carrier_of_carrier? {cs : CarrierScheme} (h : carrier? s.scheme = some cs) :
    s.carrier = CarrierScheme.number cs := by
  have hfield : (s.scheme.extractLsb' 2 2).toNat = s.carrier := by
    simp [State.carrier, Nat.shiftRight_eq_div_pow]
  rw [carrier?, hfield] at h
  split at h <;> cases h <;> assumption

theorem carrierChecks_agree {α : Type} {k k' : LineCode → Report α} (hlc : s.lineCode = t.lineCode)
    (hsc : s.sampleCount = t.sampleCount) (hk : ∀ lc, (k lc).Agree (k' lc)) :
    (carrierChecks s k).Agree (carrierChecks t k') := by
  rw [carrierChecks, carrierChecks, lineCode?_congr hlc, hsc]
  cases lineCode? t.scheme with
  | none => exact Report.agree_unsupportedScheme _ _
  | some lc => exact (hk lc).check _ _ _

theorem demodChecks_agree {α : Type} {k k' : LineCode → List (List Sample) → Report α} (hlc : s.lineCode = t.lineCode)
    (hsc : s.sampleCount = t.sampleCount) (a : List Sample) (hk : ∀ lc ws, (k lc ws).Agree (k' lc ws)) :
    (demodChecks s a k).Agree (demodChecks t a k') := by
  refine carrierChecks_agree hlc hsc fun lc => ?_
  rw [hsc]
  exact (hk _ _).check _ _ _

theorem sineWindow_congr (hsc : s.sampleCount = t.sampleCount) : sineWindow s = sineWindow t := by
  funext amp f ph
  simp only [sineWindow, carrierTurns, hsc]

theorem qamWindow_congr (hsc : s.sampleCount = t.sampleCount) (hf : s.frequency = t.frequency) :
    qamWindow s = qamWindow t := by
  funext iq
  simp only [qamWindow, carrierTurns, hsc, hf]

theorem qamEstimate_congr (hsc : s.sampleCount = t.sampleCount) (hf : s.frequency = t.frequency) :
    qamEstimate s = qamEstimate t := by
  funext w
  simp only [qamEstimate, correlate, carrierTurns, hsc, hf]

/-- Agreement on what the modulation of a carrier scheme reads (10_state R36). -/
structure State.AgreeMod (cs : CarrierScheme) (s t : State) : Prop where
  bufCap : s.bufCap = t.bufCap
  lineCode : s.lineCode = t.lineCode
  sampleCount : s.sampleCount = t.sampleCount
  amplitude : cs = .fsk → s.amplitude = t.amplitude
  frequency : cs ≠ .fsk → s.frequency = t.frequency
  phase : cs ≠ .qam8 → s.phase = t.phase
  ask : cs = .ask → s.ampZero = t.ampZero ∧ s.ampOne = t.ampOne
  fsk : cs = .fsk → s.freqZero = t.freqZero ∧ s.freqOne = t.freqOne

/-- Agreement on what the demodulation of a carrier scheme reads (10_state R36). -/
structure State.AgreeDem (cs : CarrierScheme) (s t : State) : Prop where
  bufCap : s.bufCap = t.bufCap
  lineCode : s.lineCode = t.lineCode
  sampleCount : s.sampleCount = t.sampleCount
  frequency : cs = .qam8 → s.frequency = t.frequency
  ask : cs = .ask → s.ampZero = t.ampZero ∧ s.ampOne = t.ampOne
  fsk : cs = .fsk → s.freqZero = t.freqZero ∧ s.freqOne = t.freqOne
  dlen : cs = .qam8 → s.dlen = t.dlen

theorem modulateStage_agree {cs : CarrierScheme} (h : s.AgreeMod cs t) (d : List Sym) :
    (modulateStage s cs d).Agree (modulateStage t cs d) := by
  obtain ⟨hcap, hlc, hsc, hamp, hfreq, hphase, hask, hfsk⟩ := h
  cases cs with
  | ask =>
    obtain ⟨h0, h1⟩ := hask rfl
    simp only [modulateStage, cmAskModStage, hcap, sineWindow_congr hsc, hfreq nofun, hphase nofun, h0, h1]
    exact (carrierChecks_agree hlc hsc fun _ => Report.agree_refl _).fit _
  | fsk =>
    obtain ⟨h0, h1⟩ := hfsk rfl
    simp only [modulateStage, cmFskModStage, hcap, sineWindow_congr hsc, hamp rfl, hphase nofun, h0, h1]
    exact (carrierChecks_agree hlc hsc fun _ => Report.agree_refl _).fit _
  | qam8 =>
    simp only [modulateStage, cmQamModStage, hcap, qamWindow_congr hsc (hfreq nofun)]
    exact (carrierChecks_agree hlc hsc fun _ => Report.agree_refl _).fit _

theorem demodulateStage_agree {cs : CarrierScheme} (h : s.AgreeDem cs t) (a : List Sample) :
    (demodulateStage s cs a).Agree (demodulateStage t cs a) := by
  obtain ⟨hcap, hlc, hsc, hfreq, hask, hfsk, hdlen⟩ := h
  cases cs with
  | ask =>
    obtain ⟨h0, h1⟩ := hask rfl
    simp only [demodulateStage, cmAskDemStage, hcap, h0, h1]
    exact (demodChecks_agree hlc hsc a fun _ _ => Report.agree_refl _).fit _
  | fsk =>
    obtain ⟨h0, h1⟩ := hfsk rfl
    simp only [demodulateStage, cmFskDemStage, hcap, h0, h1]
    exact (demodChecks_agree hlc hsc a fun _ _ => Report.agree_refl _).fit _
  | qam8 =>
    simp only [demodulateStage, cmQamDemStage, hcap, qamEstimate_congr hsc (hfreq rfl), hdlen rfl]
    exact (demodChecks_agree hlc hsc a fun _ _ => Report.agree_refl _).fit _

/-- A single stage by its word, or a whole-pipeline operation by the selector, takes part in a carrier scheme. -/
theorem usesCarrier_of {i op whole : Instr} {n : Nat} {singles wholes : List Instr}
    (hi : i = op ∨ (i = whole ∧ s.carrier = n)) (hop : op ∈ singles) (hwhole : whole ∈ wholes) :
    usesCarrier i s n singles wholes := by
  rcases hi with rfl | ⟨rfl, hn⟩
  · exact .inl hop
  · exact .inr ⟨hwhole, hn⟩

/-- The table of 10_state R36 lists what a modulation reads, alone or within `ENCMSG`. -/
theorem State.AgreeFor.agreeMod {i : Instr} {cs : CarrierScheme} (h : State.AgreeFor i s t) (hcap : s.bufCap = t.bufCap)
    (hi : i = modulateOp (CarrierScheme.number cs) ∨ (i = .encmsg ∧ s.carrier = CarrierScheme.number cs)) :
    s.AgreeMod cs t := by
  have hany : isCarrier i = true ∨ isPipeline i = true := by
    rcases hi with rfl | ⟨rfl, -⟩
    · cases cs <;> decide
    · decide
  cases cs with
  | ask =>
    exact ⟨hcap, h.lineCode hany, h.sampleCount hany, nofun,
      fun _ => h.frequency (.inl (usesCarrier_of hi (by decide) (by decide))),
      fun _ => h.phase (.inl (usesCarrier_of hi (by decide) (by decide))),
      fun _ => h.ask (usesCarrier_of hi (by decide) (by decide)), nofun⟩
  | fsk =>
    exact ⟨hcap, h.lineCode hany, h.sampleCount hany,
      fun _ => h.amplitude (usesCarrier_of hi (by decide) (by decide)), fun hne => absurd rfl hne,
      fun _ => h.phase (.inr (usesCarrier_of hi (by decide) (by decide))), nofun,
      fun _ => h.fsk (usesCarrier_of hi (by decide) (by decide))⟩
  | qam8 =>
    exact ⟨hcap, h.lineCode hany, h.sampleCount hany, nofun,
      fun _ => h.frequency (.inr (usesCarrier_of hi (by decide) (by decide))), fun hne => absurd rfl hne, nofun, nofun⟩

/-- The table of 10_state R36 lists what a demodulation reads, alone or within `DECMSG`. -/
theorem State.AgreeFor.agreeDem {i : Instr} {cs : CarrierScheme} (h : State.AgreeFor i s t) (hcap : s.bufCap = t.bufCap)
    (hi : i = demodulateOp (CarrierScheme.number cs) ∨ (i = .decmsg ∧ s.carrier = CarrierScheme.number cs)) :
    s.AgreeDem cs t := by
  have hany : isCarrier i = true ∨ isPipeline i = true := by
    rcases hi with rfl | ⟨rfl, -⟩
    · cases cs <;> decide
    · decide
  cases cs with
  | ask =>
    exact ⟨hcap, h.lineCode hany, h.sampleCount hany, nofun,
      fun _ => h.ask (usesCarrier_of hi (by decide) (by decide)), nofun, nofun⟩
  | fsk =>
    exact ⟨hcap, h.lineCode hany, h.sampleCount hany, nofun, nofun,
      fun _ => h.fsk (usesCarrier_of hi (by decide) (by decide)), nofun⟩
  | qam8 =>
    exact ⟨hcap, h.lineCode hany, h.sampleCount hany,
      fun _ => h.frequency (.inr (usesCarrier_of hi (by decide) (by decide))), nofun, nofun,
      fun _ => h.dlen (usesCarrier_of hi (by decide) (by decide))⟩

/-! #### whole pipeline -/

theorem withSelectors_agree {α : Type} {k k' : LineCode → CarrierScheme → FramingMethod → ErrorControl → Report α}
    (hscheme : s.scheme = t.scheme)
    (hk : ∀ lc cs fm ec, s.carrier = CarrierScheme.number cs → (k lc cs fm ec).Agree (k' lc cs fm ec)) :
    (withSelectors s k).Agree (withSelectors t k') := by
  rw [withSelectors, withSelectors, schemeInfo, schemeInfo, ← hscheme]
  cases lineCode? s.scheme with
  | none => exact Report.agree_refl _
  | some lc =>
    cases hcs : carrier? s.scheme with
    | none => exact Report.agree_refl _
    | some cs =>
      cases framing? s.scheme with
      | none => exact Report.agree_refl _
      | some fm => exact hk lc cs fm _ (carrier_of_carrier? hcs)

theorem encmsgStage_agree (h : State.AgreeFor .encmsg s t) (hcap : s.bufCap = t.bufCap) (l : List CodePoint) :
    (encmsgStage s l).Agree (encmsgStage t l) := by
  have hmax := h.maxFrameSize (.inr (.inr rfl))
  rw [encmsgStage, encmsgStage, hmax, h.sampleCount (.inr rfl)]
  refine withSelectors_agree (h.selectors rfl) fun lc cs fm ec hcs => ((Report.Agree.check ?_ _ _ _).check _ _ _)
  rw [encodeChain, encodeChain, t2bStage_congr hcap, b2yStage_congr hcap, frameStage_congr hcap hmax,
    ecEncodeStage_congr hcap, lineEncodeStage_congr hcap]
  exact (Report.agree_refl _).bind fun _ => (Report.agree_refl _).bind fun _ => (Report.agree_refl _).bind fun _ =>
    (Report.agree_refl _).bind fun _ => (Report.agree_refl _).bind fun d =>
    (modulateStage_agree (h.agreeMod hcap (.inr ⟨rfl, hcs⟩)) d).bind fun _ => Report.agree_refl _

theorem decmsgStage_agree (h : State.AgreeFor .decmsg s t) (hcap : s.bufCap = t.bufCap) (a : List Sample) :
    (decmsgStage s a).Agree (decmsgStage t a) := by
  rw [decmsgStage, decmsgStage, h.sampleCount (.inr rfl)]
  refine withSelectors_agree (h.selectors rfl) fun lc cs fm ec hcs => Report.Agree.check ?_ _ _ _
  rw [decodeChain, decodeChain, lineDecodeStage_congr hcap, ecCheckStage_congr hcap, deframeStage_congr hcap,
    y2tStage_congr hcap]
  exact (demodulateStage_agree (h.agreeDem hcap (.inr ⟨rfl, hcs⟩)) a).bind fun _ => Report.agree_refl _

end Stages

/-- Two runs of an operation, from states with one message that agree on what it reads, end alike. -/
theorem exec_sameResult {i : Instr} {tag : Nat} {s t s' t' : State} (hi : inputTag i = some tag) (h : s.SameMessage t)
    (hagree : State.AgreeFor i s t) (hs : exec i s = .next s') (ht : exec i t = .next t') : State.SameResult i s s' t' := by
  have hcap := h.bufCap
  cases i with
  | nop | xfer | clr | rst => cases hi
  | t2b => exact transform_setObuf_sameResult rfl h (Report.agree_of_congr (t2bStage_congr hcap)) hs ht
  | b2y => exact transform_setObuf_sameResult rfl h (Report.agree_of_congr (b2yStage_congr hcap)) hs ht
  | y2s => exact transform_setObuf_sameResult rfl h (Report.agree_of_congr (y2sStage_congr hcap)) hs ht
  | s2y => exact transform_setObuf_sameResult rfl h (Report.agree_of_congr (s2yStage_congr hcap)) hs ht
  | y2t => exact transform_setObuf_sameResult rfl h (Report.agree_of_congr (y2tStage_congr hcap)) hs ht
  | ecNoneEnc => exact transform_setObuf_sameResult rfl h (Report.agree_of_congr (ecEncodeStage_congr hcap .none)) hs ht
  | ecParEnc => exact transform_setObuf_sameResult rfl h (Report.agree_of_congr (ecEncodeStage_congr hcap .parity)) hs ht
  | ecCrcEnc => exact transform_setObuf_sameResult rfl h (Report.agree_of_congr (ecEncodeStage_congr hcap .crc32)) hs ht
  | ecHamEnc =>
    exact transform_setObuf_sameResult rfl h (Report.agree_of_congr (ecEncodeStage_congr hcap .hamming)) hs ht
  | ecNoneChk => exact transform_setObuf_sameResult rfl h (Report.agree_of_congr (ecCheckStage_congr hcap .none)) hs ht
  | ecParChk => exact transform_setObuf_sameResult rfl h (Report.agree_of_congr (ecCheckStage_congr hcap .parity)) hs ht
  | ecCrcChk => exact transform_setObuf_sameResult rfl h (Report.agree_of_congr (ecCheckStage_congr hcap .crc32)) hs ht
  | ecHamDec => exact transform_setObuf_sameResult rfl h (Report.agree_of_congr (ecCheckStage_congr hcap .hamming)) hs ht
  | frCcF =>
    have hmax := hagree.maxFrameSize (.inl rfl)
    exact transform_setObuf_sameResult rfl h (Report.agree_of_congr (frameStage_congr hcap hmax .charCount)) hs ht
  | frBsF =>
    have hmax := hagree.maxFrameSize (.inr (.inl rfl))
    exact transform_setObuf_sameResult rfl h (Report.agree_of_congr (frameStage_congr hcap hmax .byteStuffing)) hs ht
  | frCcD => exact transform_setObuf_sameResult rfl h (Report.agree_of_congr (deframeStage_congr hcap .charCount)) hs ht
  | frBsD =>
    exact transform_setObuf_sameResult rfl h (Report.agree_of_congr (deframeStage_congr hcap .byteStuffing)) hs ht
  | lcNrzDec =>
    exact transform_setObuf_sameResult rfl h (Report.agree_of_congr (lineDecodeStage_congr hcap .nrzPolar)) hs ht
  | lcManDec =>
    exact transform_setObuf_sameResult rfl h (Report.agree_of_congr (lineDecodeStage_congr hcap .manchester)) hs ht
  | lcBipDec =>
    exact transform_setObuf_sameResult rfl h (Report.agree_of_congr (lineDecodeStage_congr hcap .bipolar)) hs ht
  | lcNrzEnc =>
    exact transform_finishEncode_sameResult h (Report.agree_of_congr (lineEncodeStage_congr hcap .nrzPolar)) hs ht
  | lcManEnc =>
    exact transform_finishEncode_sameResult h (Report.agree_of_congr (lineEncodeStage_congr hcap .manchester)) hs ht
  | lcBipEnc =>
    exact transform_finishEncode_sameResult h (Report.agree_of_congr (lineEncodeStage_congr hcap .bipolar)) hs ht
  | cmAskMod =>
    exact transform_setObuf_sameResult rfl h (modulateStage_agree (hagree.agreeMod (cs := .ask) hcap (.inl rfl))) hs ht
  | cmFskMod =>
    exact transform_setObuf_sameResult rfl h (modulateStage_agree (hagree.agreeMod (cs := .fsk) hcap (.inl rfl))) hs ht
  | cmQamMod =>
    exact transform_setObuf_sameResult rfl h (modulateStage_agree (hagree.agreeMod (cs := .qam8) hcap (.inl rfl))) hs ht
  | cmAskDem =>
    exact transform_setObuf_sameResult rfl h (demodulateStage_agree (hagree.agreeDem (cs := .ask) hcap (.inl rfl))) hs ht
  | cmFskDem =>
    exact transform_setObuf_sameResult rfl h (demodulateStage_agree (hagree.agreeDem (cs := .fsk) hcap (.inl rfl))) hs ht
  | cmQamDem =>
    exact transform_setObuf_sameResult rfl h (demodulateStage_agree (hagree.agreeDem (cs := .qam8) hcap (.inl rfl))) hs ht
  | encmsg =>
    exact transform_sameResult h (encmsgStage_agree hagree hcap) (fun f _ =>
      ⟨h.fault, congrArg (Flags.or · f) h.flags, rfl, fun _ => h.finfo, fun _ _ _ => rfl⟩) hs ht
  | decmsg => exact transform_setObuf_sameResult rfl h (decmsgStage_agree hagree hcap) hs ht
  | biterr =>
    have hstage := biterrStage_congr hcap h.draws (hagree.errPermille rfl)
    exact transform_sameResult h (Report.agree_of_congr hstage) (fun f _ =>
      ⟨h.fault, congrArg (Flags.or · f) h.flags, rfl, fun _ => h.finfo, nofun⟩) hs ht

/-- Settles O21: a stage that reads only what the table lists gives agreeing reports, and agreeing reports end alike. -/
theorem unreadConfigurationHasNoEffect : Obligations.UnreadConfigurationHasNoEffect := by
  unfold Obligations.UnreadConfigurationHasNoEffect
  intro i tag s t s' t' hi hs ht hfault hflags hfinfo hibuf hobuf hcap hdraws hagree
  obtain ⟨rfault, rflags, robuf, rfinfo, rdlen⟩ :=
    exec_sameResult hi ⟨hfault, hflags, hfinfo, hibuf, hobuf, hcap, hdraws⟩ hagree hs ht
  exact ⟨rfault, rflags, robuf, rfinfo, rdlen⟩

end Sys2Proof.Machine

/-! ### the lengths of streams that are cut into pieces or built piece by piece (20_memory R71) -/

namespace Sys2Proof.Machine

section Pieces

variable {α : Type}

theorem slices_succ (n k : Nat) (l : List α) : slices n (k + 1) l = l.take n :: slices n k (l.drop n) := by
  have hoffset (i : Nat) : (i + 1) * n = n + i * n := by rw [Nat.add_one_mul, Nat.add_comm]
  simp [slices, List.range_succ_eq_map, hoffset, Function.comp_def]

theorem slices_flatten (n k : Nat) (l : List α) : (slices n k l).flatten = l.take (k * n) := by
  induction k generalizing l with
  | zero => simp [slices]
  | succ k ih => rw [slices_succ, List.flatten_cons, ih, Nat.add_one_mul, Nat.add_comm, List.take_add]

theorem length_flatMap_of_length {β : Type} {n : Nat} {f : α → List β} (h : ∀ x, (f x).length = n) (l : List α) :
    (l.flatMap f).length = l.length * n := by
  simp [List.length_flatMap, h]

end Pieces

/-- `ceil(k / n)` pieces of `n` elements hold `k` elements. -/
theorem le_pieces_mul {n : Nat} (hn : n ≠ 0) (k : Nat) : k ≤ pieces k n * n := by
  have hdiv := Nat.div_add_mod (k + n - 1) n
  have hmod := Nat.mod_lt (k + n - 1) (Nat.pos_of_ne_zero hn)
  rw [pieces, Nat.mul_comm]
  omega

@[simp] theorem chunks_length (p : List Byte) (f : Nat) : (chunks p f).length = pieces p.length f := slices_length _ _ _

/-- The chunks of a payload are the payload, cut (43_framing R191). -/
theorem chunks_flatten {f : Nat} (hf : f ≠ 0) (p : List Byte) : (chunks p f).flatten = p := by
  rw [chunks, slices_flatten]
  exact List.take_of_length_le (le_pieces_mul hf p.length)

/-! #### framing (43_framing R192, R196) -/

theorem length_flatMap_ccFrame (chs : List (List Byte)) :
    (chs.flatMap ccFrame).length = chs.flatten.length + chs.length := by
  induction chs with
  | nil => rfl
  | cons ch chs ih =>
    simp only [List.flatMap_cons, ccFrame, List.length_append, List.length_cons, List.flatten_cons, ih]
    omega

theorem stuff_length (b : Byte) : (stuff b).length = if b = 0x16#8 ∨ b = 0x1B#8 then 2 else 1 :=
  apply_ite List.length _ _ _

/-- Stuffing adds one byte for each `FLAG` and each `ESC` (43_framing R196). -/
theorem length_flatMap_stuff (p : List Byte) :
    (p.flatMap stuff).length = p.length + p.countP fun b => b = 0x16#8 ∨ b = 0x1B#8 := by
  induction p with
  | nil => rfl
  | cons b p ih =>
    rw [List.flatMap_cons, List.length_append, ih, List.countP_cons, stuff_length, List.length_cons]
    simp only [decide_eq_true_eq]
    split <;> omega

theorem length_flatMap_bsFrame (chs : List (List Byte)) :
    (chs.flatMap bsFrame).length =
      chs.flatten.length + 2 * chs.length + chs.flatten.countP fun b => b = 0x16#8 ∨ b = 0x1B#8 := by
  induction chs with
  | nil => rfl
  | cons ch chs ih =>
    rw [List.flatMap_cons, List.length_append, ih, List.flatten_cons, List.countP_append, bsFrame]
    simp only [List.length_append, List.length_cons, List.length_nil, length_flatMap_stuff]
    omega

/-- The frames of a payload in chunks of `f`, by the method. -/
def frameBytes (f : Nat) : FramingMethod → List Byte → List Byte
  | .charCount, p => (chunks p f).flatMap ccFrame
  | .byteStuffing, p => (chunks p f).flatMap bsFrame

theorem frameStage_eq (s : State) (fm : FramingMethod) (p : List Byte) :
    frameStage s fm p = (withFrameSize s fun f => Report.pure (frameBytes f fm p)).fit s.bufCap := by
  cases fm <;> rfl

theorem frameBytes_length {f : Nat} (hf : f ≠ 0) (fm : FramingMethod) (p : List Byte) :
    (frameBytes f fm p).length = framedLength (FramingMethod.number fm) f p := by
  cases fm with
  | charCount => rw [frameBytes, length_flatMap_ccFrame, chunks_flatten hf, chunks_length]; rfl
  | byteStuffing => rw [frameBytes, length_flatMap_bsFrame, chunks_flatten hf, chunks_length]; rfl

/-! #### error control (42_error_control R151, R154, R162, R171) -/

@[simp] theorem bytesToBits_length (y : List Byte) : (bytesToBits y).length = 8 * y.length := length_flatMap_bits8 id y

theorem hamPlace_length (n p : Nat) (d : List Bool) : (hamPlace n p d).length = n := by
  induction n generalizing p d with
  | zero => rfl
  | succ n ih => rw [hamPlace]; split <;> rw [List.length_cons, ih]

/-- Writing the check bits into a codeword keeps its length. -/
theorem foldl_set_length (g : List Bool → Nat → Bool) (is : List Nat) (c : List Bool) :
    (is.foldl (fun c i => c.set (2 ^ i - 1) (g c i)) c).length = c.length := by
  induction is generalizing c with
  | nil => rfl
  | cons i is ih => rw [List.foldl_cons, ih, List.length_set]

theorem hamEncode_length (d : List Bool) : (hamEncode d).length = d.length + hamR d.length := by
  rw [hamEncode, foldl_set_length, hamPlace_length]

/-- The bits of a stream of bytes under an error control. -/
def ecBits : ErrorControl → List Byte → List Bool
  | .none, y => bytesToBits y
  | .parity, y => bytesToBits y ++ [parity (bytesToBits y)]
  | .crc32, y => bytesToBits y ++ be32 (crc32Rem (bytesToBits y))
  | .hamming, y => hamEncode (bytesToBits y)

theorem ecEncodeStage_eq (s : State) (ec : ErrorControl) (y : List Byte) :
    ecEncodeStage s ec y = (Report.pure (ecBits ec y)).fit s.bufCap := by
  cases ec <;> rfl

theorem ecBits_length (ec : ErrorControl) (y : List Byte) :
    (ecBits ec y).length = encodedLength (ErrorControl.number ec) y.length := by
  cases ec <;> simp [ecBits, encodedLength, ErrorControl.number, hamEncode_length]

/-! #### line codes (44_line_coder R211, R214, R217) -/

@[simp] theorem bipolarFrom_length (last : Sym) (b : List Bool) : (bipolarFrom last b).length = b.length := by
  induction b generalizing last with
  | nil => rfl
  | cons x b ih => cases x <;> simp [bipolarFrom, ih]

@[simp] theorem symbolsOf_length (lc : LineCode) (v : List Bool) : (symbolsOf lc v).length = v.length := by
  cases lc <;> simp [symbolsOf, bipolar]

/-- The digital signal of a stream of bits, by the line code. -/
def lineSymbols : LineCode → List Bool → List Sym
  | .nrzPolar, b => nrzEncode b
  | .manchester, b => manEncode b
  | .bipolar, b => bipolar b

theorem lineEncodeStage_eq (s : State) (lc : LineCode) (b : List Bool) :
    lineEncodeStage s lc b = (Report.pure (lineSymbols lc b)).fit s.bufCap := by
  cases lc <;> rfl

theorem lineSymbols_length (lc : LineCode) (b : List Bool) :
    (lineSymbols lc b).length = if LineCode.number lc = 1 then 2 * b.length else b.length := by
  cases lc with
  | nrzPolar => exact List.length_map ..
  | manchester => exact (length_flatMap_of_length (n := 2) (fun _ => rfl) b).trans (Nat.mul_comm _ _)
  | bipolar => exact bipolarFrom_length _ b

/-! #### the carrier modem (45_carrier_modem R240, R245, R253, R256) -/

@[simp] theorem sineWindow_length (s : State) (amp f ph : Rat) : (sineWindow s amp f ph).length = s.samples := by
  simp [sineWindow, State.samples]

@[simp] theorem qamWindow_length (s : State) (iq : Rat × Rat) : (qamWindow s iq).length = s.samples := by
  simp [qamWindow, State.samples]

/-- The padding fills the last group of three (45_carrier_modem R251). -/
@[simp] theorem qamPack_length (lc : LineCode) (d : List Sym) : (qamPack lc d).length = pieces d.length 3 := by
  simp only [qamPack, List.length_map, slices_length, List.length_append, List.length_replicate, pieces]
  omega

/-- The samples of a digital signal, by the carrier scheme. -/
def carrierSamples (s : State) : CarrierScheme → LineCode → List Sym → List Sample
  | .ask, lc, d => d.flatMap fun x =>
    sineWindow s (if logical lc x then s.ampOne.toRat else s.ampZero.toRat) s.frequency.toRat s.phase.toRat
  | .fsk, lc, d => d.flatMap fun x =>
    sineWindow s s.amplitude.toRat (if logical lc x then s.freqOne.toRat else s.freqZero.toRat) s.phase.toRat
  | .qam8, lc, d => (qamPack lc d).flatMap fun code => qamWindow s (qamPoint code)

theorem modulateStage_eq (s : State) (cs : CarrierScheme) (d : List Sym) :
    modulateStage s cs d = (carrierChecks s fun lc => Report.pure (carrierSamples s cs lc d)).fit s.bufCap := by
  cases cs <;> rfl

theorem carrierSamples_length (s : State) (cs : CarrierScheme) (lc : LineCode) (d : List Sym) :
    (carrierSamples s cs lc d).length = windowCount (CarrierScheme.number cs) d.length * s.samples := by
  cases cs with
  | ask => exact length_flatMap_of_length (fun _ => sineWindow_length ..) d
  | fsk => exact length_flatMap_of_length (fun _ => sineWindow_length ..) d
  | qam8 =>
    rw [carrierSamples, length_flatMap_of_length (fun _ => qamWindow_length ..), qamPack_length]
    rfl

end Sys2Proof.Machine

/-! ### how many elements each operation produces (O22) -/

namespace Sys2Proof.Machine

/-- A report that, where it has a result, has one of `n` elements (20_memory R71). -/
def Report.Produces {α : Type} (n : Nat) (r : Report (List α)) : Prop := ∀ l, r.result = .ok l → l.length = n

section Produces

variable {α β : Type} {n : Nat}

theorem Report.produces_done {f : Flags} {l : List α} (h : l.length = n) : (Report.done f l).Produces n := by
  rintro _ ⟨⟩
  exact h

theorem Report.produces_fail (f : Flags) (kind : FaultKind) (info : Nat) :
    (Report.fail (α := List α) f kind info).Produces n :=
  nofun

/-- What follows a check may rely on it. -/
theorem Report.produces_check {bad : Bool} {kind : FaultKind} {info : Nat} {k : Report (List α)}
    (h : bad = false → k.Produces n) : (Report.check bad kind info k).Produces n := by
  cases bad with
  | false => exact h rfl
  | true => exact Report.produces_fail _ _ _

/-- Holding a result to the capacity does not cut it. -/
theorem Report.Produces.fit {r : Report (List α)} (h : r.Produces n) (cap : Option Nat) : (r.fit cap).Produces n := by
  obtain ⟨f, e | l⟩ := r
  · exact nofun
  · cases hfit : fits cap l.length with
    | true => rw [Report.fit_ok hfit]; exact h
    | false => rw [Report.fit_over hfit]; exact nofun

variable (s : State)

theorem carrierChecks_produces {k : LineCode → Report (List α)} (hk : ∀ lc, (k lc).Produces n) :
    (carrierChecks s k).Produces n := by
  rw [carrierChecks]
  cases lineCode? s.scheme with
  | none => exact Report.produces_fail _ _ _
  | some lc => exact Report.produces_check fun _ => hk lc

/-- A demodulator decides on `len / S` windows (45_carrier_modem R235). -/
theorem demodChecks_produces {a : List Sample} {k : LineCode → List (List Sample) → Report (List α)}
    (hk : ∀ lc ws, ws.length = a.length / s.samples → (k lc ws).Produces n) : (demodChecks s a k).Produces n :=
  carrierChecks_produces s fun _ => Report.produces_check fun _ => hk _ _ (slices_length _ _ _)

/-! #### the stages -/

theorem t2bStage_produces (t : List CodePoint) : (t2bStage s t).Produces (8 * t.length) := by
  refine Report.Produces.fit ?_ _
  split
  · exact Report.produces_fail _ _ _
  · exact Report.produces_done (length_flatMap_bits8 _ t)

theorem bitsToBytes_length (b : List Bool) : (bitsToBytes b).1.length = b.length / 8 := by simp [bitsToBytes]

theorem b2yStage_produces (b : List Bool) : (b2yStage s b).Produces (b.length / 8) :=
  (Report.produces_done (bitsToBytes_length b)).fit _

theorem y2sStage_produces (y : List Byte) : (y2sStage s y).Produces (8 * y.length) :=
  (Report.produces_done (bytesToBits_length y)).fit _

theorem s2yStage_produces (b : List Bool) : (s2yStage s b).Produces (b.length / 8) :=
  (Report.produces_check fun _ => Report.produces_done (bitsToBytes_length b)).fit _

theorem y2tStage_produces (y : List Byte) : (y2tStage s y).Produces y.length :=
  (Report.produces_done (List.length_map _)).fit _

theorem ecEncodeStage_produces (ec : ErrorControl) (y : List Byte) :
    (ecEncodeStage s ec y).Produces (encodedLength (ErrorControl.number ec) y.length) := by
  rw [ecEncodeStage_eq]
  exact (Report.produces_done (ecBits_length ec y)).fit _

/-- The check of `MAX_FRAME_SIZE` leaves only frame sizes that cut (43_framing R190). -/
theorem frameStage_produces (fm : FramingMethod) (p : List Byte) :
    (frameStage s fm p).Produces (framedLength (FramingMethod.number fm) s.maxFrameSize.toNat p) := by
  rw [frameStage_eq]
  refine Report.Produces.fit (Report.produces_check fun hsize => ?_) _
  exact Report.produces_done (frameBytes_length (by simpa using hsize) fm p)

theorem lineEncodeStage_produces (lc : LineCode) (b : List Bool) :
    (lineEncodeStage s lc b).Produces (if LineCode.number lc = 1 then 2 * b.length else b.length) := by
  rw [lineEncodeStage_eq]
  exact (Report.produces_done (lineSymbols_length lc b)).fit _

theorem lineDecodeStage_produces (lc : LineCode) (d : List Sym) :
    (lineDecodeStage s lc d).Produces (if LineCode.number lc = 1 then d.length / 2 else d.length) := by
  cases lc with
  | nrzPolar => exact (Report.produces_done (List.length_map _)).fit _
  | manchester => exact (Report.produces_check fun _ => Report.produces_done (by simp [manDecode, LineCode.number])).fit _
  | bipolar => exact (Report.produces_done (List.length_map _)).fit _

theorem modulateStage_produces (cs : CarrierScheme) (d : List Sym) :
    (modulateStage s cs d).Produces (windowCount (CarrierScheme.number cs) d.length * s.samples) := by
  rw [modulateStage_eq]
  exact (carrierChecks_produces s fun lc => Report.produces_done (carrierSamples_length s cs lc d)).fit _

theorem cmAskDemStage_produces (a : List Sample) : (cmAskDemStage s a).Produces (a.length / s.samples) :=
  (demodChecks_produces s fun lc ws hws => Report.produces_done (by simp [hws])).fit _

theorem cmFskDemStage_produces (a : List Sample) : (cmFskDemStage s a).Produces (a.length / s.samples) :=
  (demodChecks_produces s fun lc ws hws => Report.produces_done (by simp [hws])).fit _

/-- What is left of the codes' bits without the padding is `DLEN` symbols (45_carrier_modem R256). -/
theorem cmQamDemStage_produces (a : List Sample) : (cmQamDemStage s a).Produces s.dlen := by
  refine (demodChecks_produces s fun lc ws _ => Report.produces_check fun hpad => Report.produces_done ?_).fit _
  rw [symbolsOf_length, List.length_drop, length_flatMap_of_length (n := 3) fun _ => rfl]
  have hpad := of_decide_eq_false hpad
  omega

theorem biterrStage_produces (b : List Bool) : (biterrStage s b).Produces b.length :=
  (Report.produces_check fun _ => Report.produces_done List.length_mapIdx).fit _

end Produces

/-! #### the operations -/

theorem Buffer.len_of_char? {b : Buffer} {d : List CodePoint} (h : b.char? = some d) : b.len = d.length := by
  rw [Buffer.char?_eq_some.mp h]; rfl

theorem Buffer.len_of_bit? {b : Buffer} {d : List Bool} (h : b.bit? = some d) : b.len = d.length := by
  rw [Buffer.bit?_eq_some.mp h]; rfl

theorem Buffer.len_of_byte? {b : Buffer} {d : List Byte} (h : b.byte? = some d) : b.len = d.length := by
  rw [Buffer.byte?_eq_some.mp h]; rfl

theorem Buffer.len_of_sym? {b : Buffer} {d : List Sym} (h : b.sym? = some d) : b.len = d.length := by
  rw [Buffer.sym?_eq_some.mp h]; rfl

theorem Buffer.len_of_sample? {b : Buffer} {d : List Sample} (h : b.sample? = some d) : b.len = d.length := by
  rw [Buffer.sample?_eq_some.mp h]; rfl

/-- An operation with the outcome `o` leaves an OBUF of the length of the table, where it completes (20_memory R71). -/
def HasOutputLength (i : Instr) (s : State) (o : Outcome) : Prop :=
  ∀ (t : State) (n : Nat), s.fault = none → o = .next t → t.fault = none → outputLength i s = some n → t.obuf.len = n

section Template

variable {α β : Type} {i : Instr} {s : State} {take : Buffer → Option (List α)} {stage : List α → Report (List β)}
  {finish : State → List β → State}

/-- A transform whose stage produces what the table gives for the stream it takes. -/
theorem transform_hasOutputLength (N : List α → Nat) (hfinish : ∀ u l, (finish u l).obuf.len = l.length)
    (hstage : ∀ a, (stage a).Produces (N a)) (htable : ∀ a, take s.ibuf = some a → outputLength i s = some (N a)) :
    HasOutputLength i s (transform s take stage finish) := by
  intro t n hready ho hdone hn
  rcases transform_cases s take stage finish with
    ⟨hf, -⟩ | ⟨-, -, ht⟩ | ⟨a, f, l, -, ha, hs, ht⟩ | ⟨a, f, e, -, -, -, ht⟩
  · exact absurd hready hf
  · cases ht.symm.trans ho
    cases hdone
  · cases ht.symm.trans ho
    have hlen : l.length = N a := hstage a l (by rw [hs])
    rw [hfinish, hlen]
    exact Option.some.inj ((htable a ha).symm.trans hn)
  · cases ht.symm.trans ho
    cases hdone

/-- The case of an output whose length depends on the length of the input alone. -/
theorem transform_hasOutputLength_of_len (N : Nat → Nat) (hfinish : ∀ u l, (finish u l).obuf.len = l.length)
    (hstage : ∀ a, (stage a).Produces (N a.length)) (htake : ∀ {b a}, take b = some a → b.len = a.length)
    (htable : outputLength i s = some (N s.ibuf.len)) : HasOutputLength i s (transform s take stage finish) :=
  transform_hasOutputLength (fun a => N a.length) hfinish hstage fun a ha => by rw [htable, htake ha]

end Template

/-- Each operation of the table of 20_memory R71 produces what its stage does; the others are not in the table. -/
theorem exec_hasOutputLength (i : Instr) (s : State) : HasOutputLength i s (exec i s) := by
  cases i with
  | nop | xfer | clr | rst | ecNoneChk | ecParChk | ecCrcChk | ecHamDec | frCcD | frBsD | encmsg | decmsg =>
    intro _ _ _ _ _ hn
    cases hn
  | t2b =>
    exact transform_hasOutputLength_of_len (8 * ·) (fun _ _ => rfl) (t2bStage_produces s) Buffer.len_of_char? rfl
  | b2y => exact transform_hasOutputLength_of_len (· / 8) (fun _ _ => rfl) (b2yStage_produces s) Buffer.len_of_bit? rfl
  | y2s => exact transform_hasOutputLength_of_len (8 * ·) (fun _ _ => rfl) (y2sStage_produces s) Buffer.len_of_byte? rfl
  | s2y => exact transform_hasOutputLength_of_len (· / 8) (fun _ _ => rfl) (s2yStage_produces s) Buffer.len_of_bit? rfl
  | y2t => exact transform_hasOutputLength_of_len id (fun _ _ => rfl) (y2tStage_produces s) Buffer.len_of_byte? rfl
  | ecNoneEnc =>
    exact transform_hasOutputLength_of_len (encodedLength 0) (fun _ _ => rfl) (ecEncodeStage_produces s .none)
      Buffer.len_of_byte? rfl
  | ecParEnc =>
    exact transform_hasOutputLength_of_len (encodedLength 1) (fun _ _ => rfl) (ecEncodeStage_produces s .parity)
      Buffer.len_of_byte? rfl
  | ecCrcEnc =>
    exact transform_hasOutputLength_of_len (encodedLength 2) (fun _ _ => rfl) (ecEncodeStage_produces s .crc32)
      Buffer.len_of_byte? rfl
  | ecHamEnc =>
    exact transform_hasOutputLength_of_len (encodedLength 3) (fun _ _ => rfl) (ecEncodeStage_produces s .hamming)
      Buffer.len_of_byte? rfl
  | frCcF =>
    exact transform_hasOutputLength _ (fun _ _ => rfl) (frameStage_produces s .charCount) fun _ hy =>
      congrArg (Option.map _) hy
  | frBsF =>
    exact transform_hasOutputLength _ (fun _ _ => rfl) (frameStage_produces s .byteStuffing) fun _ hy =>
      congrArg (Option.map _) hy
  | lcNrzEnc =>
    exact transform_hasOutputLength_of_len id (fun _ _ => rfl) (lineEncodeStage_produces s .nrzPolar) Buffer.len_of_bit? rfl
  | lcManEnc =>
    exact transform_hasOutputLength_of_len (2 * ·) (fun _ _ => rfl) (lineEncodeStage_produces s .manchester)
      Buffer.len_of_bit? rfl
  | lcBipEnc =>
    exact transform_hasOutputLength_of_len id (fun _ _ => rfl) (lineEncodeStage_produces s .bipolar) Buffer.len_of_bit? rfl
  | lcNrzDec =>
    exact transform_hasOutputLength_of_len id (fun _ _ => rfl) (lineDecodeStage_produces s .nrzPolar) Buffer.len_of_sym? rfl
  | lcManDec =>
    exact transform_hasOutputLength_of_len (· / 2) (fun _ _ => rfl) (lineDecodeStage_produces s .manchester)
      Buffer.len_of_sym? rfl
  | lcBipDec =>
    exact transform_hasOutputLength_of_len id (fun _ _ => rfl) (lineDecodeStage_produces s .bipolar) Buffer.len_of_sym? rfl
  | cmAskMod =>
    exact transform_hasOutputLength_of_len (· * s.samples) (fun _ _ => rfl) (modulateStage_produces s .ask)
      Buffer.len_of_sym? rfl
  | cmFskMod =>
    exact transform_hasOutputLength_of_len (· * s.samples) (fun _ _ => rfl) (modulateStage_produces s .fsk)
      Buffer.len_of_sym? rfl
  | cmQamMod =>
    exact transform_hasOutputLength_of_len (pieces · 3 * s.samples) (fun _ _ => rfl) (modulateStage_produces s .qam8)
      Buffer.len_of_sym? rfl
  | cmAskDem =>
    exact transform_hasOutputLength_of_len (· / s.samples) (fun _ _ => rfl) (cmAskDemStage_produces s)
      Buffer.len_of_sample? rfl
  | cmFskDem =>
    exact transform_hasOutputLength_of_len (· / s.samples) (fun _ _ => rfl) (cmFskDemStage_produces s)
      Buffer.len_of_sample? rfl
  | cmQamDem =>
    exact transform_hasOutputLength_of_len (fun _ => s.dlen) (fun _ _ => rfl) (cmQamDemStage_produces s)
      Buffer.len_of_sample? rfl
  | biterr => exact transform_hasOutputLength_of_len id (fun _ _ => rfl) (biterrStage_produces s) Buffer.len_of_bit? rfl

/-- Settles O22: every operation of the table is a transform whose stage produces the length that the table gives. -/
theorem outputLengths : Obligations.OutputLengths := by
  unfold Obligations.OutputLengths
  exact fun i s t n hready h hdone hn => exec_hasOutputLength i s t n hready h hdone hn

end Sys2Proof.Machine

/-! ### the selectors of `SCHEME` (46_pipeline_and_channel R280) -/

namespace Sys2Proof.Machine

section Selectors

variable (s : State)

/-- A selector field names a line code exactly where its number is one (10_state R24). -/
theorem lineCode?_cases : (3 ≤ s.lineCode ∧ lineCode? s.scheme = none) ∨
    ∃ lc, lineCode? s.scheme = some lc ∧ s.lineCode = LineCode.number lc := by
  have hfield : (s.scheme.extractLsb' 0 2).toNat = s.lineCode := by simp [State.lineCode]
  rw [lineCode?, hfield]
  split
  · exact .inr ⟨_, rfl, ‹_›⟩
  · exact .inr ⟨_, rfl, ‹_›⟩
  · exact .inr ⟨_, rfl, ‹_›⟩
  · exact .inl ⟨by grind, rfl⟩

theorem carrier?_cases : (3 ≤ s.carrier ∧ carrier? s.scheme = none) ∨
    ∃ cs, carrier? s.scheme = some cs ∧ s.carrier = CarrierScheme.number cs := by
  have hfield : (s.scheme.extractLsb' 2 2).toNat = s.carrier := by simp [State.carrier, Nat.shiftRight_eq_div_pow]
  rw [carrier?, hfield]
  split
  · exact .inr ⟨_, rfl, ‹_›⟩
  · exact .inr ⟨_, rfl, ‹_›⟩
  · exact .inr ⟨_, rfl, ‹_›⟩
  · exact .inl ⟨by grind, rfl⟩

theorem framing?_cases : (2 ≤ s.framing ∧ framing? s.scheme = none) ∨
    ∃ fm, framing? s.scheme = some fm ∧ s.framing = FramingMethod.number fm := by
  have hfield : (s.scheme.extractLsb' 4 2).toNat = s.framing := by simp [State.framing, Nat.shiftRight_eq_div_pow]
  rw [framing?, hfield]
  split
  · exact .inr ⟨_, rfl, ‹_›⟩
  · exact .inr ⟨_, rfl, ‹_›⟩
  · exact .inl ⟨by grind, rfl⟩

/-- All values of `ERRCTL` are valid. -/
theorem errctl_eq_number : s.errctl = ErrorControl.number (errorControl s.scheme) := by
  have hfield : (s.scheme.extractLsb' 6 2).toNat = s.errctl := by simp [State.errctl, Nat.shiftRight_eq_div_pow]
  have hlt : s.errctl < 4 := Nat.mod_lt _ (by decide)
  rw [errorControl, hfield]
  split
  · assumption
  · assumption
  · assumption
  · exact (by grind : s.errctl = 3)

/-- The schemes that the selectors name. -/
structure State.Selects (lc : LineCode) (cs : CarrierScheme) (fm : FramingMethod) : Prop where
  lineCode : lineCode? s.scheme = some lc
  carrier : carrier? s.scheme = some cs
  framing : framing? s.scheme = some fm
  lineCode_eq : s.lineCode = LineCode.number lc
  carrier_eq : s.carrier = CarrierScheme.number cs
  framing_eq : s.framing = FramingMethod.number fm

theorem State.exists_selects (h : s.selectorsValid) : ∃ lc cs fm, s.Selects lc cs fm := by
  obtain ⟨hlc, hcs, hfm⟩ := h
  rcases lineCode?_cases s with ⟨hge, -⟩ | ⟨lc, hlc, hlc'⟩
  · omega
  rcases carrier?_cases s with ⟨hge, -⟩ | ⟨cs, hcs, hcs'⟩
  · omega
  rcases framing?_cases s with ⟨hge, -⟩ | ⟨fm, hfm, hfm'⟩
  · omega
  exact ⟨lc, cs, fm, hlc, hcs, hfm, hlc', hcs', hfm'⟩

variable {s} {α : Type} {k : LineCode → CarrierScheme → FramingMethod → ErrorControl → Report α}

theorem withSelectors_of_selects {lc : LineCode} {cs : CarrierScheme} {fm : FramingMethod} (h : s.Selects lc cs fm) :
    withSelectors s k = k lc cs fm (errorControl s.scheme) := by
  rw [withSelectors, h.lineCode, h.carrier, h.framing]

/-- A reserved selector raises `UnsupportedScheme` (46_pipeline_and_channel R280, R285). -/
theorem withSelectors_of_reserved (h : ¬s.selectorsValid) :
    withSelectors s k = Report.fail Flags.clear .unsupportedScheme (0x10000 + s.scheme.toNat) := by
  rw [withSelectors]
  rcases lineCode?_cases s with ⟨-, hlc⟩ | ⟨lc, hlc, hlc'⟩
  · rw [hlc]; rfl
  rcases carrier?_cases s with ⟨-, hcs⟩ | ⟨cs, hcs, hcs'⟩
  · rw [hlc, hcs]; rfl
  rcases framing?_cases s with ⟨-, hfm⟩ | ⟨fm, hfm, hfm'⟩
  · rw [hlc, hcs, hfm]; rfl
  refine absurd ⟨?_, ?_, ?_⟩ h
  · rw [hlc']; cases lc <;> decide
  · rw [hcs']; cases cs <;> decide
  · rw [hfm']; cases fm <;> decide

end Selectors

end Sys2Proof.Machine

/-! ### stages that complete, where their output has room (20_memory R72) -/

namespace Sys2Proof.Machine

theorem State.Room.mono {s : State} {m n : Nat} (h : s.Room n) (hle : m ≤ n) : s.Room m :=
  fun c hc => hle.trans (h c hc)

@[simp] theorem Report.pure_bind {α β : Type} (a : α) (k : α → Report β) : (Report.pure a).bind k = k a := by
  simp [Report.pure]

@[simp] theorem Report.fail_bind {α β : Type} (f : Flags) (kind : FaultKind) (info : Nat) (k : α → Report β) :
    (Report.fail f kind info).bind k = Report.fail f kind info := rfl

theorem Report.fit_pure {α : Type} {s : State} {l : List α} (h : s.Room l.length) :
    (Report.pure l).fit s.bufCap = Report.pure l :=
  Report.fit_ok ((fits_iff_room s _).mpr h)

/-- A stage that faults before it sets a flag leaves the state after the fault. -/
theorem transform_of_fail {α β : Type} {s : State} {take : Buffer → Option α} {stage : α → Report β}
    {finish : State → β → State} {a : α} {kind : FaultKind} {info : Nat} (h : s.fault = none)
    (ht : take s.ibuf = some a) (hs : stage a = Report.fail Flags.clear kind info) :
    transform s take stage finish = .next (s.afterFault kind info) := by
  rw [transform_of_error h ht hs, State.setFlags_clear]

/-- Cutting pieces of `n` elements undoes joining them. -/
theorem slices_flatMap {α β : Type} {n : Nat} {f : α → List β} (h : ∀ x, (f x).length = n) (l : List α) :
    slices n l.length (l.flatMap f) = l.map f := by
  induction l with
  | nil => rfl
  | cons x l ih =>
    rw [List.length_cons, slices_succ, List.flatMap_cons, List.take_left' (h x), List.drop_left' (h x), ih, List.map_cons]

theorem byteOf_bits8 (b : Byte) : byteOf (bits8 b) = b := by
  revert b
  decide

/-- The bytes of the bits of a byte stream are that stream, and no bit is left over (41_bit_converter R139). -/
theorem bitsToBytes_bytesToBits (y : List Byte) : bitsToBytes (bytesToBits y) = (y, false) := by
  have hdiv : 8 * y.length / 8 = y.length := Nat.mul_div_cancel_left _ (by decide)
  rw [bitsToBytes, bytesToBits_length, hdiv, bytesToBits, slices_flatMap bits8_length, List.map_map]
  simp [Function.comp_def, byteOf_bits8]

section Stages

variable {s : State}

theorem t2bStage_of_chars {t : List CodePoint} (ht : ∀ c ∈ t, c.toNat ≤ 255) (hroom : s.Room (8 * t.length)) :
    t2bStage s t = Report.pure (bytesToBits (t.map fun c => c.setWidth 8)) := by
  have hnone : (t.findIdx? fun c : CodePoint => decide (charMax < c.toNat)) = none :=
    List.findIdx?_eq_none_iff.mpr fun c hc => decide_eq_false (Nat.not_lt.mpr (ht c hc))
  rw [t2bStage, hnone, bytesToBits, List.flatMap_map]
  exact Report.fit_pure (by rwa [length_flatMap_bits8])

/-- The first code point above 255 raises `EncodingError` with its index (41_bit_converter R131). -/
theorem t2bStage_of_large {t : List CodePoint} {i : Nat} {c : CodePoint} (hi : t[i]? = some c) (hc : 255 < c.toNat)
    (hfirst : ∀ c' ∈ t.take i, c'.toNat ≤ 255) : t2bStage s t = Report.fail Flags.clear .encodingError i := by
  obtain ⟨hlt, rfl⟩ := List.getElem?_eq_some_iff.mp hi
  have hsome : (t.findIdx? fun c : CodePoint => decide (charMax < c.toNat)) = some i := by
    refine List.findIdx?_eq_some_iff_getElem.mpr ⟨hlt, decide_eq_true hc, fun j hj => ?_⟩
    rw [decide_eq_true_eq, Nat.not_lt]
    exact hfirst _ (List.mem_take_iff_getElem.mpr ⟨j, by omega, rfl⟩)
  rw [t2bStage, hsome]
  rfl

theorem b2yStage_bytesToBits {y : List Byte} (hroom : s.Room y.length) : b2yStage s (bytesToBits y) = Report.pure y := by
  rw [b2yStage, groupBytes, bitsToBytes_bytesToBits]
  exact Report.fit_pure hroom

theorem frameStage_of_room {fm : FramingMethod} {p : List Byte} (hsize : s.maxFrameSize.toNat ≠ 0)
    (hroom : s.Room (frameBytes s.maxFrameSize.toNat fm p).length) :
    frameStage s fm p = Report.pure (frameBytes s.maxFrameSize.toNat fm p) := by
  rw [frameStage_eq, withFrameSize, beq_false_of_ne hsize]
  exact Report.fit_pure hroom

theorem ecEncodeStage_of_room {ec : ErrorControl} {y : List Byte} (hroom : s.Room (ecBits ec y).length) :
    ecEncodeStage s ec y = Report.pure (ecBits ec y) := by
  rw [ecEncodeStage_eq, Report.fit_pure hroom]

theorem lineEncodeStage_of_room {lc : LineCode} {b : List Bool} (hroom : s.Room (lineSymbols lc b).length) :
    lineEncodeStage s lc b = Report.pure (lineSymbols lc b) := by
  rw [lineEncodeStage_eq, Report.fit_pure hroom]

theorem modulateStage_of_room {cs : CarrierScheme} {lc : LineCode} {d : List Sym} (hlc : lineCode? s.scheme = some lc)
    (hsamples : s.samples ≠ 0) (hroom : s.Room (carrierSamples s cs lc d).length) :
    modulateStage s cs d = Report.pure (carrierSamples s cs lc d) := by
  rw [modulateStage_eq, carrierChecks, hlc]
  dsimp only
  rw [← State.samples, beq_false_of_ne hsamples]
  exact Report.fit_pure hroom

end Stages

end Sys2Proof.Machine

/-! ### `ENCMSG` (O56) -/

namespace Sys2Proof.Machine

theorem le_framedLength (fm f : Nat) (p : List Byte) : p.length ≤ framedLength fm f p := by
  rw [framedLength]
  split <;> omega

theorem le_encodedLength (ec m : Nat) : 8 * m ≤ encodedLength ec m := by
  rw [encodedLength]
  repeat' split
  all_goals omega

/-- The framed bytes of a text of code points up to 255 (46_pipeline_and_channel R280). -/
def messageFrames (s : State) (fm : FramingMethod) (t : List CodePoint) : List Byte :=
  frameBytes s.maxFrameSize.toNat fm (t.map fun c => c.setWidth 8)

/-- The framed bytes as bits under the error control of `SCHEME`. -/
def messageBits (s : State) (fm : FramingMethod) (t : List CodePoint) : List Bool :=
  ecBits (errorControl s.scheme) (messageFrames s fm t)

/-- The digital signal of these bits. -/
def messageSignal (s : State) (lc : LineCode) (fm : FramingMethod) (t : List CodePoint) : List Sym :=
  lineSymbols lc (messageBits s fm t)

section Encmsg

variable {s : State} {t : List CodePoint} {lc : LineCode} {cs : CarrierScheme} {fm : FramingMethod}

theorem length_le_messageFrames (hsize : s.maxFrameSize.toNat ≠ 0) : t.length ≤ (messageFrames s fm t).length := by
  rw [messageFrames, frameBytes_length hsize]
  exact (List.length_map _).symm.le.trans (le_framedLength _ _ _)

theorem messageFrames_le_messageBits : 8 * (messageFrames s fm t).length ≤ (messageBits s fm t).length := by
  rw [messageBits, ecBits_length]
  exact le_encodedLength _ _

theorem messageBits_le_messageSignal : (messageBits s fm t).length ≤ (messageSignal s lc fm t).length := by
  rw [messageSignal, lineSymbols_length]
  split <;> omega

theorem messageSignal_length (h : s.Selects lc cs fm) (hsize : s.maxFrameSize.toNat ≠ 0) :
    (messageSignal s lc fm t).length = signalLength s t := by
  rw [messageSignal, lineSymbols_length, messageBits, ecBits_length, messageFrames, frameBytes_length hsize,
    ← h.framing_eq, ← h.lineCode_eq, ← errctl_eq_number]
  rfl

/-- No stream of the chain is longer than the digital signal or its samples, so room for these two is enough. -/
theorem encodeChain_of_room (h : s.Selects lc cs fm) (hsize : s.maxFrameSize.toNat ≠ 0) (hsamples : s.samples ≠ 0)
    (ht : ∀ c ∈ t, c.toNat ≤ 255) (hsignal : s.Room (messageSignal s lc fm t).length)
    (hroom : s.Room (carrierSamples s cs lc (messageSignal s lc fm t)).length) :
    encodeChain s lc cs fm (errorControl s.scheme) t =
      Report.pure (carrierSamples s cs lc (messageSignal s lc fm t), (messageSignal s lc fm t).length) := by
  have hbits : s.Room (messageBits s fm t).length := hsignal.mono messageBits_le_messageSignal
  have hframes : s.Room (8 * (messageFrames s fm t).length) := hbits.mono messageFrames_le_messageBits
  have htext : s.Room (8 * t.length) := hframes.mono (Nat.mul_le_mul_left 8 (length_le_messageFrames hsize))
  rw [encodeChain, t2bStage_of_chars ht htext, Report.pure_bind,
    b2yStage_bytesToBits (htext.mono (by rw [List.length_map]; omega)), Report.pure_bind,
    frameStage_of_room hsize (hframes.mono (Nat.le_mul_of_pos_left _ (by decide))), Report.pure_bind, ← messageFrames,
    ecEncodeStage_of_room hbits, Report.pure_bind, ← messageBits,
    lineEncodeStage_of_room hsignal, Report.pure_bind, ← messageSignal,
    modulateStage_of_room h.lineCode hsamples hroom, Report.pure_bind]

/-- Under valid selectors, the checks of `ENCMSG` in their order, then its stages (46_pipeline_and_channel R280). -/
theorem encmsgStage_of_selects (h : s.Selects lc cs fm) : encmsgStage s t =
    Report.check (s.maxFrameSize.toNat == 0) .configError 0x0C
      (Report.check (s.samples == 0) .configError 0x04 (encodeChain s lc cs fm (errorControl s.scheme) t)) := by
  rw [encmsgStage, withSelectors_of_selects h, State.samples]

theorem encmsgStage_of_frameSize_zero (h : s.Selects lc cs fm) (hsize : s.maxFrameSize.toNat = 0) :
    encmsgStage s t = Report.fail Flags.clear .configError 0x0C := by
  rw [encmsgStage_of_selects h, hsize]
  rfl

theorem encmsgStage_of_samples_zero (h : s.Selects lc cs fm) (hsize : s.maxFrameSize.toNat ≠ 0) (hsamples : s.samples = 0) :
    encmsgStage s t = Report.fail Flags.clear .configError 0x04 := by
  rw [encmsgStage_of_selects h, beq_false_of_ne hsize, hsamples]
  rfl

/-- Past its checks `ENCMSG` is the chain of its stages. -/
theorem encmsgStage_eq_encodeChain (h : s.Selects lc cs fm) (hsize : s.maxFrameSize.toNat ≠ 0) (hsamples : s.samples ≠ 0) :
    encmsgStage s t = encodeChain s lc cs fm (errorControl s.scheme) t := by
  rw [encmsgStage_of_selects h, beq_false_of_ne hsize, beq_false_of_ne hsamples, Report.check_false, Report.check_false]

theorem exec_encmsg_of_fail {kind : FaultKind} {info : Nat} (h : s.Holds (.char t))
    (hs : encmsgStage s t = Report.fail Flags.clear kind info) : exec .encmsg s = .next (s.afterFault kind info) := by
  obtain ⟨hready, hibuf⟩ := h
  exact transform_of_fail hready (Buffer.char?_eq_some.mpr hibuf) hs

theorem exec_encmsg_of_pure {a : List Sample} {n : Nat} (h : s.Holds (.char t))
    (hs : encmsgStage s t = Report.pure (a, n)) : exec .encmsg s = .next { s with obuf := .sample a, dlen := n } := by
  obtain ⟨hready, hibuf⟩ := h
  have hdone := transform_of_done (finish := fun u r => (u.setObuf (.sample r.1)).setDlen r.2) hready
    (Buffer.char?_eq_some.mpr hibuf) hs
  rwa [State.setFlags_clear] at hdone

end Encmsg

/-- Settles O56: each check that fails first is the fault of the whole stage; past the checks a large code point ends the first
stage of the chain, and without one every stage has room. -/
theorem encmsgEncodesAMessage : Obligations.EncmsgEncodesAMessage := by
  unfold Obligations.EncmsgEncodesAMessage
  refine ⟨rfl, fun s t hs =>
    ⟨fun hreserved => exec_encmsg_of_fail hs (withSelectors_of_reserved hreserved), fun hvalid hsize => ?_,
      fun hvalid hsize hsamples => ?_, fun hvalid hsize hsamples => ?_⟩⟩
  all_goals obtain ⟨lc, cs, fm, h⟩ := s.exists_selects hvalid
  · exact exec_encmsg_of_fail hs (encmsgStage_of_frameSize_zero h (congrArg BitVec.toNat hsize))
  · exact exec_encmsg_of_fail hs (encmsgStage_of_samples_zero h (BitVec.toNat_ne.mp hsize) hsamples)
  have hsize : s.maxFrameSize.toNat ≠ 0 := BitVec.toNat_ne.mp hsize
  have hchain := encmsgStage_eq_encodeChain (t := t) h hsize hsamples.ne'
  constructor
  · intro i c hi hc hfirst
    refine exec_encmsg_of_fail hs ?_
    rw [hchain, encodeChain, t2bStage_of_large hi hc hfirst, Report.fail_bind]
  · intro ht hsignal hroom
    have hlen : (messageSignal s lc fm t).length = signalLength s t := messageSignal_length h hsize
    have hwindows : (carrierSamples s cs lc (messageSignal s lc fm t)).length =
        windowCount s.carrier (signalLength s t) * s.samples := by
      rw [carrierSamples_length, hlen, h.carrier_eq]
    rw [encodeChain_of_room h hsize hsamples.ne' ht (hlen ▸ hsignal) (hwindows ▸ hroom), hlen] at hchain
    exact ⟨_, exec_encmsg_of_pure hs hchain, hwindows⟩

end Sys2Proof.Machine

/-! ### command words: the checks of the decoder (O5 to O8) -/

namespace Sys2Proof

/-- The word fails a check that raises `IllegalCommand` (30_encoding R96). -/
def IsIllegalWord (w : CommandWord) : Prop :=
  rsvField w ≠ 0 ∨ 8 ≤ unitField w ∨ funcCount (unitField w) ≤ funcField w ∨
    (unitHasSchemes (unitField w) = false ∧ schemeField w ≠ 0)

/-- The word names a reserved `SCHEME` in a unit with schemes (30_encoding R96). -/
abbrev HasReservedScheme (w : CommandWord) : Prop :=
  unitHasSchemes (unitField w) = true ∧ schemeCount (unitField w) ≤ schemeField w

theorem not_isIllegalWord_iff {w : CommandWord} : ¬IsIllegalWord w ↔
    rsvField w = 0 ∧ unitField w < 8 ∧ funcField w < funcCount (unitField w) ∧
      (unitHasSchemes (unitField w) = false → schemeField w = 0) := by
  simp only [IsIllegalWord, not_or, not_not, not_le, not_and]

/-- Fields within the tables of 30_encoding R92 and R93 are those of an operation. -/
theorem exists_operationOf {unit scheme func : Nat} (hunit : unit < 8) (hfunc : func < funcCount unit)
    (hscheme : scheme < schemeCount unit) : ∃ i, operationOf unit scheme func = some i := by
  have htable : ∀ u < 8, ∀ f < funcCount u, ∀ c < schemeCount u, (operationOf u c f).isSome = true := by decide
  exact Option.isSome_iff_exists.mp (htable unit hunit func hfunc scheme hscheme)

theorem schemeCount_pos (unit : Nat) : 0 < schemeCount unit := by
  unfold schemeCount
  split <;> decide

section Checks

variable {w : CommandWord}

theorem decode_of_illegal (h : IsIllegalWord w) : decode w = .error .illegalCommand := by
  unfold decode
  split_ifs with hrsv hunit hfunc hfixed
  any_goals rfl
  all_goals exact absurd h (not_isIllegalWord_iff.mpr ⟨not_not.mp hrsv, by omega, by omega, by tauto⟩)

/-- A word that passes the checks for `IllegalCommand` is settled by its `SCHEME` and the table of operations. -/
theorem decode_of_legal (h : ¬IsIllegalWord w) : decode w =
    if HasReservedScheme w then .error .unsupportedScheme
    else (operationOf (unitField w) (schemeField w) (funcField w)).elim (.error .illegalCommand) .ok := by
  obtain ⟨hrsv, hunit, hfunc, hfixed⟩ := not_isIllegalWord_iff.mp h
  rw [decode, if_neg (not_not.mpr hrsv), if_neg hunit.not_ge, if_neg hfunc.not_ge, if_neg fun hno => hno.2 (hfixed hno.1)]
  cases operationOf (unitField w) (schemeField w) (funcField w) <;> rfl

theorem decode_of_reservedScheme (h : ¬IsIllegalWord w) (hs : HasReservedScheme w) :
    decode w = .error .unsupportedScheme := by
  rw [decode_of_legal h, if_pos hs]

theorem exists_decode (h : ¬IsIllegalWord w) (hs : ¬HasReservedScheme w) : ∃ i, decode w = .ok i := by
  obtain ⟨-, hunit, hfunc, hfixed⟩ := not_isIllegalWord_iff.mp h
  have hscheme : schemeField w < schemeCount (unitField w) := by
    cases hu : unitHasSchemes (unitField w) with
    | true => exact not_le.mp fun hle => hs ⟨hu, hle⟩
    | false => exact hfixed hu ▸ schemeCount_pos _
  obtain ⟨i, hi⟩ := exists_operationOf hunit hfunc hscheme
  exact ⟨i, by rw [decode_of_legal h, if_neg hs, hi]; rfl⟩

end Checks

/-- All that decoding a word can give (30_encoding R96, R97). -/
inductive DecodeCases (w : CommandWord) : Prop
  | illegal (h : IsIllegalWord w) (hd : decode w = .error .illegalCommand)
  | reserved (h : ¬IsIllegalWord w) (hs : HasReservedScheme w) (hd : decode w = .error .unsupportedScheme)
  | operation {i : Instr} (h : ¬IsIllegalWord w) (hs : ¬HasReservedScheme w) (hd : decode w = .ok i)

theorem decode_cases (w : CommandWord) : DecodeCases w := by
  by_cases h : IsIllegalWord w
  · exact .illegal h (decode_of_illegal h)
  by_cases hs : HasReservedScheme w
  · exact .reserved h hs (decode_of_reservedScheme h hs)
  · obtain ⟨i, hi⟩ := exists_decode h hs
    exact .operation h hs hi

theorem decode_eq_unsupportedScheme_iff {w : CommandWord} :
    decode w = .error .unsupportedScheme ↔ ¬IsIllegalWord w ∧ HasReservedScheme w := by
  cases decode_cases w with
  | illegal h hd => exact iff_of_false (by simp [hd]) fun hw => hw.1 h
  | reserved h hs hd => exact iff_of_true hd ⟨h, hs⟩
  | operation h hs hd => exact iff_of_false (by simp [hd]) fun hw => hs hw.2

/-- Settles O5: a word that decodes is put together from the fields of its operation. -/
theorem decodeInvertsEncode : Obligations.DecodeInvertsEncode := by
  unfold Obligations.DecodeInvertsEncode
  refine fun w i => ⟨eq_encode_of_decode, ?_⟩
  rintro rfl
  exact decode_encode i

/-- Settles O8: each of the eight words is the word of its operation. -/
theorem wordsOfTheOpcodeMapDecode : Obligations.WordsOfTheOpcodeMapDecode := by
  unfold Obligations.WordsOfTheOpcodeMapDecode
  exact ⟨decode_encode .rst, decode_encode .y2t, decode_encode .ecCrcChk, decode_encode .frBsF, decode_encode .lcBipDec,
    decode_encode .cmFskDem, decode_encode .decmsg, decode_encode .biterr⟩

/-! #### the fields as numbers (O6) -/

section Fields

variable (w : CommandWord)

theorem unitField_eq : unitField w = w.toNat / 4096 := by
  have := w.isLt
  simp only [unitField, BitVec.extractLsb'_toNat, Nat.shiftRight_eq_div_pow]
  omega

theorem schemeField_eq : schemeField w = w.toNat / 256 % 16 := by
  simp only [schemeField, BitVec.extractLsb'_toNat, Nat.shiftRight_eq_div_pow, Nat.reducePow]

theorem funcField_eq : funcField w = w.toNat / 16 % 16 := by
  simp only [funcField, BitVec.extractLsb'_toNat, Nat.shiftRight_eq_div_pow, Nat.reducePow]

theorem rsvField_eq : rsvField w = w.toNat % 16 := by
  simp only [rsvField, BitVec.extractLsb'_toNat, Nat.shiftRight_zero, Nat.reducePow]

end Fields

/-- The number of `FUNC` values, as the list of 30_encoding R93. -/
theorem funcCount_eq_getD : ∀ unit, funcCount unit = [4, 5, 2, 2, 2, 2, 2, 1].getD unit 0
  | 0 | 1 | 2 | 3 | 4 | 5 | 6 | 7 | _ + 8 => rfl

/-- The number of `SCHEME` values of the units with schemes, as the list of 30_encoding R92. -/
theorem schemeCount_eq_getD {unit : Nat} (h : unit ∈ [2, 3, 4, 5]) : schemeCount unit = [0, 0, 4, 2, 3, 3].getD unit 0 := by
  revert unit
  decide

theorem unitHasSchemes_iff_mem (unit : Nat) : unitHasSchemes unit = true ↔ unit ∈ [2, 3, 4, 5] := by
  simp only [unitHasSchemes, Bool.and_eq_true, decide_eq_true_eq, List.mem_cons, List.not_mem_nil, or_false]
  omega

theorem unitHasSchemes_eq_false_iff_mem {unit : Nat} (h : unit < 8) :
    unitHasSchemes unit = false ↔ unit ∈ [0, 1, 6, 7] := by
  rw [← Bool.not_eq_true, unitHasSchemes_iff_mem]
  simp only [List.mem_cons, List.not_mem_nil, or_false]
  omega

theorem isIllegalWord_iff (w : CommandWord) : IsIllegalWord w ↔
    w.toNat % 16 ≠ 0 ∨ 8 ≤ w.toNat / 4096 ∨ [4, 5, 2, 2, 2, 2, 2, 1].getD (w.toNat / 4096) 0 ≤ w.toNat / 16 % 16 ∨
      (w.toNat / 4096 ∈ [0, 1, 6, 7] ∧ w.toNat / 256 % 16 ≠ 0) := by
  rw [IsIllegalWord, rsvField_eq, unitField_eq, funcField_eq, schemeField_eq, funcCount_eq_getD]
  refine or_congr_right (or_congr_right' fun hunit => or_congr_right ?_)
  rw [unitHasSchemes_eq_false_iff_mem (not_le.mp hunit)]

theorem hasReservedScheme_iff (w : CommandWord) : HasReservedScheme w ↔
    w.toNat / 4096 ∈ [2, 3, 4, 5] ∧ [0, 0, 4, 2, 3, 3].getD (w.toNat / 4096) 0 ≤ w.toNat / 256 % 16 := by
  rw [HasReservedScheme, unitField_eq, schemeField_eq, unitHasSchemes_iff_mem]
  exact and_congr_right fun hunit => by rw [schemeCount_eq_getD hunit]

end Sys2Proof

namespace Sys2Proof.Machine

section Command

variable {s : State} {w : CommandWord}

theorem command_of_operation {i : Instr} (h : decode w = .ok i) : command w s = exec i s := by rw [command, h]

theorem command_of_error {e : DecodeError} (hready : s.fault = none) (h : decode w = .error e) :
    command w s = .next (s.afterFault (decodeCause w e).kind (decodeCause w e).info) := by
  rw [command, h]
  exact unlessFaulted_of_ready hready

end Command

/-- Settles O6: the checks of the decoder are those of the statement, and a word that passes them is an operation's. -/
theorem commandWordsAreCheckedInOrder : Obligations.CommandWordsAreCheckedInOrder := by
  unfold Obligations.CommandWordsAreCheckedInOrder
  intro s w hready
  dsimp only
  cases decode_cases w with
  | illegal h hd =>
    rw [if_pos ((isIllegalWord_iff w).mp h)]
    exact command_of_error hready hd
  | reserved h hs hd =>
    rw [if_neg (mt (isIllegalWord_iff w).mpr h), if_pos ((hasReservedScheme_iff w).mp hs)]
    exact command_of_error hready hd
  | @operation i h hs hd =>
    rw [if_neg (mt (isIllegalWord_iff w).mpr h), if_neg (mt (hasReservedScheme_iff w).mpr hs)]
    have hw : w = encode i := eq_encode_of_decode hd
    refine ⟨i, hw.symm, fun j hj => ?_, command_of_operation hd⟩
    rw [← hj, decode_encode] at hd
    exact Except.ok.inj hd

end Sys2Proof.Machine

/-! ### how many words of each kind there are (O7) -/

namespace Sys2Proof

/-- A property of the numbers below `n` is counted by any list of those that have it. -/
theorem countP_range_eq_length {n : Nat} {p : Nat → Bool} {l : List Nat} (hl : l.Nodup)
    (h : ∀ w, w ∈ l ↔ w < n ∧ p w = true) : (List.range n).countP p = l.length := by
  rw [List.countP_eq_length_filter]
  refine List.Perm.length_eq ((List.perm_ext_iff_of_nodup (List.nodup_range.filter p) hl).mpr fun w => ?_)
  rw [List.mem_filter, List.mem_range, h]

theorem encode_injective : Function.Injective encode := fun i j h =>
  Except.ok.inj (by rw [← decode_encode i, h, decode_encode j])

theorem Instr.mem_all (i : Instr) : i ∈ Instr.all := by cases i <;> decide

/-- The words of the operations, as numbers (30_encoding R95). -/
def operationWords : List Nat := Instr.all.map fun i => (encode i).toNat

theorem operationWords_nodup : operationWords.Nodup :=
  List.Nodup.map (fun _ _ h => encode_injective (BitVec.eq_of_toNat_eq h)) (by decide : Instr.all.Nodup)

theorem mem_operationWords {w : Nat} :
    w ∈ operationWords ↔ w < 65536 ∧ ∃ i ∈ Instr.all, decode (BitVec.ofNat 16 w) = .ok i := by
  simp only [operationWords, List.mem_map]
  constructor
  · rintro ⟨i, hi, rfl⟩
    exact ⟨(encode i).isLt, i, hi, by rw [BitVec.ofNat_toNat, BitVec.setWidth_eq, decode_encode]⟩
  · rintro ⟨hlt, i, hi, hd⟩
    exact ⟨i, hi, by rw [← eq_encode_of_decode hd, BitVec.toNat_ofNat, Nat.mod_eq_of_lt hlt]⟩

/-- The words with a reserved `SCHEME` in a unit with schemes, a `FUNC` of 0 or 1 and no bits in `RSV`, as numbers
(30_encoding R96). -/
def reservedSchemeWords : List Nat :=
  [2, 3, 4, 5].flatMap fun unit => (List.range' (schemeCount unit) (16 - schemeCount unit)).flatMap fun scheme =>
    [0, 1].map fun func => 4096 * unit + 256 * scheme + 16 * func

theorem reservedSchemeWords_nodup : reservedSchemeWords.Nodup := by decide +kernel

theorem funcCount_of_hasSchemes {unit : Nat} (h : unitHasSchemes unit = true) : funcCount unit = 2 := by
  rw [unitHasSchemes_iff_mem] at h
  revert unit
  decide

theorem mem_reservedSchemeWords {w : Nat} :
    w ∈ reservedSchemeWords ↔ w < 65536 ∧ decode (BitVec.ofNat 16 w) = .error .unsupportedScheme := by
  rw [decode_eq_unsupportedScheme_iff, not_isIllegalWord_iff, HasReservedScheme, rsvField_eq, unitField_eq, funcField_eq,
    schemeField_eq, BitVec.toNat_ofNat]
  simp only [reservedSchemeWords, List.mem_flatMap, List.mem_map, List.mem_range'_1]
  constructor
  · rintro ⟨unit, hunit, scheme, hscheme, func, hfunc, rfl⟩
    have hhas : unitHasSchemes unit = true := (unitHasSchemes_iff_mem unit).mpr hunit
    have hcount := funcCount_of_hasSchemes hhas
    simp only [List.mem_cons, List.not_mem_nil, or_false] at hunit hfunc
    have hu : (4096 * unit + 256 * scheme + 16 * func) % 2 ^ 16 / 4096 = unit := by omega
    have hs : (4096 * unit + 256 * scheme + 16 * func) % 2 ^ 16 / 256 % 16 = scheme := by omega
    rw [hu, hs, hcount, hhas]
    exact ⟨by omega, ⟨by omega, by omega, by omega, nofun⟩, rfl, hscheme.1⟩
  · rintro ⟨hlt, ⟨hrsv, -, hfunc, -⟩, hhas, hreserved⟩
    rw [Nat.mod_eq_of_lt hlt] at *
    rw [funcCount_of_hasSchemes hhas] at hfunc
    refine ⟨w / 4096, (unitHasSchemes_iff_mem _).mp hhas, w / 256 % 16, ⟨hreserved, by omega⟩, w / 16 % 16, ?_, by omega⟩
    simp only [List.mem_cons, List.not_mem_nil, or_false]
    omega

theorem countP_operation :
    ((List.range 65536).countP fun w => decide (∃ i ∈ Instr.all, decode (BitVec.ofNat 16 w) = .ok i)) = 36 :=
  countP_range_eq_length operationWords_nodup fun _ => by rw [mem_operationWords, decide_eq_true_iff]

theorem countP_unsupportedScheme :
    ((List.range 65536).countP fun w => decide (decode (BitVec.ofNat 16 w) = .error .unsupportedScheme)) = 104 :=
  countP_range_eq_length reservedSchemeWords_nodup fun _ => by rw [mem_reservedSchemeWords, decide_eq_true_iff]

/-- Each word is an operation or has one of the two reasons why not. -/
theorem countP_decode (l : List Nat) :
    (l.countP fun w => decide (∃ i ∈ Instr.all, decode (BitVec.ofNat 16 w) = .ok i)) +
      (l.countP fun w => decide (decode (BitVec.ofNat 16 w) = .error .unsupportedScheme)) +
      (l.countP fun w => decide (decode (BitVec.ofNat 16 w) = .error .illegalCommand)) = l.length := by
  induction l with
  | nil => rfl
  | cons w l ih =>
    simp only [List.countP_cons, List.length_cons]
    rcases decode (BitVec.ofNat 16 w) with (_ | _) | i
    · simp; omega
    · simp; omega
    · simp [Instr.mem_all]; omega

end Sys2Proof

namespace Sys2Proof.Machine

/-- An operation that reads IBUF raises `OperandTypeError` on a buffer of another type (41_bit_converter R130). -/
theorem exec_checksType {i : Instr} {tag : Nat} (hi : inputTag i = some tag) : ChecksType i tag := by
  intro s hready htag
  cases i <;> cases hi
  case t2b | encmsg => exact transform_of_type hready (Buffer.char?_eq_none.mpr htag)
  case b2y | s2y | ecNoneChk | ecParChk | ecCrcChk | ecHamDec | lcNrzEnc | lcManEnc | lcBipEnc | biterr =>
    exact transform_of_type hready (Buffer.bit?_eq_none.mpr htag)
  case y2s | y2t | ecNoneEnc | ecParEnc | ecCrcEnc | ecHamEnc | frCcF | frCcD | frBsF | frBsD =>
    exact transform_of_type hready (Buffer.byte?_eq_none.mpr htag)
  case lcNrzDec | lcManDec | lcBipDec | cmAskMod | cmFskMod | cmQamMod =>
    exact transform_of_type hready (Buffer.sym?_eq_none.mpr htag)
  case cmAskDem | cmFskDem | cmQamDem | decmsg => exact transform_of_type hready (Buffer.sample?_eq_none.mpr htag)

theorem inputTag_ne_zero {i : Instr} : inputTag i ≠ some 0 := by cases i <;> decide

/-- `NOP` is the only operation that changes no state (30_encoding R97): the others move or empty a buffer, end a fault, or
raise `OperandTypeError` on an empty IBUF. -/
theorem exists_changed {i : Instr} (hi : i ≠ .nop) : ∃ s t : State, exec i s = .next t ∧ t ≠ s := by
  cases htag : inputTag i with
  | some tag =>
    refine ⟨State.reset, _, exec_checksType htag State.reset rfl fun h => inputTag_ne_zero (htag.trans (h ▸ rfl)), ?_⟩
    exact fun h => nomatch congrArg State.fault h
  | none =>
    cases i with
    | nop => exact absurd rfl hi
    | xfer => exact ⟨{ State.reset with obuf := .bit [] }, _, rfl, fun h => nomatch congrArg State.obuf h⟩
    | clr | rst => exact ⟨{ State.reset with fault := some .framingError }, _, rfl, fun h => nomatch congrArg State.fault h⟩
    | _ => cases htag

/-- Settles O7: two of the counts by a list of the words, the third as the rest. -/
theorem commandWordsAreCounted : Obligations.CommandWordsAreCounted := by
  unfold Obligations.CommandWordsAreCounted
  have hsum := countP_decode (List.range 65536)
  rw [countP_operation, countP_unsupportedScheme, List.length_range] at hsum
  refine ⟨countP_operation, (List.countP_congr fun w _ => ?_).trans countP_unsupportedScheme,
    (List.countP_congr fun w _ => ?_).trans (by omega :
      ((List.range 65536).countP fun w => decide (decode (BitVec.ofNat 16 w) = .error .illegalCommand)) = 65396),
    fun _ => rfl, fun _ => exists_changed⟩
  all_goals rcases decode (BitVec.ofNat 16 w) with (_ | _) | _ <;> simp

end Sys2Proof.Machine

/-! ### the lines `LD` and `OUT` (O15) -/

namespace Sys2Proof

/-- The finite pattern in the low 64 bits of a value, 0.0 where there is none. -/
def Finite64.ofNatOrZero (v : Nat) : Finite64 := (Finite64.ofNat? v).getD Finite64.zero

theorem Finite64.ofNat?_eq_some {v : Nat} (h : finitePattern v = true) : Finite64.ofNat? v = some (Finite64.ofNatOrZero v) := by
  obtain ⟨x, hx⟩ := Finite64.isSome_of_finitePattern h
  rw [Finite64.ofNatOrZero, hx]
  rfl

end Sys2Proof

namespace Sys2Proof.Machine

theorem runEvents_cons {e : HostEvent} {s t : State} (h : hostEvent e s = .next t) (es : List HostEvent) :
    runEvents (e :: es) s = runEvents es t := by rw [runEvents, h]

section Load

variable {α : Type} {mk : List α → Buffer} {conv : Nat → α} {l : List Nat}

/-- Writes of `IDATA` append their values in order, each as the type of IBUF takes it. -/
theorem runEvents_idata (hlen : ∀ d, (mk d).len = d.length) (hne : ∀ d, mk d ≠ .none)
    (happend : ∀ v ∈ l, ∀ d, (mk d).append? v = some (mk (d ++ [conv v]))) {s : State} {d : List α} (hd : s.ibuf = mk d)
    (hroom : s.Room (d.length + l.length)) :
    runEvents (l.map (writeOf .idata)) s = .next { s with ibuf := mk (d ++ l.map conv) } := by
  induction l generalizing s d with
  | nil => rw [List.map_nil, List.map_nil, List.append_nil, ← hd]; rfl
  | cons v l ih =>
    rw [List.length_cons] at hroom
    have hfirst : hostEvent (writeOf .idata v) s = .next { s with ibuf := mk (d ++ [conv v]) } := by
      refine regWrite_idata_append (hroom.mono ?_) hd (hne d) (happend v List.mem_cons_self d)
      rw [hd, hlen]
      omega
    rw [List.map_cons, runEvents_cons hfirst, ih (fun u hu => happend u (List.mem_cons_of_mem v hu)) rfl]
    · simp
    · exact hroom.mono (by simp; omega)

/-- An `LD` line selects the type and appends its elements to the empty stream (30_encoding R110). -/
theorem runEvents_ld (type : ElemType) (htype : Buffer.emptyOfTag (ElemType.tag type) = mk [])
    (hlen : ∀ d, (mk d).len = d.length) (hne : ∀ d, mk d ≠ .none)
    (happend : ∀ v ∈ l, ∀ d, (mk d).append? v = some (mk (d ++ [conv v]))) {s : State} (hroom : s.Room l.length) :
    runEvents (Line.expand 0 (.ld type l)) s = .next { s with ibuf := mk (l.map conv) } := by
  have hselect : hostEvent (writeOf .itype (ElemType.tag type)) s = .next { s with ibuf := mk [] } := by
    rw [← htype]
    rfl
  exact (runEvents_cons hselect _).trans (runEvents_idata (d := []) hlen hne happend rfl (hroom.mono (by simp)))

end Load

/-- The two events that read one element of OBUF, for each index: the elements are observed, and `OIDX` is left at the last
(10_state R39). -/
theorem runEvents_elements (is : List Nat) (his : ∀ i ∈ is, i < 2 ^ 32) (s : State) :
    ∃ o, runEvents (is.flatMap fun i => [writeOf .oidx i, readOf .odata]) s =
      .next { s with oidx := o, observed := s.observed ++ is.map s.obuf.elementAt } := by
  induction is generalizing s with
  | nil => exact ⟨s.oidx, by simp [runEvents]⟩
  | cons i is ih =>
    have hselect : hostEvent (writeOf .oidx i) s = .next { s with oidx := BitVec.ofNat 32 i } := rfl
    have hread : hostEvent (readOf .odata) { s with oidx := BitVec.ofNat 32 i } =
        .next { s with oidx := BitVec.ofNat 32 i, observed := s.observed ++ [s.obuf.elementAt i] } := by
      change Host.Outcome.next (State.observe _ (s.obuf.elementAt (BitVec.ofNat 32 i).toNat)) = _
      rw [BitVec.toNat_ofNat, Nat.mod_eq_of_lt (his i List.mem_cons_self)]
      rfl
    obtain ⟨o, ho⟩ := ih (fun j hj => his j (List.mem_cons_of_mem i hj))
      { s with oidx := BitVec.ofNat 32 i, observed := s.observed ++ [s.obuf.elementAt i] }
    refine ⟨o, ?_⟩
    rw [List.flatMap_cons, List.cons_append, List.cons_append, List.nil_append, runEvents_cons hselect,
      runEvents_cons hread, ho]
    simp

/-- An `OUT` line observes the tag, the length and the elements of OBUF (30_encoding R110). -/
theorem runEvents_out {s : State} (h : s.obuf.len ≤ 2 ^ 32) : ∃ o, runEvents (Line.expand s.obuf.len .out) s =
    .next { s with
      oidx := o
      observed := s.observed ++ [s.obuf.tag, s.obuf.len] ++ (List.range s.obuf.len).map s.obuf.elementAt } := by
  obtain ⟨o, ho⟩ := runEvents_elements (List.range s.obuf.len) (fun i hi => (List.mem_range.mp hi).trans_le h)
    ((s.observe s.obuf.tag).observe s.obuf.len)
  refine ⟨o, ?_⟩
  have htag : hostEvent (readOf .otype) s = .next (s.observe s.obuf.tag) := rfl
  have hlen : hostEvent (readOf .olen) (s.observe s.obuf.tag) = .next ((s.observe s.obuf.tag).observe s.obuf.len) := rfl
  rw [Line.expand, runEvents_cons htag, runEvents_cons hlen, ho]
  simp [State.observe]

/-- Settles O15: an `LD` line by its type, an `OUT` line element by element. -/
theorem linesLoadAndReadBack : Obligations.LinesLoadAndReadBack := by
  unfold Obligations.LinesLoadAndReadBack
  refine ⟨fun s l hroom => ⟨?_, ?_, ?_, ?_, fun hfinite => ?_⟩, fun s h => ?_⟩
  · exact runEvents_ld .char rfl (fun _ => rfl) nofun (fun _ _ _ => rfl) hroom
  · exact runEvents_ld .bit rfl (fun _ => rfl) nofun (fun _ _ _ => by rw [← Nat.testBit_zero]; rfl) hroom
  · exact runEvents_ld .byte rfl (fun _ => rfl) nofun (fun _ _ _ => rfl) hroom
  · exact runEvents_ld .sym rfl (fun _ => rfl) nofun (fun _ _ _ => rfl) hroom
  · have hpattern (v : Nat) (hv : v ∈ l) : Finite64.ofNat? v = some (Finite64.ofNatOrZero v) :=
      Finite64.ofNat?_eq_some (List.all_eq_true.mp hfinite v hv)
    refine ⟨l.map Finite64.ofNatOrZero, ?_, ?_⟩
    · rw [List.map_map]
      exact List.map_congr_left fun v hv => Finite64.toNat_of_ofNat? (hpattern v hv)
    · rw [List.map_map]
      exact runEvents_ld .sample rfl (fun _ => rfl) nofun (fun v hv _ => by rw [Buffer.append?, hpattern v hv]; rfl) hroom
  · obtain ⟨o, ho⟩ := runEvents_out h
    exact ⟨_, ho, rfl, rfl⟩

end Sys2Proof.Machine

/-! ### the system operations `NOP`, `XFER` and `CLR` (O2 to O4) -/

namespace Sys2Proof.Machine

theorem exec_nop (s : State) : exec .nop s = .next s := rfl

theorem exec_clr (s : State) : exec .clr s = .next s.clearMessage := rfl

theorem exec_xfer_of_ready {s : State} (h : s.fault = none) :
    exec .xfer s = .next ((s.setIbuf s.obuf).setObuf .none) := unlessFaulted_of_ready h

/-- In the fault state `XFER` is dropped (60_exceptions R311). -/
theorem exec_xfer_of_fault {s : State} (h : s.fault ≠ none) : exec .xfer s = .next s := unlessFaulted_of_fault h

/-- The first operation of a sequence hands its state to the rest (20_memory R73). -/
theorem runOps_cons {i : Instr} {s t : State} (h : exec i s = .next t) (is : List Instr) :
    runOps (i :: is) s = runOps is t := by rw [runOps, h]

theorem runOps_singleton {i : Instr} {s t : State} (h : exec i s = .next t) : runOps [i] s = .next t := runOps_cons h []

/-- `XFER` raises no fault and leaves OBUF empty, so a second `XFER` runs and moves the empty buffer. -/
theorem runOps_xfer_xfer {s : State} (h : s.fault = none) :
    runOps [.xfer, .xfer] s = .next ((s.setIbuf .none).setObuf .none) :=
  have hready : ((s.setIbuf s.obuf).setObuf .none).fault = none := h
  (runOps_cons (exec_xfer_of_ready h) _).trans (runOps_singleton (exec_xfer_of_ready hready))

/-- Settles O2: `NOP` answers the state it is given. -/
theorem nopChangesNothing : Obligations.NopChangesNothing := by
  unfold Obligations.NopChangesNothing
  exact ⟨decode_encode .nop, exec_nop⟩

/-- Settles O3: `XFER` by whether a fault stands, and twice. -/
theorem xferMovesTheOutput : Obligations.XferMovesTheOutput := by
  unfold Obligations.XferMovesTheOutput
  exact ⟨decode_encode .xfer, fun _ => ⟨exec_xfer_of_ready, exec_xfer_of_fault, runOps_xfer_xfer⟩⟩

/-- Settles O4: `CLR` is `clearMessage`, whether or not a fault stands. -/
theorem clrEndsTheMessage : Obligations.ClrEndsTheMessage := by
  unfold Obligations.ClrEndsTheMessage
  exact ⟨decode_encode .clr, exec_clr⟩

end Sys2Proof.Machine

/-! ### streams of bits and bytes, element by element (41_bit_converter R132, R135, R139) -/

namespace Sys2Proof.Machine

theorem length_of_mem_slices {α : Type} {n k : Nat} {l piece : List α} (h : k * n ≤ l.length)
    (hp : piece ∈ slices n k l) : piece.length = n := by
  obtain ⟨i, hi, rfl⟩ := List.mem_map.mp hp
  have hend : (i + 1) * n ≤ k * n := Nat.mul_le_mul_right n (List.mem_range.mp hi)
  rw [Nat.add_one_mul] at hend
  rw [List.length_take, List.length_drop]
  omega

theorem getElem?_bits8 (b : Byte) {k : Nat} (hk : k < 8) : (bits8 b)[k]? = some (b.getLsbD (7 - k)) := by
  simp [bits8, hk]

/-- Eight bits are the bits of the byte that they make (00_scope R10). -/
theorem bits8_byteOf : ∀ {g : List Bool}, g.length = 8 → bits8 (byteOf g) = g
  | [b7, b6, b5, b4, b3, b2, b1, b0], _ => by revert b7 b6 b5 b4 b3 b2 b1 b0; decide

/-- Bit `k` of a byte stream stands at place `k` of its bits. -/
theorem getElem?_bytesToBits (y : List Byte) (k : Nat) : (bytesToBits y)[k]? = byteBit? y k := by
  induction y generalizing k with
  | nil => rfl
  | cons b y ih =>
    have hcons : bytesToBits (b :: y) = bits8 b ++ bytesToBits y := List.flatMap_cons
    rw [hcons]
    by_cases hk : k < 8
    · rw [List.getElem?_append_left (by rwa [bits8_length]), getElem?_bits8 b hk, byteBit?, Nat.div_eq_of_lt hk,
        Nat.mod_eq_of_lt hk]
      rfl
    · obtain ⟨j, rfl⟩ := Nat.exists_eq_add_of_le (Nat.le_of_not_lt hk)
      rw [List.getElem?_append_right (by rw [bits8_length]; omega), bits8_length, Nat.add_sub_cancel_left, ih, byteBit?,
        byteBit?, Nat.add_div_left j (by decide), Nat.add_mod_left, List.getElem?_cons_succ]

theorem bitsOf_bytesToBits (y : List Byte) : BitsOf y (bytesToBits y) :=
  ⟨bytesToBits_length y, getElem?_bytesToBits y⟩

/-- The bits of the whole bytes of a bit stream are its first `8 * floor(n / 8)` bits (41_bit_converter R139). -/
theorem bytesToBits_bitsToBytes (b : List Bool) : bytesToBits (bitsToBytes b).1 = b.take (8 * (b.length / 8)) := by
  have hpieces : ∀ g ∈ slices 8 (b.length / 8) b, bits8 (byteOf g) = g := fun g hg =>
    bits8_byteOf (length_of_mem_slices (Nat.div_mul_le_self _ _) hg)
  calc bytesToBits (bitsToBytes b).1
      = ((slices 8 (b.length / 8) b).map fun g => bits8 (byteOf g)).flatten := by
        rw [bytesToBits, bitsToBytes, List.flatMap_map, List.flatMap_def]
    _ = (slices 8 (b.length / 8) b).flatten := by rw [List.map_congr_left hpieces, List.map_id']
    _ = b.take (8 * (b.length / 8)) := by rw [slices_flatten, Nat.mul_comm]

theorem bytesOf_bitsToBytes (b : List Bool) : BytesOf b (bitsToBytes b).1 :=
  ⟨bitsToBytes_length b, fun k hk => by
    rw [← getElem?_bytesToBits, bytesToBits_bitsToBytes, List.getElem?_take_of_lt hk]⟩

/-- A code point up to 255 is the code point of its byte (41_bit_converter R131, R138). -/
theorem setWidth_setWidth_of_le {c : CodePoint} (hc : c.toNat ≤ 255) : (c.setWidth 8).setWidth 32 = c := by
  apply BitVec.eq_of_toNat_eq
  rw [BitVec.toNat_setWidth, BitVec.toNat_setWidth]
  omega

/-- Widening a byte keeps its value (41_bit_converter R138). -/
theorem map_toNat_setWidth (y : List Byte) :
    (y.map fun v => (v.setWidth 32 : CodePoint)).map BitVec.toNat = y.map BitVec.toNat := by
  rw [List.map_map]
  exact List.map_congr_left fun v _ => BitVec.toNat_setWidth_of_le (by decide)

/-- The bits of a text are the low eight bits of its code points (41_bit_converter R131). -/
theorem getElem?_bytesToBits_chars (t : List CodePoint) (k : Nat) :
    (bytesToBits (t.map fun c => c.setWidth 8))[k]? = t[k / 8]?.map fun c => c.getLsbD (7 - k % 8) := by
  have hplace : 7 - k % 8 < 8 := by omega
  simp [getElem?_bytesToBits, byteBit?, Function.comp_def, hplace]

end Sys2Proof.Machine

/-! ### the Bit Converter on a buffer of the type it takes (O19, O25 to O29) -/

namespace Sys2Proof.Machine

theorem Flags.or_truncation (f : Flags) (cut : Bool) : f.or (Flags.truncation cut) = { f with trunc := f.trunc || cut } := by
  simp [Flags.or, Flags.truncation]

/-- A result that has no room raises `CapacityError` with its length (20_memory R72). -/
theorem Report.fit_pure_over {α : Type} {s : State} {l : List α} (h : ¬s.Room l.length) :
    (Report.pure l).fit s.bufCap = Report.fail Flags.clear .capacityError l.length :=
  Report.fit_over (Bool.eq_false_iff.mpr fun hfits => h ((fits_iff_room s _).mp hfits))

/-- A stage that sets no flag changes OBUF and nothing else. -/
theorem transform_of_pure {α β : Type} {s : State} {take : Buffer → Option α} {stage : α → Report β} {mk : β → Buffer}
    {a : α} {b : β} (h : s.fault = none) (ht : take s.ibuf = some a) (hs : stage a = Report.pure b) :
    transform s take stage (fun s' b => s'.setObuf (mk b)) = .next (s.setObuf (mk b)) := by
  rw [transform_of_done h ht hs, State.setFlags_clear]

section Operations

variable {s : State}

/-- Grouping never outgrows its input, so its bytes have room; `TRUNC` is set where bits are left over. -/
theorem b2yStage_of_room {b : List Bool} (hroom : s.Room b.length) :
    b2yStage s b = ⟨Flags.truncation (b.length % 8 ≠ 0), .ok (bitsToBytes b).1⟩ := by
  have hcut : (bitsToBytes b).2 = decide (b.length % 8 ≠ 0) := by simp [bitsToBytes, bne, beq_eq_decide]
  rw [b2yStage, groupBytes, Flags.clear_or, hcut]
  refine Report.fit_ok ((fits_iff_room s _).mpr (hroom.mono ?_))
  rw [bitsToBytes_length]
  exact Nat.div_le_self _ _

theorem s2yStage_of_whole {b : List Bool} (hb : b.length % 8 = 0) (hroom : s.Room b.length) :
    s2yStage s b = Report.pure (bitsToBytes b).1 := by
  rw [s2yStage, hb]
  refine Report.fit_pure (hroom.mono ?_)
  rw [bitsToBytes_length]
  exact Nat.div_le_self _ _

theorem s2yStage_of_partial {b : List Bool} (hb : b.length % 8 ≠ 0) :
    s2yStage s b = Report.fail Flags.clear .lengthError b.length := by
  rw [s2yStage, bne_iff_ne.mpr hb]
  rfl

theorem t2bStage_of_chars_over {t : List CodePoint} (ht : ∀ c ∈ t, c.toNat ≤ 255) (hroom : ¬s.Room (8 * t.length)) :
    t2bStage s t = Report.fail Flags.clear .capacityError (8 * t.length) := by
  have hnone : (t.findIdx? fun c : CodePoint => decide (charMax < c.toNat)) = none :=
    List.findIdx?_eq_none_iff.mpr fun c hc => decide_eq_false (Nat.not_lt.mpr (ht c hc))
  have hlen : (t.flatMap fun c : CodePoint => bits8 (c.setWidth 8)).length = 8 * t.length := length_flatMap_bits8 _ t
  rw [t2bStage, hnone, ← hlen]
  exact Report.fit_pure_over (by rwa [hlen])

theorem exec_t2b_of_chars {t : List CodePoint} (h : s.Holds (.char t)) (ht : ∀ c ∈ t, c.toNat ≤ 255)
    (hroom : s.Room (8 * t.length)) :
    exec .t2b s = .next (s.setObuf (.bit (bytesToBits (t.map fun c => c.setWidth 8)))) := by
  obtain ⟨hready, hibuf⟩ := h
  exact transform_of_pure hready (Buffer.char?_eq_some.mpr hibuf) (t2bStage_of_chars ht hroom)

theorem exec_t2b_of_fail {t : List CodePoint} {kind : FaultKind} {info : Nat} (h : s.Holds (.char t))
    (hs : t2bStage s t = Report.fail Flags.clear kind info) : exec .t2b s = .next (s.afterFault kind info) := by
  obtain ⟨hready, hibuf⟩ := h
  exact transform_of_fail hready (Buffer.char?_eq_some.mpr hibuf) hs

theorem exec_b2y_of_room {b : List Bool} (h : s.Holds (.bit b)) (hroom : s.Room b.length) :
    exec .b2y s = .next ((s.setFlags (Flags.truncation (b.length % 8 ≠ 0))).setObuf (.byte (bitsToBytes b).1)) := by
  obtain ⟨hready, hibuf⟩ := h
  exact transform_of_done hready (Buffer.bit?_eq_some.mpr hibuf) (b2yStage_of_room hroom)

/-- On the bits of whole bytes `B2Y` sets no flag, and needs room for the bytes only. -/
theorem exec_b2y_bytesToBits {y : List Byte} (h : s.Holds (.bit (bytesToBits y))) (hroom : s.Room y.length) :
    exec .b2y s = .next (s.setObuf (.byte y)) := by
  obtain ⟨hready, hibuf⟩ := h
  exact transform_of_pure hready (Buffer.bit?_eq_some.mpr hibuf) (b2yStage_bytesToBits hroom)

theorem exec_y2s_of_room {y : List Byte} (h : s.Holds (.byte y)) (hroom : s.Room (8 * y.length)) :
    exec .y2s s = .next (s.setObuf (.bit (bytesToBits y))) := by
  obtain ⟨hready, hibuf⟩ := h
  exact transform_of_pure hready (Buffer.byte?_eq_some.mpr hibuf) (Report.fit_pure (by rwa [bytesToBits_length]))

theorem exec_y2s_of_over {y : List Byte} (h : s.Holds (.byte y)) (hroom : ¬s.Room (8 * y.length)) :
    exec .y2s s = .next (s.afterFault .capacityError (8 * y.length)) := by
  obtain ⟨hready, hibuf⟩ := h
  rw [← bytesToBits_length] at hroom ⊢
  exact transform_of_fail hready (Buffer.byte?_eq_some.mpr hibuf) (Report.fit_pure_over hroom)

theorem exec_s2y_of_whole {b : List Bool} (h : s.Holds (.bit b)) (hb : b.length % 8 = 0) (hroom : s.Room b.length) :
    exec .s2y s = .next (s.setObuf (.byte (bitsToBytes b).1)) := by
  obtain ⟨hready, hibuf⟩ := h
  exact transform_of_pure hready (Buffer.bit?_eq_some.mpr hibuf) (s2yStage_of_whole hb hroom)

theorem exec_s2y_of_partial {b : List Bool} (h : s.Holds (.bit b)) (hb : b.length % 8 ≠ 0) :
    exec .s2y s = .next (s.afterFault .lengthError b.length) := by
  obtain ⟨hready, hibuf⟩ := h
  exact transform_of_fail hready (Buffer.bit?_eq_some.mpr hibuf) (s2yStage_of_partial hb)

theorem exec_y2t_of_room {y : List Byte} (h : s.Holds (.byte y)) (hroom : s.Room y.length) :
    exec .y2t s = .next (s.setObuf (.char (y.map fun v => v.setWidth 32))) := by
  obtain ⟨hready, hibuf⟩ := h
  exact transform_of_pure hready (Buffer.byte?_eq_some.mpr hibuf) (Report.fit_pure (by rwa [List.length_map]))

/-- `EC.NONE.ENC` is the same transform as `Y2S` (42_error_control R151). -/
theorem exec_ecNoneEnc_eq_y2s (s : State) : exec .ecNoneEnc s = exec .y2s s := rfl

/-- `EC.NONE.CHK` is the same transform as `B2Y` (42_error_control R152). -/
theorem exec_ecNoneChk_eq_b2y (s : State) : exec .ecNoneChk s = exec .b2y s := rfl

/-- An operation that leaves nothing but its output, then `XFER`: the output is the next input (30_encoding R111). -/
theorem runOps_cons_xfer {i : Instr} {b : Buffer} (hready : s.fault = none) (h : exec i s = .next (s.setObuf b))
    (is : List Instr) : runOps (i :: .xfer :: is) s = runOps is ((s.setIbuf b).setObuf .none) :=
  have hready' : (s.setObuf b).fault = none := hready
  (runOps_cons h _).trans (runOps_cons (exec_xfer_of_ready hready') is)

/-- `T2B`, `B2Y`, `Y2T` give a text of code points up to 255 back (41_bit_converter R139). -/
theorem runOps_t2b_b2y_y2t {t : List CodePoint} (h : s.Holds (.char t)) (ht : ∀ c ∈ t, c.toNat ≤ 255)
    (hroom : s.Room (8 * t.length)) : runOps (chain [.t2b, .b2y, .y2t]) s =
      .next ((s.setIbuf (.byte (t.map fun c => c.setWidth 8))).setObuf (.char t)) := by
  have hready : s.fault = none := h.1
  have hbytes : s.Room (t.map fun c => c.setWidth 8).length := hroom.mono (by rw [List.length_map]; omega)
  have htext : ((t.map fun c => c.setWidth 8).map fun v => v.setWidth 32) = t := by
    rw [List.map_map]
    exact (List.map_congr_left fun c hc => setWidth_setWidth_of_le (ht c hc)).trans (List.map_id' t)
  calc runOps (chain [.t2b, .b2y, .y2t]) s
      = runOps [.b2y, .xfer, .y2t] ((s.setIbuf (.bit (bytesToBits _))).setObuf .none) :=
        runOps_cons_xfer hready (exec_t2b_of_chars h ht hroom) _
    _ = runOps [.y2t] ((s.setIbuf (.byte _)).setObuf .none) :=
        runOps_cons_xfer (s := (s.setIbuf (.bit _)).setObuf .none) hready (exec_b2y_bytesToBits ⟨hready, rfl⟩ hbytes) _
    _ = .next ((s.setIbuf (.byte _)).setObuf (.char _)) :=
        runOps_singleton (exec_y2t_of_room ⟨hready, rfl⟩ hbytes)
    _ = _ := by rw [htext]

end Operations

/-- Settles O19, by the check of the common template. -/
theorem operandTypeIsCheckedFirst : Obligations.OperandTypeIsCheckedFirst := by
  unfold Obligations.OperandTypeIsCheckedFirst
  exact fun _ _ => exec_checksType

/-- Settles O25: the text is either converted, too long, or ended by its first code point above 255. -/
theorem t2bGivesTheBitsOfTheText : Obligations.T2bGivesTheBitsOfTheText := by
  unfold Obligations.T2bGivesTheBitsOfTheText
  refine ⟨decode_encode .t2b, exec_checksType rfl, fun s t hs => ⟨fun ht => ⟨fun hroom => ?_, fun hroom => ?_⟩, ?_⟩⟩
  · exact ⟨_, exec_t2b_of_chars hs ht hroom, by rw [bytesToBits_length, List.length_map], getElem?_bytesToBits_chars t⟩
  · exact exec_t2b_of_fail hs (t2bStage_of_chars_over ht hroom)
  · exact fun i c hi hc hfirst => exec_t2b_of_fail hs (t2bStage_of_large hi hc hfirst)

/-- Settles O26: both operations group the bits, and the grouping is `bitsToBytes`. -/
theorem b2yAndEcNoneChkGroupBits : Obligations.B2yAndEcNoneChkGroupBits := by
  unfold Obligations.B2yAndEcNoneChkGroupBits
  refine ⟨decode_encode .b2y, decode_encode .ecNoneChk, exec_checksType rfl, exec_checksType rfl, fun s b hs hroom =>
    ⟨_, bytesOf_bitsToBytes b, ?_⟩⟩
  have hexec := exec_b2y_of_room hs hroom
  rw [State.setFlags, Flags.or_truncation] at hexec
  exact ⟨hexec, (exec_ecNoneChk_eq_b2y s).trans hexec⟩

/-- Settles O27: both operations give the bits of the bytes, or have no room for them. -/
theorem y2sAndEcNoneEncGiveTheBits : Obligations.Y2sAndEcNoneEncGiveTheBits := by
  unfold Obligations.Y2sAndEcNoneEncGiveTheBits
  refine ⟨decode_encode .y2s, decode_encode .ecNoneEnc, exec_checksType rfl, exec_checksType rfl, fun s y hs => ?_⟩
  rw [exec_ecNoneEnc_eq_y2s]
  refine ⟨fun hroom => ?_, fun hroom => ?_⟩
  · exact ⟨_, bitsOf_bytesToBits y, exec_y2s_of_room hs hroom, exec_y2s_of_room hs hroom⟩
  · exact ⟨exec_y2s_of_over hs hroom, exec_y2s_of_over hs hroom⟩

/-- Settles O28: `S2Y` by whether bits are left over; the code points of `Y2T` are the bytes, widened. -/
theorem s2yAndY2t : Obligations.S2yAndY2t := by
  unfold Obligations.S2yAndY2t
  refine ⟨decode_encode .s2y, decode_encode .y2t, exec_checksType rfl, exec_checksType rfl,
    fun s b hs => ⟨fun hb hroom => ?_, fun hb => ?_⟩, fun s y hs hroom => ?_⟩
  · exact ⟨_, bytesOf_bitsToBytes b, exec_s2y_of_whole hs hb hroom⟩
  · exact exec_s2y_of_partial hs hb
  · exact ⟨_, map_toNat_setWidth y, exec_y2t_of_room hs hroom⟩

/-- Settles O29: the two functions undo each other, and the operations are these functions. -/
theorem bitConverterRoundTrips : Obligations.BitConverterRoundTrips := by
  unfold Obligations.BitConverterRoundTrips
  refine ⟨bitsToBytes_bytesToBits, bytesToBits_bitsToBytes, fun s t hs ht hroom => ?_, fun s u t hs hu ht hroom huroom => ?_⟩
  · exact ⟨_, runOps_t2b_b2y_y2t hs ht hroom, hs.1, rfl, rfl⟩
  · have hy2s := exec_y2s_of_room hu (by rwa [List.length_map])
    exact ⟨_, _, exec_t2b_of_chars hs ht hroom, hy2s, hs.1, hu.1, rfl⟩

end Sys2Proof.Machine

/-! ### the error-control operations on a buffer of the type they take (42_error_control R150) -/

namespace Sys2Proof.Machine

section Operations

variable {s : State}

/-- The four encodings are one operation, by the bits they emit (42_error_control R150). -/
theorem exec_errctlEncode (ec : ErrorControl) (s : State) : exec (errctlEncodeOp (ErrorControl.number ec)) s =
    transform s Buffer.byte? (ecEncodeStage s ec) fun s' b => s'.setObuf (.bit b) := by
  cases ec <;> rfl

theorem exec_errctlEncode_of_room (ec : ErrorControl) {y : List Byte} (h : s.Holds (.byte y))
    (hroom : s.Room (ecBits ec y).length) :
    exec (errctlEncodeOp (ErrorControl.number ec)) s = .next (s.setObuf (.bit (ecBits ec y))) := by
  obtain ⟨hready, hibuf⟩ := h
  rw [exec_errctlEncode]
  exact transform_of_pure hready (Buffer.byte?_eq_some.mpr hibuf) (ecEncodeStage_of_room hroom)

theorem exec_errctlEncode_of_over (ec : ErrorControl) {y : List Byte} (h : s.Holds (.byte y))
    (hroom : ¬s.Room (ecBits ec y).length) : exec (errctlEncodeOp (ErrorControl.number ec)) s =
      .next (s.afterFault .capacityError (ecBits ec y).length) := by
  obtain ⟨hready, hibuf⟩ := h
  rw [exec_errctlEncode]
  refine transform_of_fail hready (Buffer.byte?_eq_some.mpr hibuf) ?_
  rw [ecEncodeStage_eq]
  exact Report.fit_pure_over hroom

/-- An encoding, `XFER`, and a check that passes it give the bytes back and set no flag (42_error_control R156, R164). -/
theorem runOps_errctlEncode_check {ec : ErrorControl} {i : Instr} {y : List Byte}
    (hcheck : ∀ {u : State}, u.Holds (.bit (ecBits ec y)) → u.Room (ecBits ec y).length →
      exec i u = .next (u.setObuf (.byte y)))
    (hs : s.Holds (.byte y)) (hroom : s.Room (ecBits ec y).length) : ∃ t,
      runOps (chain [errctlEncodeOp (ErrorControl.number ec), i]) s = .next t ∧ t.fault = none ∧ t.flags = s.flags ∧
        t.obuf = .byte y := by
  have hi : exec i ((s.setIbuf (.bit (ecBits ec y))).setObuf .none) = _ := hcheck ⟨hs.1, rfl⟩ hroom
  exact ⟨_, (runOps_cons_xfer hs.1 (exec_errctlEncode_of_room ec hs hroom) _).trans (runOps_singleton hi), hs.1, rfl, rfl⟩

theorem groupBytes_eq (f : Flags) (b : List Bool) :
    groupBytes f b = ⟨{ f with trunc := f.trunc || decide (b.length % 8 ≠ 0) }, .ok (bitsToBytes b).1⟩ := by
  have hcut : (bitsToBytes b).2 = decide (b.length % 8 ≠ 0) := by simp [bitsToBytes, bne, beq_eq_decide]
  rw [groupBytes, Flags.or_truncation, hcut]
  rfl

/-- The bytes of a stream of bits have room where the bits have. -/
theorem groupBytes_fit {f : Flags} {b : List Bool} (hroom : s.Room b.length) :
    (groupBytes f b).fit s.bufCap =
      ⟨{ f with trunc := f.trunc || decide (b.length % 8 ≠ 0) }, .ok (bitsToBytes b).1⟩ := by
  rw [groupBytes_eq]
  refine Report.fit_ok ((fits_iff_room s _).mpr (hroom.mono ?_))
  rw [bitsToBytes_length]
  exact Nat.div_le_self _ _

end Operations

end Sys2Proof.Machine

/-! ### parity: the number of ones, modulo 2 (42_error_control R153 to R156) -/

namespace Sys2Proof.Machine

theorem decide_mod_two (n : Nat) : decide (n % 2 = 1) = n.bodd := by
  rw [Nat.mod_two_of_bodd]
  cases n.bodd <;> rfl

@[simp] theorem odd_nil : odd [] = false := rfl

@[simp] theorem odd_cons (x : Bool) (b : List Bool) : odd (x :: b) = (x ^^ odd b) := by
  simp only [odd, decide_mod_two, List.count_cons, Nat.bodd_add]
  cases x <;> cases (b.count true).bodd <;> rfl

@[simp] theorem odd_append (b c : List Bool) : odd (b ++ c) = (odd b ^^ odd c) := by
  simp only [odd, decide_mod_two, List.count_append, Nat.bodd_add]

/-- The exclusive-or of all elements is 1 exactly where the number of ones is odd (42_error_control R153). -/
theorem parity_eq_odd (b : List Bool) : parity b = odd b := by
  have hfold : ∀ acc, b.foldl Bool.xor acc = (acc ^^ odd b) := by
    induction b with
    | nil => simp
    | cons x b ih => intro acc; rw [List.foldl_cons, ih, odd_cons, Bool.xor_assoc]
  rw [parity, hfold, Bool.false_xor]

theorem ecBits_parity_length (y : List Byte) : (ecBits .parity y).length = 8 * y.length + 1 := ecBits_length .parity y

/-- An encoding has an even number of ones (42_error_control R153). -/
theorem odd_append_parity (b : List Bool) : odd (b ++ [parity b]) = false := by
  simp [parity_eq_odd]

/-- Each difference changes the parity (42_error_control R156). -/
theorem differences_odd {b c : List Bool} (h : b.length = c.length) :
    decide (differences b c % 2 = 1) = (odd b ^^ odd c) := by
  rw [decide_mod_two]
  induction b generalizing c with
  | nil =>
    obtain rfl := List.eq_nil_of_length_eq_zero h.symm
    rfl
  | cons x b ih =>
    obtain _ | ⟨z, c⟩ := c
    · cases h
    have htail := ih (Nat.succ.inj h)
    have hhead : differences (x :: b) (z :: c) = differences b c + (x != z).toNat := by
      cases x <;> cases z <;> rfl
    rw [hhead, Nat.bodd_add, htail, odd_cons, odd_cons]
    cases x <;> cases z <;> simp

section Operations

variable {s : State}

theorem exec_ecParChk_nil (h : s.Holds (.bit [])) : exec .ecParChk s = .next (s.afterFault .lengthError 0) := by
  obtain ⟨hready, hibuf⟩ := h
  exact transform_of_fail hready (Buffer.bit?_eq_some.mpr hibuf) rfl

theorem ecParChkStage_append {p : List Bool} {x : Bool} (hroom : s.Room p.length) : ecParChkStage s (p ++ [x]) =
    ⟨⟨odd p != x, odd p != x, false, decide (p.length % 8 ≠ 0)⟩, .ok (bitsToBytes p).1⟩ := by
  rw [ecParChkStage, List.getLast?_concat, List.dropLast_concat, parity_eq_odd]
  exact groupBytes_fit hroom

/-- The bits before the last are grouped; the last one decides the verdict (42_error_control R155). -/
theorem exec_ecParChk_append {p : List Bool} {x : Bool} (h : s.Holds (.bit (p ++ [x]))) (hroom : s.Room p.length) :
    exec .ecParChk s = .next ((s.setFlags ⟨odd p != x, odd p != x, false, decide (p.length % 8 ≠ 0)⟩).setObuf
      (.byte (bitsToBytes p).1)) := by
  obtain ⟨hready, hibuf⟩ := h
  exact transform_of_done hready (Buffer.bit?_eq_some.mpr hibuf) (ecParChkStage_append hroom)

/-- The verdict of the parity check is the parity of the whole stream. -/
theorem odd_bne_eq (p : List Bool) (x : Bool) : (odd p != x) = odd (p ++ [x]) := by
  rw [odd_append, odd_cons, odd_nil, Bool.xor_false, ← Bool.bne_eq_xor]

theorem ecParChkStage_encoding {y : List Byte} (hroom : s.Room (8 * y.length)) :
    ecParChkStage s (ecBits .parity y) = Report.pure y := by
  have hverdict : (odd (bytesToBits y) != parity (bytesToBits y)) = false := by rw [odd_bne_eq, odd_append_parity]
  rw [ecBits, ecParChkStage_append (by rwa [bytesToBits_length]), hverdict, bitsToBytes_bytesToBits, bytesToBits_length,
    Nat.mul_mod_right]
  rfl

/-- `EC.PAR.CHK` passes the encoding of a byte stream (42_error_control R156). -/
theorem exec_ecParChk_encoding {y : List Byte} (h : s.Holds (.bit (ecBits .parity y)))
    (hroom : s.Room (ecBits .parity y).length) : exec .ecParChk s = .next (s.setObuf (.byte y)) := by
  obtain ⟨hready, hibuf⟩ := h
  rw [ecBits_parity_length] at hroom
  exact transform_of_pure hready (Buffer.bit?_eq_some.mpr hibuf) (ecParChkStage_encoding (hroom.mono (Nat.le_succ _)))

end Operations

/-- Settles O30: the encoding is `ecBits .parity`, whose last bit is the parity of the others. -/
theorem ecParEncAppendsTheParityBit : Obligations.EcParEncAppendsTheParityBit := by
  unfold Obligations.EcParEncAppendsTheParityBit
  refine ⟨decode_encode .ecParEnc, exec_checksType rfl, fun s y hs => ?_⟩
  rw [← ecBits_parity_length]
  refine ⟨fun hroom => ⟨_, bitsOf_bytesToBits y, ?_⟩, fun hroom => exec_errctlEncode_of_over .parity hs hroom⟩
  rw [← parity_eq_odd]
  exact exec_errctlEncode_of_room .parity hs hroom

/-- Settles O31: by whether there is a last bit. -/
theorem ecParChkComparesTheLastBit : Obligations.EcParChkComparesTheLastBit := by
  unfold Obligations.EcParChkComparesTheLastBit
  refine ⟨decode_encode .ecParChk, exec_checksType rfl, fun s => exec_ecParChk_nil, fun s p x hs hroom =>
    ⟨_, bytesOf_bitsToBytes p, ?_⟩⟩
  rw [exec_ecParChk_append hs (hroom.mono (Nat.le_succ _)), State.setFlags, Flags.or, Bool.or_false]
  rfl

/-- Settles O32: the verdict is the parity of the whole stream, which is even on an encoding, and every difference
changes it. -/
theorem parityFindsOddNumbersOfFlips : Obligations.ParityFindsOddNumbersOfFlips := by
  unfold Obligations.ParityFindsOddNumbersOfFlips
  refine fun y => ⟨fun s hs hroom => ?_, fun s w hlen hs hroom => ?_⟩
  · rw [← ecBits_parity_length] at hroom
    exact runOps_errctlEncode_check exec_ecParChk_encoding hs hroom
  · obtain ⟨p, x, rfl⟩ : ∃ p x, w = p ++ [x] := by
      have hne : w ≠ [] := fun h => by simp [h] at hlen
      exact ⟨_, _, (List.dropLast_append_getLast hne).symm⟩
    have hbad : decide (differences (p ++ [x]) (ecBits .parity y) % 2 = 1) = (odd p != x) := by
      rw [differences_odd (hlen.trans (ecBits_parity_length y).symm), ecBits, odd_append_parity, Bool.xor_false,
        odd_bne_eq]
    refine ⟨_, exec_ecParChk_append hs (hroom.mono (by simp)), hs.1, ?_⟩
    exact hbad ▸ ⟨rfl, rfl⟩

end Sys2Proof.Machine

/-! ### flipping one bit of a stream -/

namespace Sys2Proof.Machine

@[simp] theorem flipPosition_length (c : List Bool) (p : Nat) : (flipPosition c p).length = c.length :=
  List.length_mapIdx

theorem flipPosition_concat (c : List Bool) (b : Bool) (p : Nat) :
    flipPosition (c ++ [b]) p = flipPosition c p ++ [if c.length + 1 = p then !b else b] := by
  simp [flipPosition, List.mapIdx_concat]

theorem flipPosition_of_length_lt {c : List Bool} {p : Nat} (h : c.length < p) : flipPosition c p = c := by
  induction c using List.reverseRecOn with
  | nil => rfl
  | append_singleton c b ih =>
    rw [List.length_append, List.length_singleton] at h
    rw [flipPosition_concat, ih (by omega), if_neg (by omega)]

end Sys2Proof.Machine

/-! ### streams and registers as polynomials over GF(2) (42_error_control R160, R161) -/

namespace Sys2Proof.Machine

open Polynomial

/-- The polynomial of one bit. -/
noncomputable def bitPoly (b : Bool) : (ZMod 2)[X] := if b then 1 else 0

@[simp] theorem bitPoly_false : bitPoly false = 0 := rfl

@[simp] theorem bitPoly_true : bitPoly true = 1 := rfl

theorem bitPoly_xor (a b : Bool) : bitPoly (a ^^ b) = bitPoly a + bitPoly b := by
  cases a <;> cases b <;> simp [CharTwo.add_self_eq_zero]

theorem ite_X_pow_eq (b : Bool) (n : Nat) : (if b = true then X ^ n else 0) = bitPoly b * X ^ n := by
  cases b <;> simp

@[simp] theorem bitsPoly_nil : bitsPoly [] = 0 := rfl

@[simp] theorem bitsPoly_singleton (b : Bool) : bitsPoly [b] = bitPoly b := by
  rw [bitsPoly, List.length_singleton, Finset.sum_range_one]
  cases b <;> simp

/-- The first stream stands above the second (42_error_control R160). -/
theorem bitsPoly_append (a b : List Bool) : bitsPoly (a ++ b) = bitsPoly a * X ^ b.length + bitsPoly b := by
  simp only [bitsPoly, List.length_append, Finset.sum_range_add]
  rw [Finset.sum_mul]
  congr 1
  · refine Finset.sum_congr rfl fun i hi => ?_
    have hlt : i < a.length := Finset.mem_range.mp hi
    have hexp : a.length + b.length - 1 - i = a.length - 1 - i + b.length := by omega
    rw [List.getElem?_append_left hlt, hexp, pow_add, ite_mul, zero_mul]
  · refine Finset.sum_congr rfl fun i _ => ?_
    have hexp : a.length + b.length - 1 - (a.length + i) = b.length - 1 - i := by omega
    rw [List.getElem?_append_right (Nat.le_add_right _ _), Nat.add_sub_cancel_left, hexp]

theorem bitsPoly_concat (m : List Bool) (b : Bool) : bitsPoly (m ++ [b]) = bitsPoly m * X + bitPoly b := by
  rw [bitsPoly_append, bitsPoly_singleton, List.length_singleton, pow_one]

@[simp] theorem bitsPoly_replicate_false (k : Nat) : bitsPoly (List.replicate k false) = 0 := by
  induction k with
  | zero => rfl
  | succ k ih => rw [List.replicate_succ', bitsPoly_concat, ih, zero_mul, bitPoly_false, zero_add]

/-- A flipped bit adds its power (42_error_control R164). -/
theorem bitsPoly_flipPosition {m : List Bool} {k : Nat} (hk : 1 ≤ k) (hle : k ≤ m.length) :
    bitsPoly (flipPosition m k) = bitsPoly m + X ^ (m.length - k) := by
  induction m using List.reverseRecOn with
  | nil => exact absurd (hk.trans hle) (by decide)
  | append_singleton m b ih =>
    rw [List.length_append, List.length_singleton] at hle ⊢
    rw [flipPosition_concat, bitsPoly_concat, bitsPoly_concat]
    by_cases hlast : m.length + 1 = k
    · have hflip : bitPoly (!b) = bitPoly b + 1 := by rw [← Bool.xor_true, bitPoly_xor, bitPoly_true]
      rw [if_pos hlast, flipPosition_of_length_lt (by omega), hflip, hlast, Nat.sub_self, pow_zero, add_assoc]
    · have hexp : m.length + 1 - k = m.length - k + 1 := by omega
      rw [if_neg hlast, ih (by omega), hexp, pow_succ]
      ring

theorem coeff_registerPoly (r : BitVec 32) (n : Nat) :
    (registerPoly r).coeff n = if r.getLsbD n = true then 1 else 0 := by
  have hterm (j : Nat) : (if r.getLsbD j = true then X ^ j else 0 : (ZMod 2)[X]).coeff n =
      if n = j then (if r.getLsbD j = true then 1 else 0) else 0 := by
    split <;> simp [coeff_X_pow]
  rw [registerPoly, finsetSum_coeff, Finset.sum_congr rfl fun j _ => hterm j, Finset.sum_ite_eq]
  split
  · rfl
  · rename_i hn
    rw [BitVec.getLsbD_of_ge r n (Nat.not_lt.mp fun h => hn (Finset.mem_range.mpr h)), if_neg Bool.false_ne_true]

theorem registerPoly_injective : Function.Injective registerPoly := by
  refine fun r v h => BitVec.eq_of_getLsbD_eq fun n _ => ?_
  have hcoeff := congrArg (fun p => p.coeff n) h
  simp only [coeff_registerPoly] at hcoeff
  cases hr : r.getLsbD n <;> cases hv : v.getLsbD n <;> simp [hr, hv] at hcoeff ⊢

@[simp] theorem registerPoly_zero : registerPoly 0 = 0 := by
  ext n
  rw [coeff_registerPoly, coeff_zero]
  simp

theorem registerPoly_xor (r v : BitVec 32) : registerPoly (r ^^^ v) = registerPoly r + registerPoly v := by
  simp only [registerPoly, ite_X_pow_eq, BitVec.getLsbD_xor, bitPoly_xor, add_mul, Finset.sum_add_distrib]

theorem degree_registerPoly_lt (r : BitVec 32) : (registerPoly r).degree < 32 := by
  refine (degree_lt_iff_coeff_zero _ 32).mpr fun n hn => ?_
  rw [coeff_registerPoly, BitVec.getLsbD_of_ge r n hn, if_neg Bool.false_ne_true]

theorem getElem?_be32 (v : BitVec 32) {k : Nat} (hk : k < 32) : (be32 v)[k]? = some (v.getLsbD (31 - k)) := by
  simp [be32, hk]

/-- The bits of a register, bit 31 first, are a stream with the polynomial of the register (42_error_control R162). -/
theorem bitsPoly_be32 (v : BitVec 32) : bitsPoly (be32 v) = registerPoly v := by
  rw [bitsPoly, registerPoly, be32_length, ← Finset.sum_range_reflect]
  refine Finset.sum_congr rfl fun j hj => ?_
  have hlt : j < 32 := Finset.mem_range.mp hj
  have hexp : 32 - 1 - (32 - 1 - j) = j := by omega
  simp only [getElem?_be32 v (show 32 - 1 - j < 32 by omega), hexp, Option.some.injEq]

/-! #### the generator -/

theorem crcGenerator_eq : crcGenerator = X ^ 32 + registerPoly crc32Poly := by
  have hbits : registerPoly crc32Poly =
      X ^ 26 + X ^ 23 + X ^ 22 + X ^ 16 + X ^ 12 + X ^ 11 + X ^ 10 + X ^ 8 + X ^ 7 + X ^ 5 + X ^ 4 + X ^ 2 + X + 1 := by
    simp [registerPoly, Finset.sum_range_succ, crc32Poly]
    ring
  rw [crcGenerator, hbits]
  ring

theorem crcGenerator_monic : crcGenerator.Monic := by
  rw [crcGenerator_eq]
  exact monic_X_pow_add (degree_registerPoly_lt _)

theorem degree_crcGenerator : crcGenerator.degree = 32 := by
  rw [crcGenerator_eq, degree_add_eq_left_of_degree_lt (by rw [degree_X_pow]; exact degree_registerPoly_lt _), degree_X_pow]
  rfl

/-- The generator has the constant term 1, so it shares no factor with a power of `x` (42_error_control R164). -/
theorem isCoprime_X_pow_crcGenerator (n : Nat) : IsCoprime (X ^ n) crcGenerator := by
  refine IsCoprime.pow_left ⟨-(X ^ 31 + X ^ 25 + X ^ 22 + X ^ 21 + X ^ 15 + X ^ 11 + X ^ 10 + X ^ 9 + X ^ 7 + X ^ 6 +
    X ^ 4 + X ^ 3 + X + 1), 1, ?_⟩
  rw [crcGenerator]
  ring

theorem not_crcGenerator_dvd_X_pow (n : Nat) : ¬crcGenerator ∣ X ^ n := fun h => by
  have hunit := (isCoprime_X_pow_crcGenerator n).symm.isUnit_of_dvd h
  have hdegree := degree_eq_zero_of_isUnit hunit
  rw [degree_crcGenerator] at hdegree
  exact absurd hdegree (by decide)

/-- Registers that agree modulo the generator are equal, since their polynomials have lower degree. -/
theorem eq_of_crcGenerator_dvd_add {r v : BitVec 32} (h : crcGenerator ∣ registerPoly r + registerPoly v) : r = v := by
  rw [← registerPoly_xor] at h
  have hzero := eq_zero_of_dvd_of_degree_lt h (by rw [degree_crcGenerator]; exact degree_registerPoly_lt _)
  rw [← registerPoly_zero] at hzero
  exact BitVec.xor_eq_zero_iff.mp (registerPoly_injective hzero)

/-! #### the shift register -/

/-- The register before the generator is taken off: its powers move up one place, and the bit enters below. -/
theorem registerPoly_shifted (r : BitVec 32) (b : Bool) :
    registerPoly (r <<< 1 ||| (BitVec.ofBool b).setWidth 32) + bitPoly (r.getLsbD 31) * X ^ 32 =
      X * registerPoly r + bitPoly b := by
  have hlow : (r <<< 1 ||| (BitVec.ofBool b).setWidth 32).getLsbD 0 = b := by simp
  have hhigh : ∀ j ∈ Finset.range 31, (r <<< 1 ||| (BitVec.ofBool b).setWidth 32).getLsbD (j + 1) = r.getLsbD j := by
    intro j hj
    have hlt : j + 1 < 32 := Nat.succ_lt_succ (Finset.mem_range.mp hj)
    simp [hlt, Nat.lt_of_succ_lt hlt]
  simp only [registerPoly, ite_X_pow_eq]
  rw [Finset.sum_range_succ', hlow, Finset.sum_congr rfl fun j hj => by rw [hhigh j hj, pow_succ, ← mul_assoc],
    ← Finset.sum_mul, Finset.sum_range_succ _ 31]
  ring

/-- One step multiplies by `x`, adds the bit, and takes the generator off where the bit shifted out is 1
(42_error_control R160). -/
theorem registerPoly_crc32Step (r : BitVec 32) (b : Bool) :
    registerPoly (crc32Step r b) = X * registerPoly r + bitPoly b + bitPoly (r.getLsbD 31) * crcGenerator := by
  rw [← registerPoly_shifted, crcGenerator_eq, crc32Step]
  cases r.getLsbD 31 with
  | false => simp
  | true =>
    simp only [if_true, registerPoly_xor, bitPoly_true, one_mul]
    linear_combination -(CharTwo.add_self_eq_zero (X ^ 32 : (ZMod 2)[X]))

/-- The register stays congruent to the polynomial of the stream that it has taken in. -/
theorem crcGenerator_dvd_fold (m : List Bool) : crcGenerator ∣ bitsPoly m - registerPoly (m.foldl crc32Step 0) := by
  induction m using List.reverseRecOn with
  | nil => rw [List.foldl_nil, registerPoly_zero, bitsPoly_nil, sub_zero]; exact dvd_zero _
  | append_singleton m b ih =>
    rw [bitsPoly_concat, List.foldl_concat, registerPoly_crc32Step]
    obtain ⟨q, hq⟩ := ih
    exact ⟨X * q - bitPoly ((m.foldl crc32Step 0).getLsbD 31), by linear_combination X * hq⟩

theorem crcGenerator_dvd_crc32Rem (m : List Bool) :
    crcGenerator ∣ bitsPoly m * X ^ 32 - registerPoly (crc32Rem m) := by
  have h := crcGenerator_dvd_fold (m ++ List.replicate 32 false)
  rwa [bitsPoly_append, bitsPoly_replicate_false, add_zero, List.length_replicate] at h

/-- Settles O33: the register is congruent to the shifted message, and its degree is below 32. -/
theorem crcIsThePolynomialRemainder : Obligations.CrcIsThePolynomialRemainder := by
  unfold Obligations.CrcIsThePolynomialRemainder
  intro m
  obtain ⟨q, hq⟩ := crcGenerator_dvd_crc32Rem m
  have hdegree : (registerPoly (crc32Rem m)).degree < crcGenerator.degree := by
    rw [degree_crcGenerator]
    exact degree_registerPoly_lt _
  exact (div_modByMonic_unique q _ crcGenerator_monic ⟨by rw [← hq]; ring, hdegree⟩).2.symm

/-! #### consequences (42_error_control R164) -/

/-- A remainder is right exactly where the generator divides the message with it appended. -/
theorem crc32Rem_eq_iff (m : List Bool) (v : BitVec 32) :
    crc32Rem m = v ↔ crcGenerator ∣ bitsPoly (m ++ be32 v) := by
  rw [bitsPoly_append, bitsPoly_be32, be32_length]
  have hrem := crcGenerator_dvd_crc32Rem m
  constructor
  · rintro rfl
    rwa [CharTwo.sub_eq_add] at hrem
  · intro h
    refine eq_of_crcGenerator_dvd_add ?_
    have hsub := dvd_sub h hrem
    rwa [add_sub_sub_cancel, add_comm] at hsub

theorem crc32Rem_eq_zero_iff (m : List Bool) : crc32Rem m = 0 ↔ crcGenerator ∣ bitsPoly m := by
  rw [crc32Rem_eq_iff, bitsPoly_append, bitsPoly_be32, be32_length, registerPoly_zero, add_zero]
  exact ⟨(isCoprime_X_pow_crcGenerator 32).symm.dvd_of_dvd_mul_right, fun h => h.mul_right _⟩

/-- Recomputing and comparing is dividing the whole stream (42_error_control R164). -/
theorem crc32Rem_append_be32 (m : List Bool) (v : BitVec 32) : crc32Rem (m ++ be32 v) = 0 ↔ crc32Rem m = v :=
  (crc32Rem_eq_zero_iff _).trans (crc32Rem_eq_iff m v).symm

theorem crc32Rem_zeros_append (k : Nat) (m : List Bool) : crc32Rem (List.replicate k false ++ m) = crc32Rem m := by
  rw [crc32Rem_eq_iff, List.append_assoc, bitsPoly_append, bitsPoly_replicate_false, zero_mul, zero_add, ← crc32Rem_eq_iff]

/-- The error polynomial of a single flip is a power of `x`, which the generator does not divide. -/
theorem crc32Rem_flipPosition {m : List Bool} {k : Nat} (h : crc32Rem m = 0) (hk : 1 ≤ k) (hle : k ≤ m.length) :
    crc32Rem (flipPosition m k) ≠ 0 := by
  rw [Ne, crc32Rem_eq_zero_iff, bitsPoly_flipPosition hk hle, dvd_add_right ((crc32Rem_eq_zero_iff m).mp h)]
  exact not_crcGenerator_dvd_X_pow _

end Sys2Proof.Machine

/-! ### bytes as one number and as bits (20_memory R64, R65) -/

namespace Sys2Proof.Machine

@[simp] theorem bytesToBits_append (y z : List Byte) : bytesToBits (y ++ z) = bytesToBits y ++ bytesToBits z :=
  List.flatMap_append

theorem bytesToBits_injective {y z : List Byte} (h : bytesToBits y = bytesToBits z) : y = z := by
  have hbytes := congrArg (fun b => (bitsToBytes b).1) h
  simpa only [bitsToBytes_bytesToBits] using hbytes

theorem bigEndian_concat (y : List Byte) (b : Byte) : bigEndian (y ++ [b]) = 2 ^ 8 * bigEndian y + b.toNat :=
  List.foldl_concat ..

theorem bigEndian_eq_foldl (y : List Byte) :
    bigEndian y = (y.map BitVec.toNat).foldl (fun acc v => acc * 2 ^ 8 + v) 0 := by
  rw [bigEndian, List.foldl_map]
  simp only [Nat.mul_comm, Nat.reducePow]

theorem bigEndian_lt (y : List Byte) : bigEndian y < 2 ^ (8 * y.length) := by
  induction y using List.reverseRecOn with
  | nil => decide
  | append_singleton y b ih =>
    have hb : b.toNat < 2 ^ 8 := b.isLt
    rw [bigEndian_concat, List.length_append, List.length_singleton, Nat.mul_add, Nat.pow_add]
    omega

/-- The bits of a byte stream, first to last, are those of its number, from the most significant down. -/
theorem getElem?_bytesToBits_bigEndian (y : List Byte) {k : Nat} (hk : k < 8 * y.length) :
    (bytesToBits y)[k]? = some ((bigEndian y).testBit (8 * y.length - 1 - k)) := by
  induction y using List.reverseRecOn with
  | nil => exact absurd hk (Nat.not_lt_zero k)
  | append_singleton y b ih =>
    rw [List.length_append, List.length_singleton] at hk ⊢
    rw [bytesToBits_append, bigEndian_concat, Nat.testBit_two_pow_mul_add _ b.isLt]
    by_cases hlow : k < 8 * y.length
    · have hplace : 8 * (y.length + 1) - 1 - k - 8 = 8 * y.length - 1 - k := by omega
      rw [List.getElem?_append_left (by rwa [bytesToBits_length]), ih hlow, if_neg (by omega), hplace]
    · have hplace : 8 * (y.length + 1) - 1 - k = 7 - (k - 8 * y.length) := by omega
      rw [List.getElem?_append_right (by rw [bytesToBits_length]; omega), bytesToBits_length, if_pos (by omega), hplace]
      exact getElem?_bits8 b (by omega)

/-- The 32 bits of the number that four bytes make are the bits of the bytes (20_memory R65). -/
theorem be32_bigEndian {y : List Byte} (h : y.length = 4) : be32 (BitVec.ofNat 32 (bigEndian y)) = bytesToBits y := by
  refine List.ext_getElem? fun k => ?_
  by_cases hk : k < 32
  · have hplace : 31 - k < 32 := by omega
    rw [getElem?_bytesToBits_bigEndian y (by omega), h, getElem?_be32 _ hk, BitVec.getLsbD_ofNat, decide_eq_true hplace,
      Bool.true_and]
  · rw [List.getElem?_eq_none (by simpa using hk), List.getElem?_eq_none (by simp [h]; omega)]

end Sys2Proof.Machine

/-! ### `EC.CRC.CHK` (42_error_control R163, R164) -/

namespace Sys2Proof.Machine

/-- The whole bytes of a stream but the last four (42_error_control R163). -/
def crcPayload (b : List Bool) : List Byte := (bitsToBytes b).1.take (b.length / 8 - 4)

/-- The last four whole bytes of a stream, the received remainder (42_error_control R163). -/
def crcTrailer (b : List Bool) : List Byte := (bitsToBytes b).1.drop (b.length / 8 - 4)

/-- The verdict of `EC.CRC.CHK`: the remainder of the payload is not the received one (42_error_control R163). -/
def crcMismatch (b : List Bool) : Bool :=
  crc32Rem (bytesToBits (crcPayload b)) != BitVec.ofNat 32 (bigEndian (crcTrailer b))

theorem crcPayload_append_crcTrailer (b : List Bool) : crcPayload b ++ crcTrailer b = (bitsToBytes b).1 :=
  List.take_append_drop _ _

theorem crcTrailer_length {b : List Bool} (h : 4 ≤ b.length / 8) : (crcTrailer b).length = 4 := by
  rw [crcTrailer, List.length_drop, bitsToBytes_length]
  omega

/-- The verdict is that of the numbers: the trailer's is below `2^32`. -/
theorem crcMismatch_eq_false_iff {b : List Bool} (h : 4 ≤ b.length / 8) : crcMismatch b = false ↔
    (crc32Rem (bytesToBits (crcPayload b))).toNat =
      ((crcTrailer b).map BitVec.toNat).foldl (fun acc v => acc * 2 ^ 8 + v) 0 := by
  have hlt := bigEndian_lt (crcTrailer b)
  rw [crcTrailer_length h] at hlt
  rw [← bigEndian_eq_foldl, crcMismatch, bne_eq_false_iff_eq, ← BitVec.toNat_inj, BitVec.toNat_ofNat, Nat.mod_eq_of_lt hlt]

/-- On whole bytes, payload and received remainder are the stream. -/
theorem crcPayload_append_be32 {b : List Bool} (hwhole : b.length % 8 = 0) (h : 4 ≤ b.length / 8) :
    bytesToBits (crcPayload b) ++ be32 (BitVec.ofNat 32 (bigEndian (crcTrailer b))) = b := by
  rw [be32_bigEndian (crcTrailer_length h), ← bytesToBits_append, crcPayload_append_crcTrailer, bytesToBits_bitsToBytes]
  exact List.take_of_length_le (by omega)

/-- On whole bytes the verdict is the remainder of the whole stream (42_error_control R164). -/
theorem crcMismatch_of_whole {b : List Bool} (hwhole : b.length % 8 = 0) (h : 4 ≤ b.length / 8) :
    crcMismatch b = decide (crc32Rem b ≠ 0) := by
  have hrem := crc32Rem_append_be32 (bytesToBits (crcPayload b)) (BitVec.ofNat 32 (bigEndian (crcTrailer b)))
  rw [crcPayload_append_be32 hwhole h] at hrem
  rw [crcMismatch, Bool.eq_iff_iff, bne_iff_ne, decide_eq_true_iff, Ne, Ne, hrem]

section Operations

variable {s : State} {b : List Bool}

theorem ecCrcChkStage_of_short (h : b.length / 8 < 4) : ecCrcChkStage s b =
    Report.fail (Flags.truncation (b.length % 8 ≠ 0)) .lengthError (b.length / 8) := by
  rw [ecCrcChkStage, groupBytes_eq, Report.bind_ok, crcChecked, bitsToBytes_length, decide_eq_true h, Report.check_true]
  exact congrArg (Report.mk · _) (Flags.or_clear _)

theorem ecCrcChkStage_of_long (h : 4 ≤ b.length / 8) (hroom : s.Room b.length) : ecCrcChkStage s b =
    ⟨⟨crcMismatch b, crcMismatch b, false, decide (b.length % 8 ≠ 0)⟩, .ok (crcPayload b)⟩ := by
  rw [ecCrcChkStage, groupBytes_eq, Report.bind_ok, crcChecked, bitsToBytes_length, decide_eq_false (Nat.not_lt.mpr h),
    Report.check_false]
  refine (Report.fit_ok ((fits_iff_room s _).mpr (hroom.mono ?_))).trans ?_
  · rw [List.length_take, bitsToBytes_length]
    omega
  · simp [crcMismatch, crcPayload, crcTrailer, Flags.or, Flags.mismatch, Flags.clear, Report.done]

theorem exec_ecCrcChk_of_short (hs : s.Holds (.bit b)) (h : b.length / 8 < 4) : exec .ecCrcChk s =
    .next ((s.setFlags (Flags.truncation (b.length % 8 ≠ 0))).afterFault .lengthError (b.length / 8)) := by
  obtain ⟨hready, hibuf⟩ := hs
  exact transform_of_error hready (Buffer.bit?_eq_some.mpr hibuf) (ecCrcChkStage_of_short h)

theorem exec_ecCrcChk_of_long (hs : s.Holds (.bit b)) (h : 4 ≤ b.length / 8) (hroom : s.Room b.length) :
    exec .ecCrcChk s = .next ((s.setFlags ⟨crcMismatch b, crcMismatch b, false, decide (b.length % 8 ≠ 0)⟩).setObuf
      (.byte (crcPayload b))) := by
  obtain ⟨hready, hibuf⟩ := hs
  exact transform_of_done hready (Buffer.bit?_eq_some.mpr hibuf) (ecCrcChkStage_of_long h hroom)

/-- On whole bytes the verdict is the remainder of the whole stream, and `TRUNC` is not set. -/
theorem exec_ecCrcChk_of_whole (hs : s.Holds (.bit b)) (hwhole : b.length % 8 = 0) (h : 4 ≤ b.length / 8)
    (hroom : s.Room b.length) : exec .ecCrcChk s =
      .next ((s.setFlags (Flags.mismatch (crc32Rem b ≠ 0))).setObuf (.byte (crcPayload b))) := by
  rw [exec_ecCrcChk_of_long hs h hroom, crcMismatch_of_whole hwhole h, hwhole]
  rfl

/-! #### encodings -/

theorem ecBits_crc32_length (y : List Byte) : (ecBits .crc32 y).length = 8 * y.length + 32 := ecBits_length .crc32 y

theorem encoding_length_mod (y : List Byte) : (ecBits .crc32 y).length % 8 = 0 := by
  rw [ecBits_crc32_length]
  omega

theorem four_le_encoding_length_div (y : List Byte) : 4 ≤ (ecBits .crc32 y).length / 8 := by
  rw [ecBits_crc32_length]
  omega

/-- An encoding is a multiple of the generator (42_error_control R164). -/
theorem crc32Rem_encoding (y : List Byte) : crc32Rem (ecBits .crc32 y) = 0 :=
  (crc32Rem_append_be32 _ _).mpr rfl

theorem crcPayload_encoding (y : List Byte) : crcPayload (ecBits .crc32 y) = y := by
  have happend := crcPayload_append_be32 (encoding_length_mod y) (four_le_encoding_length_div y)
  exact bytesToBits_injective (List.append_inj_left' happend (by simp))

/-- `EC.CRC.CHK` passes the encoding of a byte stream (42_error_control R164). -/
theorem exec_ecCrcChk_encoding {y : List Byte} (hs : s.Holds (.bit (ecBits .crc32 y)))
    (hroom : s.Room (ecBits .crc32 y).length) : exec .ecCrcChk s = .next (s.setObuf (.byte y)) := by
  have hpass : Flags.mismatch (crc32Rem (ecBits .crc32 y) ≠ 0) = Flags.clear := by
    simp [crc32Rem_encoding, Flags.mismatch, Flags.clear]
  rw [exec_ecCrcChk_of_whole hs (encoding_length_mod y) (four_le_encoding_length_div y) hroom, hpass, State.setFlags_clear,
    crcPayload_encoding]

end Operations

/-- Settles O34: the encoding is `ecBits .crc32`, which ends in the bits of the remainder. -/
theorem ecCrcEncAppendsTheRemainder : Obligations.EcCrcEncAppendsTheRemainder := by
  unfold Obligations.EcCrcEncAppendsTheRemainder
  refine ⟨decode_encode .ecCrcEnc, exec_checksType rfl, fun s y hs => ?_⟩
  rw [← ecBits_crc32_length]
  refine ⟨fun hroom => ?_, fun hroom => exec_errctlEncode_of_over .crc32 hs hroom⟩
  exact ⟨_, be32 (crc32Rem (bytesToBits y)), bitsOf_bytesToBits y, be32_length _, fun k hk => getElem?_be32 _ hk,
    exec_errctlEncode_of_room .crc32 hs hroom⟩

/-- Settles O35: the stream is too short, or the verdict is `crcMismatch`. -/
theorem ecCrcChkComparesTheRemainder : Obligations.EcCrcChkComparesTheRemainder := by
  unfold Obligations.EcCrcChkComparesTheRemainder
  refine ⟨decode_encode .ecCrcChk, exec_checksType rfl, fun s b hs hroom => ⟨fun hshort => ?_, fun hlong => ?_⟩⟩
  · rw [exec_ecCrcChk_of_short hs hshort, State.setFlags, Flags.or_truncation]
  · refine ⟨crcPayload b, _, crcTrailer b, ?_, crcTrailer_length hlong, bitsOf_bytesToBits _, fun bad hbad => ?_⟩
    · rw [crcPayload_append_crcTrailer]
      exact bytesOf_bitsToBytes b
    · have hverdict : crcMismatch b = bad := by
        rw [Bool.eq_iff_iff, ← not_iff_not, Bool.not_eq_true, Bool.not_eq_true, crcMismatch_eq_false_iff hlong, hbad]
      rw [exec_ecCrcChk_of_long hs hlong hroom, hverdict, State.setFlags, Flags.or, Bool.or_false]
      rfl

/-- Settles O36: on whole bytes the check accepts the multiples of the generator, which encodings are and, after a single
flip, are not. -/
theorem crcProperties : Obligations.CrcProperties := by
  unfold Obligations.CrcProperties
  refine ⟨⟨(crc32Rem_eq_zero_iff []).mpr (dvd_zero _), crc32Rem_zeros_append⟩,
    ⟨fun m => (crc32Rem_append_be32 m _).mpr rfl, fun s b hs hroom hwhole hlen => ?_⟩, fun s y hs hroom => ?_,
    fun s y k hk hle => ?_, by decide +kernel, by decide +kernel⟩
  · exact ⟨_, exec_ecCrcChk_of_whole hs hwhole (by omega) hroom, hs.1, rfl⟩
  · rw [← ecBits_crc32_length] at hroom
    exact runOps_errctlEncode_check exec_ecCrcChk_encoding hs hroom
  · rw [← ecBits_crc32_length] at hle ⊢
    intro w hs hroom
    have hw : w.length = (ecBits .crc32 y).length := flipPosition_length _ _
    have hlong : 4 ≤ w.length / 8 := hw ▸ four_le_encoding_length_div y
    have hfound : decide (crc32Rem w ≠ 0) = true := decide_eq_true (crc32Rem_flipPosition (crc32Rem_encoding y) hk hle)
    have hexec := exec_ecCrcChk_of_whole hs (hw ▸ encoding_length_mod y) hlong (hw ▸ hroom)
    rw [hfound] at hexec
    refine ⟨_, crcPayload w, crcTrailer w, hexec, hs.1, Bool.or_true _, Bool.or_true _, rfl, ?_, crcTrailer_length hlong⟩
    rw [crcPayload_append_crcTrailer]
    exact bytesOf_bitsToBytes w

end Sys2Proof.Machine

/-! ### Hamming: the exclusive-or of the positions that hold a 1 (42_error_control R170 to R174) -/

namespace Sys2Proof.Machine

/-- The exclusive-or of the 1-indexed positions that hold a 1: all checks of a codeword in one number. -/
def syndrome (c : List Bool) : Nat := (c.zipIdx 1).foldl (fun acc bp => if bp.1 then acc ^^^ bp.2 else acc) 0

@[simp] theorem syndrome_nil : syndrome [] = 0 := rfl

theorem syndrome_concat (c : List Bool) (b : Bool) :
    syndrome (c ++ [b]) = syndrome c ^^^ if b then c.length + 1 else 0 := by
  cases b <;> simp [syndrome, List.zipIdx_append, Nat.add_comm]

theorem hamCheck_concat (c : List Bool) (b : Bool) (i : Nat) :
    hamCheck (c ++ [b]) i = (hamCheck c i ^^ ((c.length + 1).testBit i && b)) := by
  rw [Nat.add_comm c.length]
  cases h : (1 + c.length).testBit i <;> simp [hamCheck, List.zipIdx_append, h]

theorem checkFails_concat (w : List Bool) (b : Bool) (i : Nat) :
    checkFails (w ++ [b]) i = (checkFails w i ^^ ((w.length + 1).testBit i && b)) := by
  have hinit : ((List.range w.length).countP fun k => (k + 1).testBit i && decide ((w ++ [b])[k]? = some true)) =
      (List.range w.length).countP fun k => (k + 1).testBit i && decide (w[k]? = some true) :=
    List.countP_congr fun k hk => by rw [List.getElem?_append_left (List.mem_range.mp hk)]
  rw [checkFails, checkFails, decide_mod_two, decide_mod_two, List.length_append, List.length_singleton, List.range_succ,
    List.countP_append, hinit, Nat.bodd_add, List.countP_singleton, List.getElem?_concat_length]
  cases (w.length + 1).testBit i <;> cases b <;> rfl

/-- Bit `i` of the syndrome is check `i` (42_error_control R172). -/
theorem testBit_syndrome (c : List Bool) (i : Nat) : (syndrome c).testBit i = hamCheck c i := by
  induction c using List.reverseRecOn with
  | nil => exact Nat.zero_testBit i
  | append_singleton c b ih =>
    rw [syndrome_concat, hamCheck_concat, Nat.testBit_xor, ih]
    cases b <;> simp

/-- The count of ones that a check states is the exclusive-or that the machine forms (42_error_control R171). -/
theorem checkFails_eq_testBit (c : List Bool) (i : Nat) : checkFails c i = (syndrome c).testBit i := by
  rw [testBit_syndrome]
  induction c using List.reverseRecOn with
  | nil => rfl
  | append_singleton c b ih => rw [checkFails_concat, hamCheck_concat, ih]

/-- No position is above the length, so no check above it fails. -/
theorem syndrome_lt {c : List Bool} {r : Nat} (h : c.length < 2 ^ r) : syndrome c < 2 ^ r := by
  induction c using List.reverseRecOn with
  | nil => exact Nat.two_pow_pos r
  | append_singleton c b ih =>
    rw [List.length_append, List.length_singleton] at h
    rw [syndrome_concat]
    refine Nat.xor_lt_two_pow (ih (by omega)) ?_
    split <;> omega

/-- A flip of one bit adds its position to the syndrome (42_error_control R174). -/
theorem syndrome_flipPosition {c : List Bool} {q : Nat} (hq : 1 ≤ q) (hle : q ≤ c.length) :
    syndrome (flipPosition c q) = syndrome c ^^^ q := by
  induction c using List.reverseRecOn with
  | nil => exact absurd (hq.trans hle) (by decide)
  | append_singleton c b ih =>
    rw [List.length_append, List.length_singleton] at hle
    rw [flipPosition_concat, syndrome_concat, syndrome_concat, flipPosition_length]
    by_cases hlast : c.length + 1 = q
    · rw [if_pos hlast, flipPosition_of_length_lt (by omega), hlast]
      cases b <;> simp
    · rw [if_neg hlast, ih (by omega), Nat.xor_assoc, Nat.xor_assoc, Nat.xor_comm q]

theorem flipPosition_flipPosition (c : List Bool) (q : Nat) : flipPosition (flipPosition c q) q = c := by
  induction c using List.reverseRecOn with
  | nil => rfl
  | append_singleton c b ih =>
    rw [flipPosition_concat, flipPosition_concat, ih, flipPosition_length]
    split <;> simp

/-! #### the error position -/

/-- A sum of distinct powers of two is the number with these bits (42_error_control R172). -/
theorem sum_two_pow_filter_range {P : Nat → Bool} {n v : Nat} (h : ∀ i, v.testBit i = (decide (i < n) && P i)) :
    (((List.range n).filter P).map fun i => 2 ^ i).sum = v := by
  have hsorted : ((List.range n).filter P).SortedLT := (List.pairwise_lt_range.filter P).sortedLT
  refine Nat.eq_of_testBit_eq fun i => ?_
  rw [Bool.eq_iff_iff, ← Nat.mem_bitIndices, Nat.bitIndices_sum_map_two_pow hsorted, List.mem_filter, List.mem_range, h,
    Bool.and_eq_true, decide_eq_true_iff]

/-- A check that fails is one of a position in the codeword. -/
theorem two_pow_le_length {c : List Bool} {i : Nat} (h : hamCheck c i = true) : 2 ^ i ≤ c.length := by
  rw [← testBit_syndrome] at h
  by_contra hlt
  exact absurd (Nat.ge_two_pow_of_testBit h) (Nat.not_le.mpr (syndrome_lt (Nat.not_le.mp hlt)))

/-- The error position is the syndrome (42_error_control R172). -/
theorem hamErrorPosition_eq (c : List Bool) : hamErrorPosition c = syndrome c := by
  refine sum_two_pow_filter_range fun i => ?_
  rw [testBit_syndrome]
  cases hfails : hamCheck c i with
  | false => rw [Bool.and_false, Bool.and_false]
  | true =>
    have hle := two_pow_le_length hfails
    have hlog : i ≤ c.length.log2 := (Nat.le_log2 (Nat.ne_of_gt ((Nat.two_pow_pos i).trans_le hle))).mpr hle
    rw [decide_eq_true hle, decide_eq_true (Nat.lt_succ_of_le hlog)]
    rfl

/-- The sum that the claims take over all checks is the syndrome as well. -/
theorem failingSum_eq (c : List Bool) : failingSum c = syndrome c := by
  rw [failingSum, List.sum_map_ite, List.map_const', List.sum_replicate, smul_zero, Nat.add_zero]
  refine sum_two_pow_filter_range fun i => ?_
  rw [checkFails_eq_testBit, testBit_syndrome]
  cases hfails : hamCheck c i with
  | false => simp
  | true =>
    have hle := two_pow_le_length hfails
    simp [hle, Nat.lt_two_pow_self.trans_le hle]

/-! #### the data positions -/

theorem isPowerOfTwo_iff (p : Nat) : isPowerOfTwo p = true ↔ ∃ i, 2 ^ i = p := by
  rw [isPowerOfTwo, decide_eq_true_iff]
  constructor
  · exact fun h => ⟨_, h.2⟩
  · rintro ⟨i, rfl⟩
    exact ⟨Nat.ne_of_gt (Nat.two_pow_pos i), by rw [Nat.log2_two_pow]⟩

theorem hamStrip_concat (c : List Bool) (b : Bool) :
    hamStrip (c ++ [b]) = hamStrip c ++ if isPowerOfTwo (c.length + 1) then [] else [b] := by
  rw [Nat.add_comm c.length]
  cases h : isPowerOfTwo (1 + c.length) <;> simp [hamStrip, List.zipIdx_append, h]

theorem dataBits_concat (w : List Bool) (b : Bool) :
    dataBits (w ++ [b]) = dataBits w ++ if isPowerOfTwo (w.length + 1) then [] else [b] := by
  have hslot (k : Nat) : (∃ i < k + 1, 2 ^ i = k + 1) ↔ isPowerOfTwo (k + 1) = true := by
    rw [isPowerOfTwo_iff]
    exact ⟨fun ⟨i, _, hi⟩ => ⟨i, hi⟩, fun ⟨i, hi⟩ => ⟨i, hi ▸ Nat.lt_two_pow_self, hi⟩⟩
  rw [dataBits, dataBits, List.length_append, List.length_singleton, List.range_succ, List.filterMap_append]
  congr 1
  · exact List.filterMap_congr fun k hk => by rw [List.getElem?_append_left (List.mem_range.mp hk)]
  · simp only [hslot]
    cases h : isPowerOfTwo (w.length + 1) <;> simp [h]

/-- The machine strips the positions that the claims leave out. -/
theorem hamStrip_eq_dataBits (c : List Bool) : hamStrip c = dataBits c := by
  induction c using List.reverseRecOn with
  | nil => rfl
  | append_singleton c b ih => rw [hamStrip_concat, dataBits_concat, ih]

/-- A parity bit is no data bit. -/
theorem dataBits_flipPosition_two_pow (c : List Bool) (i : Nat) : dataBits (flipPosition c (2 ^ i)) = dataBits c := by
  induction c using List.reverseRecOn with
  | nil => rfl
  | append_singleton c b ih =>
    rw [flipPosition_concat, dataBits_concat, dataBits_concat, ih, flipPosition_length]
    by_cases hlast : c.length + 1 = 2 ^ i
    · rw [if_pos ((isPowerOfTwo_iff _).mpr ⟨i, hlast.symm⟩), if_pos ((isPowerOfTwo_iff _).mpr ⟨i, hlast.symm⟩)]
    · rw [if_neg hlast]

/-- The parity slots of `n` positions are as many as `n` has binary digits (42_error_control R170). -/
theorem size_succ (n : Nat) : (n + 1).size = n.size + if isPowerOfTwo (n + 1) then 1 else 0 := by
  by_cases hp : isPowerOfTwo (n + 1) = true
  · obtain ⟨j, hj⟩ := (isPowerOfTwo_iff _).mp hp
    have hsize : n.size = j := eq_of_forall_lt_iff fun m => by
      rw [Nat.lt_size, ← Nat.lt_succ_iff, Nat.succ_eq_add_one, ← hj, Nat.pow_lt_pow_iff_right (by decide)]
    rw [if_pos hp, ← hj, Nat.size_pow, hsize]
  · rw [if_neg hp]
    refine eq_of_forall_lt_iff fun m => ?_
    have hne : 2 ^ m ≠ n + 1 := fun h => hp ((isPowerOfTwo_iff _).mpr ⟨m, h⟩)
    have hiff : m < n.size ↔ 2 ^ m ≤ n := Nat.lt_size
    rw [Nat.lt_size]
    omega

theorem dataBits_length_add_size (c : List Bool) : (dataBits c).length + c.length.size = c.length := by
  induction c using List.reverseRecOn with
  | nil => rfl
  | append_singleton c b ih =>
    rw [dataBits_concat, List.length_append, List.length_append, List.length_singleton, size_succ]
    split
    · rw [List.length_nil]; omega
    · rw [List.length_singleton]; omega

/-! #### decoding -/

theorem modify_not_eq_flipPosition (w : List Bool) {e : Nat} (he : e ≠ 0) : w.modify (e - 1) not = flipPosition w e := by
  refine List.ext_getElem? fun k => ?_
  have hplace : e - 1 = k ↔ k + 1 = e := by omega
  rw [List.getElem?_modify, flipPosition, List.getElem?_mapIdx]
  simp only [hplace]
  rfl

theorem flipPosition_zero (c : List Bool) : flipPosition c 0 = c := by
  refine List.ext_getElem? fun k => ?_
  simp [flipPosition]

/-- `ham_decode` flips the position that the syndrome names, if there is one, and keeps the data bits (42_error_control
R172). -/
theorem hamDecode_eq (c : List Bool) : hamDecode c = (dataBits (flipPosition c (syndrome c)), syndrome c) := by
  rw [hamDecode, hamErrorPosition_eq, hamStrip_eq_dataBits]
  split
  · rename_i h
    rw [modify_not_eq_flipPosition c h.1]
  · rename_i h
    by_cases hzero : syndrome c = 0
    · rw [hzero, flipPosition_zero]
    · rw [flipPosition_of_length_lt (Nat.not_le.mp fun hle => h ⟨hzero, hle⟩)]

/-! #### the number of parity positions (42_error_control R170) -/

/-- `r` parity positions are enough for `m` data bits. -/
def HamSuffices (m r : Nat) : Prop := m + r + 1 ≤ 2 ^ r

theorem hamRFrom_least (m n r : Nat) (h : HamSuffices m (r + n)) :
    HamSuffices m (hamRFrom m n r) ∧ ∀ k, r ≤ k → HamSuffices m k → hamRFrom m n r ≤ k := by
  induction n generalizing r with
  | zero => exact ⟨h, fun k hk _ => hk⟩
  | succ n ih =>
    rw [hamRFrom]
    split
    · exact ⟨‹_›, fun k hk _ => hk⟩
    · rename_i hshort
      obtain ⟨hsuff, hleast⟩ := ih (r + 1) (by rwa [Nat.add_assoc, Nat.add_comm 1])
      refine ⟨hsuff, fun k hk hsuffk => hleast k (Nat.lt_of_le_of_ne hk fun heq => hshort (heq ▸ hsuffk)) hsuffk⟩

theorem hamR_least (m : Nat) : HamSuffices m (hamR m) ∧ ∀ r, HamSuffices m r → hamR m ≤ r := by
  have hbound : HamSuffices m (0 + (m + 1)) := by
    have hlt : m < 2 ^ m := Nat.lt_two_pow_self
    rw [HamSuffices, Nat.zero_add, Nat.pow_succ]
    omega
  obtain ⟨hsuff, hleast⟩ := hamRFrom_least m (m + 1) 0 hbound
  exact ⟨hsuff, fun r => hleast r (Nat.zero_le r)⟩

/-- Among the positions of a codeword of `m` data bits, `ham_r(m)` are parity slots. -/
theorem size_add_hamR (m : Nat) : (m + hamR m).size = hamR m := by
  obtain ⟨hsuff, hleast⟩ := hamR_least m
  refine Nat.le_antisymm (Nat.size_le.mpr hsuff) (Nat.not_lt.mp fun hlt => ?_)
  obtain ⟨r, hr⟩ := Nat.exists_eq_succ_of_ne_zero (Nat.ne_of_gt (Nat.zero_lt_of_lt hlt))
  have hshort : m + hamR m < 2 ^ r := Nat.size_le.mp (by omega)
  have hle := hleast r (by rw [HamSuffices]; omega)
  omega

theorem two_pow_le_iff_lt_hamR (m i : Nat) : 2 ^ i ≤ m + hamR m ↔ i < hamR m := by
  rw [← Nat.lt_size, size_add_hamR]

/-! #### encoding (42_error_control R171) -/

theorem hamPlace_getElem?_of_isPowerOfTwo {n p k : Nat} (d : List Bool) (hp : isPowerOfTwo (p + k) = true) (hk : k < n) :
    (hamPlace n p d)[k]? = some false := by
  induction n generalizing p k d with
  | zero => exact absurd hk (Nat.not_lt_zero k)
  | succ n ih =>
    rw [hamPlace]
    cases k with
    | zero => rw [if_pos (show isPowerOfTwo p = true from hp)]; rfl
    | succ k =>
      have htail (d : List Bool) := ih (p := p + 1) (k := k) d (by rwa [Nat.add_assoc, Nat.add_comm 1]) (by omega)
      split <;> exact htail _

/-- Stripping undoes placing where there are as many data positions as data bits. -/
theorem strip_hamPlace {n p : Nat} {d : List Bool}
    (h : (((hamPlace n p d).zipIdx p).filter fun bp => !isPowerOfTwo bp.2).length = d.length) :
    (((hamPlace n p d).zipIdx p).filter fun bp => !isPowerOfTwo bp.2).map Prod.fst = d := by
  induction n generalizing p d with
  | zero => exact (List.eq_nil_of_length_eq_zero h.symm).symm
  | succ n ih =>
    cases hp : isPowerOfTwo p with
    | true => simpa [hamPlace, hp] using ih (by simpa [hamPlace, hp] using h)
    | false =>
      cases d with
      | nil => simp [hamPlace, hp] at h
      | cons x d => simpa [hamPlace, hp] using ih (by simpa [hamPlace, hp] using h)

theorem dataBits_hamPlace (d : List Bool) : dataBits (hamPlace (d.length + hamR d.length) 1 d) = d := by
  have hlen := dataBits_length_add_size (hamPlace (d.length + hamR d.length) 1 d)
  rw [hamPlace_length, size_add_hamR, ← hamStrip_eq_dataBits, hamStrip, List.length_map] at hlen
  rw [← hamStrip_eq_dataBits]
  exact strip_hamPlace (Nat.add_right_cancel hlen)

/-- The first `k` parity slots filled, one after another, each with its check (42_error_control R171). -/
def fillChecks (w : List Bool) (k : Nat) : List Bool :=
  (List.range k).foldl (fun c i => c.set (2 ^ i - 1) (hamCheck c i)) w

theorem hamEncode_eq (d : List Bool) :
    hamEncode d = fillChecks (hamPlace (d.length + hamR d.length) 1 d) (hamR d.length) := rfl

theorem fillChecks_succ (w : List Bool) (k : Nat) :
    fillChecks w (k + 1) = (fillChecks w k).set (2 ^ k - 1) (hamCheck (fillChecks w k) k) := by
  rw [fillChecks, List.range_succ, List.foldl_concat]
  rfl

/-- A slot that is filled later still holds what it held. -/
theorem getElem?_fillChecks (w : List Bool) {k i : Nat} (hki : k ≤ i) :
    (fillChecks w k)[2 ^ i - 1]? = w[2 ^ i - 1]? := by
  induction k with
  | zero => rfl
  | succ k ih =>
    have hlt : 2 ^ k < 2 ^ i := Nat.pow_lt_pow_right (by decide) hki
    have hpos : 0 < 2 ^ k := Nat.two_pow_pos k
    rw [fillChecks_succ, List.getElem?_set_ne (by omega), ih (Nat.le_of_succ_le hki)]

/-- Writing a bit over a 0 flips it or leaves it. -/
theorem set_eq_flipPosition {w : List Bool} {q : Nat} (b : Bool) (hq : 1 ≤ q) (h : w[q - 1]? = some false) :
    w.set (q - 1) b = if b then flipPosition w q else w := by
  cases b with
  | false =>
    obtain ⟨hlt, hget⟩ := List.getElem?_eq_some_iff.mp h
    have hself := List.set_getElem_self hlt
    rwa [hget] at hself
  | true =>
    rw [if_pos rfl, ← modify_not_eq_flipPosition w (Nat.ne_of_gt hq), List.modify_eq_set_getElem?, h]
    rfl

/-- Filling a slot that holds 0 flips it where its check fails. -/
theorem fillChecks_succ_eq {w : List Bool} {k : Nat} (h : w[2 ^ k - 1]? = some false) :
    fillChecks w (k + 1) =
      if hamCheck (fillChecks w k) k then flipPosition (fillChecks w k) (2 ^ k) else fillChecks w k := by
  rw [fillChecks_succ]
  exact set_eq_flipPosition _ (Nat.two_pow_pos k) (by rwa [getElem?_fillChecks w (Nat.le_refl k)])

section Fill

variable {w : List Bool} {k : Nat} (h : ∀ i < k, w[2 ^ i - 1]? = some false)

include h

theorem dataBits_fillChecks : dataBits (fillChecks w k) = dataBits w := by
  induction k with
  | zero => rfl
  | succ k ih =>
    rw [fillChecks_succ_eq (h k (Nat.lt_succ_self k)), ← ih fun i hi => h i (Nat.lt_succ_of_lt hi)]
    split
    · exact dataBits_flipPosition_two_pow _ k
    · rfl

/-- No parity bit takes part in the check of another, so each filled slot settles its check for good (42_error_control
R171). -/
theorem testBit_syndrome_fillChecks {i : Nat} (hi : i < k) : (syndrome (fillChecks w k)).testBit i = false := by
  induction k with
  | zero => exact absurd hi (Nat.not_lt_zero i)
  | succ k ih =>
    have hslot : 2 ^ k ≤ (fillChecks w k).length := by
      have hget := (getElem?_fillChecks w (Nat.le_refl k)).trans (h k (Nat.lt_succ_self k))
      have hlt := (List.getElem?_eq_some_iff.mp hget).1
      omega
    have hearlier (hik : i < k) := ih (fun j hj => h j (Nat.lt_succ_of_lt hj)) hik
    rw [fillChecks_succ_eq (h k (Nat.lt_succ_self k)), ← testBit_syndrome]
    rcases Nat.lt_succ_iff_lt_or_eq.mp hi with hik | rfl
    · split
      · rw [syndrome_flipPosition (Nat.two_pow_pos k) hslot, Nat.testBit_xor, hearlier hik,
          Nat.testBit_two_pow_of_ne (Nat.ne_of_gt hik)]
        rfl
      · exact hearlier hik
    · split
      · rename_i hfails
        rw [syndrome_flipPosition (Nat.two_pow_pos i) hslot, Nat.testBit_xor, hfails, Nat.testBit_two_pow_self]
        rfl
      · exact Bool.eq_false_iff.mpr ‹_›

end Fill

/-- The parity slots are 0 when the checks are computed (42_error_control R171). -/
theorem hamPlace_slot (d : List Bool) {i : Nat} (hi : i < hamR d.length) :
    (hamPlace (d.length + hamR d.length) 1 d)[2 ^ i - 1]? = some false := by
  have hpos : 0 < 2 ^ i := Nat.two_pow_pos i
  have hle := (two_pow_le_iff_lt_hamR d.length i).mpr hi
  exact hamPlace_getElem?_of_isPowerOfTwo d ((isPowerOfTwo_iff _).mpr ⟨i, by omega⟩) (by omega)

theorem dataBits_hamEncode (d : List Bool) : dataBits (hamEncode d) = d := by
  rw [hamEncode_eq, dataBits_fillChecks fun i => hamPlace_slot d, dataBits_hamPlace]

/-- Every check of a codeword is 0 (42_error_control R171). -/
theorem syndrome_hamEncode (d : List Bool) : syndrome (hamEncode d) = 0 := by
  refine Nat.eq_of_testBit_eq fun i => ?_
  rw [Nat.zero_testBit]
  by_cases hi : i < hamR d.length
  · exact testBit_syndrome_fillChecks (fun i => hamPlace_slot d) hi
  · rw [testBit_syndrome]
    refine Bool.eq_false_iff.mpr fun hfails => hi ?_
    rw [← two_pow_le_iff_lt_hamR, ← hamEncode_length]
    exact two_pow_le_length hfails

/-! #### the operations -/

/-- The error position flips one bit, the flags tell whether it is nonzero, and the data bits are grouped (42_error_control
R173). -/
theorem exec_ecHamDec_of_room {s : State} {w : List Bool} (h : s.Holds (.bit w)) (hroom : s.Room w.length) :
    exec .ecHamDec s = .next ((s.setFlags ⟨syndrome w != 0, false, syndrome w != 0,
        decide ((dataBits (flipPosition w (syndrome w))).length % 8 ≠ 0)⟩).setObuf
      (.byte (bitsToBytes (dataBits (flipPosition w (syndrome w)))).1)) := by
  obtain ⟨hready, hibuf⟩ := h
  refine transform_of_done hready (Buffer.bit?_eq_some.mpr hibuf) ?_
  have hlen := dataBits_length_add_size (flipPosition w (syndrome w))
  rw [flipPosition_length] at hlen
  have hle : (dataBits (flipPosition w (syndrome w))).length ≤ w.length := by omega
  rw [ecHamDecStage, hamDecode_eq]
  exact groupBytes_fit (hroom.mono hle)

/-- Settles O37: `ham_r` by its search, the codeword by its placed data bits and its filled slots. -/
theorem ecHamEncGivesTheCodeword : Obligations.EcHamEncGivesTheCodeword := by
  unfold Obligations.EcHamEncGivesTheCodeword
  refine ⟨decode_encode .ecHamEnc, exec_checksType rfl, hamR_least, fun d =>
    ⟨hamEncode_length d, dataBits_hamEncode d, fun i _ => ?_⟩, fun s y hs => ?_⟩
  · rw [checkFails_eq_testBit, syndrome_hamEncode, Nat.zero_testBit]
  · have hlen : (ecBits .hamming y).length = 8 * y.length + hamR (8 * y.length) := ecBits_length .hamming y
    rw [← hlen]
    refine ⟨fun hroom => ⟨_, bitsOf_bytesToBits y, ?_⟩, fun hroom => exec_errctlEncode_of_over .hamming hs hroom⟩
    exact exec_errctlEncode_of_room .hamming hs hroom

/-- Settles O38: the sum of the failing checks is the syndrome. -/
theorem ecHamDecCorrectsOnePosition : Obligations.EcHamDecCorrectsOnePosition := by
  unfold Obligations.EcHamDecCorrectsOnePosition
  refine ⟨decode_encode .ecHamDec, exec_checksType rfl, fun s w hs hroom => ?_⟩
  rw [failingSum_eq]
  refine ⟨_, bytesOf_bitsToBytes _, ?_⟩
  have hnonzero : (syndrome w != 0) = decide (syndrome w ≠ 0) := by simp [bne, beq_eq_decide]
  rw [exec_ecHamDec_of_room hs hroom, hnonzero, State.setFlags, Flags.or, Bool.or_false]
  rfl

/-- Settles O39: a codeword has syndrome 0, and each flip adds its position. -/
theorem hammingCorrectsSingleErrors : Obligations.HammingCorrectsSingleErrors := by
  unfold Obligations.HammingCorrectsSingleErrors
  have hsingle {d : List Bool} {q : Nat} (hq : 1 ≤ q) (hle : q ≤ (hamEncode d).length) :
      syndrome (flipPosition (hamEncode d) q) = q := by
    rw [syndrome_flipPosition hq hle, syndrome_hamEncode, Nat.zero_xor]
  refine ⟨fun d => ?_, fun d q hq hle => ?_, fun d p q hp hpq hle => ⟨?_, ?_, ?_, ?_⟩, ?_⟩
  · rw [hamDecode_eq, syndrome_hamEncode, flipPosition_zero, dataBits_hamEncode]
  · rw [hamDecode_eq, hsingle hq hle, flipPosition_flipPosition, dataBits_hamEncode]
  · rw [hamDecode_eq]
    dsimp only
    rw [syndrome_flipPosition (hp.trans hpq.le) (by rwa [flipPosition_length]), hsingle hp (hpq.le.trans hle)]
  · exact fun h => hpq.ne (Nat.xor_eq_zero_iff.mp h)
  · intro h
    have hzero : q = 0 := by simpa using h
    omega
  · intro h
    have hzero : p = 0 := by simpa using h
    omega
  · exact ⟨[true], 1, 2, 3, by decide +kernel⟩

end Sys2Proof.Machine

/-! ### chunks (43_framing R191) -/

namespace Sys2Proof.Machine

/-- Piece `i` of a stream cut into pieces of `n` elements is not empty exactly where the pieces before it do not use up the
stream. -/
theorem lt_pieces_iff {n : Nat} (hn : n ≠ 0) (i k : Nat) : i < pieces k n ↔ i * n < k := by
  rw [pieces, Nat.lt_iff_add_one_le, Nat.le_div_iff_mul_le (Nat.pos_of_ne_zero hn), Nat.add_one_mul]
  omega

/-- The pieces before the last are whole. -/
theorem pred_pieces_mul_le {n : Nat} (hn : n ≠ 0) (k : Nat) : (pieces k n - 1) * n ≤ k := by
  obtain hzero | hpos := Nat.eq_zero_or_pos (pieces k n)
  · simp [hzero]
  · exact ((lt_pieces_iff hn _ _).mp (Nat.sub_one_lt_of_lt hpos)).le

theorem slices_dropLast {α : Type} (n k : Nat) (l : List α) : (slices n k l).dropLast = slices n (k - 1) l := by
  cases k with
  | zero => rfl
  | succ k => simp [slices, List.range_succ]

theorem length_of_mem_chunks {p ch : List Byte} {f : Nat} (hf : f ≠ 0) (h : ch ∈ chunks p f) :
    1 ≤ ch.length ∧ ch.length ≤ f := by
  obtain ⟨i, hi, rfl⟩ := List.mem_map.mp h
  have hlt : i * f < p.length := (lt_pieces_iff hf i _).mp (List.mem_range.mp hi)
  rw [List.length_take, List.length_drop]
  omega

theorem length_of_mem_dropLast_chunks {p ch : List Byte} {f : Nat} (hf : f ≠ 0) (h : ch ∈ (chunks p f).dropLast) :
    ch.length = f := by
  rw [chunks, slices_dropLast] at h
  exact length_of_mem_slices (pred_pieces_mul_le hf p.length) h

theorem isChunking_chunks {f : Nat} (hf : f ≠ 0) (p : List Byte) : IsChunking f p (chunks p f) :=
  ⟨chunks_flatten hf p, fun _ => length_of_mem_chunks hf, fun _ => length_of_mem_dropLast_chunks hf⟩

end Sys2Proof.Machine

/-! ### the two frame operations (43_framing R190 to R192, R196) -/

namespace Sys2Proof.Machine

/-- One frame, by the method. -/
def oneFrame : FramingMethod → List Byte → List Byte
  | .charCount => lengthFrame
  | .byteStuffing => flagFrame

theorem frameBytes_eq (f : Nat) (fm : FramingMethod) (p : List Byte) :
    frameBytes f fm p = (chunks p f).flatMap (oneFrame fm) := by
  cases fm <;> rfl

section Operations

variable {s : State} {p : List Byte}

/-- The two frame operations are one operation, by the stage of the method. -/
theorem exec_frame (fm : FramingMethod) (s : State) : exec (frameOp (FramingMethod.number fm)) s =
    transform s Buffer.byte? (frameStage s fm) fun s' y => s'.setObuf (.byte y) := by
  cases fm <;> rfl

theorem frameStage_of_frameSize_zero (fm : FramingMethod) (hsize : s.maxFrameSize = 0) :
    frameStage s fm p = Report.fail Flags.clear .configError 0x0C := by
  rw [frameStage_eq, withFrameSize, hsize]
  rfl

theorem frameStage_of_over {fm : FramingMethod} (hsize : s.maxFrameSize.toNat ≠ 0)
    (hroom : ¬s.Room (frameBytes s.maxFrameSize.toNat fm p).length) : frameStage s fm p =
      Report.fail Flags.clear .capacityError (frameBytes s.maxFrameSize.toNat fm p).length := by
  rw [frameStage_eq, withFrameSize, beq_false_of_ne hsize]
  exact Report.fit_pure_over hroom

theorem exec_frame_of_room {fm : FramingMethod} (h : s.Holds (.byte p)) (hsize : s.maxFrameSize.toNat ≠ 0)
    (hroom : s.Room (frameBytes s.maxFrameSize.toNat fm p).length) : exec (frameOp (FramingMethod.number fm)) s =
      .next (s.setObuf (.byte (frameBytes s.maxFrameSize.toNat fm p))) := by
  obtain ⟨hready, hibuf⟩ := h
  rw [exec_frame]
  exact transform_of_pure hready (Buffer.byte?_eq_some.mpr hibuf) (frameStage_of_room hsize hroom)

theorem exec_frame_of_fail {fm : FramingMethod} {kind : FaultKind} {info : Nat} (h : s.Holds (.byte p))
    (hs : frameStage s fm p = Report.fail Flags.clear kind info) :
    exec (frameOp (FramingMethod.number fm)) s = .next (s.afterFault kind info) := by
  obtain ⟨hready, hibuf⟩ := h
  rw [exec_frame]
  exact transform_of_fail hready (Buffer.byte?_eq_some.mpr hibuf) hs

/-- All that framing a payload can do: `ConfigError`, or the frames of its chunks, or no room for them. -/
theorem exec_frame_chunks (fm : FramingMethod) (h : s.Holds (.byte p)) :
    (s.maxFrameSize = 0 → exec (frameOp (FramingMethod.number fm)) s = .next (s.afterFault .configError 0x0C)) ∧
    (s.maxFrameSize ≠ 0 → ∃ chs, IsChunking s.maxFrameSize.toNat p chs ∧
      (s.Room (chs.flatMap (oneFrame fm)).length → exec (frameOp (FramingMethod.number fm)) s =
        .next (s.setObuf (.byte (chs.flatMap (oneFrame fm))))) ∧
      (¬s.Room (chs.flatMap (oneFrame fm)).length → exec (frameOp (FramingMethod.number fm)) s =
        .next (s.afterFault .capacityError (chs.flatMap (oneFrame fm)).length))) := by
  refine ⟨fun hsize => exec_frame_of_fail h (frameStage_of_frameSize_zero fm hsize), fun hsize => ?_⟩
  have hsize : s.maxFrameSize.toNat ≠ 0 := BitVec.toNat_ne.mp hsize
  refine ⟨_, isChunking_chunks hsize p, ?_⟩
  rw [← frameBytes_eq]
  exact ⟨exec_frame_of_room h hsize, fun hroom => exec_frame_of_fail h (frameStage_of_over hsize hroom)⟩

end Operations

/-- Settles O40: framing a payload, under character count. -/
theorem frCcFPrefixesLengths : Obligations.FrCcFPrefixesLengths := by
  unfold Obligations.FrCcFPrefixesLengths
  exact ⟨decode_encode .frCcF, exec_checksType rfl, fun _ _ => exec_frame_chunks .charCount⟩

/-- Settles O42: framing a payload, under byte stuffing. -/
theorem frBsFStuffsBytes : Obligations.FrBsFStuffsBytes := by
  unfold Obligations.FrBsFStuffsBytes
  exact ⟨decode_encode .frBsF, exec_checksType rfl, fun _ _ => exec_frame_chunks .byteStuffing⟩

end Sys2Proof.Machine

/-! ### reading length bytes (43_framing R194) -/

namespace Sys2Proof.Machine

@[simp] theorem lengthFrame_length (ch : List Byte) : (lengthFrame ch).length = ch.length + 1 := rfl

@[simp] theorem ccDeframe_nil (n i : Nat) (out : List Byte) : ccDeframe n i [] out = Report.pure out := by
  cases n <;> rfl

/-- A length byte greater than what remains ends the loop at its offset. -/
theorem ccDeframe_of_short {l : Byte} {rest : List Byte} (h : rest.length < l.toNat) (n i : Nat) (out : List Byte) :
    ccDeframe (n + 1) i (l :: rest) out = Report.fail Flags.clear .framingError i := by
  rw [ccDeframe, if_pos h]

/-- A turn of the loop takes one frame and delivers its payload. -/
theorem ccDeframe_lengthFrame {ch : List Byte} (h : ch.length ≤ 255) (n i : Nat) (rest out : List Byte) :
    ccDeframe (n + 1) i (lengthFrame ch ++ rest) out = ccDeframe n (i + (lengthFrame ch).length) rest (out ++ ch) := by
  have hl : (BitVec.ofNat 8 ch.length).toNat = ch.length := by
    rw [BitVec.toNat_ofNat]
    omega
  rw [lengthFrame, List.cons_append, ccDeframe, hl, if_neg (by simp), List.drop_left, List.take_left, List.length_cons]
  congr 1
  omega

theorem ccDeframe_lengthFrames {chs : List (List Byte)} (h : ∀ ch ∈ chs, ch.length ≤ 255) (n i : Nat)
    (rest out : List Byte) : ccDeframe (chs.length + n) i (chs.flatMap lengthFrame ++ rest) out =
      ccDeframe n (i + (chs.flatMap lengthFrame).length) rest (out ++ chs.flatten) := by
  induction chs generalizing i out with
  | nil => simp
  | cons ch chs ih =>
    obtain ⟨hch, hchs⟩ := List.forall_mem_cons.mp h
    rw [List.length_cons, Nat.add_right_comm, List.flatMap_cons, List.append_assoc, ccDeframe_lengthFrame hch, ih hchs,
      List.length_append, List.flatten_cons, Nat.add_assoc, List.append_assoc]

/-- A stream gives the loop a turn for each of its frames, and one for each byte of the rest. -/
theorem ccDeframe_stream {chs : List (List Byte)} (h : ∀ ch ∈ chs, ch.length ≤ 255) (rest : List Byte) :
    ccDeframe (chs.flatMap lengthFrame ++ rest).length 0 (chs.flatMap lengthFrame ++ rest) [] =
      ccDeframe (chs.flatten.length + rest.length) (chs.flatMap lengthFrame).length rest chs.flatten := by
  have hlen : (chs.flatMap lengthFrame).length = chs.flatten.length + chs.length := length_flatMap_ccFrame chs
  have hturns : (chs.flatMap lengthFrame ++ rest).length = chs.length + (chs.flatten.length + rest.length) := by
    rw [List.length_append]
    omega
  rw [hturns, ccDeframe_lengthFrames h, Nat.zero_add, List.nil_append]

/-- A length byte that the rest can meet makes a frame. -/
theorem lengthFrame_take {l : Byte} {rest : List Byte} (h : l.toNat ≤ rest.length) :
    lengthFrame (rest.take l.toNat) = l :: rest.take l.toNat := by
  rw [lengthFrame, List.length_take_of_le h, BitVec.ofNat_toNat, BitVec.setWidth_eq]

/-- Every byte stream is frames, or frames and then a length byte greater than what remains. -/
theorem exists_lengthFrames (b : List Byte) : ∃ chs : List (List Byte), (∀ ch ∈ chs, ch.length ≤ 255) ∧
    (b = chs.flatMap lengthFrame ∨ ∃ l rest, rest.length < l.toNat ∧ b = chs.flatMap lengthFrame ++ l :: rest) := by
  match b with
  | [] => exact ⟨[], by simp, .inl rfl⟩
  | l :: rest =>
    by_cases hshort : rest.length < l.toNat
    · exact ⟨[], by simp, .inr ⟨l, rest, hshort, rfl⟩⟩
    obtain ⟨chs, hchs, hrest⟩ := exists_lengthFrames (rest.drop l.toNat)
    have hcut : l :: rest = lengthFrame (rest.take l.toNat) ++ rest.drop l.toNat := by
      rw [lengthFrame_take (Nat.le_of_not_lt hshort), List.cons_append, List.take_append_drop]
    refine ⟨rest.take l.toNat :: chs, List.forall_mem_cons.mpr ⟨?_, hchs⟩, ?_⟩
    · exact (List.length_take_le _ _).trans (Nat.le_of_lt_succ l.isLt)
    rw [hcut, List.flatMap_cons]
    obtain hrest | ⟨l', rest', hshort', hrest⟩ := hrest
    · exact .inl (congrArg _ hrest)
    · exact .inr ⟨l', rest', hshort', by rw [hrest, List.append_assoc]⟩
termination_by b.length

section Stage

variable {s : State} {chs : List (List Byte)}

theorem frCcDStage_lengthFrames (h : ∀ ch ∈ chs, ch.length ≤ 255) (hroom : s.Room (chs.flatMap lengthFrame).length) :
    frCcDStage s (chs.flatMap lengthFrame) = Report.pure chs.flatten := by
  have hstream := ccDeframe_stream h []
  rw [List.append_nil, ccDeframe_nil] at hstream
  rw [frCcDStage, hstream]
  refine Report.fit_pure (hroom.mono ?_)
  exact (Nat.le_add_right _ _).trans (length_flatMap_ccFrame chs).ge

theorem frCcDStage_of_short {l : Byte} {rest : List Byte} (h : ∀ ch ∈ chs, ch.length ≤ 255) (hshort : rest.length < l.toNat) :
    frCcDStage s (chs.flatMap lengthFrame ++ l :: rest) =
      Report.fail Flags.clear .framingError (chs.flatMap lengthFrame).length := by
  rw [frCcDStage, ccDeframe_stream h, List.length_cons, ← Nat.add_assoc, ccDeframe_of_short hshort]
  rfl

end Stage

end Sys2Proof.Machine

/-! ### removing the stuffing (43_framing R198) -/

namespace Sys2Proof.Machine

/-! #### what a stuffed stream delivers, byte by byte -/

theorem unstuffed_flag (b : List Byte) : unstuffed (flagByte :: b) = unstuffed b := by
  cases b <;> simp [unstuffed, flagByte]

theorem unstuffed_esc_cons (c : Byte) (b : List Byte) :
    unstuffed (escByte :: c :: b) = (unstuffed b).map (c :: ·) := by
  simp [unstuffed, escByte]

theorem unstuffed_plain {c : Byte} (hflag : c ≠ flagByte) (hesc : c ≠ escByte) (b : List Byte) :
    unstuffed (c :: b) = (unstuffed b).map (c :: ·) := by
  have hflag : c ≠ 0x16#8 := hflag
  have hesc : c ≠ 0x1B#8 := hesc
  cases b <;> simp [unstuffed, hflag, hesc]

/-! #### the scan -/

/-- What a finished scan delivers; `none` where it ended after an unescaped `ESC`. -/
def scanResult (st : Bool × List Byte) : Option (List Byte) := if st.1 then none else some st.2

theorem scanResult_eq_some_iff {st : Bool × List Byte} {p : List Byte} : scanResult st = some p ↔ st = (false, p) := by
  obtain ⟨_ | _, out⟩ := st <;> simp [scanResult]

theorem scanResult_eq_none_iff {st : Bool × List Byte} : scanResult st = none ↔ st.1 = true := by
  simp [scanResult]

theorem bsScan_escaped (c : Byte) (out : List Byte) : bsScan (true, out) c = (false, out ++ [c]) := rfl

theorem bsScan_flag (out : List Byte) : bsScan (false, out) flagByte = (false, out) := rfl

theorem bsScan_esc (out : List Byte) : bsScan (false, out) escByte = (true, out) := rfl

theorem bsScan_plain {c : Byte} (hflag : c ≠ flagByte) (hesc : c ≠ escByte) (out : List Byte) :
    bsScan (false, out) c = (false, out ++ [c]) := by
  simp [bsScan, hflag, hesc]

/-- Outside an escape, the scan appends what the rest of the stream delivers. -/
theorem scanResult_foldl (b out : List Byte) :
    scanResult (b.foldl bsScan (false, out)) = (unstuffed b).map (out ++ ·) := by
  match b with
  | [] => simp [scanResult, unstuffed]
  | c :: b =>
    rw [List.foldl_cons]
    by_cases hflag : c = flagByte
    · rw [hflag, bsScan_flag, unstuffed_flag]
      exact scanResult_foldl b out
    by_cases hesc : c = escByte
    · rw [hesc, bsScan_esc]
      match b with
      | [] => rfl
      | d :: b =>
        rw [List.foldl_cons, bsScan_escaped, unstuffed_esc_cons, scanResult_foldl b]
        simp [Function.comp_def]
    · rw [bsScan_plain hflag hesc, unstuffed_plain hflag hesc, scanResult_foldl b]
      simp [Function.comp_def]

/-- The scan never outgrows the stream. -/
theorem bsScan_foldl_length_le (b : List Byte) (st : Bool × List Byte) :
    (b.foldl bsScan st).2.length ≤ st.2.length + b.length := by
  induction b generalizing st with
  | nil => exact le_rfl
  | cons c b ih =>
    have hstep : (bsScan st c).2.length ≤ st.2.length + 1 := by
      unfold bsScan
      split_ifs <;> simp
    rw [List.foldl_cons, List.length_cons]
    have htail := ih (bsScan st c)
    omega

section Stage

variable {s : State} {b : List Byte}

theorem frBsDStage_of_some {p : List Byte} (h : unstuffed b = some p) (hroom : s.Room b.length) :
    frBsDStage s b = Report.pure p := by
  have hscan : b.foldl bsScan (false, []) = (false, p) := by
    rw [← scanResult_eq_some_iff, scanResult_foldl, h, Option.map_some, List.nil_append]
  have hlen : p.length ≤ b.length := by simpa [hscan] using bsScan_foldl_length_le b (false, [])
  rw [frBsDStage, hscan]
  exact Report.fit_pure (hroom.mono hlen)

theorem frBsDStage_of_none (h : unstuffed b = none) :
    frBsDStage s b = Report.fail Flags.clear .framingError b.length := by
  have hscan : (b.foldl bsScan (false, [])).1 = true := by
    rw [← scanResult_eq_none_iff, scanResult_foldl, h, Option.map_none]
  rw [frBsDStage, hscan]
  rfl

end Stage

/-! #### the stuffing of a payload comes off again -/

theorem unstuffed_stuff (c : Byte) (rest : List Byte) :
    unstuffed (stuff c ++ rest) = (unstuffed rest).map (c :: ·) := by
  by_cases h : c = flagByte ∨ c = escByte
  · rw [stuff, if_pos h]
    exact unstuffed_esc_cons c rest
  · obtain ⟨hflag, hesc⟩ := not_or.mp h
    rw [stuff, if_neg h]
    exact unstuffed_plain hflag hesc rest

theorem unstuffed_flatMap_stuff (p rest : List Byte) :
    unstuffed (p.flatMap stuff ++ rest) = (unstuffed rest).map (p ++ ·) := by
  induction p with
  | nil => simp
  | cons c p ih =>
    rw [List.flatMap_cons, List.append_assoc, unstuffed_stuff, ih]
    simp [Function.comp_def]

theorem flagFrame_append (ch rest : List Byte) :
    flagFrame ch ++ rest = flagByte :: (ch.flatMap stuff ++ flagByte :: rest) :=
  congrArg (flagByte :: ·) (List.append_assoc (ch.flatMap stuff) [flagByte] rest)

theorem unstuffed_flagFrame (ch rest : List Byte) :
    unstuffed (flagFrame ch ++ rest) = (unstuffed rest).map (ch ++ ·) := by
  rw [flagFrame_append, unstuffed_flag, unstuffed_flatMap_stuff, unstuffed_flag]

/-- Frames of byte stuffing deliver their payloads. -/
theorem unstuffed_flagFrames (chs : List (List Byte)) : unstuffed (chs.flatMap flagFrame) = some chs.flatten := by
  induction chs with
  | nil => rfl
  | cons ch chs ih =>
    rw [List.flatMap_cons, unstuffed_flagFrame, ih]
    rfl

end Sys2Proof.Machine

/-! ### the two deframe operations and the round trip (43_framing R194, R198, R200) -/

namespace Sys2Proof.Machine

section Operations

variable {s : State} {b p : List Byte} {fm : FramingMethod}

/-- The two deframe operations are one operation, by the stage of the method. -/
theorem exec_deframe (fm : FramingMethod) (s : State) : exec (deframeOp (FramingMethod.number fm)) s =
    transform s Buffer.byte? (deframeStage s fm) fun s' y => s'.setObuf (.byte y) := by
  cases fm <;> rfl

theorem exec_deframe_of_pure (h : s.Holds (.byte b)) (hs : deframeStage s fm b = Report.pure p) :
    exec (deframeOp (FramingMethod.number fm)) s = .next (s.setObuf (.byte p)) := by
  obtain ⟨hready, hibuf⟩ := h
  rw [exec_deframe]
  exact transform_of_pure hready (Buffer.byte?_eq_some.mpr hibuf) hs

theorem exec_deframe_of_fail {kind : FaultKind} {info : Nat} (h : s.Holds (.byte b))
    (hs : deframeStage s fm b = Report.fail Flags.clear kind info) :
    exec (deframeOp (FramingMethod.number fm)) s = .next (s.afterFault kind info) := by
  obtain ⟨hready, hibuf⟩ := h
  rw [exec_deframe]
  exact transform_of_fail hready (Buffer.byte?_eq_some.mpr hibuf) hs

/-- Deframing gives a payload back from its frames (43_framing R200); the frame size is at most 255, so a length byte holds
it. -/
theorem deframeStage_frameBytes {f : Nat} (fm : FramingMethod) (hf : f ≠ 0) (hle : f ≤ 255)
    (hroom : s.Room (frameBytes f fm p).length) : deframeStage s fm (frameBytes f fm p) = Report.pure p := by
  rw [frameBytes_eq] at hroom ⊢
  cases fm with
  | charCount =>
    have hlen : ∀ ch ∈ chunks p f, ch.length ≤ 255 := fun _ hch => (length_of_mem_chunks hf hch).2.trans hle
    exact (frCcDStage_lengthFrames hlen hroom).trans (by rw [chunks_flatten hf])
  | byteStuffing =>
    exact (frBsDStage_of_some (unstuffed_flagFrames _) hroom).trans (by rw [chunks_flatten hf])

/-- `XFER` and the deframe operation, on any state whose output is the frames. -/
theorem runOps_xfer_deframe {f : Nat} (fm : FramingMethod) (hf : f ≠ 0) (hle : f ≤ 255) (hready : s.fault = none)
    (hobuf : s.obuf = .byte (frameBytes f fm p)) (hroom : s.Room (frameBytes f fm p).length) : ∃ t,
      runOps [.xfer, deframeOp (FramingMethod.number fm)] s = .next t ∧ t.fault = none ∧ t.flags = s.flags ∧
        t.obuf = .byte p := by
  have hdeframe : exec (deframeOp (FramingMethod.number fm)) ((s.setIbuf s.obuf).setObuf .none) = _ :=
    exec_deframe_of_pure ⟨hready, hobuf⟩ (deframeStage_frameBytes fm hf hle hroom)
  exact ⟨_, (runOps_cons (exec_xfer_of_ready hready) _).trans (runOps_singleton hdeframe), hready, rfl, rfl⟩

end Operations

/-- Settles O41: every stream is frames, with or without a length byte that is too large after them, and the loop reads the
frames one by one. -/
theorem frCcDReadsLengths : Obligations.FrCcDReadsLengths := by
  unfold Obligations.FrCcDReadsLengths
  refine ⟨decode_encode .frCcD, exec_checksType rfl, fun s chs h hs hroom => ?_, fun s chs l rest h hshort hs => ?_,
    exists_lengthFrames⟩
  · exact exec_deframe_of_pure (fm := .charCount) hs (frCcDStage_lengthFrames h hroom)
  · exact exec_deframe_of_fail (fm := .charCount) hs (frCcDStage_of_short h hshort)

/-- Settles O43: the scan of the stage and the recursion on the stream deliver the same. -/
theorem frBsDUnstuffsBytes : Obligations.FrBsDUnstuffsBytes := by
  unfold Obligations.FrBsDUnstuffsBytes
  refine ⟨decode_encode .frBsD, exec_checksType rfl, fun s b hs hroom => ⟨fun p h => ?_, fun h => ?_⟩⟩
  · exact exec_deframe_of_pure (fm := .byteStuffing) hs (frBsDStage_of_some h hroom)
  · exact exec_deframe_of_fail (fm := .byteStuffing) hs (frBsDStage_of_none h)

/-- Settles O44: each pair of the list is a method's, and both methods give the chunks of the payload back. -/
theorem framingRoundTrip : Obligations.FramingRoundTrip := by
  unfold Obligations.FramingRoundTrip
  intro s p g hs hsize c hc hroom
  have hsize : s.maxFrameSize.toNat ≠ 0 := BitVec.toNat_ne.mp hsize
  obtain ⟨fm, rfl⟩ : ∃ fm, c = (FramingMethod.number fm, frameOp (FramingMethod.number fm),
      deframeOp (FramingMethod.number fm)) := by
    simp only [List.mem_cons, List.not_mem_nil, or_false] at hc
    exact hc.elim (⟨.charCount, ·⟩) (⟨.byteStuffing, ·⟩)
  rw [← frameBytes_length hsize] at hroom
  have hle : s.maxFrameSize.toNat ≤ 255 := Nat.le_of_lt_succ s.maxFrameSize.isLt
  obtain ⟨t, ht⟩ := runOps_xfer_deframe (s := { s.setObuf (.byte _) with maxFrameSize := g }) fm hsize hle hs.1 rfl hroom
  exact ⟨_, t, exec_frame_of_room hs hsize hroom, ht⟩

end Sys2Proof.Machine

/-! ### symbols and logical values, element by element (44_line_coder R211, R217; 45_carrier_modem R233, R234) -/

namespace Sys2Proof.Machine

/-- A function that does not look at the position is applied to each element. -/
theorem mapIdx_eq_map {α β : Type} (f : α → β) (l : List α) : (l.mapIdx fun _ x => f x) = l.map f :=
  List.ext_getElem? fun i => by rw [List.getElem?_mapIdx, List.getElem?_map]

/-- The symbol of a `true` bit of Bipolar, by whether an odd number of `true` bits ends in it (44_line_coder R217). -/
def polarity (isOdd : Bool) : Sym := if isOdd then Sym.one else Sym.negOne

theorem neg_polarity (isOdd : Bool) : -polarity isOdd = polarity !isOdd := by cases isOdd <;> rfl

/-- The alternation, after a stream with an odd or an even number of `true` bits, looks at that parity only. -/
theorem bipolarFrom_polarity (isOdd : Bool) (b : List Bool) : bipolarFrom (polarity isOdd) b =
    b.mapIdx fun i x => if x then polarity (isOdd ^^ odd (b.take (i + 1))) else Sym.zero := by
  induction b generalizing isOdd with
  | nil => rfl
  | cons x b ih => cases x <;> simp [bipolarFrom, neg_polarity, ih, List.mapIdx_cons]

theorem bipolar_eq_symbolStream (v : List Bool) : bipolar v = symbolStream 2 v := by
  have hfirst := bipolarFrom_polarity false v
  simp only [Bool.false_xor] at hfirst
  exact hfirst

/-- The digital signal of logical values, symbol by symbol (45_carrier_modem R234). -/
theorem symbolsOf_eq_symbolStream (lc : LineCode) (v : List Bool) :
    symbolsOf lc v = symbolStream (LineCode.number lc) v := by
  cases lc with
  | nrzPolar => exact (mapIdx_eq_map ..).symm
  | manchester => exact (mapIdx_eq_map ..).symm
  | bipolar => exact bipolar_eq_symbolStream v

/-- A symbol has the logical value it was made from, under every line code (45_carrier_modem R233). -/
theorem logicalBit_symbolAt (lc : Nat) (v : List Bool) (i : Nat) (x : Bool) : logicalBit lc (symbolAt lc v i x) = x := by
  rcases lc with _ | _ | lc
  · cases x <;> rfl
  · cases x <;> rfl
  · cases x with
    | false => rfl
    | true => cases hodd : odd (v.take (i + 1)) <;> simp [logicalBit, symbolAt, hodd]

theorem map_logicalBit_symbolStream (lc : Nat) (v : List Bool) : (symbolStream lc v).map (logicalBit lc) = v := by
  refine List.ext_getElem? fun i => ?_
  rw [symbolStream, List.getElem?_map, List.getElem?_mapIdx, Option.map_map]
  exact (congrArg (Option.map · v[i]?) (funext (logicalBit_symbolAt lc v i))).trans (Option.map_id' ..)

end Sys2Proof.Machine

/-! ### the streams of the Line Coder (44_line_coder R210 to R219) -/

namespace Sys2Proof.Machine

/-- The symbols that a line encoder can emit (44_line_coder R210). -/
def lineAlphabet : LineCode → List Sym
  | .nrzPolar => [1#2, 3#2]
  | .manchester => [0#2, 1#2]
  | .bipolar => [3#2, 0#2, 1#2]

/-- The bits that a line decoder reads, where it completes. -/
def lineBits : LineCode → List Sym → List Bool
  | .nrzPolar, d => nrzDecode d
  | .manchester, d => manDecode d
  | .bipolar, d => bipDecode d

theorem lineBits_length (lc : LineCode) (d : List Sym) :
    (lineBits lc d).length = if LineCode.number lc = 1 then d.length / 2 else d.length := by
  cases lc <;> simp [lineBits, nrzDecode, manDecode, bipDecode, LineCode.number]

/-! #### Manchester (44_line_coder R214, R216) -/

theorem manEncode_eq (b : List Bool) : manEncode b = b.flatMap fun x => if x then [1#2, 0#2] else [0#2, 1#2] := by
  have hpair : (fun x => [slotSym (x ^^ false), slotSym (x ^^ true)]) = fun x => if x then [1#2, 0#2] else [0#2, 1#2] :=
    funext fun x => by cases x <;> rfl
  rw [manEncode, hpair]

/-- The decoder reads a pair by its first slot (44_line_coder R216). -/
theorem manDecode_cons_cons (x y : Sym) (d : List Sym) : manDecode (x :: y :: d) = decide (x = 1#2) :: manDecode d := by
  have hpairs : (x :: y :: d).length / 2 = d.length / 2 + 1 := Nat.add_div_right d.length Nat.two_pos
  rw [manDecode, hpairs, List.range_succ_eq_map, List.map_cons, List.map_map]
  simp [manDecode, Function.comp_def, Nat.mul_succ]

/-- Of an even number of symbols, bit `i` is read from symbol `2 * i`. -/
theorem getElem?_manDecode {d : List Sym} (hd : d.length % 2 = 0) (i : Nat) :
    (manDecode d)[i]? = d[2 * i]?.map fun x => decide (x = 1#2) := by
  rw [manDecode, List.getElem?_map]
  by_cases hi : i < d.length / 2
  · have hslot : 2 * i < d.length := by omega
    simp [hi, hslot]
  · have hslot : d.length ≤ 2 * i := by omega
    simp [hi, hslot]

theorem manDecode_manEncode (b : List Bool) : manDecode (manEncode b) = b := by
  induction b with
  | nil => rfl
  | cons x b ih =>
    have hcons : manEncode (x :: b) = slotSym (x ^^ false) :: slotSym (x ^^ true) :: manEncode b := List.flatMap_cons
    rw [hcons, manDecode_cons_cons, ih]
    cases x <;> rfl

theorem manEncode_length (b : List Bool) : (manEncode b).length = 2 * b.length := lineSymbols_length .manchester b

/-! #### alphabets and round trips (44_line_coder R210, R220) -/

theorem mem_lineAlphabet_of_mem_lineSymbols {lc : LineCode} {b : List Bool} {x : Sym} (hx : x ∈ lineSymbols lc b) :
    x ∈ lineAlphabet lc := by
  cases lc with
  | nrzPolar =>
    obtain ⟨bit, -, rfl⟩ := List.mem_map.mp hx
    cases bit <;> decide
  | manchester =>
    obtain ⟨bit, -, hslot⟩ := List.mem_flatMap.mp hx
    clear hx
    revert x
    cases bit <;> decide
  | bipolar =>
    rw [lineSymbols, bipolar_eq_symbolStream] at hx
    obtain ⟨i, hi, rfl⟩ := List.mem_mapIdx.mp hx
    rw [symbolAt, if_neg (by decide), if_neg (by decide)]
    split_ifs <;> decide

/-- Each line decoder undoes its encoder (44_line_coder R220). -/
theorem lineBits_lineSymbols (lc : LineCode) (b : List Bool) : lineBits lc (lineSymbols lc b) = b := by
  cases lc with
  | nrzPolar => exact (congrArg nrzDecode (symbolsOf_eq_symbolStream .nrzPolar b)).trans (map_logicalBit_symbolStream 0 b)
  | manchester => exact manDecode_manEncode b
  | bipolar => exact (congrArg bipDecode (bipolar_eq_symbolStream b)).trans (map_logicalBit_symbolStream 2 b)

end Sys2Proof.Machine

/-! ### the six operations of the Line Coder (44_line_coder R211 to R220) -/

namespace Sys2Proof.Machine

section Operations

variable {s : State} {b : List Bool} {d : List Sym}

/-- The three line encodings are one operation, by the stage of the line code. -/
theorem exec_lineEncode (lc : LineCode) (s : State) : exec (lineEncodeOp (LineCode.number lc)) s =
    transform s Buffer.bit? (lineEncodeStage s lc) State.finishEncode := by
  cases lc <;> rfl

/-- The three line decodings are one operation, by the stage of the line code. -/
theorem exec_lineDecode (lc : LineCode) (s : State) : exec (lineDecodeOp (LineCode.number lc)) s =
    transform s Buffer.sym? (lineDecodeStage s lc) fun s' b => s'.setObuf (.bit b) := by
  cases lc <;> rfl

/-- An encoding changes OBUF and `DLEN` and nothing else (44_line_coder R212). -/
theorem exec_lineEncode_of_room {n : Nat} (lc : LineCode) (h : s.Holds (.bit b)) (hd : lineSymbols lc b = d)
    (hn : d.length = n) (hroom : s.Room n) :
    exec (lineEncodeOp (LineCode.number lc)) s = .next ((s.setObuf (.sym d)).setDlen n) := by
  subst hd hn
  obtain ⟨hready, hibuf⟩ := h
  rw [exec_lineEncode, transform_of_done hready (Buffer.bit?_eq_some.mpr hibuf) (lineEncodeStage_of_room hroom),
    State.setFlags_clear]
  rfl

theorem exec_lineEncode_of_over (lc : LineCode) (h : s.Holds (.bit b)) (hroom : ¬s.Room (lineSymbols lc b).length) :
    exec (lineEncodeOp (LineCode.number lc)) s =
      .next (s.afterFault .capacityError (lineSymbols lc b).length) := by
  obtain ⟨hready, hibuf⟩ := h
  rw [exec_lineEncode]
  refine transform_of_fail hready (Buffer.bit?_eq_some.mpr hibuf) ?_
  rw [lineEncodeStage_eq]
  exact Report.fit_pure_over hroom

/-- Only Manchester needs a whole number of pairs (44_line_coder R216). -/
theorem lineDecodeStage_of_room {lc : LineCode} (hpairs : lc = .manchester → d.length % 2 = 0)
    (hroom : s.Room (lineBits lc d).length) : lineDecodeStage s lc d = Report.pure (lineBits lc d) := by
  cases lc with
  | nrzPolar => exact Report.fit_pure hroom
  | manchester =>
    rw [lineDecodeStage, lcManDecStage, hpairs rfl]
    exact Report.fit_pure hroom
  | bipolar => exact Report.fit_pure hroom

theorem exec_lineDecode_of_room {lc : LineCode} (h : s.Holds (.sym d)) (hpairs : lc = .manchester → d.length % 2 = 0)
    (hroom : s.Room (lineBits lc d).length) :
    exec (lineDecodeOp (LineCode.number lc)) s = .next (s.setObuf (.bit (lineBits lc d))) := by
  obtain ⟨hready, hibuf⟩ := h
  rw [exec_lineDecode]
  exact transform_of_pure hready (Buffer.sym?_eq_some.mpr hibuf) (lineDecodeStage_of_room hpairs hroom)

/-- A decoder never needs more room than its input. -/
theorem room_lineBits (lc : LineCode) (hroom : s.Room d.length) : s.Room (lineBits lc d).length := by
  refine hroom.mono ?_
  rw [lineBits_length]
  split
  · exact Nat.div_le_self _ _
  · exact le_rfl

theorem exec_lcManDec_of_odd (h : s.Holds (.sym d)) (hodd : d.length % 2 ≠ 0) :
    exec .lcManDec s = .next (s.afterFault .lengthError d.length) := by
  obtain ⟨hready, hibuf⟩ := h
  refine transform_of_fail hready (Buffer.sym?_eq_some.mpr hibuf) ?_
  rw [lcManDecStage, bne_iff_ne.mpr hodd]
  rfl

/-- `XFER` and the decoding, on any state whose output is an encoding. -/
theorem runOps_xfer_lineDecode (lc : LineCode) (hready : s.fault = none) (hobuf : s.obuf = .sym (lineSymbols lc b))
    (hroom : s.Room (lineSymbols lc b).length) : ∃ u,
      runOps [.xfer, lineDecodeOp (LineCode.number lc)] s = .next u ∧ u.fault = none ∧ u.flags = s.flags ∧
        u.obuf = .bit b := by
  have hpairs : lc = .manchester → (lineSymbols lc b).length % 2 = 0 := by
    rintro rfl
    exact (congrArg (· % 2) (manEncode_length b)).trans (Nat.mul_mod_right 2 b.length)
  have hdecode : exec (lineDecodeOp (LineCode.number lc)) ((s.setIbuf s.obuf).setObuf .none) = _ :=
    exec_lineDecode_of_room ⟨hready, hobuf⟩ hpairs (room_lineBits lc hroom)
  rw [lineBits_lineSymbols] at hdecode
  exact ⟨_, (runOps_cons (exec_xfer_of_ready hready) _).trans (runOps_singleton hdecode), hready, rfl, rfl⟩

/-- An encoding, `XFER` and its decoding give the bits back and set no flag (44_line_coder R220). -/
theorem runOps_lineEncode_decode (lc : LineCode) (h : s.Holds (.bit b)) (hroom : s.Room (lineSymbols lc b).length) : ∃ t u,
    exec (lineEncodeOp (LineCode.number lc)) s = .next t ∧ t.obuf = .sym (lineSymbols lc b) ∧
      runOps (chain [lineEncodeOp (LineCode.number lc), lineDecodeOp (LineCode.number lc)]) s = .next u ∧
        u.fault = none ∧ u.flags = s.flags ∧ u.obuf = .bit b := by
  have hencode := exec_lineEncode_of_room lc h rfl rfl hroom
  obtain ⟨u, hdecode, hu⟩ := runOps_xfer_lineDecode (s := s.finishEncode (lineSymbols lc b)) lc h.1 rfl hroom
  exact ⟨_, u, hencode, rfl, (runOps_cons hencode _).trans hdecode, hu⟩

end Operations

/-- Settles O45: the three encoders are one operation, by the symbols of the line code. -/
theorem lineEncodersGiveTheirSymbols : Obligations.LineEncodersGiveTheirSymbols := by
  unfold Obligations.LineEncodersGiveTheirSymbols
  refine ⟨decode_encode .lcNrzEnc, decode_encode .lcManEnc, decode_encode .lcBipEnc, exec_checksType rfl,
    exec_checksType rfl, exec_checksType rfl, fun s b hs => ⟨fun hroom => ⟨?_, ?_⟩, fun hroom => ?_, fun hroom => ?_⟩⟩
  · exact exec_lineEncode_of_room .nrzPolar hs rfl (List.length_map _) hroom
  · exact exec_lineEncode_of_room .bipolar hs (bipolar_eq_symbolStream b) List.length_mapIdx hroom
  · exact exec_lineEncode_of_room .manchester hs (manEncode_eq b) (manEncode_eq b ▸ manEncode_length b) hroom
  · rw [← manEncode_length] at hroom ⊢
    exact exec_lineEncode_of_over .manchester hs hroom

/-- Settles O46: NRZ-Polar and Bipolar by the symbol, Manchester by whether a slot is left without its pair. -/
theorem lineDecodersReadTheirSymbols : Obligations.LineDecodersReadTheirSymbols := by
  unfold Obligations.LineDecodersReadTheirSymbols
  refine ⟨decode_encode .lcNrzDec, decode_encode .lcManDec, decode_encode .lcBipDec, exec_checksType rfl,
    exec_checksType rfl, exec_checksType rfl, fun s d hs hroom => ⟨?_, ?_, fun heven => ?_, exec_lcManDec_of_odd hs⟩⟩
  · exact exec_lineDecode_of_room (lc := .nrzPolar) hs nofun (room_lineBits _ hroom)
  · exact exec_lineDecode_of_room (lc := .bipolar) hs nofun (room_lineBits _ hroom)
  · exact ⟨_, lineBits_length .manchester d, getElem?_manDecode heven,
      exec_lineDecode_of_room (lc := .manchester) hs (fun _ => heven) (room_lineBits _ hroom)⟩

/-- Settles O47: each triple of the list is a line code's, and every decoder undoes its encoder. -/
theorem lineCodeRoundTrips : Obligations.LineCodeRoundTrips := by
  unfold Obligations.LineCodeRoundTrips
  intro s b hs hroom c hc
  obtain ⟨lc, rfl⟩ : ∃ lc, c = (lineEncodeOp (LineCode.number lc), lineDecodeOp (LineCode.number lc), lineAlphabet lc) := by
    simp only [List.mem_cons, List.not_mem_nil, or_false] at hc
    exact hc.elim (⟨.nrzPolar, ·⟩) (Or.elim · (⟨.manchester, ·⟩) (⟨.bipolar, ·⟩))
  have hlen : (lineSymbols lc b).length ≤ 2 * b.length := by
    rw [lineSymbols_length]
    split <;> omega
  obtain ⟨t, u, hencode, hsignal, hchain⟩ := runOps_lineEncode_decode lc hs (hroom.mono hlen)
  exact ⟨_, t, u, hencode, hsignal, fun _ => mem_lineAlphabet_of_mem_lineSymbols, hchain⟩

end Sys2Proof.Machine

/-! ### the checks and stages of the Carrier Modem (45_carrier_modem R233 to R235) -/

namespace Sys2Proof.Machine

/-- The model and the claims read a symbol alike (45_carrier_modem R233). -/
theorem logical_eq_logicalBit (lc : LineCode) (x : Sym) : logical lc x = logicalBit (LineCode.number lc) x := by
  cases lc <;> rfl

/-- Symbols made again from their logical values are the signal that a line encoder produced (45_carrier_modem R234). -/
theorem symbolsOf_map_logical {lc : LineCode} {d : List Sym} (h : IsSignal (LineCode.number lc) d) :
    symbolsOf lc (d.map (logical lc)) = d := by
  obtain ⟨v, hd⟩ := h
  by_cases hlc : lc = .manchester
  · subst hlc
    have hsignal : d = lineSymbols .manchester v := hd.trans (manEncode_eq v).symm
    rw [symbolsOf, List.map_map]
    refine (List.map_congr_left fun x hx => ?_).trans (List.map_id d)
    rw [hsignal] at hx
    have hmem : x ∈ [0#2, 1#2] := mem_lineAlphabet_of_mem_lineSymbols hx
    clear hx
    revert x
    decide
  · have hnumber : LineCode.number lc ≠ 1 := by
      revert hlc
      cases lc <;> decide
    have hbits : d.map (logical lc) = v := by
      rw [hd, if_neg hnumber, funext (logical_eq_logicalBit lc), map_logicalBit_symbolStream]
    rw [hbits, symbolsOf_eq_symbolStream, hd, if_neg hnumber]

/-- A line code that is not the reserved one has a name. -/
theorem exists_lineCode {s : State} (h : s.lineCode < 3) :
    ∃ lc, lineCode? s.scheme = some lc ∧ s.lineCode = LineCode.number lc := by
  rcases lineCode?_cases s with ⟨hge, -⟩ | hlc
  · omega
  · exact hlc

section Checks

variable {α : Type} {s : State} {lc : LineCode} {k : LineCode → Report α}
  {kd : LineCode → List (List Sample) → Report α} {a : List Sample}

theorem carrierChecks_of_reserved (h : s.lineCode = 3) :
    carrierChecks s k = Report.fail Flags.clear .unsupportedScheme (0x10000 + s.scheme.toNat) := by
  rcases lineCode?_cases s with ⟨-, hnone⟩ | ⟨lc, -, hlc⟩
  · rw [carrierChecks, hnone]
    rfl
  · rw [h] at hlc
    cases lc <;> cases hlc

theorem carrierChecks_of_lineCode (hlc : lineCode? s.scheme = some lc) :
    carrierChecks s k = Report.check (s.samples == 0) .configError 0x04 (k lc) := by
  rw [carrierChecks, hlc, State.samples]

theorem carrierChecks_of_samples_zero (hlc : lineCode? s.scheme = some lc) (h : s.samples = 0) :
    carrierChecks s k = Report.fail Flags.clear .configError 0x04 := by
  rw [carrierChecks_of_lineCode hlc, h]
  rfl

theorem carrierChecks_of_valid (hlc : lineCode? s.scheme = some lc) (h : s.samples ≠ 0) :
    carrierChecks s k = k lc := by
  rw [carrierChecks_of_lineCode hlc, beq_false_of_ne h, Report.check_false]

/-- A demodulator past the first two checks holds its input to whole windows. -/
theorem demodChecks_of_valid (hlc : lineCode? s.scheme = some lc) (h : s.samples ≠ 0) :
    demodChecks s a kd = Report.check (a.length % s.samples != 0) .lengthError a.length
      (kd lc (slices s.samples (a.length / s.samples) a)) :=
  carrierChecks_of_valid hlc h

theorem demodChecks_of_partial (hlc : lineCode? s.scheme = some lc) (h : s.samples ≠ 0) (ha : a.length % s.samples ≠ 0) :
    demodChecks s a kd = Report.fail Flags.clear .lengthError a.length := by
  rw [demodChecks_of_valid hlc h, bne_iff_ne.mpr ha, Report.check_true]

theorem demodChecks_of_whole (hlc : lineCode? s.scheme = some lc) (h : s.samples ≠ 0) (ha : a.length % s.samples = 0) :
    demodChecks s a kd = kd lc (slices s.samples (a.length / s.samples) a) := by
  rw [demodChecks_of_valid hlc h, ha, bne_self_eq_false, Report.check_false]

end Checks

/-- What a demodulator makes of its windows, by the carrier scheme (45_carrier_modem R241, R247, R256). -/
def windowSymbols (s : State) : CarrierScheme → LineCode → List (List Sample) → Report (List Sym)
  | .ask, lc, ws => Report.pure (symbolsOf lc (ws.map (askOne lc s.ampZero.toRat s.ampOne.toRat)))
  | .fsk, lc, ws => Report.pure (symbolsOf lc (ws.map (fskOne s.freqZero.toRat s.freqOne.toRat)))
  | .qam8, lc, ws =>
    Report.check (decide ((3 * ws.length - s.dlen : Int) < 0 ∨ 2 < (3 * ws.length - s.dlen : Int))) .lengthError
      (3 * ws.length)
      (Report.pure (symbolsOf lc ((ws.flatMap fun w => codeBits (qamNearest (qamEstimate s w))).drop
        (3 * ws.length - s.dlen : Int).toNat)))

theorem demodulateStage_eq (s : State) (cs : CarrierScheme) (a : List Sample) :
    demodulateStage s cs a = (demodChecks s a (windowSymbols s cs)).fit s.bufCap := by
  cases cs <;> rfl

section Operations

variable {s : State} {d : List Sym} {a : List Sample} {kind : FaultKind} {info : Nat} {lc : LineCode}

/-- The three modulations are one operation, by the stage of the carrier scheme. -/
theorem exec_modulate (cs : CarrierScheme) (s : State) : exec (modulateOp (CarrierScheme.number cs)) s =
    transform s Buffer.sym? (modulateStage s cs) fun s' a => s'.setObuf (.sample a) := by
  cases cs <;> rfl

/-- The three demodulations are one operation, by the stage of the carrier scheme. -/
theorem exec_demodulate (cs : CarrierScheme) (s : State) : exec (demodulateOp (CarrierScheme.number cs)) s =
    transform s Buffer.sample? (demodulateStage s cs) fun s' d => s'.setObuf (.sym d) := by
  cases cs <;> rfl

theorem exec_modulate_of_fail (cs : CarrierScheme) (h : s.Holds (.sym d))
    (hs : modulateStage s cs d = Report.fail Flags.clear kind info) :
    exec (modulateOp (CarrierScheme.number cs)) s = .next (s.afterFault kind info) := by
  obtain ⟨hready, hibuf⟩ := h
  rw [exec_modulate]
  exact transform_of_fail hready (Buffer.sym?_eq_some.mpr hibuf) hs

theorem exec_demodulate_of_fail (cs : CarrierScheme) (h : s.Holds (.sample a))
    (hs : demodulateStage s cs a = Report.fail Flags.clear kind info) :
    exec (demodulateOp (CarrierScheme.number cs)) s = .next (s.afterFault kind info) := by
  obtain ⟨hready, hibuf⟩ := h
  rw [exec_demodulate]
  exact transform_of_fail hready (Buffer.sample?_eq_some.mpr hibuf) hs

/-- A modulator that passes its checks changes OBUF and nothing else (45_carrier_modem R240, R245, R253). -/
theorem exec_modulate_of_room (cs : CarrierScheme) (h : s.Holds (.sym d)) (hlc : lineCode? s.scheme = some lc)
    (hsamples : s.samples ≠ 0) (hroom : s.Room (windowCount (CarrierScheme.number cs) d.length * s.samples)) :
    exec (modulateOp (CarrierScheme.number cs)) s = .next (s.setObuf (.sample (carrierSamples s cs lc d))) := by
  obtain ⟨hready, hibuf⟩ := h
  rw [← carrierSamples_length s cs lc] at hroom
  rw [exec_modulate]
  exact transform_of_pure hready (Buffer.sym?_eq_some.mpr hibuf) (modulateStage_of_room hlc hsamples hroom)

theorem exec_modulate_of_over (cs : CarrierScheme) (h : s.Holds (.sym d)) (hlc : lineCode? s.scheme = some lc)
    (hsamples : s.samples ≠ 0) (hroom : ¬s.Room (windowCount (CarrierScheme.number cs) d.length * s.samples)) :
    exec (modulateOp (CarrierScheme.number cs)) s =
      .next (s.afterFault .capacityError (windowCount (CarrierScheme.number cs) d.length * s.samples)) := by
  refine exec_modulate_of_fail cs h ?_
  rw [← carrierSamples_length s cs lc] at hroom ⊢
  rw [modulateStage_eq, carrierChecks_of_valid hlc hsamples, Report.fit_pure_over hroom]

/-- On whole windows, past the checks, a demodulator is the decision on its windows, held to the capacity. -/
theorem demodulateStage_of_whole (cs : CarrierScheme) (hlc : lineCode? s.scheme = some lc) (hsamples : s.samples ≠ 0)
    (hwhole : a.length % s.samples = 0) : demodulateStage s cs a =
      (windowSymbols s cs lc (slices s.samples (a.length / s.samples) a)).fit s.bufCap := by
  rw [demodulateStage_eq, demodChecks_of_whole hlc hsamples hwhole]

/-- A demodulator that completes changes OBUF and nothing else (45_carrier_modem R241, R247, R256). -/
theorem exec_demodulate_of_room (cs : CarrierScheme) (h : s.Holds (.sample a)) (hlc : lineCode? s.scheme = some lc)
    (hsamples : s.samples ≠ 0) (hwhole : a.length % s.samples = 0)
    (hd : windowSymbols s cs lc (slices s.samples (a.length / s.samples) a) = Report.pure d) (hroom : s.Room d.length) :
    exec (demodulateOp (CarrierScheme.number cs)) s = .next (s.setObuf (.sym d)) := by
  obtain ⟨hready, hibuf⟩ := h
  rw [exec_demodulate]
  refine transform_of_pure hready (Buffer.sample?_eq_some.mpr hibuf) ?_
  rw [demodulateStage_of_whole cs hlc hsamples hwhole, hd, Report.fit_pure hroom]

/-- The six operations are the three modulations and the three demodulations. -/
theorem isCarrier_cases {i : Instr} (h : isCarrier i = true) : ∃ cs,
    (i = modulateOp (CarrierScheme.number cs) ∧ inputTag i = some 4 ∧ isDemodulator i = false) ∨
      (i = demodulateOp (CarrierScheme.number cs) ∧ inputTag i = some 5) := by
  cases i with
  | cmAskMod => exact ⟨.ask, .inl ⟨rfl, rfl, rfl⟩⟩
  | cmFskMod => exact ⟨.fsk, .inl ⟨rfl, rfl, rfl⟩⟩
  | cmQamMod => exact ⟨.qam8, .inl ⟨rfl, rfl, rfl⟩⟩
  | cmAskDem => exact ⟨.ask, .inr ⟨rfl, rfl⟩⟩
  | cmFskDem => exact ⟨.fsk, .inr ⟨rfl, rfl⟩⟩
  | cmQamDem => exact ⟨.qam8, .inr ⟨rfl, rfl⟩⟩
  | _ => cases h

end Operations

theorem Buffer.exists_sym_of_tag {b : Buffer} (h : b.tag = 4) : ∃ d, b = .sym d := by
  cases hd : b.sym? with
  | some d => exact ⟨d, Buffer.sym?_eq_some.mp hd⟩
  | none => exact absurd h (Buffer.sym?_eq_none.mp hd)

theorem Buffer.exists_sample_of_tag {b : Buffer} (h : b.tag = 5) : ∃ a, b = .sample a := by
  cases ha : b.sample? with
  | some a => exact ⟨a, Buffer.sample?_eq_some.mp ha⟩
  | none => exact absurd h (Buffer.sample?_eq_none.mp ha)

/-- A carrier operation is stopped by the checks that all six begin with (45_carrier_modem R235). -/
theorem exec_carrier_of_checks_fail {i : Instr} {s : State} {kind : FaultKind} {info : Nat} (hi : isCarrier i = true)
    (hready : s.fault = none) (htag : inputTag i = some s.ibuf.tag)
    (hk : ∀ {α : Type} (k : LineCode → Report α), carrierChecks s k = Report.fail Flags.clear kind info) :
    exec i s = .next (s.afterFault kind info) := by
  obtain ⟨cs, ⟨rfl, hin, -⟩ | ⟨rfl, hin⟩⟩ := isCarrier_cases hi
  · obtain ⟨d, hibuf⟩ := Buffer.exists_sym_of_tag (Option.some.inj (htag.symm.trans hin))
    refine exec_modulate_of_fail cs ⟨hready, hibuf⟩ ?_
    rw [modulateStage_eq, hk, Report.fit, Report.fail_bind]
  · obtain ⟨a, hibuf⟩ := Buffer.exists_sample_of_tag (Option.some.inj (htag.symm.trans hin))
    refine exec_demodulate_of_fail cs ⟨hready, hibuf⟩ ?_
    rw [demodulateStage_eq, demodChecks, hk, Report.fit, Report.fail_bind]

/-- Settles O48: all six begin with `carrierChecks`, and a demodulator then holds its input to whole windows. -/
theorem carrierOperationsCheckInOrder : Obligations.CarrierOperationsCheckInOrder := by
  unfold Obligations.CarrierOperationsCheckInOrder
  intro i s hi hready htag
  refine ⟨fun hreserved => ?_, fun hvalid hzero => ?_, fun hdem hvalid hpos hpartial => ?_⟩
  · exact exec_carrier_of_checks_fail hi hready htag fun _ => carrierChecks_of_reserved hreserved
  · obtain ⟨lc, hlc, -⟩ := exists_lineCode hvalid
    exact exec_carrier_of_checks_fail hi hready htag fun _ => carrierChecks_of_samples_zero hlc hzero
  · obtain ⟨lc, hlc, -⟩ := exists_lineCode hvalid
    obtain ⟨cs, ⟨-, -, hmod⟩ | ⟨rfl, hin⟩⟩ := isCarrier_cases hi
    · rw [hmod] at hdem
      cases hdem
    · obtain ⟨a, hibuf⟩ := Buffer.exists_sample_of_tag (Option.some.inj (htag.symm.trans hin))
      rw [hibuf] at hpartial ⊢
      refine exec_demodulate_of_fail cs ⟨hready, hibuf⟩ ?_
      rw [demodulateStage_eq, demodChecks_of_partial hlc hpos.ne' hpartial, Report.fit, Report.fail_bind]
      rfl

end Sys2Proof.Machine

/-! ### the samples of the modulators, one by one (45_carrier_modem R240, R245, R251, R253) -/

namespace Sys2Proof.Machine

/-- Of pieces of one length joined, element `k` of piece `j`. -/
theorem getElem?_flatMap_of_length {α β : Type} {n k : Nat} {f : α → List β} (h : ∀ x, (f x).length = n) (hk : k < n)
    (l : List α) (j : Nat) : (l.flatMap f)[j * n + k]? = l[j]?.bind fun x => (f x)[k]? := by
  induction l generalizing j with
  | nil => rfl
  | cons x l ih =>
    rw [List.flatMap_cons]
    cases j with
    | zero => rw [Nat.zero_mul, Nat.zero_add, List.getElem?_append_left (by rwa [h])]; rfl
    | succ j =>
      have hrest : (j + 1) * n + k = n + (j * n + k) := by rw [Nat.add_one_mul]; omega
      rw [hrest, ← h x, List.getElem?_append_right (Nat.le_add_right _ _), Nat.add_sub_cancel_left, h x, ih]
      rfl

/-- Sample `k` of a window of a carrier (45_carrier_modem R230, R240, R245). -/
theorem getElem?_sineWindow {s : State} {k : Nat} (hk : k < s.samples) (amp f ph : Rat) :
    (sineWindow s amp f ph)[k]?.map Sample.toReal = some ((amp : ℝ) * Real.sin (carrierAngle s f k + ph)) := by
  rw [← List.getElem?_map, sineWindow_toReal]
  simp [hk]

/-- Sample `k` of the window of a constellation point (45_carrier_modem R253). -/
theorem getElem?_qamWindow {s : State} {k : Nat} (hk : k < s.samples) (iq : Rat × Rat) :
    (qamWindow s iq)[k]?.map Sample.toReal =
      some ((iq.1 : ℝ) * Real.cos (carrierAngle s s.frequency.toRat k) +
        (iq.2 : ℝ) * Real.sin (carrierAngle s s.frequency.toRat k)) := by
  have hrange : (List.range s.sampleCount.toNat)[k]? = some k := List.getElem?_range hk
  rw [qamWindow, List.getElem?_map, hrange]
  simp [carrierTurns_angle]

/-- Settles O49: the stream is a window of the carrier for each symbol. -/
theorem cmAskModGivesTheSine : Obligations.CmAskModGivesTheSine := by
  unfold Obligations.CmAskModGivesTheSine
  refine ⟨decode_encode .cmAskMod, fun s d hs hvalid hpos => ?_⟩
  obtain ⟨lc, hlc, hnumber⟩ := exists_lineCode hvalid
  refine ⟨fun hroom => ⟨_, exec_modulate_of_room .ask hs hlc hpos.ne' hroom, carrierSamples_length s .ask lc d,
    fun j k hk => ?_⟩, exec_modulate_of_over .ask hs hlc hpos.ne'⟩
  rw [carrierSamples, getElem?_flatMap_of_length (fun _ => sineWindow_length ..) hk, hnumber]
  cases d[j]? with
  | none => rfl
  | some x =>
    rw [Option.bind_some, getElem?_sineWindow hk, Option.map_some, logical_eq_logicalBit, apply_ite (Rat.cast (K := ℝ))]

/-- Settles O50: the stream is a window of the carrier for each symbol. -/
theorem cmFskModGivesTheSine : Obligations.CmFskModGivesTheSine := by
  unfold Obligations.CmFskModGivesTheSine
  refine ⟨decode_encode .cmFskMod, fun s d hs hvalid hpos => ?_⟩
  obtain ⟨lc, hlc, hnumber⟩ := exists_lineCode hvalid
  refine ⟨fun hroom => ⟨_, exec_modulate_of_room .fsk hs hlc hpos.ne' hroom, carrierSamples_length s .fsk lc d,
    fun j k hk => ?_⟩, exec_modulate_of_over .fsk hs hlc hpos.ne'⟩
  rw [carrierSamples, getElem?_flatMap_of_length (fun _ => sineWindow_length ..) hk, hnumber]
  cases d[j]? with
  | none => rfl
  | some x => rw [Option.bind_some, getElem?_sineWindow hk, Option.map_some, logical_eq_logicalBit]

/-! #### 8-QAM (45_carrier_modem R250, R251) -/

/-- The model's formula for the points is the table (45_carrier_modem R250). -/
theorem qamPoint_eq_constellation {code : Nat} (h : code < 8) : qamPoint code = constellation code := by
  interval_cases code <;> decide +kernel

/-- The padding makes whole groups of three (45_carrier_modem R251). -/
theorem paddedBits_length (lc : Nat) (d : List Sym) : (paddedBits lc d).length = 3 * pieces d.length 3 := by
  simp only [paddedBits, List.length_append, List.length_replicate, List.length_map, pieces]
  omega

/-- The number of a group of three bits (45_carrier_modem R250). -/
theorem msbFirst_three (a b c : Bool) : msbFirst [a, b, c] = 4 * a.toNat + 2 * b.toNat + c.toNat := by
  cases a <;> cases b <;> cases c <;> rfl

/-- A group of three elements, cut from a stream. -/
theorem take_three_drop {l : List Bool} {i : Nat} (h : i + 2 < l.length) :
    (l.drop i).take 3 = [l[i]?.getD false, l[i + 1]?.getD false, l[i + 2]?.getD false] := by
  have h0 : i < l.length := by omega
  have h1 : i + 1 < l.length := by omega
  rw [List.drop_eq_getElem_cons h0, List.drop_eq_getElem_cons h1, List.drop_eq_getElem_cons h,
    List.getElem?_eq_getElem h0, List.getElem?_eq_getElem h1, List.getElem?_eq_getElem h]
  rfl

theorem qamPack_eq (lc : LineCode) (d : List Sym) : qamPack lc d =
    (slices 3 (pieces d.length 3) (paddedBits (LineCode.number lc) d)).map msbFirst := by
  have hpieces : pieces d.length 3 = (paddedBits (LineCode.number lc) d).length / 3 := by
    rw [paddedBits_length, Nat.mul_div_cancel_left _ (by decide)]
  rw [hpieces, qamPack, paddedBits, funext (logical_eq_logicalBit lc)]

/-- The code of group `j` is the number of its three bits (45_carrier_modem R251). -/
theorem getElem?_qamPack {lc : LineCode} {d : List Sym} {j : Nat} (hj : j < pieces d.length 3) :
    let bit := fun i => ((paddedBits (LineCode.number lc) d)[i]?.getD false).toNat
    (qamPack lc d)[j]? = some (4 * bit (3 * j) + 2 * bit (3 * j + 1) + bit (3 * j + 2)) := by
  have hlen := paddedBits_length (LineCode.number lc) d
  have hgroup : (slices 3 (pieces d.length 3) (paddedBits (LineCode.number lc) d))[j]? =
      some (((paddedBits (LineCode.number lc) d).drop (3 * j)).take 3) := by
    simp [slices, hj, Nat.mul_comm j 3]
  rw [qamPack_eq, List.getElem?_map, hgroup, take_three_drop (by omega), Option.map_some, msbFirst_three]

/-- Settles O51: the stream is a window of the point for each group of three bits. -/
theorem cmQamModGivesTheConstellation : Obligations.CmQamModGivesTheConstellation := by
  unfold Obligations.CmQamModGivesTheConstellation
  refine ⟨decode_encode .cmQamMod, fun s d hs hvalid hpos => ?_⟩
  obtain ⟨lc, hlc, hnumber⟩ := exists_lineCode hvalid
  refine ⟨fun hroom => ⟨_, exec_modulate_of_room .qam8 hs hlc hpos.ne' hroom, carrierSamples_length s .qam8 lc d,
    fun j k hj hk => ?_⟩, exec_modulate_of_over .qam8 hs hlc hpos.ne'⟩
  have hcode : ∀ a b c : Bool, 4 * a.toNat + 2 * b.toNat + c.toNat < 8 := by decide
  rw [carrierSamples, getElem?_flatMap_of_length (fun _ => qamWindow_length ..) hk, getElem?_qamPack hj, Option.bind_some,
    getElem?_qamWindow hk, hnumber, qamPoint_eq_constellation (hcode _ _ _)]

end Sys2Proof.Machine

/-! ### the decisions of the demodulators, window by window (45_carrier_modem R241, R247) -/

namespace Sys2Proof.Machine

/-- A decision on the samples of a window, where it is one on their real numbers. -/
theorem getElem?_map_slices_eq_true {s : State} {one : List Sample → Bool} {reads : List ℝ → Prop}
    (h : ∀ w, one w = true ↔ reads (w.map Sample.toReal)) (a : List Sample) {n j : Nat} (hj : j < n) :
    ((slices s.samples n a).map one)[j]? = some true ↔ reads (windowOf s a j) := by
  have hwindow := slices_map_toReal s a n j
  rw [if_pos hj, Option.map_eq_some_iff] at hwindow
  obtain ⟨w, hw, hreal⟩ := hwindow
  rw [List.getElem?_map, hw, Option.map_some, Option.some_inj, h, hreal]

section Operations

variable {s : State} {a : List Sample} {lc : LineCode} {cs : CarrierScheme} {one : List Sample → Bool}

/-- A demodulator that decides each window for itself completes with one symbol for each (45_carrier_modem R234). -/
theorem exec_demodulate_of_decision (hcs : ∀ ws, windowSymbols s cs lc ws = Report.pure (symbolsOf lc (ws.map one)))
    (h : s.Holds (.sample a)) (hlc : lineCode? s.scheme = some lc) (hsamples : s.samples ≠ 0)
    (hwhole : a.length % s.samples = 0) (hroom : s.Room (a.length / s.samples)) :
    exec (demodulateOp (CarrierScheme.number cs)) s =
      .next (s.setObuf (.sym (symbolsOf lc ((slices s.samples (a.length / s.samples) a).map one)))) := by
  refine exec_demodulate_of_room cs h hlc hsamples hwhole (hcs _) ?_
  rwa [symbolsOf_length, List.length_map, slices_length]

/-- The same, symbol by symbol: each logical value is the decision on the real numbers of its window. -/
theorem exec_demodulate_reads {reads : List ℝ → Prop}
    (hcs : ∀ ws, windowSymbols s cs lc ws = Report.pure (symbolsOf lc (ws.map one)))
    (hreads : ∀ w, one w = true ↔ reads (w.map Sample.toReal)) (h : s.Holds (.sample a))
    (hlc : lineCode? s.scheme = some lc) (hnumber : s.lineCode = LineCode.number lc) (hsamples : s.samples ≠ 0)
    (hwhole : a.length % s.samples = 0) (hroom : s.Room (a.length / s.samples)) :
    ∃ v : List Bool, v.length = a.length / s.samples ∧ exec (demodulateOp (CarrierScheme.number cs)) s =
        .next { s with obuf := .sym (symbolStream s.lineCode v) } ∧
      ∀ j < v.length, (v[j]? = some true ↔ reads (windowOf s a j)) := by
  have hlen : ((slices s.samples (a.length / s.samples) a).map one).length = a.length / s.samples := by simp
  refine ⟨_, hlen, ?_, fun j hj => getElem?_map_slices_eq_true hreads a (hlen ▸ hj)⟩
  rw [exec_demodulate_of_decision hcs h hlc hsamples hwhole hroom, symbolsOf_eq_symbolStream, hnumber]
  rfl

end Operations

/-- The ASK decision is that of the claims, by the number of the line code (45_carrier_modem R241). -/
theorem askOne_iff_number (lc : LineCode) (a0 a1 : Rat) (w : List Sample) :
    askOne lc a0 a1 w = true ↔ askReads (LineCode.number lc) a0 a1 (w.map Sample.toReal) := by
  cases lc <;> exact askOne_iff _ a0 a1 w

/-- Settles O53: the demodulator decides each window for itself, by its crossing count. -/
theorem cmFskDemCountsCrossings : Obligations.CmFskDemCountsCrossings := by
  unfold Obligations.CmFskDemCountsCrossings
  refine ⟨decode_encode .cmFskDem, fun s a hs hvalid hpos hwhole hroom => ?_⟩
  obtain ⟨lc, hlc, hnumber⟩ := exists_lineCode hvalid
  exact exec_demodulate_reads (cs := .fsk) (fun _ => rfl) (fskOne_iff _ _) hs hlc hnumber hpos.ne' hwhole hroom

/-! #### 8-QAM (45_carrier_modem R254 to R256) -/

/-- The step of the search for the nearest point: a code takes the place of the best one so far where it is nearer. -/
def nearer (D : Nat → Rat) (best code : Nat) : Nat := if D code < D best then code else best

/-- The search over the codes 0 to `n` ends with the lowest one at the least distance (45_carrier_modem R255). -/
theorem foldl_nearer_spec (D : Nat → Rat) (n : Nat) :
    let best := (List.range (n + 1)).foldl (nearer D) 0
    best ≤ n ∧ ∀ code ≤ n, D best ≤ D code ∧ (D code = D best → best ≤ code) := by
  induction n with
  | zero => simp [nearer]
  | succ n ih =>
    rw [List.range_succ, List.foldl_concat]
    obtain ⟨hle, hbest⟩ := ih
    generalize (List.range (n + 1)).foldl (nearer D) 0 = best at hle hbest
    dsimp only
    rw [nearer]
    split_ifs with hcloser
    · refine ⟨le_rfl, fun code hcode => ?_⟩
      rcases Nat.le_succ_iff.mp hcode with hold | rfl
      · have hfar : D (n + 1) < D code := hcloser.trans_le (hbest code hold).1
        exact ⟨hfar.le, fun heq => absurd heq hfar.ne'⟩
      · exact ⟨le_rfl, fun _ => le_rfl⟩
    · refine ⟨hle.trans n.le_succ, fun code hcode => ?_⟩
      rcases Nat.le_succ_iff.mp hcode with hold | rfl
      · exact hbest code hold
      · exact ⟨not_lt.mp hcloser, fun _ => hle.trans n.le_succ⟩

/-- The distance that the search compares is that of the claims. -/
theorem qamDistance_eq_distance (i q : Int) {code : Nat} (h : code < 8) :
    qamDistance ((i : Rat) / 10, (q : Rat) / 10) (qamPoint code) = distance i q code := by
  rw [qamPoint_eq_constellation h, qamDistance, distance]
  ring

/-- `qam_nearest` of an estimate in tenths (45_carrier_modem R255). -/
theorem isNearest_qamNearest (i q : Int) : IsNearest i q (qamNearest ((i : Rat) / 10, (q : Rat) / 10)) := by
  obtain ⟨hle, hbest⟩ := foldl_nearer_spec (fun code => qamDistance ((i : Rat) / 10, (q : Rat) / 10) (qamPoint code)) 7
  have hlt : qamNearest ((i : Rat) / 10, (q : Rat) / 10) < 8 := Nat.lt_succ_of_le hle
  refine ⟨hlt, fun other hother => ?_⟩
  rw [← qamDistance_eq_distance i q hlt, ← qamDistance_eq_distance i q hother]
  exact hbest other (Nat.le_of_lt_succ hother)

section Stage

variable {s : State} {a : List Sample} {lc : LineCode} {ws : List (List Sample)}

theorem windowSymbols_qam8_of_misfit (h : 3 * ws.length < s.dlen ∨ s.dlen + 2 < 3 * ws.length) :
    windowSymbols s .qam8 lc ws = Report.fail Flags.clear .lengthError (3 * ws.length) := by
  rw [windowSymbols, decide_eq_true (by omega), Report.check_true]

theorem windowSymbols_qam8_of_fit (hle : s.dlen ≤ 3 * ws.length) (hge : 3 * ws.length ≤ s.dlen + 2) :
    windowSymbols s .qam8 lc ws = Report.pure (symbolsOf lc
      (((ws.map fun w => qamNearest (qamEstimate s w)).flatMap codeBits).drop (3 * ws.length - s.dlen))) := by
  have hpad : (3 * ws.length - s.dlen : Int).toNat = 3 * ws.length - s.dlen := by omega
  rw [windowSymbols, decide_eq_false (by omega), Report.check_false, hpad, List.flatMap_map]

/-- What is left of the codes' bits without the padding is `DLEN` symbols (45_carrier_modem R256). -/
theorem symbolsOf_drop_padding_length {codes : List Nat} (hle : s.dlen ≤ 3 * codes.length) :
    (symbolsOf lc ((codes.flatMap codeBits).drop (3 * codes.length - s.dlen))).length = s.dlen := by
  rw [symbolsOf_length, List.length_drop, length_flatMap_of_length (n := 3) fun _ => rfl]
  omega

/-- The code of a window: the nearest point of its rounded correlations (45_carrier_modem R254, R255). -/
theorem exists_code_of_window {j : Nat} (hj : j < a.length / s.samples) : ∃ (i q : Int) (code : Nat),
    ((slices s.samples (a.length / s.samples) a).map fun w => qamNearest (qamEstimate s w))[j]? = some code ∧
      IsTenths (correlation s (windowOf s a j) Real.cos) i ∧ IsTenths (correlation s (windowOf s a j) Real.sin) q ∧
        IsNearest i q code := by
  have hwindow := slices_map_toReal s a (a.length / s.samples) j
  rw [if_pos hj, Option.map_eq_some_iff] at hwindow
  obtain ⟨w, hw, hreal⟩ := hwindow
  have hlen : w.length = s.samples := by rw [← windowOf_length s a j hj, ← hreal, List.length_map]
  obtain ⟨i, q, hestimate, hi, hq⟩ := qamEstimate_spec s w hlen
  rw [hreal] at hi hq
  refine ⟨i, q, _, ?_, hi, hq, isNearest_qamNearest i q⟩
  rw [List.getElem?_map, hw, Option.map_some, hestimate]

end Stage

/-- Settles O54: by whether the padding is 0 to 2 bits, then by whether `DLEN` symbols have room. -/
theorem cmQamDemFindsTheNearestPoints : Obligations.CmQamDemFindsTheNearestPoints := by
  unfold Obligations.CmQamDemFindsTheNearestPoints
  refine ⟨decode_encode .cmQamDem, fun s a hs hvalid hpos hwhole => ?_⟩
  obtain ⟨lc, hlc, hnumber⟩ := exists_lineCode hvalid
  have hstage := demodulateStage_of_whole (a := a) .qam8 hlc hpos.ne' hwhole
  generalize hws : slices s.samples (a.length / s.samples) a = ws at hstage
  have hn : a.length / s.samples = ws.length := by rw [← hws, slices_length]
  dsimp only
  refine ⟨fun hmisfit => ?_, fun hle hge => ⟨fun hroom => ?_, fun hroom => ?_⟩⟩
  · rw [hn] at hmisfit ⊢
    refine exec_demodulate_of_fail .qam8 hs ?_
    rw [hstage, windowSymbols_qam8_of_misfit hmisfit, Report.fit, Report.fail_bind]
  all_goals
    rw [hn] at hle hge
    have hsymbols := windowSymbols_qam8_of_fit (lc := lc) hle hge
    generalize hcodes : (ws.map fun w => qamNearest (qamEstimate s w)) = codes at hsymbols
    have hcount : ws.length = codes.length := by rw [← hcodes, List.length_map]
    rw [hcount] at hle hsymbols
    have hlen := symbolsOf_drop_padding_length (lc := lc) hle
  · refine exec_demodulate_of_fail .qam8 hs ?_
    rw [← hlen] at hroom ⊢
    rw [hstage, hsymbols, Report.fit_pure_over hroom]
  · refine ⟨codes, hn.trans hcount |>.symm, fun j hj => ?_, ?_⟩
    · rw [← hcodes, ← hws]
      exact exists_code_of_window hj
    · rw [hn, hcount, hnumber, ← symbolsOf_eq_symbolStream]
      exact exec_demodulate_of_room .qam8 hs hlc hpos.ne' hwhole (hws ▸ hsymbols) (hlen.symm ▸ hroom)

end Sys2Proof.Machine

/-! ### modulation and demodulation, one window for each symbol (45_carrier_modem R242, R248) -/

namespace Sys2Proof.Machine

section RoundTrip

variable {s : State} {d : List Sym} {lc : LineCode} {cs : CarrierScheme} {window : Bool → List Sample}
  {one : List Sample → Bool}

/-- A carrier that sends each symbol as the window of its logical value, and decides each window for itself, reads the logical
values through the decision. -/
theorem runOps_modulate_demodulate
    (hmod : carrierSamples s cs lc d = d.flatMap fun x => window (logical lc x)) (hlen : ∀ b, (window b).length = s.samples)
    (hdem : ∀ ws, windowSymbols s cs lc ws = Report.pure (symbolsOf lc (ws.map one)))
    (hcount : windowCount (CarrierScheme.number cs) d.length = d.length)
    (h : s.Holds (.sym d)) (hlc : lineCode? s.scheme = some lc) (hsamples : s.samples ≠ 0)
    (hroom : s.Room (d.length * s.samples)) : ∃ t,
      runOps (chain [modulateOp (CarrierScheme.number cs), demodulateOp (CarrierScheme.number cs)]) s = .next t ∧
        t.fault = none ∧ t.flags = s.flags ∧ t.obuf = .sym (symbolsOf lc (d.map fun x => one (window (logical lc x)))) := by
  have hmodulate := exec_modulate_of_room cs h hlc hsamples (hcount.symm ▸ hroom)
  rw [hmod] at hmodulate
  generalize hsent : (d.flatMap fun x => window (logical lc x)) = a at hmodulate
  have ha : a.length = d.length * s.samples := by
    rw [← hsent]
    exact length_flatMap_of_length (fun _ => hlen _) d
  have hwindows : a.length / s.samples = d.length := by rw [ha, Nat.mul_div_cancel _ (Nat.pos_of_ne_zero hsamples)]
  have hcut : slices s.samples (a.length / s.samples) a = d.map fun x => window (logical lc x) := by
    rw [hwindows, ← hsent]
    exact slices_flatMap (fun _ => hlen _) d
  have hdem' : ∀ ws, windowSymbols ((s.setIbuf (.sample a)).setObuf .none) cs lc ws =
      Report.pure (symbolsOf lc (ws.map one)) := by
    cases cs <;> exact hdem
  have hdemodulate : exec (demodulateOp (CarrierScheme.number cs)) ((s.setIbuf (.sample a)).setObuf .none) = _ :=
    exec_demodulate_of_decision hdem' ⟨h.1, rfl⟩ hlc hsamples (by rw [ha]; exact Nat.mul_mod_left _ _)
      (hroom.mono (hwindows.trans_le (Nat.le_mul_of_pos_right _ (Nat.pos_of_ne_zero hsamples))))
  refine ⟨_, (runOps_cons_xfer h.1 hmodulate _).trans (runOps_singleton hdemodulate), h.1, rfl, ?_⟩
  have hsymbols := congrArg (fun ws => Buffer.sym (symbolsOf lc (ws.map one))) hcut
  rw [List.map_map] at hsymbols
  exact hsymbols

/-- Where the decision undoes the window, what was modulated comes back. -/
theorem symbolsOf_map_decision (hone : ∀ b, one (window b) = b) (hsignal : IsSignal (LineCode.number lc) d) :
    symbolsOf lc (d.map fun x => one (window (logical lc x))) = d := by
  simp only [hone]
  exact symbolsOf_map_logical hsignal

end RoundTrip

/-! #### ASK: the peak of a window (45_carrier_modem R241, R242) -/

/-- The fold of a window's absolute values is its start or the greatest of them. -/
theorem foldl_max_abs_le_iff (w : List ℝ) (m r : ℝ) :
    w.foldl (fun m x => max m |x|) m ≤ r ↔ m ≤ r ∧ ∀ x ∈ w, |x| ≤ r := by
  induction w generalizing m with
  | nil => simp
  | cons x w ih => rw [List.foldl_cons, ih, max_le_iff, List.forall_mem_cons, and_assoc]

/-- The largest absolute value is the least bound of them all that is not below 0. -/
theorem largest_le_iff (w : List ℝ) (r : ℝ) : largest w ≤ r ↔ 0 ≤ r ∧ ∀ x ∈ w, |x| ≤ r :=
  foldl_max_abs_le_iff w 0 r

theorem abs_le_largest {w : List ℝ} {x : ℝ} (hx : x ∈ w) : |x| ≤ largest w :=
  ((largest_le_iff w _).mp le_rfl).2 x hx

/-- Both rules of R241 compare the peak with the midpoint of the amplitudes, where these are in order. -/
theorem askReads_iff_midpoint (lc : Nat) {a0 a1 : ℝ} (h : a0 < a1) (w : List ℝ) :
    askReads lc a0 a1 w ↔ (a0 + a1) / 2 < largest w := by
  rw [askReads]
  split
  · rfl
  · have hfactor : (largest w - a0) ^ 2 - (largest w - a1) ^ 2 = (a1 - a0) * (2 * largest w - (a0 + a1)) := by ring
    rw [← sq_lt_sq, ← sub_pos, hfactor, mul_pos_iff_of_pos_left (sub_pos.mpr h), sub_pos, div_lt_iff₀ two_pos, mul_comm]

/-- A window of amplitude `amp` peaks no higher than `amp` (45_carrier_modem R242). -/
theorem largest_sineWindow_le (s : State) {amp : Rat} (hamp : 0 ≤ amp) (f ph : Rat) :
    largest ((sineWindow s amp f ph).map Sample.toReal) ≤ amp := by
  have hamp : (0 : ℝ) ≤ amp := Rat.cast_nonneg.mpr hamp
  refine (largest_le_iff _ _).mpr ⟨hamp, fun x hx => ?_⟩
  rw [sineWindow_toReal] at hx
  obtain ⟨k, -, rfl⟩ := List.mem_map.mp hx
  rw [abs_mul, abs_of_nonneg hamp]
  exact mul_le_of_le_one_right hamp (Real.abs_sin_le_one _)

/-- A window of amplitude `amp` peaks no lower than at each of its samples (45_carrier_modem R242). -/
theorem le_largest_sineWindow {s : State} {amp : Rat} (hamp : 0 ≤ amp) (f ph : Rat) {k : Nat} (hk : k < s.samples) :
    (amp : ℝ) * |Real.sin (carrierAngle s f k + ph)| ≤ largest ((sineWindow s amp f ph).map Sample.toReal) := by
  have hmem : (amp : ℝ) * Real.sin (carrierAngle s f k + ph) ∈ (sineWindow s amp f ph).map Sample.toReal := by
    rw [sineWindow_toReal]
    exact List.mem_map_of_mem (List.mem_range.mpr hk)
  have hpeak := abs_le_largest hmem
  rwa [abs_mul, abs_of_nonneg (Rat.cast_nonneg.mpr hamp)] at hpeak

/-- Under the condition of R242, the ASK decision on the window of a logical value is that value. -/
theorem askOne_sineWindow {s : State} {a0 a1 f ph : Rat} (lc : LineCode) (h0 : 0 ≤ a0) (h01 : a0 < a1) {k : Nat}
    (hk : k < s.samples)
    (hg : ((a0 : ℝ) + a1) / (2 * a1) < |Real.sin (carrierAngle s f k + ph)|) (b : Bool) :
    askOne lc a0 a1 (sineWindow s (if b then a1 else a0) f ph) = b := by
  have h01' : (a0 : ℝ) < a1 := Rat.cast_lt.mpr h01
  have h1 : (0 : ℝ) < a1 := Rat.cast_pos.mpr (h0.trans_lt h01)
  have hpeak : ∀ w, askOne lc a0 a1 w = true ↔ ((a0 : ℝ) + a1) / 2 < largest (w.map Sample.toReal) := fun w =>
    (askOne_iff_number lc a0 a1 w).trans (askReads_iff_midpoint _ h01' _)
  cases b with
  | true =>
    rw [hpeak]
    calc ((a0 : ℝ) + a1) / 2 = a1 * (((a0 : ℝ) + a1) / (2 * a1)) := by field_simp
      _ < a1 * |Real.sin (carrierAngle s f k + ph)| := mul_lt_mul_of_pos_left hg h1
      _ ≤ _ := le_largest_sineWindow (h0.trans h01.le) f ph hk
  | false =>
    rw [Bool.eq_false_iff, Ne, hpeak, not_lt]
    calc largest ((sineWindow s a0 f ph).map Sample.toReal) ≤ a0 := largest_sineWindow_le s h0 f ph
      _ ≤ ((a0 : ℝ) + a1) / 2 := by linarith

/-- Settles O52: the demodulator decides each window by its peak; under the condition of R242 the decision undoes the
modulation. -/
theorem cmAskDemReadsThePeaks : Obligations.CmAskDemReadsThePeaks := by
  unfold Obligations.CmAskDemReadsThePeaks
  refine ⟨decode_encode .cmAskDem, fun s a hs hvalid hpos hwhole hroom => ?_,
    fun s d hs hvalid hroom hsignal h0 h01 ⟨k, hk, hg⟩ => ?_⟩
  all_goals obtain ⟨lc, hlc, hnumber⟩ := exists_lineCode hvalid
  · exact exec_demodulate_reads (cs := .ask) (fun _ => rfl) (fun w => hnumber ▸ askOne_iff_number lc _ _ w) hs hlc hnumber
      hpos.ne' hwhole hroom
  · rw [hnumber] at hsignal
    obtain ⟨t, hrun, hfault, hflags, hobuf⟩ := runOps_modulate_demodulate (cs := .ask)
      (window := fun b => sineWindow s (if b then s.ampOne.toRat else s.ampZero.toRat) s.frequency.toRat s.phase.toRat)
      rfl (fun _ => sineWindow_length ..) (fun _ => rfl) rfl hs hlc (Nat.ne_zero_of_lt hk) hroom
    rw [symbolsOf_map_decision (askOne_sineWindow lc h0 h01 hk hg) hsignal] at hobuf
    exact ⟨t, hrun, hfault, hflags, hobuf⟩

end Sys2Proof.Machine

/-! ### FSK: the crossing law and its consequences (45_carrier_modem R246 to R248) -/

namespace Sys2Proof.Machine

/-! #### the sign of a sine at a rational part of half a turn -/

/-- How many sign changes a sine has behind it at `n / S` half turns: one for each whole half turn, but a zero still belongs
to the non-negative side (45_carrier_modem R246), so that at the end of an even half turn the change is yet to come. -/
def signChangesBefore (S n : Nat) : Nat := if n / S % 2 = 1 ∧ n % S = 0 then n / S - 1 else n / S

/-- A sine is non-negative where an even number of sign changes is behind it. -/
theorem sin_nonneg_iff_signChangesBefore {S : Nat} (hS : 0 < S) (n : Nat) :
    0 ≤ Real.sin (Real.pi * (n / S)) ↔ signChangesBefore S n % 2 = 0 := by
  have hpos : (0 : ℝ) < S := Nat.cast_pos.mpr hS
  have hsplit : Real.pi * ((n : ℝ) / S) = Real.pi * ((n % S : Nat) / S) + (n / S : Nat) * Real.pi := by
    have hn : (n : ℝ) = S * (n / S : Nat) + (n % S : Nat) := by exact_mod_cast (Nat.div_add_mod n S).symm
    rw [hn]
    field_simp
    ring
  have hfrac : ((n % S : Nat) : ℝ) / S < 1 := (div_lt_one hpos).mpr (Nat.cast_lt.mpr (Nat.mod_lt n hS))
  rw [hsplit, Real.sin_add_nat_mul_pi, signChangesBefore]
  rcases Nat.mod_two_eq_zero_or_one (n / S) with heven | hodd
  · rw [if_neg (by omega), (Nat.even_iff.mpr heven).neg_one_pow, one_mul]
    refine iff_of_true (Real.sin_nonneg_of_nonneg_of_le_pi (by positivity) ?_) heven
    exact mul_le_of_le_one_right Real.pi_pos.le hfrac.le
  · rw [(Nat.odd_iff.mpr hodd).neg_one_pow, neg_one_mul, Left.nonneg_neg_iff]
    by_cases hzero : n % S = 0
    · rw [if_pos ⟨hodd, hzero⟩, hzero]
      exact iff_of_true (by simp) (by omega)
    · rw [if_neg fun hcase => hzero hcase.2]
      refine iff_of_false (not_le.mpr (Real.sin_pos_of_pos_of_lt_pi ?_ ?_)) (by omega)
      · have : (0 : ℝ) < (n % S : Nat) := Nat.cast_pos.mpr (Nat.pos_of_ne_zero hzero)
        positivity
      · exact mul_lt_of_lt_one_right Real.pi_pos hfrac

/-- A step of less than half a turn meets at most one sign change. -/
theorem signChangesBefore_add {S step : Nat} (h : step < S) (n : Nat) :
    signChangesBefore S (n + step) = signChangesBefore S n ∨
      signChangesBefore S (n + step) = signChangesBefore S n + 1 := by
  have hr : n % S < S := Nat.mod_lt n (by omega)
  have hn : n + step = n % S + step + S * (n / S) := by have := Nat.mod_add_div n S; omega
  unfold signChangesBefore
  by_cases hcarry : n % S + step < S
  · have hq : (n + step) / S = n / S := by rw [hn, Nat.add_mul_div_left _ _ (by omega), Nat.div_eq_of_lt hcarry, Nat.zero_add]
    have hm : (n + step) % S = n % S + step := by rw [hn, Nat.add_mul_mod_self_left, Nat.mod_eq_of_lt hcarry]
    rw [hq, hm]
    generalize n / S = q
    split_ifs <;> omega
  · have hrest : n % S + step - S < S := by omega
    have hq : (n + step) / S = n / S + 1 := by
      rw [hn, Nat.add_mul_div_left _ _ (by omega), Nat.div_eq_sub_div (by omega) (by omega), Nat.div_eq_of_lt hrest]
      omega
    have hm : (n + step) % S = n % S + step - S := by
      rw [hn, Nat.add_mul_mod_self_left, Nat.mod_eq_sub_mod (by omega), Nat.mod_eq_of_lt hrest]
    rw [hq, hm]
    generalize n / S = q
    split_ifs <;> omega

/-- The number of sign changes behind the last sample of a window of frequency `f`: the one that would close the last period
falls on the next window (45_carrier_modem R248). -/
theorem signChangesBefore_last {S f : Nat} (h : 2 * f < S) : signChangesBefore S (2 * f * (S - 1)) = 2 * f - 1 := by
  rcases Nat.eq_zero_or_pos f with rfl | hf
  · simp [signChangesBefore]
  · have hn : 2 * f * (S - 1) = S - 2 * f + S * (2 * f - 1) := by
      have hle : S ≤ 2 * f * S := Nat.le_mul_of_pos_left S (by omega)
      rw [Nat.mul_sub, Nat.mul_sub, Nat.mul_one, Nat.mul_one, Nat.mul_comm S]
      omega
    have hlt : S - 2 * f < S := by omega
    have hq : 2 * f * (S - 1) / S = 2 * f - 1 := by
      rw [hn, Nat.add_mul_div_left _ _ (by omega), Nat.div_eq_of_lt hlt, Nat.zero_add]
    have hm : 2 * f * (S - 1) % S = S - 2 * f := by rw [hn, Nat.add_mul_mod_self_left, Nat.mod_eq_of_lt hlt]
    rw [signChangesBefore, hq, hm, if_neg (by omega)]

/-- A count that grows by at most one at a time changes its parity as often as it grows. -/
theorem card_parity_changes {g : Nat → Nat} (h : ∀ k, g (k + 1) = g k ∨ g (k + 1) = g k + 1) (n : Nat) :
    ((Finset.range n).filter fun k => ¬(g k % 2 = 0 ↔ g (k + 1) % 2 = 0)).card + g 0 = g n := by
  induction n with
  | zero => simp
  | succ n ih =>
    rw [Finset.range_add_one, Finset.filter_insert]
    rcases h n with hsame | hgrown
    · rw [if_neg (by rw [hsame]; exact not_not.mpr Iff.rfl), ih, hsame]
    · rw [if_pos (by omega), Finset.card_insert_of_notMem (by simp), hgrown]
      omega

/-! #### the crossing law -/

/-- Sample `k` of a window of positive amplitude, phase 0 and frequency `f` is non-negative where an even number of sign
changes is behind it. -/
theorem sineWindow_nonneg_iff {s : State} {amp : Rat} (hamp : 0 < amp) (f : Nat) {k : Nat} (hk : k < s.samples) :
    0 ≤ ((sineWindow s amp f 0).map Sample.toReal).getD k 0 ↔ signChangesBefore s.samples (2 * f * k) % 2 = 0 := by
  have hangle : carrierAngle s f k + ((0 : Rat) : ℝ) = Real.pi * ((2 * f * k : Nat) / s.samples) := by
    rw [carrierAngle]
    push_cast
    ring
  have hsample : ((sineWindow s amp f 0).map Sample.toReal).getD k 0 =
      amp * Real.sin (Real.pi * ((2 * f * k : Nat) / s.samples)) := by
    rw [List.getD_eq_getElem?_getD, List.getElem?_map, getElem?_sineWindow hk, hangle, Option.getD_some]
  rw [hsample, mul_nonneg_iff_of_pos_left (Rat.cast_pos.mpr hamp), sin_nonneg_iff_signChangesBefore (Nat.zero_lt_of_lt hk)]

/-- The crossing law of R248. -/
theorem crossings_sineWindow {s : State} {amp : Rat} {f : Nat} (hamp : 0 < amp) (hf : 2 * f < s.samples) :
    crossings (sineWindow s amp f 0) = 2 * f - 1 := by
  have hstep : ∀ k, signChangesBefore s.samples (2 * f * (k + 1)) = signChangesBefore s.samples (2 * f * k) ∨
      signChangesBefore s.samples (2 * f * (k + 1)) = signChangesBefore s.samples (2 * f * k) + 1 :=
    fun k => Nat.mul_add_one (2 * f) k ▸ signChangesBefore_add hf (2 * f * k)
  have hchanges : signChanges ((sineWindow s amp f 0).map Sample.toReal) = ((Finset.range (s.samples - 1)).filter fun k =>
      ¬(signChangesBefore s.samples (2 * f * k) % 2 = 0 ↔ signChangesBefore s.samples (2 * f * (k + 1)) % 2 = 0)).card := by
    rw [signChanges, List.length_map, sineWindow_length]
    refine congrArg Finset.card (Finset.filter_congr fun k hk => ?_)
    have hk : k + 1 < s.samples := Nat.add_lt_of_lt_sub (Finset.mem_range.mp hk)
    rw [sineWindow_nonneg_iff hamp f (Nat.lt_of_succ_lt hk), sineWindow_nonneg_iff hamp f hk]
  have hcount := card_parity_changes (g := fun k => signChangesBefore s.samples (2 * f * k)) hstep (s.samples - 1)
  rw [signChangesBefore_last hf, Nat.mul_zero] at hcount
  rw [crossings_eq, hchanges, ← hcount]
  simp [signChangesBefore]

/-! #### the decision (45_carrier_modem R247, R248) -/

section Decision

variable {s : State} {amp : Rat} {f0 f1 : Nat}

/-- The window of a logical 1 is nearer to `FREQ_ONE`. -/
theorem fskOne_of_one (hamp : 0 < amp) (h01 : f0 < f1) (h1 : 2 * f1 < s.samples) :
    fskOne f0 f1 (sineWindow s amp f1 0) = true := by
  have hcount : ((2 * f1 - 1 : Nat) : Rat) = 2 * f1 - 1 := by rw [Nat.cast_sub (by omega)]; push_cast; ring
  have h01' : (f0 : Rat) + 1 ≤ f1 := by exact_mod_cast h01
  have h0 : (0 : Rat) ≤ f0 := Nat.cast_nonneg f0
  rw [fskOne, crossings_sineWindow hamp h1, hcount, decide_eq_true_eq, abs_of_nonneg (by linarith),
    abs_of_nonneg (by linarith)]
  linarith

/-- The window of a logical 0 is read by how far its count is from the two frequencies: as a 1 exactly where the condition
of R248 fails. -/
theorem fskOne_of_zero (hamp : 0 < amp) (h01 : f0 < f1) (h1 : 2 * f1 < s.samples) :
    fskOne f0 f1 (sineWindow s amp f0 0) = decide (f1 + 2 < 3 * f0) := by
  rw [fskOne, crossings_sineWindow hamp (by omega), decide_eq_decide]
  rcases Nat.eq_zero_or_pos f0 with rfl | hpos
  · simp
  · have hcount : ((2 * f0 - 1 : Nat) : Rat) = 2 * f0 - 1 := by rw [Nat.cast_sub (by omega)]; push_cast; ring
    have h01' : (f0 : Rat) + 1 ≤ f1 := by exact_mod_cast h01
    have hpos' : (1 : Rat) ≤ f0 := by exact_mod_cast hpos
    have hcond : f1 + 2 < 3 * f0 ↔ (f1 : Rat) + 2 < 3 * f0 := by exact_mod_cast Iff.rfl
    rw [hcount, hcond, abs_of_nonneg (show (0 : Rat) ≤ 2 * f0 - 1 - f0 by linarith), abs_lt]
    constructor
    · rintro ⟨hlo, -⟩
      linarith
    · intro hfar
      constructor <;> linarith

/-- Both decisions at once: a logical 1 is read as 1, a logical 0 as the failure of the condition of R248. -/
theorem fskOne_sineWindow (hamp : 0 < amp) (h01 : f0 < f1) (h1 : 2 * f1 < s.samples) (b : Bool) :
    fskOne f0 f1 (sineWindow s amp (if b then (f1 : Rat) else f0) 0) = (b || decide (f1 + 2 < 3 * f0)) := by
  cases b with
  | true => exact fskOne_of_one hamp h01 h1
  | false => exact fskOne_of_zero hamp h01 h1

end Decision

/-- Settles O55: the decision on the window of a logical value is that value, or is always 1, by the condition of R248. -/
theorem fskReturnsWhatWasModulated : Obligations.FskReturnsWhatWasModulated := by
  unfold Obligations.FskReturnsWhatWasModulated
  refine ⟨fun s amp f => crossings_sineWindow, fun s d f0 f1 hs hvalid hroom hphase hamp hf0 hf1 h01 h1 => ?_⟩
  obtain ⟨lc, hlc, hnumber⟩ := exists_lineCode hvalid
  obtain ⟨t, hrun, hfault, hflags, hobuf⟩ := runOps_modulate_demodulate (cs := .fsk)
    (window := fun b => sineWindow s s.amplitude.toRat (if b then s.freqOne.toRat else s.freqZero.toRat) s.phase.toRat)
    rfl (fun _ => sineWindow_length ..) (fun _ => rfl) rfl hs hlc (Nat.ne_zero_of_lt h1) hroom
  rw [hphase, hf0, hf1] at hobuf
  refine ⟨fun hcond hsignal => ⟨t, hrun, hfault, hflags, ?_⟩, fun h2 h3 => ⟨t, hrun, hfault, ?_⟩⟩
  · have hone (b : Bool) : fskOne f0 f1 (sineWindow s s.amplitude.toRat (if b then (f1 : Rat) else f0) 0) = b := by
      rw [fskOne_sineWindow hamp h01 h1, decide_eq_false (by omega), Bool.or_false]
    rwa [symbolsOf_map_decision hone (hnumber ▸ hsignal)] at hobuf
  · have hall : (d.map fun x => fskOne f0 f1 (sineWindow s s.amplitude.toRat
        (if logical lc x then (f1 : Rat) else f0) 0)) = List.replicate d.length true := by
      rw [← List.map_const']
      refine List.map_congr_left fun x _ => ?_
      rw [fskOne_sineWindow hamp h01 h1, decide_eq_true (by omega), Bool.or_true]
    rw [hobuf, hall, hnumber, symbolsOf_eq_symbolStream]

end Sys2Proof.Machine

/-! ### `BITERR` (O60) -/

namespace Sys2Proof.Machine

/-- The mask that a draw of `BITERR` flips the bits of a stream by (46_pipeline_and_channel R290). -/
def flipMask (s : State) (n : Nat) : List Bool := (List.range n).map (flipBit s)

section Biterr

variable {s : State} {b : List Bool}

@[simp] theorem flipMask_length (s : State) (n : Nat) : (flipMask s n).length = n := by simp [flipMask]

theorem flipMask_of_zero (h : s.errPermille.toNat = 0) (n : Nat) : flipMask s n = List.replicate n false := by
  have hbit : flipBit s = fun _ => false := funext fun _ => if_pos h
  simp [flipMask, hbit, List.map_const']

theorem flipMask_of_thousand (h : s.errPermille.toNat = 1000) (n : Nat) : flipMask s n = List.replicate n true := by
  have hbit : flipBit s = fun _ => true := funext fun _ => by simp [flipBit, h]
  simp [flipMask, hbit, List.map_const']

/-- Flipping the bits one by one is the exclusive-or with the mask. -/
theorem mapIdx_xor_flipBit (s : State) (b : List Bool) :
    (b.mapIdx fun i x => x ^^ flipBit s i) = List.zipWith xor b (flipMask s b.length) := by
  refine List.ext_getElem (by simp) fun i _ _ => ?_
  simp [flipMask]

theorem biterrStage_of_over (h : 1000 < s.errPermille.toNat) :
    biterrStage s b = Report.fail Flags.clear .configError 0x0E := by
  rw [biterrStage, decide_eq_true h]
  rfl

theorem biterrStage_of_room (h : s.errPermille.toNat ≤ 1000) (hroom : s.Room b.length) :
    biterrStage s b = Report.pure (List.zipWith xor b (flipMask s b.length)) := by
  rw [biterrStage, decide_eq_false (Nat.not_lt.mpr h), mapIdx_xor_flipBit]
  exact Report.fit_pure (by simpa using hroom)

theorem exec_biterr_of_over (hs : s.Holds (.bit b)) (h : 1000 < s.errPermille.toNat) :
    exec .biterr s = .next (s.afterFault .configError 0x0E) := by
  obtain ⟨hready, hibuf⟩ := hs
  exact transform_of_fail hready (Buffer.bit?_eq_some.mpr hibuf) (biterrStage_of_over h)

theorem exec_biterr_of_room (hs : s.Holds (.bit b)) (h : s.errPermille.toNat ≤ 1000) (hroom : s.Room b.length) :
    exec .biterr s = .next (s.setObuf (.bit (List.zipWith xor b (flipMask s b.length)))).countDraw := by
  obtain ⟨hready, hibuf⟩ := hs
  have hdone := transform_of_done (finish := fun u c => (u.setObuf (.bit c)).countDraw) hready
    (Buffer.bit?_eq_some.mpr hibuf) (biterrStage_of_room h hroom)
  rwa [State.setFlags_clear] at hdone

end Biterr

/-- Settles O60: the mask is `flipMask`, which is constant at both ends of the range. -/
theorem biterrFlipsTheBitsOfAMask : Obligations.BiterrFlipsTheBitsOfAMask := by
  unfold Obligations.BiterrFlipsTheBitsOfAMask
  refine ⟨decode_encode .biterr, exec_checksType rfl, fun s b hs => ⟨exec_biterr_of_over hs, fun h hroom => ?_⟩⟩
  exact ⟨flipMask s b.length, s.draws + 1, flipMask_length s _, (flipMask_of_zero · _), (flipMask_of_thousand · _),
    exec_biterr_of_room hs h hroom⟩

end Sys2Proof.Machine

/-! ### operations in a chain (46_pipeline_and_channel R282, R286) -/

namespace Sys2Proof.Machine

/-- The state `s` in the middle of a message: its configuration, with other flags, buffers and `DLEN`. -/
def State.withMessage (s : State) (f : Flags) (i o : Buffer) (n : Nat) : State :=
  { s with flags := f, ibuf := i, obuf := o, dlen := n }

/-- The state `v` is where a message ends that set out with the flags `f` and came to the report `r`: what `r` delivers is
shown in OBUF by `out` and measured in `DLEN` by `len` (60_exceptions R305, R310). -/
structure State.EndsAs {β : Type} (s : State) (f : Flags) (out : β → Buffer) (len : β → Nat) (r : Report β) (v : State) :
    Prop where
  flags : v.flags = f.or r.flags
  completes : ∀ b, r.result = .ok b → v.fault = none ∧ v.finfo = s.finfo ∧ v.obuf = out b ∧ v.dlen = len b
  fails : ∀ e, r.result = .error e → v.fault = some e.kind ∧ v.finfo = BitVec.ofNat 32 e.info ∧ v.obuf = .none

/-- From every state in the middle of a message of `s` whose next input is `b` and whose `DLEN` is `n`, the chain of the
operations `is` ends as the report `r`; in the fault state the whole chain is dropped. -/
structure ChainEndsAs {β : Type} (s : State) (is : List Instr) (b : Buffer) (n : Nat) (out : β → Buffer) (len : β → Nat)
    (r : Report β) : Prop where
  dropped : ∀ u : State, u.fault ≠ none → runOps (chain is) u = .next u
  ends : ∀ f o, ∃ v, runOps (chain is) (s.withMessage f b o n) = .next v ∧ s.EndsAs f out len r v

section Chain

variable {α β γ : Type} {s u v : State} {f : Flags} {i j : Instr} {is : List Instr} {b : Buffer} {n : Nat}
  {out : β → Buffer} {len : β → Nat}
  {take : Buffer → Option α} {stage : State → α → Report γ} {finish : State → γ → State} {a : α}
  {mid : γ → Buffer} {dlen : γ → Nat}

/-- One report has one end. -/
theorem State.EndsAs.unique {r : Report β} (hu : s.EndsAs f out len r u) (hv : s.EndsAs f out len r v) :
    u.obuf = v.obuf ∧ u.fault = v.fault ∧ u.flags = v.flags ∧ u.finfo = v.finfo ∧ (u.fault = none → u.dlen = v.dlen) := by
  have hflags : u.flags = v.flags := hu.flags.trans hv.flags.symm
  cases hr : r.result with
  | ok c =>
    obtain ⟨hfault, hfinfo, hobuf, hdlen⟩ := hu.completes c hr
    obtain ⟨hfault', hfinfo', hobuf', hdlen'⟩ := hv.completes c hr
    exact ⟨hobuf.trans hobuf'.symm, hfault.trans hfault'.symm, hflags, hfinfo.trans hfinfo'.symm,
      fun _ => hdlen.trans hdlen'.symm⟩
  | error e =>
    obtain ⟨hfault, hfinfo, hobuf⟩ := hu.fails e hr
    obtain ⟨hfault', hfinfo', hobuf'⟩ := hv.fails e hr
    exact ⟨hobuf.trans hobuf'.symm, hfault.trans hfault'.symm, hflags, hfinfo.trans hfinfo'.symm,
      fun h => nomatch hfault.symm.trans h⟩

/-- A fault after the flags `g` is the end of every report that stops there. -/
theorem State.endsAs_error (g : Flags) (e : Cause) (o : Buffer) :
    s.EndsAs f out len ⟨g, .error e⟩ (((s.withMessage f b o n).setFlags g).afterFault e.kind e.info) where
  flags := rfl
  completes := nofun
  fails := by rintro _ ⟨⟩; exact ⟨rfl, rfl, rfl⟩

/-- An operation of the common shape ends as its stage. -/
theorem transform_endsAs {stage : α → Report γ} {o : Buffer} (hs : s.fault = none) (htake : take b = some a)
    (hfinish : ∀ f c, finish (s.withMessage f b o n) c = s.withMessage f b (mid c) (dlen c)) :
    ∃ v, transform (s.withMessage f b o n) take stage finish = .next v ∧ s.EndsAs f mid dlen (stage a) v := by
  have hready : (s.withMessage f b o n).fault = none := hs
  cases hr : stage a with | mk g res =>
  cases res with
  | error e => exact ⟨_, transform_of_error hready htake hr, s.endsAs_error g e o⟩
  | ok c =>
    refine ⟨_, transform_of_done hready htake hr, ?_⟩
    have hend : finish ((s.withMessage f b o n).setFlags g) c = _ := hfinish (f.or g) c
    rw [hend]
    exact ⟨rfl, by rintro _ ⟨⟩; exact ⟨hs, rfl, rfl, rfl⟩, nofun⟩

/-- A chain of one operation. -/
theorem chainEndsAs_last (hs : s.fault = none) (hexec : ∀ u, exec i u = transform u take (stage u) finish)
    (htake : take b = some a) (hstage : ∀ f o, stage (s.withMessage f b o n) = stage s)
    (hfinish : ∀ f o c, finish (s.withMessage f b o n) c = s.withMessage f b (mid c) (dlen c)) :
    ChainEndsAs s [i] b n mid dlen (stage s a) where
  dropped := fun u hu => runOps_singleton ((hexec u).trans (transform_of_fault hu))
  ends := fun f o => by
    obtain ⟨v, hv, hend⟩ := transform_endsAs (stage := stage (s.withMessage f b o n)) (f := f) hs htake fun f => hfinish f o
    rw [hstage] at hend
    exact ⟨v, runOps_singleton ((hexec _).trans hv), hend⟩

/-- An operation of the common shape, `THEN` a chain: the report of its stage, bound to that of the chain (60_exceptions
R305). -/
theorem chainEndsAs_cons [Inhabited γ] (hs : s.fault = none) (hexec : ∀ u, exec i u = transform u take (stage u) finish)
    (htake : take b = some a) (hstage : ∀ f o, stage (s.withMessage f b o n) = stage s)
    (hfinish : ∀ f o c, finish (s.withMessage f b o n) c = s.withMessage f b (mid c) (dlen c))
    {k : γ → Report β} (hrest : ∀ c, ChainEndsAs s (j :: is) (mid c) (dlen c) out len (k c)) :
    ChainEndsAs s (i :: j :: is) b n out len ((stage s a).bind k) := by
  have hdropped : ∀ u : State, u.fault ≠ none → runOps (.xfer :: chain (j :: is)) u = .next u := fun u hu =>
    (runOps_cons (exec_xfer_of_fault hu) _).trans ((hrest default).dropped u hu)
  refine ⟨fun u hu => (runOps_cons ((hexec u).trans (transform_of_fault hu)) _).trans (hdropped u hu), fun f o => ?_⟩
  have hready : (s.withMessage f b o n).fault = none := hs
  cases hr : stage s a with | mk g res =>
  have hr' := (congrFun (hstage f o) a).trans hr
  cases res with
  | error e =>
    refine ⟨_, (runOps_cons ((hexec _).trans (transform_of_error hready htake hr')) _).trans (hdropped _ nofun), ?_⟩
    exact s.endsAs_error g e o
  | ok c =>
    have hnext : finish ((s.withMessage f b o n).setFlags g) c = s.withMessage (f.or g) b (mid c) (dlen c) :=
      hfinish (f.or g) o c
    have hdone := (hexec _).trans (transform_of_done (finish := finish) hready htake hr')
    rw [hnext] at hdone
    have hxfer : exec .xfer (s.withMessage (f.or g) b (mid c) (dlen c)) =
        .next (s.withMessage (f.or g) (mid c) .none (dlen c)) := exec_xfer_of_ready hs
    obtain ⟨v, hrun, hflags, hcompletes, hfails⟩ := (hrest c).ends (f.or g) .none
    exact ⟨v, (runOps_cons hdone _).trans ((runOps_cons hxfer _).trans hrun), hflags.trans (Flags.or_assoc ..), hcompletes,
      hfails⟩

/-- Renaming what a report delivers does not change where it ends. -/
theorem ChainEndsAs.map {g : γ → β} {r : Report γ} (h : ChainEndsAs s is b n (fun c => out (g c)) (fun c => len (g c)) r) :
    ChainEndsAs s is b n out len (r.bind fun c => Report.pure (g c)) where
  dropped := h.dropped
  ends := fun f o => by
    obtain ⟨v, hrun, hflags, hcompletes, hfails⟩ := h.ends f o
    obtain ⟨g', e | c⟩ := r
    · exact ⟨v, hrun, hflags, nofun, by rintro _ ⟨⟩; exact hfails e rfl⟩
    · exact ⟨v, hrun, hflags.trans (congrArg f.or (Flags.or_clear g').symm),
        by rintro _ ⟨⟩; exact hcompletes c rfl, nofun⟩

/-- The operations that leave nothing but their output keep `DLEN`. -/
theorem chainEndsAs_cons_setObuf [Inhabited γ] (hs : s.fault = none)
    (hexec : ∀ u, exec i u = transform u take (stage u) fun u' c => u'.setObuf (mid c)) (htake : take b = some a)
    (hstage : ∀ f o, stage (s.withMessage f b o n) = stage s) {k : γ → Report β}
    (hrest : ∀ c, ChainEndsAs s (j :: is) (mid c) n out len (k c)) :
    ChainEndsAs s (i :: j :: is) b n out len ((stage s a).bind k) :=
  chainEndsAs_cons hs hexec htake hstage (fun _ _ _ => rfl) hrest

theorem chainEndsAs_last_setObuf (hs : s.fault = none)
    (hexec : ∀ u, exec i u = transform u take (stage u) fun u' c => u'.setObuf (mid c)) (htake : take b = some a)
    (hstage : ∀ f o, stage (s.withMessage f b o n) = stage s) :
    ChainEndsAs s [i] b n mid (fun _ => n) (stage s a) :=
  chainEndsAs_last hs hexec htake hstage fun _ _ _ => rfl

end Chain

/-! #### the two chains (46_pipeline_and_channel R280, R285) -/

theorem exec_t2b (s : State) : exec .t2b s = transform s Buffer.char? (t2bStage s) fun u b => u.setObuf (.bit b) := rfl

theorem exec_b2y (s : State) : exec .b2y s = transform s Buffer.bit? (b2yStage s) fun u y => u.setObuf (.byte y) := rfl

theorem exec_y2t (s : State) : exec .y2t s = transform s Buffer.byte? (y2tStage s) fun u t => u.setObuf (.char t) := rfl

theorem exec_encmsg (s : State) : exec .encmsg s =
    transform s Buffer.char? (encmsgStage s) fun u r => (u.setObuf (.sample r.1)).setDlen r.2 := rfl

theorem exec_decmsg (s : State) : exec .decmsg s =
    transform s Buffer.sample? (decmsgStage s) fun u t => u.setObuf (.char t) := rfl

/-- The four checks are one operation, by the stage of the error control (42_error_control R150). -/
theorem exec_errctlCheck (ec : ErrorControl) (s : State) : exec (errctlCheckOp (ErrorControl.number ec)) s =
    transform s Buffer.bit? (ecCheckStage s ec) fun u y => u.setObuf (.byte y) := by
  cases ec <;> rfl

section Pipeline

variable {s : State} {lc : LineCode} {cs : CarrierScheme} {fm : FramingMethod}

theorem modulateStage_withMessage (s : State) (f : Flags) (i o : Buffer) (n : Nat) (cs : CarrierScheme) :
    modulateStage (s.withMessage f i o n) cs = modulateStage s cs := by
  cases cs <;> rfl

/-- `DLEN` is the one part of a message that a demodulation reads (45_carrier_modem R256). -/
theorem demodulateStage_withMessage (s : State) (f : Flags) (i o : Buffer) (cs : CarrierScheme) :
    demodulateStage (s.withMessage f i o s.dlen) cs = demodulateStage s cs := by
  cases cs <;> rfl

theorem encodeChain_endsAs (hs : s.fault = none) (h : s.Selects lc cs fm) (t : List CodePoint) :
    ChainEndsAs s [.t2b, .b2y, frameOp s.framing, errctlEncodeOp s.errctl, lineEncodeOp s.lineCode, modulateOp s.carrier]
      (.char t) s.dlen (fun r => .sample r.1) Prod.snd (encodeChain s lc cs fm (errorControl s.scheme) t) := by
  rw [h.framing_eq, h.lineCode_eq, h.carrier_eq, errctl_eq_number]
  refine chainEndsAs_cons_setObuf hs exec_t2b rfl (fun _ _ => t2bStage_congr rfl) fun b => ?_
  refine chainEndsAs_cons_setObuf hs exec_b2y rfl (fun _ _ => b2yStage_congr rfl) fun y => ?_
  refine chainEndsAs_cons_setObuf hs (exec_frame fm) rfl (fun _ _ => frameStage_congr rfl rfl fm) fun f => ?_
  refine chainEndsAs_cons_setObuf hs (exec_errctlEncode _) rfl (fun _ _ => ecEncodeStage_congr rfl _) fun e => ?_
  refine chainEndsAs_cons (mid := .sym) (dlen := List.length) hs (exec_lineEncode lc) rfl (fun _ _ => lineEncodeStage_congr rfl lc)
    (fun _ _ _ => rfl) fun d => ?_
  refine ChainEndsAs.map (g := fun a => (a, d.length)) ?_
  exact chainEndsAs_last hs (exec_modulate cs) rfl (fun _ _ => modulateStage_withMessage ..) fun _ _ _ => rfl

theorem decodeChain_endsAs (hs : s.fault = none) (h : s.Selects lc cs fm) (a : List Sample) :
    ChainEndsAs s [demodulateOp s.carrier, lineDecodeOp s.lineCode, errctlCheckOp s.errctl, deframeOp s.framing, .y2t]
      (.sample a) s.dlen .char (fun _ => s.dlen) (decodeChain s lc cs fm (errorControl s.scheme) a) := by
  rw [h.framing_eq, h.lineCode_eq, h.carrier_eq, errctl_eq_number]
  refine chainEndsAs_cons_setObuf hs (exec_demodulate cs) rfl (fun _ _ => demodulateStage_withMessage ..) fun d => ?_
  refine chainEndsAs_cons_setObuf hs (exec_lineDecode lc) rfl (fun _ _ => lineDecodeStage_congr rfl lc) fun e => ?_
  refine chainEndsAs_cons_setObuf hs (exec_errctlCheck _) rfl (fun _ _ => ecCheckStage_congr rfl _) fun f => ?_
  refine chainEndsAs_cons_setObuf hs (exec_deframe fm) rfl (fun _ _ => deframeStage_congr rfl fm) fun y => ?_
  exact chainEndsAs_last_setObuf hs exec_y2t rfl fun _ _ => y2tStage_congr rfl

/-- A state whose IBUF holds `b` is in the middle of its own message. -/
theorem State.Holds.withMessage_eq {b : Buffer} (h : s.Holds b) : s.withMessage s.flags b s.obuf s.dlen = s := by
  rw [← h.2]
  rfl

/-- Past its checks, `ENCMSG` ends where the chain of its stages does. -/
theorem exec_encmsg_endsAs {t : List CodePoint} (hs : s.Holds (.char t)) (h : s.Selects lc cs fm)
    (hsize : s.maxFrameSize.toNat ≠ 0) (hsamples : s.samples ≠ 0) : ∃ u, exec .encmsg s = .next u ∧
      s.EndsAs s.flags (fun r => .sample r.1) Prod.snd (encodeChain s lc cs fm (errorControl s.scheme) t) u := by
  have hrun := transform_endsAs (s := s) (f := s.flags) (b := .char t) (o := s.obuf) (n := s.dlen) (take := Buffer.char?)
    (stage := encmsgStage s) (finish := fun u r => (u.setObuf (.sample r.1)).setDlen r.2) hs.1 rfl fun _ _ => rfl
  rwa [hs.withMessage_eq, ← exec_encmsg, encmsgStage_eq_encodeChain h hsize hsamples] at hrun

/-- Under valid selectors, the check of `DECMSG`, then its stages (46_pipeline_and_channel R285). -/
theorem decmsgStage_of_selects (h : s.Selects lc cs fm) (a : List Sample) : decmsgStage s a =
    Report.check (s.samples == 0) .configError 0x04 (decodeChain s lc cs fm (errorControl s.scheme) a) := by
  rw [decmsgStage, withSelectors_of_selects h, State.samples]

theorem decmsgStage_eq_decodeChain (h : s.Selects lc cs fm) (hsamples : s.samples ≠ 0) (a : List Sample) :
    decmsgStage s a = decodeChain s lc cs fm (errorControl s.scheme) a := by
  rw [decmsgStage_of_selects h, beq_false_of_ne hsamples, Report.check_false]

/-- Past its checks, `DECMSG` ends where the chain of its stages does. -/
theorem exec_decmsg_endsAs {a : List Sample} (hs : s.Holds (.sample a)) (h : s.Selects lc cs fm) (hsamples : s.samples ≠ 0) :
    ∃ u, exec .decmsg s = .next u ∧
      s.EndsAs s.flags .char (fun _ => s.dlen) (decodeChain s lc cs fm (errorControl s.scheme) a) u := by
  have hrun := transform_endsAs (s := s) (f := s.flags) (b := .sample a) (o := s.obuf) (n := s.dlen)
    (take := Buffer.sample?) (stage := decmsgStage s) (finish := fun u t => u.setObuf (.char t)) (mid := .char)
    (dlen := fun _ => s.dlen) hs.1 rfl fun _ _ => rfl
  rwa [hs.withMessage_eq, ← exec_decmsg, decmsgStage_eq_decodeChain h hsamples] at hrun

/-- No operation that reads IBUF writes it (10_state R41). -/
theorem exec_keeps_ibuf {i : Instr} {tag : Nat} {s t : State} (hi : inputTag i = some tag) (h : exec i s = .next t) :
    t.ibuf = s.ibuf := by
  obtain ⟨u, hu, he⟩ := exec_hasEffect hi s
  cases hu.symm.trans h
  rw [he.frame]

/-- An operation that does not write `DLEN` keeps it (10_state R34). -/
theorem exec_keeps_dlen {i : Instr} {tag : Nat} {s t : State} (hi : inputTag i = some tag) (hd : writesDlen i = false)
    (h : exec i s = .next t) : t.dlen = s.dlen := by
  obtain ⟨u, hu, he⟩ := exec_hasEffect hi s
  cases hu.symm.trans h
  by_contra hne
  exact nomatch hd.symm.trans (he.dlen_changed hne).1

end Pipeline

/-- Settles O57: `ENCMSG` and the chain are two ends of one report. -/
theorem encmsgIsTheChainOfStages : Obligations.EncmsgIsTheChainOfStages := by
  unfold Obligations.EncmsgIsTheChainOfStages
  intro s t hs hvalid hsize hsamples
  obtain ⟨lc, cs, fm, h⟩ := s.exists_selects hvalid
  obtain ⟨u, hu, huend⟩ := exec_encmsg_endsAs hs h (BitVec.toNat_ne.mp hsize) hsamples.ne'
  obtain ⟨v, hv, hvend⟩ := (encodeChain_endsAs hs.1 h t).ends s.flags s.obuf
  rw [hs.withMessage_eq] at hv
  obtain ⟨hobuf, hfault, hflags, hfinfo, hdlen⟩ := huend.unique hvend
  exact ⟨u, v, hu, hv, hobuf, hfault, hflags, hfinfo, (exec_keeps_ibuf rfl hu).trans hs.2, hdlen⟩

end Sys2Proof.Machine

/-! ### each stage of `DECMSG` undoes its stage of `ENCMSG` (46_pipeline_and_channel R286, R287) -/

namespace Sys2Proof.Machine

section Decode

variable {s : State} {lc : LineCode} {cs : CarrierScheme} {fm : FramingMethod} {ec : ErrorControl} {a : List Sample}
  {y p : List Byte}

theorem ecHamDecStage_encoding (hroom : s.Room y.length) : ecHamDecStage s (ecBits .hamming y) = Report.pure y := by
  rw [ecHamDecStage, ecBits, hamDecode_eq, syndrome_hamEncode, flipPosition_zero, dataBits_hamEncode, groupBytes,
    bitsToBytes_bytesToBits]
  exact Report.fit_pure hroom

theorem ecCrcChkStage_encoding (hroom : s.Room (ecBits .crc32 y).length) :
    ecCrcChkStage s (ecBits .crc32 y) = Report.pure y := by
  rw [ecCrcChkStage_of_long (four_le_encoding_length_div y) hroom,
    crcMismatch_of_whole (encoding_length_mod y) (four_le_encoding_length_div y), crc32Rem_encoding, encoding_length_mod,
    crcPayload_encoding]
  rfl

/-- Each check passes what its encoder made of a byte stream, and sets no flag (42_error_control R156, R164, R174). -/
theorem ecCheckStage_encoding (hroom : s.Room (ecBits ec y).length) : ecCheckStage s ec (ecBits ec y) = Report.pure y := by
  have hbits : s.Room (8 * y.length) := hroom.mono ((le_encodedLength _ _).trans (ecBits_length ec y).ge)
  have hbytes : s.Room y.length := hbits.mono (Nat.le_mul_of_pos_left _ (by decide))
  cases ec with
  | none => exact b2yStage_bytesToBits hbytes
  | parity => exact ecParChkStage_encoding hbits
  | crc32 => exact ecCrcChkStage_encoding hroom
  | hamming => exact ecHamDecStage_encoding hbytes

theorem lineDecodeStage_lineSymbols {b : List Bool} (hroom : s.Room (lineSymbols lc b).length) :
    lineDecodeStage s lc (lineSymbols lc b) = Report.pure b := by
  have hpairs : lc = .manchester → (lineSymbols lc b).length % 2 = 0 := by
    rintro rfl
    exact (congrArg (· % 2) (manEncode_length b)).trans (Nat.mul_mod_right 2 b.length)
  rw [lineDecodeStage_of_room hpairs (room_lineBits lc hroom), lineBits_lineSymbols]

/-- A demodulated signal that carries the frames of a payload is decoded to the text of the payload; no stream of the chain is
longer than the signal. -/
theorem decodeChain_of_signal (hdem : demodulateStage s cs a = Report.pure (lineSymbols lc (ecBits ec y)))
    (hdeframe : deframeStage s fm y = Report.pure p) (hle : p.length ≤ y.length)
    (hroom : s.Room (lineSymbols lc (ecBits ec y)).length) :
    decodeChain s lc cs fm ec a = Report.pure (p.map fun c => c.setWidth 32) := by
  have hbits : s.Room (ecBits ec y).length := by
    refine hroom.mono ?_
    rw [lineSymbols_length]
    split <;> omega
  have htext : s.Room (p.map fun c : Byte => (c.setWidth 32 : CodePoint)).length := by
    refine hbits.mono ?_
    have hlen := (le_encodedLength _ _).trans (ecBits_length ec y).ge
    rw [List.length_map]
    omega
  rw [decodeChain, hdem, Report.pure_bind, lineDecodeStage_lineSymbols hroom, Report.pure_bind, ecCheckStage_encoding hbits,
    Report.pure_bind, hdeframe, Report.pure_bind]
  exact Report.fit_pure htext

theorem exec_decmsg_of_fail {kind : FaultKind} {info : Nat} (h : s.Holds (.sample a))
    (hs : decmsgStage s a = Report.fail Flags.clear kind info) : exec .decmsg s = .next (s.afterFault kind info) := by
  obtain ⟨hready, hibuf⟩ := h
  exact transform_of_fail hready (Buffer.sample?_eq_some.mpr hibuf) hs

theorem exec_decmsg_of_pure {t : List CodePoint} (h : s.Holds (.sample a)) (hs : decmsgStage s a = Report.pure t) :
    exec .decmsg s = .next (s.setObuf (.char t)) := by
  obtain ⟨hready, hibuf⟩ := h
  exact transform_of_pure hready (Buffer.sample?_eq_some.mpr hibuf) hs

/-! #### one sample for each symbol (46_pipeline_and_channel R286) -/

/-- The bits of a byte stream are `bytesToBits` of it. -/
theorem BitsOf.eq_bytesToBits {b : List Bool} (h : BitsOf y b) : b = bytesToBits y :=
  List.ext_getElem? fun k => (h.2 k).trans (getElem?_bytesToBits y k).symm

/-- A window of one sample, between the amplitudes 0 and 1, is decided by that sample (45_carrier_modem R241). -/
theorem askOne_singleton (q : Finite64) :
    askOne .nrzPolar 0 1 [Sample.ofFinite64 q] = decide (1 / 2 < |q.toRat|) := by
  have hhalf : ((0 : Rat) + (1 : Rat) : ℝ) / 2 < |(q.toRat : ℝ)| ↔ 1 / 2 < |q.toRat| := by
    rw [← Rat.cast_abs, ← Rat.cast_add, ← Rat.cast_lt (K := ℝ)]
    push_cast
    norm_num
  rw [Bool.eq_iff_iff, askOne_iff_number, decide_eq_true_iff, ← hhalf]
  simp [askReads, LineCode.number, largest]

/-- ASK under NRZ-Polar with one sample for each symbol and the amplitudes 0 and 1 compares each sample with one half. -/
theorem demodulateStage_ask_of_samples {x : List Finite64} (hlc : lineCode? s.scheme = some .nrzPolar) (hsamples : s.samples = 1)
    (h0 : s.ampZero.toRat = 0) (h1 : s.ampOne.toRat = 1) (hroom : s.Room x.length) :
    demodulateStage s .ask (x.map Sample.ofFinite64) =
      Report.pure (lineSymbols .nrzPolar (x.map fun q => decide (1 / 2 < |q.toRat|))) := by
  have hwindows : slices 1 x.length (x.map Sample.ofFinite64) = x.map fun q => [Sample.ofFinite64 q] := by
    rw [List.map_eq_flatMap]
    exact slices_flatMap (n := 1) (fun _ => rfl) x
  rw [demodulateStage_of_whole .ask hlc (by rw [hsamples]; decide) (by rw [hsamples, Nat.mod_one]), hsamples, Nat.div_one,
    List.length_map, hwindows, windowSymbols, h0, h1, List.map_map]
  simp only [Function.comp_def, askOne_singleton]
  exact Report.fit_pure (by simpa using hroom)

end Decode

/-- With all selectors 0, `DECMSG` reads the text of character-count frames from their bits, one sample for each. -/
theorem exec_decmsg_of_bits {s : State} {x : List Finite64} {chs : List (List Byte)}
    (hs : s.Holds (.sample (x.map Sample.ofFinite64))) (hscheme : s.scheme = 0) (hsamples : s.samples = 1)
    (h0 : s.ampZero.toRat = 0) (h1 : s.ampOne.toRat = 1) (hroom : s.Room x.length) (hchs : ∀ ch ∈ chs, ch.length ≤ 255)
    (hbits : BitsOf (chs.flatMap lengthFrame) (x.map fun q => decide (1 / 2 < |q.toRat|))) :
    exec .decmsg s = .next (s.setObuf (.char (chs.flatten.map fun c => c.setWidth 32))) := by
  have hsel : s.Selects .nrzPolar .ask .charCount := by
    constructor <;> simp only [State.lineCode, State.carrier, State.framing, hscheme] <;> rfl
  have hec : errorControl s.scheme = .none := by rw [hscheme]; rfl
  have hdem := demodulateStage_ask_of_samples hsel.lineCode hsamples h0 h1 hroom
  have hlen : x.length = 8 * (chs.flatMap lengthFrame).length := by simpa using hbits.1
  rw [hbits.eq_bytesToBits] at hdem
  refine exec_decmsg_of_pure hs ?_
  rw [decmsgStage_eq_decodeChain hsel (by rw [hsamples]; decide), hec]
  refine decodeChain_of_signal hdem (frCcDStage_lengthFrames hchs (hroom.mono (by omega))) ?_ ?_
  · exact (Nat.le_add_right _ _).trans (length_flatMap_ccFrame chs).ge
  · refine hroom.mono (Eq.le ?_)
    rw [hlen, lineSymbols_length, if_neg (by decide)]
    exact bytesToBits_length _

/-- Settles O58: `DECMSG` and the chain are two ends of one report; on the bits of frames the report is the text. -/
theorem decmsgIsTheChainOfStages : Obligations.DecmsgIsTheChainOfStages := by
  unfold Obligations.DecmsgIsTheChainOfStages
  refine ⟨decode_encode .decmsg, fun s a hs => ⟨fun hreserved => ?_, fun hvalid hzero => ?_, fun hvalid hpos => ?_, ?_⟩⟩
  · exact exec_decmsg_of_fail hs (withSelectors_of_reserved hreserved)
  · obtain ⟨lc, cs, fm, h⟩ := s.exists_selects hvalid
    refine exec_decmsg_of_fail hs ?_
    rw [decmsgStage_of_selects h, hzero]
    rfl
  · obtain ⟨lc, cs, fm, h⟩ := s.exists_selects hvalid
    obtain ⟨u, hu, huend⟩ := exec_decmsg_endsAs hs h hpos.ne'
    obtain ⟨v, hv, hvend⟩ := (decodeChain_endsAs hs.1 h a).ends s.flags s.obuf
    rw [hs.withMessage_eq] at hv
    obtain ⟨hobuf, hfault, hflags, hfinfo, -⟩ := huend.unique hvend
    exact ⟨u, v, hu, hv, hobuf, hfault, hflags, hfinfo, (exec_keeps_ibuf rfl hu).trans hs.2, exec_keeps_dlen rfl rfl hu⟩
  · rintro x chs rfl hscheme hsamples h0 h1 hroom hchs hbits
    exact exec_decmsg_of_bits hs hscheme hsamples h0 h1 (by simpa using hroom) hchs hbits

end Sys2Proof.Machine

/-! ### 8-QAM returns what it sent, with eight samples for each symbol and one turn for each window (45_carrier_modem R251 to
R256) -/

namespace Sys2Proof.Machine

/-! #### groups of three bits and their codes -/

/-- The bits of the code of a group are the group (45_carrier_modem R251, R256). -/
theorem codeBits_msbFirst : ∀ {g : List Bool}, g.length = 3 → codeBits (msbFirst g) = g
  | [b0, b1, b2], _ => by revert b0 b1 b2; decide

theorem msbFirst_lt : ∀ {g : List Bool}, g.length = 3 → msbFirst g < 8
  | [b0, b1, b2], _ => by revert b0 b1 b2; decide

theorem length_of_mem_groups {lc : Nat} {d : List Sym} {g : List Bool}
    (h : g ∈ slices 3 (pieces d.length 3) (paddedBits lc d)) : g.length = 3 :=
  length_of_mem_slices (by rw [paddedBits_length, Nat.mul_comm]) h

theorem lt_of_mem_qamPack {lc : LineCode} {d : List Sym} {code : Nat} (h : code ∈ qamPack lc d) : code < 8 := by
  rw [qamPack_eq] at h
  obtain ⟨g, hg, rfl⟩ := List.mem_map.mp h
  exact msbFirst_lt (length_of_mem_groups hg)

/-- The bits of the codes are the logical bits with the padding in front. -/
theorem qamPack_flatMap_codeBits (lc : LineCode) (d : List Sym) :
    (qamPack lc d).flatMap codeBits = paddedBits (LineCode.number lc) d := by
  have hgroups : ∀ g ∈ slices 3 (pieces d.length 3) (paddedBits (LineCode.number lc) d), codeBits (msbFirst g) = g :=
    fun g hg => codeBits_msbFirst (length_of_mem_groups hg)
  rw [qamPack_eq, List.flatMap_map, List.flatMap_def, List.map_congr_left hgroups, List.map_id', slices_flatten]
  exact List.take_of_length_le (by rw [paddedBits_length, Nat.mul_comm])

/-- Without the padding the logical bits are left. -/
theorem drop_paddedBits (lc : LineCode) (d : List Sym) :
    (paddedBits (LineCode.number lc) d).drop (3 * pieces d.length 3 - d.length) = d.map (logical lc) := by
  have hpad : 3 * pieces d.length 3 - d.length = (3 - d.length % 3) % 3 := by
    rw [pieces]
    omega
  rw [hpad, paddedBits, List.drop_left' List.length_replicate, funext (logical_eq_logicalBit lc)]

/-! #### the estimate of a window -/

/-- The tenths that the estimate of a point is rounded to (45_carrier_modem R232, R254). -/
def pointTenths (code : Nat) : Int × Int :=
  (⌊10 * (qamPoint code).1 + 1 / 2⌋, ⌊10 * (qamPoint code).2 + 1 / 2⌋)

/-- The rounding moves a point by less than half a tenth, and no other point is nearer to where it goes. -/
theorem qamNearest_pointTenths : ∀ code < 8,
    |10 * (qamPoint code).1 - (pointTenths code).1| < 1 / 2 ∧ |10 * (qamPoint code).2 - (pointTenths code).2| < 1 / 2 ∧
      qamNearest (((pointTenths code).1 : Rat) / 10, ((pointTenths code).2 : Rat) / 10) = code := by
  decide +kernel

/-- The tenths of a number are the integer that is nearer than half. -/
theorem IsTenths.eq_of_near {q : Rat} {n m : Int} (h : IsTenths q n) (hm : |10 * q - m| < 1 / 2) : n = m := by
  have hm' : |10 * (q : ℝ) - m| < 1 / 2 := by
    have hcast := (Rat.cast_lt (K := ℝ)).mpr hm
    push_cast at hcast
    exact hcast
  have hlt : |((n - m : Int) : ℝ)| < 1 := by
    have hsplit : ((n - m : Int) : ℝ) = (10 * (q : ℝ) - m) - (10 * q - n) := by push_cast; ring
    rw [hsplit]
    exact (abs_sub _ _).trans_lt (by linarith [h.1])
  rw [← Int.cast_abs, ← Int.cast_one, Int.cast_lt, Int.abs_lt_one_iff] at hlt
  omega

section Window

variable {s : State}

theorem qamWindow_toReal (s : State) (iq : Rat × Rat) : (qamWindow s iq).map Sample.toReal =
    (List.range s.samples).map fun k => (iq.1 : ℝ) * Real.cos (carrierAngle s s.frequency.toRat k) +
      iq.2 * Real.sin (carrierAngle s s.frequency.toRat k) := by
  simp [qamWindow, carrierTurns_angle, State.samples]

/-- With eight samples in a turn, two samples are a right angle. -/
theorem carrierAngle_add_two (h : s.samples = 8) (k : Nat) :
    carrierAngle s 1 (k + 2) = carrierAngle s 1 k + Real.pi / 2 := by
  rw [carrierAngle, carrierAngle, h]
  push_cast
  ring

/-- Over a turn of eight samples cosine and sine are orthogonal. -/
theorem sum_turn {c d : Nat → ℝ} (hc : ∀ k, c (k + 2) = -d k) (hd : ∀ k, d (k + 2) = c k)
    (hunit : ∀ k, d k ^ 2 + c k ^ 2 = 1) (i q : ℝ) :
    ∑ k ∈ Finset.range 8, (i * c k + q * d k) * c k = 4 * i ∧
      ∑ k ∈ Finset.range 8, (i * c k + q * d k) * d k = 4 * q := by
  simp only [Finset.sum_range_succ, Finset.sum_range_zero, hc, hd]
  constructor
  · linear_combination 2 * i * (hunit 0 + hunit 1)
  · linear_combination 2 * q * (hunit 0 + hunit 1)

/-- The correlations of the window of a point are the point (45_carrier_modem R254). -/
theorem correlation_qamWindow (h : s.samples = 8) (hf : s.frequency.toRat = 1) (iq : Rat × Rat) :
    correlation s ((qamWindow s iq).map Sample.toReal) Real.cos = iq.1 ∧
      correlation s ((qamWindow s iq).map Sample.toReal) Real.sin = iq.2 := by
  have hcos (k : Nat) : Real.cos (carrierAngle s 1 (k + 2)) = -Real.sin (carrierAngle s 1 k) := by
    rw [carrierAngle_add_two h, Real.cos_add_pi_div_two]
  have hsin (k : Nat) : Real.sin (carrierAngle s 1 (k + 2)) = Real.cos (carrierAngle s 1 k) := by
    rw [carrierAngle_add_two h, Real.sin_add_pi_div_two]
  have hsum (reference : ℝ → ℝ) : correlation s ((qamWindow s iq).map Sample.toReal) reference =
      2 / 8 * ∑ k ∈ Finset.range 8, (iq.1 * Real.cos (carrierAngle s 1 k) + iq.2 * Real.sin (carrierAngle s 1 k)) *
        reference (carrierAngle s 1 k) := by
    rw [correlation, qamWindow_toReal, h, hf]
    refine congrArg _ (Finset.sum_congr rfl fun k hk => ?_)
    simp [Finset.mem_range.mp hk]
  obtain ⟨hi, hq⟩ := sum_turn hcos hsin (fun k => Real.sin_sq_add_cos_sq _) iq.1 iq.2
  rw [hsum, hsum, hi, hq]
  constructor <;> ring

/-- The nearest point to the estimate of the window of a point is that point (45_carrier_modem R255). -/
theorem qamNearest_qamWindow (h : s.samples = 8) (hf : s.frequency.toRat = 1) {code : Nat} (hcode : code < 8) :
    qamNearest (qamEstimate s (qamWindow s (qamPoint code))) = code := by
  obtain ⟨i, q, hestimate, hi, hq⟩ := qamEstimate_spec s (qamWindow s (qamPoint code)) (qamWindow_length ..)
  obtain ⟨hcos, hsin⟩ := correlation_qamWindow h hf (qamPoint code)
  rw [hcos] at hi
  rw [hsin] at hq
  obtain ⟨hnearI, hnearQ, hnearest⟩ := qamNearest_pointTenths code hcode
  rw [hestimate, hi.eq_of_near hnearI, hq.eq_of_near hnearQ, hnearest]

end Window

end Sys2Proof.Machine

/-! ### every carrier scheme returns what it sent, at the parameters of program P4 (95_test_vectors; 46_pipeline_and_channel
R287) -/

namespace Sys2Proof.Machine

/-- The carrier parameters of program P4. -/
structure State.AtP4 (s : State) : Prop where
  samples : s.samples = 8
  amplitude : s.amplitude.toRat = 1
  frequency : s.frequency.toRat = 1
  phase : s.phase.toRat = 0
  ampZero : s.ampZero.toRat = 0
  ampOne : s.ampOne.toRat = 1
  freqZero : s.freqZero.toRat = 1
  freqOne : s.freqOne.toRat = 2

section Carrier

variable {s : State} {lc : LineCode} {cs : CarrierScheme} {d : List Sym}

/-- Every line encoder emits a signal of its code (44_line_coder R210). -/
theorem isSignal_lineSymbols (lc : LineCode) (b : List Bool) : IsSignal (LineCode.number lc) (lineSymbols lc b) := by
  refine ⟨b, ?_⟩
  cases lc with
  | nrzPolar => exact symbolsOf_eq_symbolStream .nrzPolar b
  | manchester => exact manEncode_eq b
  | bipolar => exact bipolar_eq_symbolStream b

/-- A demodulator decides on the windows that were sent. -/
theorem demodulateStage_flatMap {α : Type} {window : α → List Sample} {l : List α} (hlc : lineCode? s.scheme = some lc)
    (hsamples : s.samples ≠ 0) (hlen : ∀ x, (window x).length = s.samples)
    (hd : windowSymbols s cs lc (l.map window) = Report.pure d) (hroom : s.Room d.length) :
    demodulateStage s cs (l.flatMap window) = Report.pure d := by
  have hlength : (l.flatMap window).length = l.length * s.samples := length_flatMap_of_length hlen l
  rw [demodulateStage_of_whole cs hlc hsamples (by rw [hlength, Nat.mul_mod_left]), hlength,
    Nat.mul_div_cancel _ (Nat.pos_of_ne_zero hsamples), slices_flatMap hlen, hd, Report.fit_pure hroom]

namespace State.AtP4

/-- Sample 2 of a window stands at a right angle, where the sine is 1: the condition of R242 holds. -/
theorem askOne_window (h : s.AtP4) (lc : LineCode) (b : Bool) : askOne lc s.ampZero.toRat s.ampOne.toRat
    (sineWindow s (if b then s.ampOne.toRat else s.ampZero.toRat) s.frequency.toRat s.phase.toRat) = b := by
  have hangle : carrierAngle s 1 2 + ((0 : Rat) : ℝ) = Real.pi / 2 := by
    rw [carrierAngle, h.samples]
    push_cast
    ring
  rw [h.frequency, h.phase]
  refine askOne_sineWindow lc h.ampZero.ge (by rw [h.ampZero, h.ampOne]; decide) (k := 2) (by rw [h.samples]; decide) ?_ b
  rw [h.ampZero, h.ampOne, hangle, Real.sin_pi_div_two]
  norm_num

/-- The frequencies 1 and 2 meet the condition of R248. -/
theorem fskOne_window (h : s.AtP4) (b : Bool) : fskOne s.freqZero.toRat s.freqOne.toRat
    (sineWindow s s.amplitude.toRat (if b then s.freqOne.toRat else s.freqZero.toRat) s.phase.toRat) = b := by
  have hdecision := fskOne_sineWindow (s := s) (amp := 1) (f0 := 1) (f1 := 2) (by decide) (by decide)
    (by rw [h.samples]; decide) b
  rw [h.freqZero, h.freqOne, h.amplitude, h.phase]
  simpa using hdecision

/-- The codes of the windows, without the padding that `DLEN` tells, are the logical values that were sent. -/
theorem windowSymbols_qam8 (h : s.AtP4) (hdlen : s.dlen = d.length) (hsignal : IsSignal (LineCode.number lc) d) :
    windowSymbols s .qam8 lc ((qamPack lc d).map fun code => qamWindow s (qamPoint code)) = Report.pure d := by
  have hcodes : (((qamPack lc d).map fun code => qamWindow s (qamPoint code)).map fun w => qamNearest (qamEstimate s w)) =
      qamPack lc d := by
    rw [List.map_map]
    refine (List.map_congr_left fun code hcode => ?_).trans (List.map_id _)
    exact qamNearest_qamWindow h.samples h.frequency (lt_of_mem_qamPack hcode)
  have hle : d.length ≤ 3 * pieces d.length 3 := by rw [pieces]; omega
  have hge : 3 * pieces d.length 3 ≤ d.length + 2 := by rw [pieces]; omega
  rw [windowSymbols_qam8_of_fit (by simpa [hdlen] using hle) (by simpa [hdlen] using hge), hcodes, List.length_map,
    qamPack_length, hdlen, qamPack_flatMap_codeBits, drop_paddedBits, symbolsOf_map_logical hsignal]

theorem demodulateStage_carrierSamples (h : s.AtP4) (cs : CarrierScheme) (hlc : lineCode? s.scheme = some lc)
    (hdlen : s.dlen = d.length) (hsignal : IsSignal (LineCode.number lc) d) (hroom : s.Room d.length) :
    demodulateStage s cs (carrierSamples s cs lc d) = Report.pure d := by
  have hsamples : s.samples ≠ 0 := by rw [h.samples]; decide
  cases cs with
  | ask =>
    refine demodulateStage_flatMap hlc hsamples (fun _ => sineWindow_length ..) ?_ hroom
    rw [windowSymbols, List.map_map]
    exact congrArg Report.pure (symbolsOf_map_decision (h.askOne_window lc) hsignal)
  | fsk =>
    refine demodulateStage_flatMap hlc hsamples (fun _ => sineWindow_length ..) ?_ hroom
    rw [windowSymbols, List.map_map]
    exact congrArg Report.pure (symbolsOf_map_decision h.fskOne_window hsignal)
  | qam8 =>
    exact demodulateStage_flatMap hlc hsamples (fun _ => qamWindow_length ..) (h.windowSymbols_qam8 hdlen hsignal) hroom

end State.AtP4

end Carrier

end Sys2Proof.Machine

/-! ### how long the signal of a text can be (20_memory R71) -/

namespace Sys2Proof.Machine

theorem pieces_le {n : Nat} (hn : n ≠ 0) (k : Nat) : pieces k n ≤ k :=
  Nat.le_of_not_lt fun hlt =>
    Nat.not_lt.mpr (Nat.le_mul_of_pos_right k (Nat.pos_of_ne_zero hn)) ((lt_pieces_iff hn k k).mp hlt)

/-- Byte stuffing of single bytes is the worst case: two flags and an escape for each. -/
theorem framedLength_le (fm : Nat) {f : Nat} (hf : f ≠ 0) (p : List Byte) : framedLength fm f p ≤ 4 * p.length := by
  have hpieces := pieces_le hf p.length
  have hstuffed : (p.countP fun b => b = 0x16#8 ∨ b = 0x1B#8) ≤ p.length := List.countP_le_length
  rw [framedLength]
  split <;> omega

theorem hamR_le (m : Nat) : hamR m ≤ m + 1 := by
  refine (hamR_least m).2 _ ?_
  have hlt : m < 2 ^ m := Nat.lt_two_pow_self
  rw [HamSuffices, Nat.pow_succ]
  omega

theorem encodedLength_le (ec m : Nat) : encodedLength ec m ≤ 16 * m + 32 := by
  have hparity := hamR_le (8 * m)
  rw [encodedLength]
  split_ifs <;> omega

theorem signalLength_le {s : State} (hsize : s.maxFrameSize.toNat ≠ 0) (t : List CodePoint) :
    signalLength s t ≤ 128 * t.length + 128 := by
  have hframes := framedLength_le s.framing hsize (t.map fun c => c.setWidth 8)
  have hbits := encodedLength_le s.errctl (framedLength s.framing s.maxFrameSize.toNat (t.map fun c => c.setWidth 8))
  rw [List.length_map] at hframes
  rw [signalLength]
  split <;> omega

theorem windowCount_le (cs n : Nat) : windowCount cs n ≤ n := by
  rw [windowCount]
  split
  · exact pieces_le (by decide) n
  · exact le_rfl

end Sys2Proof.Machine

/-! ### `ENCMSG`, `XFER`, `DECMSG` (O59) -/

namespace Sys2Proof.Machine

section RoundTrip

variable {s : State} {t : List CodePoint} {lc : LineCode} {cs : CarrierScheme} {fm : FramingMethod}

theorem State.Selects.withMessage (h : s.Selects lc cs fm) (f : Flags) (i o : Buffer) (n : Nat) :
    (s.withMessage f i o n).Selects lc cs fm :=
  ⟨h.lineCode, h.carrier, h.framing, h.lineCode_eq, h.carrier_eq, h.framing_eq⟩

theorem State.AtP4.withMessage (h : s.AtP4) (f : Flags) (i o : Buffer) (n : Nat) : (s.withMessage f i o n).AtP4 :=
  ⟨h.samples, h.amplitude, h.frequency, h.phase, h.ampZero, h.ampOne, h.freqZero, h.freqOne⟩

theorem carrierSamples_withMessage (s : State) (f : Flags) (i o : Buffer) (n : Nat) (cs : CarrierScheme) (lc : LineCode)
    (d : List Sym) : carrierSamples (s.withMessage f i o n) cs lc d = carrierSamples s cs lc d := by
  cases cs <;> rfl

/-- A text of code points up to 255 is the text of its bytes (41_bit_converter R139). -/
theorem map_setWidth_setWidth (ht : ∀ c ∈ t, c.toNat ≤ 255) :
    ((t.map fun c => (c.setWidth 8 : Byte)).map fun v => (v.setWidth 32 : CodePoint)) = t := by
  rw [List.map_map]
  exact (List.map_congr_left fun c hc => setWidth_setWidth_of_le (ht c hc)).trans (List.map_id' t)

/-- `STATUS` reads 0 where no fault stands and no flag is set (10_state R21). -/
theorem regRead_status_of_clear (hready : s.fault = none) (hflags : s.flags = Flags.clear) : regRead 0x01 s = 0 := by
  change s.status.toNat = 0
  rw [State.status, hready, hflags]
  rfl

/-- The samples that `ENCMSG` makes of a text, `DLEN` still as it left it, are decoded to the text. -/
theorem decodeChain_carrierSamples (h : s.Selects lc cs fm) (hp : s.AtP4) (hsize : s.maxFrameSize.toNat ≠ 0)
    (ht : ∀ c ∈ t, c.toNat ≤ 255) (hdlen : s.dlen = (messageSignal s lc fm t).length)
    (hroom : s.Room (messageSignal s lc fm t).length) :
    decodeChain s lc cs fm (errorControl s.scheme) (carrierSamples s cs lc (messageSignal s lc fm t)) = Report.pure t := by
  have hframes : s.Room (messageFrames s fm t).length :=
    (hroom.mono messageBits_le_messageSignal).mono ((Nat.le_mul_of_pos_left _ (by decide)).trans messageFrames_le_messageBits)
  have hdem := hp.demodulateStage_carrierSamples cs h.lineCode hdlen (isSignal_lineSymbols lc _) hroom
  have hdeframe := deframeStage_frameBytes fm hsize (Nat.le_of_lt_succ s.maxFrameSize.isLt) hframes
  rw [decodeChain_of_signal hdem hdeframe ((List.length_map _).trans_le (length_le_messageFrames hsize)) hroom,
    map_setWidth_setWidth ht]

/-- `DECMSG` on these samples gives the text and sets no flag. -/
theorem exec_decmsg_of_message (h : s.Selects lc cs fm) (hp : s.AtP4) (hsize : s.maxFrameSize.toNat ≠ 0)
    (ht : ∀ c ∈ t, c.toNat ≤ 255) (hs : s.Holds (.sample (carrierSamples s cs lc (messageSignal s lc fm t))))
    (hdlen : s.dlen = (messageSignal s lc fm t).length) (hroom : s.Room (messageSignal s lc fm t).length) :
    exec .decmsg s = .next (s.setObuf (.char t)) := by
  have hsamples : s.samples ≠ 0 := by rw [hp.samples]; decide
  refine exec_decmsg_of_pure hs ?_
  rw [decmsgStage_eq_decodeChain h hsamples, decodeChain_carrierSamples h hp hsize ht hdlen hroom]

end RoundTrip

/-- The state between `ENCMSG` and `DECMSG`: the samples of a text in IBUF, the length of its digital signal in `DLEN`. -/
def State.received (s : State) (lc : LineCode) (cs : CarrierScheme) (fm : FramingMethod) (t : List CodePoint) : State :=
  s.withMessage s.flags (.sample (carrierSamples s cs lc (messageSignal s lc fm t))) .none (messageSignal s lc fm t).length

/-- Changing the message changes neither the signal nor the samples that the configuration makes of a text. -/
theorem State.received_holds {s : State} (hready : s.fault = none) (lc : LineCode) (cs : CarrierScheme) (fm : FramingMethod)
    (t : List CodePoint) : (s.received lc cs fm t).Holds
      (.sample (carrierSamples (s.received lc cs fm t) cs lc (messageSignal (s.received lc cs fm t) lc fm t))) :=
  ⟨hready, congrArg Buffer.sample (carrierSamples_withMessage ..).symm⟩

/-- Settles O59: `DECMSG` finds in IBUF the samples that `ENCMSG` made, and `DLEN` as it left it. -/
theorem pipelineRoundTrip : Obligations.PipelineRoundTrip := by
  unfold Obligations.PipelineRoundTrip
  intro s t hs ht hvalid hflags hsize hsamples hamp hfreq hphase ha0 ha1 hf0 hf1 hroom
  obtain ⟨lc, cs, fm, h⟩ := s.exists_selects hvalid
  have hp : s.AtP4 := ⟨hsamples, hamp, hfreq, hphase, ha0, ha1, hf0, hf1⟩
  have hsize : s.maxFrameSize.toNat ≠ 0 := BitVec.toNat_ne.mp hsize
  have hsamples : s.samples ≠ 0 := by rw [hsamples]; decide
  have hlen : (messageSignal s lc fm t).length ≤ 128 * t.length + 128 :=
    (messageSignal_length h hsize).trans_le (signalLength_le hsize t)
  have hsignal : s.Room (messageSignal s lc fm t).length := hroom.mono (hlen.trans (Nat.le_mul_of_pos_right _ (by decide)))
  have hwindows : s.Room (carrierSamples s cs lc (messageSignal s lc fm t)).length := by
    refine hroom.mono ?_
    rw [carrierSamples_length, hp.samples]
    exact Nat.mul_le_mul_right 8 ((windowCount_le _ _).trans hlen)
  have hencode := encmsgStage_eq_encodeChain (t := t) h hsize hsamples
  rw [encodeChain_of_room h hsize hsamples ht hsignal hwindows] at hencode
  exact ⟨_, s.received lc cs fm t, _, exec_encmsg_of_pure hs hencode, exec_xfer_of_ready hs.1,
    exec_decmsg_of_message (h.withMessage ..) (hp.withMessage ..) hsize ht (State.received_holds hs.1 ..) rfl hsignal, rfl,
    regRead_status_of_clear hs.1 hflags⟩

end Sys2Proof.Machine

/-! ### the fault state: what it drops, what it lets through and what ends it (O16, O17) -/

namespace Sys2Proof.Machine

section Faulted

variable {s : State}

/-- While a fault stands, every operation but `CLR` and `RST` answers the state it is given (60_exceptions R311). -/
theorem exec_of_fault {i : Instr} (hf : s.fault ≠ none) (hclr : i ≠ .clr) (hrst : i ≠ .rst) : exec i s = .next s := by
  cases exec_cases i s with
  | nop _ h | xferDropped _ _ h => exact h
  | xfer _ hready => exact absurd hready hf
  | clr hi => exact absurd hi hclr
  | rst hi => exact absurd hi hrst
  | other _ h ht => rw [h, ht.eq_of_fault hf]

/-- While a fault stands, every word but those of `CLR` and `RST` changes nothing, whether or not it is an operation. -/
theorem command_of_fault {w : CommandWord} (hf : s.fault ≠ none) (hclr : w ≠ 0x0020#16) (hrst : w ≠ 0x0030#16) :
    command w s = .next s := by
  rcases command_cases w s with ⟨i, hi, hc⟩ | ⟨e, -, hc⟩ <;> rw [hc]
  · have hw := eq_encode_of_decode hi
    refine exec_of_fault hf ?_ ?_ <;> rintro rfl
    · exact hclr hw
    · exact hrst hw
  · exact unlessFaulted_of_fault hf

/-! #### writes and reads do not look at the fault (60_exceptions R311) -/

theorem writeIdata_of_none {v : Nat} (h : s.ibuf = .none) : writeIdata s v = .next s := by rw [writeIdata, h]

/-- A write of a `Sample` register that completes was given a finite pattern. -/
theorem writeSample_eq_next {v : Nat} {k : Finite64 → State} {t : State} (h : writeSample v k = .next t) :
    ∃ x, Finite64.ofNat? v = some x ∧ t = k x := by
  cases hv : finitePattern v with
  | false => cases (writeSample_of_nonFinite hv k).symm.trans h
  | true =>
    obtain ⟨x, hx⟩ := Finite64.isSome_of_finitePattern hv
    cases (writeSample_of_finite hx k).symm.trans h
    exact ⟨x, hx, rfl⟩

/-- Only at a full IBUF does a write of `IDATA` look at the fault (60_exceptions R312). -/
theorem writeIdata_withFault {v : Nat} {t : State} (f : Option FaultKind) (hroom : s.Room (s.ibuf.len + 1))
    (h : writeIdata s v = .next t) : writeIdata { s with fault := f } v = .next { t with fault := f } := by
  rcases writeIdata_cases s v with ⟨hnone, hw⟩ | ⟨c, -, hcap, hle, -⟩ | ⟨hne, -, ⟨b, hb, hw⟩ | ⟨-, hw⟩⟩
  · cases hw.symm.trans h
    exact writeIdata_of_none hnone
  · exact absurd (hroom c hcap) (by omega)
  · cases hw.symm.trans h
    exact writeIdata_of_append hne hroom hb
  · cases hw.symm.trans h

/-- A write of a register other than `CMD` does the same under any fault, and keeps that fault. -/
theorem regWrite_withFault {n v : Nat} {t : State} (f : Option FaultKind) (hcmd : n ≠ 0x00)
    (hroom : n = 0x12 → s.Room (s.ibuf.len + 1)) (h : regWrite n v s = .next t) :
    regWrite n v { s with fault := f } = .next { t with fault := f } := by
  cases hr : RegName.ofNumber? n with
  | none =>
    have hres := (RegName.ofNumber?_eq_none_iff n).mp hr
    cases (regWrite_of_reserved s n v hres).symm.trans h
    exact regWrite_of_reserved _ n v hres
  | some r =>
    obtain rfl := RegName.eq_number_of_ofNumber? hr
    cases r with
    | cmd => exact absurd rfl hcmd
    | idata => exact writeIdata_withFault f (hroom rfl) h
    | amplitude | frequency | phase | ampZero | ampOne | freqZero | freqOne =>
      obtain ⟨x, hx, rfl⟩ := writeSample_eq_next h
      exact writeSample_of_finite hx _
    | status | finfo | scheme | sampleCount | maxFrameSize | dlen | errPermille | itype | ilen | otype | olen | oidx
    | odata =>
      cases h
      rfl

/-- `STATUS` is the one register that shows the fault code (10_state R21). -/
theorem regRead_withFault {n : Nat} (f : Option FaultKind) (hn : n ≠ 0x01) : regRead n { s with fault := f } = regRead n s :=
  regRead_congr fun r hr => by
    cases r with
    | status => exact absurd hr hn
    | _ => rfl

/-! #### what keeps the fault's information word (60_exceptions R315, R316) -/

/-- While a fault stands, a write of `IDATA` appends or does nothing: a full IBUF raises no second fault. -/
theorem writeIdata_keeps_finfo {v : Nat} {t : State} (hf : s.fault ≠ none) (h : writeIdata s v = .next t) :
    t.finfo = s.finfo := by
  rcases writeIdata_cases s v with ⟨-, hw⟩ | ⟨c, -, -, -, hw⟩ | ⟨-, -, ⟨b, -, hw⟩ | ⟨-, hw⟩⟩
  · cases hw.symm.trans h
    rfl
  · cases (hw.trans (unlessFaulted_of_fault hf)).symm.trans h
    rfl
  · cases hw.symm.trans h
    rfl
  · cases hw.symm.trans h

/-- No event but the three that end the fault state changes the information word of a fault that stands. -/
theorem hostEvent_keeps_finfo {e : HostEvent} {t : State} (hf : s.fault ≠ none) (h : hostEvent e s = .next t)
    (hreset : e ≠ .hardReset)
    (hcmd : ∀ v, e = .write 0x00 v → BitVec.ofNat 16 v ≠ 0x0020#16 ∧ BitVec.ofNat 16 v ≠ 0x0030#16) :
    t.finfo = s.finfo := by
  cases e with
  | read n => cases h; rfl
  | hardReset => exact absurd rfl hreset
  | write n v =>
    change regWrite n v s = .next t at h
    cases regWrite_cases n v s with
    | command hn hw =>
      obtain ⟨hclr, hrst⟩ := hcmd v (by rw [hn])
      cases (hw.trans (command_of_fault hf hclr hrst)).symm.trans h
      rfl
    | dlen _ hw | itype _ hw => cases hw.symm.trans h; rfl
    | idata _ hw => exact writeIdata_keeps_finfo hf (hw.symm.trans h)
    | nonFinite _ _ hw => cases hw.symm.trans h
    | config _ _ hw ht => cases hw.symm.trans h; rw [ht]

end Faulted

/-- Settles O16: commands by whether the word is that of `CLR` or `RST`; writes and reads register by register. -/
theorem faultedCommandsAreDropped : Obligations.FaultedCommandsAreDropped := by
  unfold Obligations.FaultedCommandsAreDropped
  exact fun s hf => ⟨fun w _ => command_of_fault hf, command_of_operation (decode_encode .nop),
    command_of_operation (decode_encode .clr), command_of_operation (decode_encode .rst),
    fun n v t hcmd hroom => regWrite_withFault s.fault hcmd hroom, fun n hn => (regRead_withFault none hn).symm⟩

/-- Settles O17: the fault that stands is sticky, and so is its information word, for all but the three events. -/
theorem faultStateEndsOnlyByClrRstReset : Obligations.FaultStateEndsOnlyByClrRstReset := by
  unfold Obligations.FaultStateEndsOnlyByClrRstReset
  intro s k hk
  have hf : s.fault ≠ none := by simp [hk]
  refine ⟨fun e t h => ?_, exec_clr s, ⟨_, rfl, s.resetCore_atReset⟩, ⟨_, rfl, s.resetCore_atReset⟩,
    fun i => exec_of_fault hf⟩
  by_cases hreset : e = .hardReset
  · exact .inr (.inl hreset)
  by_cases hend : ∃ v, e = .write 0x00 v ∧ (BitVec.ofNat 16 v = 0x0020#16 ∨ BitVec.ofNat 16 v = 0x0030#16)
  · exact .inr (.inr hend)
  have hcmd : ∀ v, e = .write 0x00 v → BitVec.ofNat 16 v ≠ 0x0020#16 ∧ BitVec.ofNat 16 v ≠ 0x0030#16 :=
    fun v he => not_or.mp fun hw => hend ⟨v, he, hw⟩
  obtain ⟨-, hsticky⟩ := hostEvent_sticky h hreset hcmd
  exact .inl ⟨(hsticky hf).trans hk, hostEvent_keeps_finfo hf h hreset hcmd⟩

end Sys2Proof.Machine
